-- ==== Sys2Proof/Word.lean ====
section
/-! DEFINITION. Word.lean: the bit-vector widths of the block, the operand sizes of rule R11 and the plain-data
finite function the parameters of rule R9 are written with. -/

namespace Sys2Proof

/-- 8 bits, size `.B` (rule R11). -/
abbrev Byte := BitVec 8

/-- 16 bits, size `.W` (rule R11). -/
abbrev Word := BitVec 16

/-- 32 bits, size `.L` (rule R11). -/
abbrev Long := BitVec 32

/-- A register number 0..7 of the data or the address file (rule R12). -/
abbrev Reg := Fin 8

/-- The operand size `sz` of rule R11. -/
inductive Size where
  | b
  | w
  | l
  deriving DecidableEq, Repr

/-- `bits(sz)` of rule R11. -/
abbrev Size.bits : Size → Nat
  | .b => 8
  | .w => 16
  | .l => 32

/-- `bytes(sz)` of rule R11. -/
def Size.bytes : Size → Nat
  | .b => 1
  | .w => 2
  | .l => 4

/-- The two sizes of the rows that have a one-bit size field (rule R135: ADDA, SUBA, CMPA, MOVEM, EXT, MOVEP) and of
MOVEA. -/
inductive AddrSize where
  | w
  | l
  deriving DecidableEq, Repr

/-- The operand size an address-register operation's size stands for. -/
abbrev AddrSize.toSize : AddrSize → Size
  | .w => .w
  | .l => .l

/-- A function of the parameters of rule R9 (`CYCLES`, `EXC_CYCLES`, `WRITE_TS_OFFSET`, `YM_MIX`, ...) as PLAIN DATA:
the listed keys have the listed values, every other key has `otherwise`. Every function agrees with some table on the
finitely many keys of a finite run, so a statement over every state covers every function of this shape. -/
structure Table (κ ν : Type) where
  entries : List (κ × ν)
  otherwise : ν
  deriving DecidableEq, Repr

/-- The value of a key: the first listed one, else `otherwise`. -/
def Table.get {κ ν : Type} [DecidableEq κ] (t : Table κ ν) (k : κ) : ν :=
  match t.entries.find? (fun e => decide (e.1 = k)) with
  | some e => e.2
  | none => t.otherwise

end Sys2Proof
end

