-- ==== Sys2Proof/Syntax.lean ====
section
/-! DEFINITION. Syntax.lean: the instructions of spec/opcode_table.json, one constructor per row. An instruction is what
rule R173 says decoding gives: the row an OPCODE WORD selects, with that word's fields. The extension words (immediates,
displacements, absolute addresses, register masks) are no part of it: rules R15 and R173 have them fetched while the
instruction executes. -/

namespace Sys2Proof

/-- The twelve addressing modes of rule R133, as the 6-bit effective-address field names them. -/
inductive Ea where
  /-- `Dn`, mode 000. -/
  | dn (r : Reg)
  /-- `An`, mode 001. -/
  | an (r : Reg)
  /-- `(An)`, mode 010. -/
  | ind (r : Reg)
  /-- `(An)+`, mode 011. -/
  | postinc (r : Reg)
  /-- `-(An)`, mode 100. -/
  | predec (r : Reg)
  /-- `d16(An)`, mode 101. -/
  | disp (r : Reg)
  /-- `d8(An,Xi.s)`, mode 110. -/
  | index (r : Reg)
  /-- `xxx.W`, mode 111 register 000. -/
  | absW
  /-- `xxx.L`, mode 111 register 001. -/
  | absL
  /-- `d16(PC)`, mode 111 register 010. -/
  | pcDisp
  /-- `d8(PC,Xi.s)`, mode 111 register 011. -/
  | pcIndex
  /-- `#<data>`, mode 111 register 100. -/
  | imm
  deriving DecidableEq, Repr

/-- The sixteen conditions of rule R143. -/
inductive Cond where
  | t | f | hi | ls | cc | cs | ne | eq | vc | vs | pl | mi | ge | lt | gt | le
  deriving DecidableEq, Repr

/-- Bit 3 of format F_X (rule R131): both operands data registers, or both memory with predecrement. -/
inductive XMode where
  | reg
  | mem
  deriving DecidableEq, Repr

/-- The shift count of rule R142: an immediate 1..8, or a data register. -/
inductive ShiftCount where
  | imm (n : Nat)
  | reg (r : Reg)
  deriving DecidableEq, Repr

/-- MOVEP's opmode, bits 7..6 (rule R258). -/
inductive MovepMode where
  | wordFromMem
  | longFromMem
  | wordToMem
  | longToMem
  deriving DecidableEq, Repr

/-- The instructions, in the order of spec/opcode_table.json. -/
inductive Instr where
  | oriToCcr
  | oriToSr
  | ori (sz : Size) (ea : Ea)
  | andiToCcr
  | andiToSr
  | andi (sz : Size) (ea : Ea)
  | eoriToCcr
  | eoriToSr
  | eori (sz : Size) (ea : Ea)
  | subi (sz : Size) (ea : Ea)
  | addi (sz : Size) (ea : Ea)
  | cmpi (sz : Size) (ea : Ea)
  | btst (ea : Ea)
  | bchg (ea : Ea)
  | bclr (ea : Ea)
  | bset (ea : Ea)
  | btstDn (x : Reg) (ea : Ea)
  | bchgDn (x : Reg) (ea : Ea)
  | bclrDn (x : Reg) (ea : Ea)
  | bsetDn (x : Reg) (ea : Ea)
  | movep (m : MovepMode) (x : Reg) (y : Reg)
  | move (sz : Size) (src : Ea) (dst : Ea)
  | movea (sz : AddrSize) (src : Ea) (r : Reg)
  | negx (sz : Size) (ea : Ea)
  | moveFromSr (ea : Ea)
  | chk (x : Reg) (ea : Ea)
  | lea (x : Reg) (ea : Ea)
  | clr (sz : Size) (ea : Ea)
  | neg (sz : Size) (ea : Ea)
  | moveToCcr (ea : Ea)
  | notEa (sz : Size) (ea : Ea)
  | moveToSr (ea : Ea)
  | nbcd (ea : Ea)
  | swap (y : Reg)
  | pea (ea : Ea)
  | extDn (sz : AddrSize) (y : Reg)
  | movemToMem (sz : AddrSize) (ea : Ea)
  | tst (sz : Size) (ea : Ea)
  | tas (ea : Ea)
  | illegal
  | movemToReg (sz : AddrSize) (ea : Ea)
  | trap (v : BitVec 4)
  | link (y : Reg)
  | unlk (y : Reg)
  | moveToUsp (y : Reg)
  | moveFromUsp (y : Reg)
  | reset
  | nop
  | stop
  | rte
  | rts
  | trapv
  | rtr
  | jsr (ea : Ea)
  | jmp (ea : Ea)
  | addq (q : Nat) (sz : Size) (ea : Ea)
  | subq (q : Nat) (sz : Size) (ea : Ea)
  | scc (c : Cond) (ea : Ea)
  | dbcc (c : Cond) (y : Reg)
  | bra (k : Byte)
  | bsr (k : Byte)
  | bcc (c : Cond) (k : Byte)
  | moveq (x : Reg) (k : Byte)
  | orToDn (sz : Size) (x : Reg) (ea : Ea)
  | orToEa (sz : Size) (x : Reg) (ea : Ea)
  | divu (x : Reg) (ea : Ea)
  | divs (x : Reg) (ea : Ea)
  | sbcd (m : XMode) (x : Reg) (y : Reg)
  | subToDn (sz : Size) (x : Reg) (ea : Ea)
  | subToEa (sz : Size) (x : Reg) (ea : Ea)
  | suba (sz : AddrSize) (x : Reg) (ea : Ea)
  | subx (m : XMode) (sz : Size) (x : Reg) (y : Reg)
  | lineA (d : BitVec 12)
  | cmp (sz : Size) (x : Reg) (ea : Ea)
  | cmpa (sz : AddrSize) (x : Reg) (ea : Ea)
  | eor (sz : Size) (x : Reg) (ea : Ea)
  | cmpm (sz : Size) (x : Reg) (y : Reg)
  | andToDn (sz : Size) (x : Reg) (ea : Ea)
  | andToEa (sz : Size) (x : Reg) (ea : Ea)
  | mulu (x : Reg) (ea : Ea)
  | muls (x : Reg) (ea : Ea)
  | abcd (m : XMode) (x : Reg) (y : Reg)
  | exgDxDy (x : Reg) (y : Reg)
  | exgAxAy (x : Reg) (y : Reg)
  | exgDxAy (x : Reg) (y : Reg)
  | addToDn (sz : Size) (x : Reg) (ea : Ea)
  | addToEa (sz : Size) (x : Reg) (ea : Ea)
  | adda (sz : AddrSize) (x : Reg) (ea : Ea)
  | addx (m : XMode) (sz : Size) (x : Reg) (y : Reg)
  | asrReg (c : ShiftCount) (sz : Size) (y : Reg)
  | aslReg (c : ShiftCount) (sz : Size) (y : Reg)
  | lsrReg (c : ShiftCount) (sz : Size) (y : Reg)
  | lslReg (c : ShiftCount) (sz : Size) (y : Reg)
  | roxrReg (c : ShiftCount) (sz : Size) (y : Reg)
  | roxlReg (c : ShiftCount) (sz : Size) (y : Reg)
  | rorReg (c : ShiftCount) (sz : Size) (y : Reg)
  | rolReg (c : ShiftCount) (sz : Size) (y : Reg)
  | asrMem (ea : Ea)
  | aslMem (ea : Ea)
  | lsrMem (ea : Ea)
  | lslMem (ea : Ea)
  | roxrMem (ea : Ea)
  | roxlMem (ea : Ea)
  | rorMem (ea : Ea)
  | rolMem (ea : Ea)
  | lineF (d : BitVec 12)
  deriving DecidableEq, Repr

end Sys2Proof
end

