-- ==== Sys2Proof/WellFormed.lean ====
section
/-! DEFINITION. WellFormed.lean: the addressing-mode categories of rule R134 and the constraints of the rows of rules
R146-R159. -/

namespace Sys2Proof

/-- Category "data" of rule R134. -/
def Ea.isData : Ea → Bool
  | .an _ => false
  | _ => true

/-- Category "memory" of rule R134. -/
def Ea.isMemory : Ea → Bool
  | .dn _ => false
  | .an _ => false
  | _ => true

/-- Category "control" of rule R134. -/
def Ea.isControl : Ea → Bool
  | .ind _ => true
  | .disp _ => true
  | .index _ => true
  | .absW => true
  | .absL => true
  | .pcDisp => true
  | .pcIndex => true
  | _ => false

/-- Category "alterable" of rule R134. -/
def Ea.isAlterable : Ea → Bool
  | .pcDisp => false
  | .pcIndex => false
  | .imm => false
  | _ => true

/-- Category "data alterable" of rule R134. -/
def Ea.isDataAlterable (ea : Ea) : Bool := ea.isData && ea.isAlterable

/-- Category "memory alterable" of rule R134. -/
def Ea.isMemoryAlterable (ea : Ea) : Bool := ea.isMemory && ea.isAlterable

/-- Category "control alterable" of rule R134. -/
def Ea.isControlAlterable (ea : Ea) : Bool := ea.isControl && ea.isAlterable

/-- The set "data except #imm" of rule R134 (BTST #n). -/
def Ea.isDataNoImm (ea : Ea) : Bool := ea.isData && decide (ea ≠ .imm)

/-- The set "control alterable or -(An)" of rule R134 (MOVEM register-to-memory). -/
def Ea.isMovemStore : Ea → Bool
  | .predec _ => true
  | ea => ea.isControlAlterable

/-- The set "control or (An)+" of rule R134 (MOVEM memory-to-register). -/
def Ea.isMovemLoad : Ea → Bool
  | .postinc _ => true
  | ea => ea.isControl

/-- "An not allowed for .B" (rule R134). -/
def Ea.sizeOk (ea : Ea) (sz : Size) : Bool :=
  match ea, sz with
  | .an _, .b => false
  | _, _ => true

/-- Quick data and immediate shift counts are 1..8 (rules R141, R142). -/
def quickOk (q : Nat) : Bool := decide (1 ≤ q) && decide (q ≤ 8)

/-- The count of a register shift is 1..8 when it is immediate (rule R142). -/
def ShiftCount.ok : ShiftCount → Bool
  | .imm n => quickOk n
  | .reg _ => true

/-- The constraints of each row (rules R146-R159): exactly the instructions some opcode word stands for. -/
def Instr.wellFormed : Instr → Bool
  | .oriToCcr => true
  | .oriToSr => true
  | .ori _ ea => ea.isDataAlterable
  | .andiToCcr => true
  | .andiToSr => true
  | .andi _ ea => ea.isDataAlterable
  | .eoriToCcr => true
  | .eoriToSr => true
  | .eori _ ea => ea.isDataAlterable
  | .subi _ ea => ea.isDataAlterable
  | .addi _ ea => ea.isDataAlterable
  | .cmpi _ ea => ea.isDataAlterable
  | .btst ea => ea.isDataNoImm
  | .bchg ea => ea.isDataAlterable
  | .bclr ea => ea.isDataAlterable
  | .bset ea => ea.isDataAlterable
  | .btstDn _ ea => ea.isData
  | .bchgDn _ ea => ea.isDataAlterable
  | .bclrDn _ ea => ea.isDataAlterable
  | .bsetDn _ ea => ea.isDataAlterable
  | .movep _ _ _ => true
  | .move sz src dst => src.sizeOk sz && dst.isDataAlterable
  | .movea _ _ _ => true
  | .negx _ ea => ea.isDataAlterable
  | .moveFromSr ea => ea.isDataAlterable
  | .chk _ ea => ea.isData
  | .lea _ ea => ea.isControl
  | .clr _ ea => ea.isDataAlterable
  | .neg _ ea => ea.isDataAlterable
  | .moveToCcr ea => ea.isData
  | .notEa _ ea => ea.isDataAlterable
  | .moveToSr ea => ea.isData
  | .nbcd ea => ea.isDataAlterable
  | .swap _ => true
  | .pea ea => ea.isControl
  | .extDn _ _ => true
  | .movemToMem _ ea => ea.isMovemStore
  | .tst _ ea => ea.isDataAlterable
  | .tas ea => ea.isDataAlterable
  | .illegal => true
  | .movemToReg _ ea => ea.isMovemLoad
  | .trap _ => true
  | .link _ => true
  | .unlk _ => true
  | .moveToUsp _ => true
  | .moveFromUsp _ => true
  | .reset => true
  | .nop => true
  | .stop => true
  | .rte => true
  | .rts => true
  | .trapv => true
  | .rtr => true
  | .jsr ea => ea.isControl
  | .jmp ea => ea.isControl
  | .addq q sz ea => quickOk q && ea.isAlterable && ea.sizeOk sz
  | .subq q sz ea => quickOk q && ea.isAlterable && ea.sizeOk sz
  | .scc _ ea => ea.isDataAlterable
  | .dbcc _ _ => true
  | .bra _ => true
  | .bsr _ => true
  | .bcc c _ => decide (c ≠ .t) && decide (c ≠ .f)
  | .moveq _ _ => true
  | .orToDn _ _ ea => ea.isData
  | .orToEa _ _ ea => ea.isMemoryAlterable
  | .divu _ ea => ea.isData
  | .divs _ ea => ea.isData
  | .sbcd _ _ _ => true
  | .subToDn sz _ ea => ea.sizeOk sz
  | .subToEa _ _ ea => ea.isMemoryAlterable
  | .suba _ _ _ => true
  | .subx _ _ _ _ => true
  | .lineA _ => true
  | .cmp sz _ ea => ea.sizeOk sz
  | .cmpa _ _ _ => true
  | .eor _ _ ea => ea.isDataAlterable
  | .cmpm _ _ _ => true
  | .andToDn _ _ ea => ea.isData
  | .andToEa _ _ ea => ea.isMemoryAlterable
  | .mulu _ ea => ea.isData
  | .muls _ ea => ea.isData
  | .abcd _ _ _ => true
  | .exgDxDy _ _ => true
  | .exgAxAy _ _ => true
  | .exgDxAy _ _ => true
  | .addToDn sz _ ea => ea.sizeOk sz
  | .addToEa _ _ ea => ea.isMemoryAlterable
  | .adda _ _ _ => true
  | .addx _ _ _ _ => true
  | .asrReg c _ _ => c.ok
  | .aslReg c _ _ => c.ok
  | .lsrReg c _ _ => c.ok
  | .lslReg c _ _ => c.ok
  | .roxrReg c _ _ => c.ok
  | .roxlReg c _ _ => c.ok
  | .rorReg c _ _ => c.ok
  | .rolReg c _ _ => c.ok
  | .asrMem ea => ea.isMemoryAlterable
  | .aslMem ea => ea.isMemoryAlterable
  | .lsrMem ea => ea.isMemoryAlterable
  | .lslMem ea => ea.isMemoryAlterable
  | .roxrMem ea => ea.isMemoryAlterable
  | .roxlMem ea => ea.isMemoryAlterable
  | .rorMem ea => ea.isMemoryAlterable
  | .rolMem ea => ea.isMemoryAlterable
  | .lineF _ => true

end Sys2Proof
end

