-- ==== Sys2Proof/Decode.lean ====
section
/-! DEFINITION. Decode.lean: the decoder of rule R173 (an opcode word to its row's instruction, or a rejection by name),
the brief extension word of rule R138, and after them the encoder written from the same tables. -/

namespace Sys2Proof

/-- Why the decoder rejects. -/
inductive DecodeError where
  /-- The opcode word selects no row (rule R170): executing it raises the illegal-instruction exception. -/
  | illegal (w : Word)
  /-- Fewer than the two bytes of an opcode word were given to `decodeBytes`. -/
  | truncated
  deriving DecidableEq, Repr

/-! ## Fields of the opcode word (rules R131, R132, R135) -/

/-- The register field whose lowest bit is `lo`. -/
def regAt (w : Word) (lo : Nat) : Reg := ⟨(w.toNat >>> lo) % 8, Nat.mod_lt _ (by decide)⟩

/-- The standard size field, bits 7..6 (rule R135). -/
def sizeAt (w : Word) : Option Size :=
  match w.extractLsb' 6 2 with
  | 0 => some .b
  | 1 => some .w
  | 2 => some .l
  | _ => none

/-- MOVE's size field, bits 13..12 (rule R135). -/
def moveSizeAt (w : Word) : Option Size :=
  match w.extractLsb' 12 2 with
  | 1 => some .b
  | 3 => some .w
  | 2 => some .l
  | _ => none

/-- MOVEA's size field, bits 13..12: word and long only (rule R147). -/
def moveAddrSizeAt (w : Word) : Option AddrSize :=
  match w.extractLsb' 12 2 with
  | 3 => some .w
  | 2 => some .l
  | _ => none

/-- A one-bit size field (rule R135). -/
def addrSizeAt (w : Word) (lo : Nat) : AddrSize := if w.getLsbD lo then .l else .w

/-- The addressing mode of a mode field and a register field (rule R133). -/
def Ea.ofFields (mode reg : Nat) : Option Ea :=
  let r : Reg := ⟨reg % 8, Nat.mod_lt _ (by decide)⟩
  match mode, reg with
  | 0, _ => some (.dn r)
  | 1, _ => some (.an r)
  | 2, _ => some (.ind r)
  | 3, _ => some (.postinc r)
  | 4, _ => some (.predec r)
  | 5, _ => some (.disp r)
  | 6, _ => some (.index r)
  | 7, 0 => some .absW
  | 7, 1 => some .absL
  | 7, 2 => some .pcDisp
  | 7, 3 => some .pcIndex
  | 7, 4 => some .imm
  | _, _ => none

/-- The effective-address field, mode bits 5..3 and register bits 2..0 (rule R132). -/
def eaAt (w : Word) : Option Ea := Ea.ofFields ((w.toNat >>> 3) % 8) (w.toNat % 8)

/-- MOVE's destination field, register bits 11..9 and mode bits 8..6 (rule R132). -/
def destEaAt (w : Word) : Option Ea := Ea.ofFields ((w.toNat >>> 6) % 8) ((w.toNat >>> 9) % 8)

/-- The condition a 4-bit code names (rule R143). -/
def Cond.ofCode (n : Nat) : Cond :=
  match n with
  | 0 => .t
  | 1 => .f
  | 2 => .hi
  | 3 => .ls
  | 4 => .cc
  | 5 => .cs
  | 6 => .ne
  | 7 => .eq
  | 8 => .vc
  | 9 => .vs
  | 10 => .pl
  | 11 => .mi
  | 12 => .ge
  | 13 => .lt
  | 14 => .gt
  | _ => .le

/-- The condition field, bits 11..8 (rule R143). -/
def condAt (w : Word) : Cond := Cond.ofCode ((w.toNat >>> 8) % 16)

/-- Quick data, bits 11..9, where 000 means 8 (rule R141). -/
def quickAt (w : Word) : Nat := if (w.toNat >>> 9) % 8 = 0 then 8 else (w.toNat >>> 9) % 8

/-- The count of a register shift: bit 5 chooses the immediate of bits 11..9 or the register they name (rule R142). -/
def shiftCountAt (w : Word) : ShiftCount := if w.getLsbD 5 then .reg (regAt w 9) else .imm (quickAt w)

/-- Bit 3 of format F_X (rule R131). -/
def xModeAt (w : Word) : XMode := if w.getLsbD 3 then .mem else .reg

/-- MOVEP's opmode, bits 7..6 (rule R258). -/
def movepModeAt (w : Word) : MovepMode :=
  match w.extractLsb' 6 2 with
  | 0 => .wordFromMem
  | 1 => .longFromMem
  | 2 => .wordToMem
  | _ => .longToMem

/-! ## The opcode map (rules R146-R159) -/

/-- One row of the opcode map: the word matches when its bits under `mask` are `pattern` and `build` reads its fields. -/
structure Row where
  mask : Word
  pattern : Word
  build : Word → Option Instr

/-- Immediate operations, bit operations and MOVEP: rule R146. -/
def line0 : List Row := [
  ⟨0xFFFF, 0x003C, fun _ => some .oriToCcr⟩,
  ⟨0xFFFF, 0x007C, fun _ => some .oriToSr⟩,
  ⟨0xFF00, 0x0000, fun w => do some (.ori (← sizeAt w) (← eaAt w))⟩,
  ⟨0xFFFF, 0x023C, fun _ => some .andiToCcr⟩,
  ⟨0xFFFF, 0x027C, fun _ => some .andiToSr⟩,
  ⟨0xFF00, 0x0200, fun w => do some (.andi (← sizeAt w) (← eaAt w))⟩,
  ⟨0xFFFF, 0x0A3C, fun _ => some .eoriToCcr⟩,
  ⟨0xFFFF, 0x0A7C, fun _ => some .eoriToSr⟩,
  ⟨0xFF00, 0x0A00, fun w => do some (.eori (← sizeAt w) (← eaAt w))⟩,
  ⟨0xFF00, 0x0400, fun w => do some (.subi (← sizeAt w) (← eaAt w))⟩,
  ⟨0xFF00, 0x0600, fun w => do some (.addi (← sizeAt w) (← eaAt w))⟩,
  ⟨0xFF00, 0x0C00, fun w => do some (.cmpi (← sizeAt w) (← eaAt w))⟩,
  ⟨0xFFC0, 0x0800, fun w => do some (.btst (← eaAt w))⟩,
  ⟨0xFFC0, 0x0840, fun w => do some (.bchg (← eaAt w))⟩,
  ⟨0xFFC0, 0x0880, fun w => do some (.bclr (← eaAt w))⟩,
  ⟨0xFFC0, 0x08C0, fun w => do some (.bset (← eaAt w))⟩,
  ⟨0xF1C0, 0x0100, fun w => do some (.btstDn (regAt w 9) (← eaAt w))⟩,
  ⟨0xF1C0, 0x0140, fun w => do some (.bchgDn (regAt w 9) (← eaAt w))⟩,
  ⟨0xF1C0, 0x0180, fun w => do some (.bclrDn (regAt w 9) (← eaAt w))⟩,
  ⟨0xF1C0, 0x01C0, fun w => do some (.bsetDn (regAt w 9) (← eaAt w))⟩,
  ⟨0xF138, 0x0108, fun w => some (.movep (movepModeAt w) (regAt w 9) (regAt w 0))⟩]

/-- MOVE and MOVEA (lines 0001, 0010, 0011): rule R147. -/
def line1 : List Row := [
  ⟨0xC000, 0x0000, fun w => do some (.move (← moveSizeAt w) (← eaAt w) (← destEaAt w))⟩,
  ⟨0xC1C0, 0x0040, fun w => do some (.movea (← moveAddrSizeAt w) (← eaAt w) (regAt w 9))⟩]

/-- Miscellaneous: rule R148. -/
def line4 : List Row := [
  ⟨0xFF00, 0x4000, fun w => do some (.negx (← sizeAt w) (← eaAt w))⟩,
  ⟨0xFFC0, 0x40C0, fun w => do some (.moveFromSr (← eaAt w))⟩,
  ⟨0xF1C0, 0x4180, fun w => do some (.chk (regAt w 9) (← eaAt w))⟩,
  ⟨0xF1C0, 0x41C0, fun w => do some (.lea (regAt w 9) (← eaAt w))⟩,
  ⟨0xFF00, 0x4200, fun w => do some (.clr (← sizeAt w) (← eaAt w))⟩,
  ⟨0xFF00, 0x4400, fun w => do some (.neg (← sizeAt w) (← eaAt w))⟩,
  ⟨0xFFC0, 0x44C0, fun w => do some (.moveToCcr (← eaAt w))⟩,
  ⟨0xFF00, 0x4600, fun w => do some (.notEa (← sizeAt w) (← eaAt w))⟩,
  ⟨0xFFC0, 0x46C0, fun w => do some (.moveToSr (← eaAt w))⟩,
  ⟨0xFFC0, 0x4800, fun w => do some (.nbcd (← eaAt w))⟩,
  ⟨0xFFF8, 0x4840, fun w => some (.swap (regAt w 0))⟩,
  ⟨0xFFC0, 0x4840, fun w => do some (.pea (← eaAt w))⟩,
  ⟨0xFFB8, 0x4880, fun w => some (.extDn (addrSizeAt w 6) (regAt w 0))⟩,
  ⟨0xFF80, 0x4880, fun w => do some (.movemToMem (addrSizeAt w 6) (← eaAt w))⟩,
  ⟨0xFF00, 0x4A00, fun w => do some (.tst (← sizeAt w) (← eaAt w))⟩,
  ⟨0xFFC0, 0x4AC0, fun w => do some (.tas (← eaAt w))⟩,
  ⟨0xFFFF, 0x4AFC, fun _ => some .illegal⟩,
  ⟨0xFF80, 0x4C80, fun w => do some (.movemToReg (addrSizeAt w 6) (← eaAt w))⟩,
  ⟨0xFFF0, 0x4E40, fun w => some (.trap (w.extractLsb' 0 4))⟩,
  ⟨0xFFF8, 0x4E50, fun w => some (.link (regAt w 0))⟩,
  ⟨0xFFF8, 0x4E58, fun w => some (.unlk (regAt w 0))⟩,
  ⟨0xFFF8, 0x4E60, fun w => some (.moveToUsp (regAt w 0))⟩,
  ⟨0xFFF8, 0x4E68, fun w => some (.moveFromUsp (regAt w 0))⟩,
  ⟨0xFFFF, 0x4E70, fun _ => some .reset⟩,
  ⟨0xFFFF, 0x4E71, fun _ => some .nop⟩,
  ⟨0xFFFF, 0x4E72, fun _ => some .stop⟩,
  ⟨0xFFFF, 0x4E73, fun _ => some .rte⟩,
  ⟨0xFFFF, 0x4E75, fun _ => some .rts⟩,
  ⟨0xFFFF, 0x4E76, fun _ => some .trapv⟩,
  ⟨0xFFFF, 0x4E77, fun _ => some .rtr⟩,
  ⟨0xFFC0, 0x4E80, fun w => do some (.jsr (← eaAt w))⟩,
  ⟨0xFFC0, 0x4EC0, fun w => do some (.jmp (← eaAt w))⟩]

/-- ADDQ, SUBQ, Scc, DBcc: rule R149. -/
def line5 : List Row := [
  ⟨0xF100, 0x5000, fun w => do some (.addq (quickAt w) (← sizeAt w) (← eaAt w))⟩,
  ⟨0xF100, 0x5100, fun w => do some (.subq (quickAt w) (← sizeAt w) (← eaAt w))⟩,
  ⟨0xF0C0, 0x50C0, fun w => do some (.scc (condAt w) (← eaAt w))⟩,
  ⟨0xF0F8, 0x50C8, fun w => some (.dbcc (condAt w) (regAt w 0))⟩]

/-- Branches: rule R150. -/
def line6 : List Row := [
  ⟨0xFF00, 0x6000, fun w => some (.bra (w.extractLsb' 0 8))⟩,
  ⟨0xFF00, 0x6100, fun w => some (.bsr (w.extractLsb' 0 8))⟩,
  ⟨0xF000, 0x6000, fun w => some (.bcc (condAt w) (w.extractLsb' 0 8))⟩]

/-- MOVEQ: rule R151. -/
def line7 : List Row := [
  ⟨0xF100, 0x7000, fun w => some (.moveq (regAt w 9) (w.extractLsb' 0 8))⟩]

/-- OR, DIVU, DIVS, SBCD: rule R152. -/
def line8 : List Row := [
  ⟨0xF100, 0x8000, fun w => do some (.orToDn (← sizeAt w) (regAt w 9) (← eaAt w))⟩,
  ⟨0xF100, 0x8100, fun w => do some (.orToEa (← sizeAt w) (regAt w 9) (← eaAt w))⟩,
  ⟨0xF1C0, 0x80C0, fun w => do some (.divu (regAt w 9) (← eaAt w))⟩,
  ⟨0xF1C0, 0x81C0, fun w => do some (.divs (regAt w 9) (← eaAt w))⟩,
  ⟨0xF1F0, 0x8100, fun w => some (.sbcd (xModeAt w) (regAt w 9) (regAt w 0))⟩]

/-- SUB, SUBA, SUBX: rule R153. -/
def line9 : List Row := [
  ⟨0xF100, 0x9000, fun w => do some (.subToDn (← sizeAt w) (regAt w 9) (← eaAt w))⟩,
  ⟨0xF100, 0x9100, fun w => do some (.subToEa (← sizeAt w) (regAt w 9) (← eaAt w))⟩,
  ⟨0xF0C0, 0x90C0, fun w => do some (.suba (addrSizeAt w 8) (regAt w 9) (← eaAt w))⟩,
  ⟨0xF130, 0x9100, fun w => do some (.subx (xModeAt w) (← sizeAt w) (regAt w 9) (regAt w 0))⟩]

/-- Line 1010: rule R154. -/
def line10 : List Row := [
  ⟨0xF000, 0xA000, fun w => some (.lineA (w.extractLsb' 0 12))⟩]

/-- CMP, CMPA, EOR, CMPM: rule R155. -/
def line11 : List Row := [
  ⟨0xF100, 0xB000, fun w => do some (.cmp (← sizeAt w) (regAt w 9) (← eaAt w))⟩,
  ⟨0xF0C0, 0xB0C0, fun w => do some (.cmpa (addrSizeAt w 8) (regAt w 9) (← eaAt w))⟩,
  ⟨0xF100, 0xB100, fun w => do some (.eor (← sizeAt w) (regAt w 9) (← eaAt w))⟩,
  ⟨0xF138, 0xB108, fun w => do some (.cmpm (← sizeAt w) (regAt w 9) (regAt w 0))⟩]

/-- AND, MULU, MULS, ABCD, EXG: rule R156. -/
def line12 : List Row := [
  ⟨0xF100, 0xC000, fun w => do some (.andToDn (← sizeAt w) (regAt w 9) (← eaAt w))⟩,
  ⟨0xF100, 0xC100, fun w => do some (.andToEa (← sizeAt w) (regAt w 9) (← eaAt w))⟩,
  ⟨0xF1C0, 0xC0C0, fun w => do some (.mulu (regAt w 9) (← eaAt w))⟩,
  ⟨0xF1C0, 0xC1C0, fun w => do some (.muls (regAt w 9) (← eaAt w))⟩,
  ⟨0xF1F0, 0xC100, fun w => some (.abcd (xModeAt w) (regAt w 9) (regAt w 0))⟩,
  ⟨0xF1F8, 0xC140, fun w => some (.exgDxDy (regAt w 9) (regAt w 0))⟩,
  ⟨0xF1F8, 0xC148, fun w => some (.exgAxAy (regAt w 9) (regAt w 0))⟩,
  ⟨0xF1F8, 0xC188, fun w => some (.exgDxAy (regAt w 9) (regAt w 0))⟩]

/-- ADD, ADDA, ADDX: rule R157. -/
def line13 : List Row := [
  ⟨0xF100, 0xD000, fun w => do some (.addToDn (← sizeAt w) (regAt w 9) (← eaAt w))⟩,
  ⟨0xF100, 0xD100, fun w => do some (.addToEa (← sizeAt w) (regAt w 9) (← eaAt w))⟩,
  ⟨0xF0C0, 0xD0C0, fun w => do some (.adda (addrSizeAt w 8) (regAt w 9) (← eaAt w))⟩,
  ⟨0xF130, 0xD100, fun w => do some (.addx (xModeAt w) (← sizeAt w) (regAt w 9) (regAt w 0))⟩]

/-- Shifts and rotates: rule R158. -/
def line14 : List Row := [
  ⟨0xF118, 0xE000, fun w => do some (.asrReg (shiftCountAt w) (← sizeAt w) (regAt w 0))⟩,
  ⟨0xF118, 0xE100, fun w => do some (.aslReg (shiftCountAt w) (← sizeAt w) (regAt w 0))⟩,
  ⟨0xF118, 0xE008, fun w => do some (.lsrReg (shiftCountAt w) (← sizeAt w) (regAt w 0))⟩,
  ⟨0xF118, 0xE108, fun w => do some (.lslReg (shiftCountAt w) (← sizeAt w) (regAt w 0))⟩,
  ⟨0xF118, 0xE010, fun w => do some (.roxrReg (shiftCountAt w) (← sizeAt w) (regAt w 0))⟩,
  ⟨0xF118, 0xE110, fun w => do some (.roxlReg (shiftCountAt w) (← sizeAt w) (regAt w 0))⟩,
  ⟨0xF118, 0xE018, fun w => do some (.rorReg (shiftCountAt w) (← sizeAt w) (regAt w 0))⟩,
  ⟨0xF118, 0xE118, fun w => do some (.rolReg (shiftCountAt w) (← sizeAt w) (regAt w 0))⟩,
  ⟨0xFFC0, 0xE0C0, fun w => do some (.asrMem (← eaAt w))⟩,
  ⟨0xFFC0, 0xE1C0, fun w => do some (.aslMem (← eaAt w))⟩,
  ⟨0xFFC0, 0xE2C0, fun w => do some (.lsrMem (← eaAt w))⟩,
  ⟨0xFFC0, 0xE3C0, fun w => do some (.lslMem (← eaAt w))⟩,
  ⟨0xFFC0, 0xE4C0, fun w => do some (.roxrMem (← eaAt w))⟩,
  ⟨0xFFC0, 0xE5C0, fun w => do some (.roxlMem (← eaAt w))⟩,
  ⟨0xFFC0, 0xE6C0, fun w => do some (.rorMem (← eaAt w))⟩,
  ⟨0xFFC0, 0xE7C0, fun w => do some (.rolMem (← eaAt w))⟩]

/-- Line 1111: rule R159. -/
def line15 : List Row := [
  ⟨0xF000, 0xF000, fun w => some (.lineF (w.extractLsb' 0 12))⟩]

/-- The rows of a line, bits 15..12 of the opcode word (section 5 of file 30_encoding.md). -/
def lineRows (l : Nat) : List Row :=
  match l with
  | 0 => line0
  | 1 => line1
  | 2 => line1
  | 3 => line1
  | 4 => line4
  | 5 => line5
  | 6 => line6
  | 7 => line7
  | 8 => line8
  | 9 => line9
  | 10 => line10
  | 11 => line11
  | 12 => line12
  | 13 => line13
  | 14 => line14
  | _ => line15

/-- The instruction a word is under one row: its fixed bits match, its fields have a meaning, and the row's constraints on
size and addressing mode hold. -/
def Row.read (r : Row) (w : Word) : Option Instr :=
  if w &&& r.mask = r.pattern then
    match r.build w with
    | some i => if i.wellFormed then some i else none
    | none => none
  else none

/-- Rule R173: a total function of the opcode word alone. The words that select no row are rejected by name; they are
the illegal encodings of rule R170. -/
def decode (w : Word) : Except DecodeError Instr :=
  match (lineRows (w.toNat >>> 12)).findSome? (fun r => r.read w) with
  | some i => .ok i
  | none => .error (.illegal w)

/-- The instruction at the head of a list of bytes, most significant byte first (rule R82), and the bytes after its opcode
word. -/
def decodeBytes : List Byte → Except DecodeError (Instr × List Byte)
  | hi :: lo :: rest =>
    match decode (hi ++ lo) with
    | .ok i => .ok (i, rest)
    | .error e => .error e
  | _ => .error .truncated

/-- Word `k` of an instruction whose bits are numbered as spec/opcode_table.json numbers them (word 0 is bits 15..0). -/
def tableWord (w k : Nat) : Word := BitVec.ofNat 16 (w >>> (16 * k))

/-- The bytes of the longest instruction (five words, rule R130) as memory holds them: each word big-endian, the first
word at the lowest address (rule R82). -/
def tableBytes (nbits w : Nat) : List Byte :=
  (List.range 5).flatMap (fun k =>
    let x := tableWord (w % 2 ^ nbits) k
    [x.extractLsb' 8 8, x.extractLsb' 0 8])

/-- The instruction the decoder reads from table-numbered bits; none where it rejects. -/
def decodeTableWord (nbits w : Nat) : Option Instr :=
  match decodeBytes (tableBytes nbits w) with
  | .ok (i, _) => some i
  | .error _ => none

/-! ## The brief extension word (rule R138) -/

/-- The fields of a brief extension word that have an effect; bits 10..8 are ignored (rule R172). -/
structure BriefExt where
  /-- Bit 15: the index register is an address register. -/
  isAddr : Bool
  /-- Bits 14..12. -/
  reg : Reg
  /-- Bit 11: the whole long of the index register is used, else its sign-extended low word. -/
  isLong : Bool
  /-- Bits 7..0, the signed displacement d8. -/
  d8 : Byte
  deriving DecidableEq, Repr

/-- Rule R138, reading. -/
def decodeBrief (w : Word) : BriefExt where
  isAddr := w.getLsbD 15
  reg := regAt w 12
  isLong := w.getLsbD 11
  d8 := w.extractLsb' 0 8

/-! ## The encoder -/

/-- A field's bits at bit position `lo` of the opcode word. -/
def place {n : Nat} (lo : Nat) (v : BitVec n) : Word := v.setWidth 16 <<< lo

/-- A register number as a 3-bit field. -/
def regCode (r : Reg) : BitVec 3 := BitVec.ofNat 3 r.val

/-- The standard size code (rule R135). -/
def Size.code : Size → BitVec 2
  | .b => 0
  | .w => 1
  | .l => 2

/-- MOVE's size code (rule R135). -/
def Size.moveCode : Size → BitVec 2
  | .b => 1
  | .w => 3
  | .l => 2

/-- The one-bit size code (rule R135). -/
def AddrSize.code : AddrSize → BitVec 1
  | .w => 0
  | .l => 1

/-- The mode field of an addressing mode (rule R133). -/
def Ea.modeCode : Ea → BitVec 3
  | .dn _ => 0
  | .an _ => 1
  | .ind _ => 2
  | .postinc _ => 3
  | .predec _ => 4
  | .disp _ => 5
  | .index _ => 6
  | .absW => 7
  | .absL => 7
  | .pcDisp => 7
  | .pcIndex => 7
  | .imm => 7

/-- The register field of an addressing mode (rule R133). -/
def Ea.regField : Ea → BitVec 3
  | .dn r => regCode r
  | .an r => regCode r
  | .ind r => regCode r
  | .postinc r => regCode r
  | .predec r => regCode r
  | .disp r => regCode r
  | .index r => regCode r
  | .absW => 0
  | .absL => 1
  | .pcDisp => 2
  | .pcIndex => 3
  | .imm => 4

/-- The effective-address field: mode, then register (rule R132). -/
def Ea.code (ea : Ea) : BitVec 6 := ea.modeCode ++ ea.regField

/-- MOVE's destination field: register, then mode (rule R132). -/
def Ea.destCode (ea : Ea) : BitVec 6 := ea.regField ++ ea.modeCode

/-- The condition code (rule R143). -/
def Cond.code : Cond → BitVec 4
  | .t => 0
  | .f => 1
  | .hi => 2
  | .ls => 3
  | .cc => 4
  | .cs => 5
  | .ne => 6
  | .eq => 7
  | .vc => 8
  | .vs => 9
  | .pl => 10
  | .mi => 11
  | .ge => 12
  | .lt => 13
  | .gt => 14
  | .le => 15

/-- Quick data 1..8 as the 3-bit field (rule R141): 8 is 000. -/
def quickCode (q : Nat) : BitVec 3 := BitVec.ofNat 3 q

/-- The count field and bit 5 of a register shift (rule R142). -/
def ShiftCount.code : ShiftCount → Word
  | .imm n => place 9 (quickCode n)
  | .reg r => place 9 (regCode r) ||| 0x20

/-- Bit 3 of format F_X (rule R131). -/
def XMode.code : XMode → BitVec 1
  | .reg => 0
  | .mem => 1

/-- MOVEP's opmode (rule R258). -/
def MovepMode.code : MovepMode → BitVec 2
  | .wordFromMem => 0
  | .longFromMem => 1
  | .wordToMem => 2
  | .longToMem => 3

/-- The fixed bits of a row of spec/opcode_table.json. -/
structure FixedBits where
  mask : Word
  pattern : Word
  deriving DecidableEq, Repr

/-- The `mask` and `match` of each row of spec/opcode_table.json. -/
def Instr.fixedBits : Instr → FixedBits
  | .oriToCcr => ⟨0xFFFF, 0x003C⟩
  | .oriToSr => ⟨0xFFFF, 0x007C⟩
  | .ori _ _ => ⟨0xFF00, 0x0000⟩
  | .andiToCcr => ⟨0xFFFF, 0x023C⟩
  | .andiToSr => ⟨0xFFFF, 0x027C⟩
  | .andi _ _ => ⟨0xFF00, 0x0200⟩
  | .eoriToCcr => ⟨0xFFFF, 0x0A3C⟩
  | .eoriToSr => ⟨0xFFFF, 0x0A7C⟩
  | .eori _ _ => ⟨0xFF00, 0x0A00⟩
  | .subi _ _ => ⟨0xFF00, 0x0400⟩
  | .addi _ _ => ⟨0xFF00, 0x0600⟩
  | .cmpi _ _ => ⟨0xFF00, 0x0C00⟩
  | .btst _ => ⟨0xFFC0, 0x0800⟩
  | .bchg _ => ⟨0xFFC0, 0x0840⟩
  | .bclr _ => ⟨0xFFC0, 0x0880⟩
  | .bset _ => ⟨0xFFC0, 0x08C0⟩
  | .btstDn _ _ => ⟨0xF1C0, 0x0100⟩
  | .bchgDn _ _ => ⟨0xF1C0, 0x0140⟩
  | .bclrDn _ _ => ⟨0xF1C0, 0x0180⟩
  | .bsetDn _ _ => ⟨0xF1C0, 0x01C0⟩
  | .movep _ _ _ => ⟨0xF138, 0x0108⟩
  | .move _ _ _ => ⟨0xC000, 0x0000⟩
  | .movea _ _ _ => ⟨0xC1C0, 0x0040⟩
  | .negx _ _ => ⟨0xFF00, 0x4000⟩
  | .moveFromSr _ => ⟨0xFFC0, 0x40C0⟩
  | .chk _ _ => ⟨0xF1C0, 0x4180⟩
  | .lea _ _ => ⟨0xF1C0, 0x41C0⟩
  | .clr _ _ => ⟨0xFF00, 0x4200⟩
  | .neg _ _ => ⟨0xFF00, 0x4400⟩
  | .moveToCcr _ => ⟨0xFFC0, 0x44C0⟩
  | .notEa _ _ => ⟨0xFF00, 0x4600⟩
  | .moveToSr _ => ⟨0xFFC0, 0x46C0⟩
  | .nbcd _ => ⟨0xFFC0, 0x4800⟩
  | .swap _ => ⟨0xFFF8, 0x4840⟩
  | .pea _ => ⟨0xFFC0, 0x4840⟩
  | .extDn _ _ => ⟨0xFFB8, 0x4880⟩
  | .movemToMem _ _ => ⟨0xFF80, 0x4880⟩
  | .tst _ _ => ⟨0xFF00, 0x4A00⟩
  | .tas _ => ⟨0xFFC0, 0x4AC0⟩
  | .illegal => ⟨0xFFFF, 0x4AFC⟩
  | .movemToReg _ _ => ⟨0xFF80, 0x4C80⟩
  | .trap _ => ⟨0xFFF0, 0x4E40⟩
  | .link _ => ⟨0xFFF8, 0x4E50⟩
  | .unlk _ => ⟨0xFFF8, 0x4E58⟩
  | .moveToUsp _ => ⟨0xFFF8, 0x4E60⟩
  | .moveFromUsp _ => ⟨0xFFF8, 0x4E68⟩
  | .reset => ⟨0xFFFF, 0x4E70⟩
  | .nop => ⟨0xFFFF, 0x4E71⟩
  | .stop => ⟨0xFFFF, 0x4E72⟩
  | .rte => ⟨0xFFFF, 0x4E73⟩
  | .rts => ⟨0xFFFF, 0x4E75⟩
  | .trapv => ⟨0xFFFF, 0x4E76⟩
  | .rtr => ⟨0xFFFF, 0x4E77⟩
  | .jsr _ => ⟨0xFFC0, 0x4E80⟩
  | .jmp _ => ⟨0xFFC0, 0x4EC0⟩
  | .addq _ _ _ => ⟨0xF100, 0x5000⟩
  | .subq _ _ _ => ⟨0xF100, 0x5100⟩
  | .scc _ _ => ⟨0xF0C0, 0x50C0⟩
  | .dbcc _ _ => ⟨0xF0F8, 0x50C8⟩
  | .bra _ => ⟨0xFF00, 0x6000⟩
  | .bsr _ => ⟨0xFF00, 0x6100⟩
  | .bcc _ _ => ⟨0xF000, 0x6000⟩
  | .moveq _ _ => ⟨0xF100, 0x7000⟩
  | .orToDn _ _ _ => ⟨0xF100, 0x8000⟩
  | .orToEa _ _ _ => ⟨0xF100, 0x8100⟩
  | .divu _ _ => ⟨0xF1C0, 0x80C0⟩
  | .divs _ _ => ⟨0xF1C0, 0x81C0⟩
  | .sbcd _ _ _ => ⟨0xF1F0, 0x8100⟩
  | .subToDn _ _ _ => ⟨0xF100, 0x9000⟩
  | .subToEa _ _ _ => ⟨0xF100, 0x9100⟩
  | .suba _ _ _ => ⟨0xF0C0, 0x90C0⟩
  | .subx _ _ _ _ => ⟨0xF130, 0x9100⟩
  | .lineA _ => ⟨0xF000, 0xA000⟩
  | .cmp _ _ _ => ⟨0xF100, 0xB000⟩
  | .cmpa _ _ _ => ⟨0xF0C0, 0xB0C0⟩
  | .eor _ _ _ => ⟨0xF100, 0xB100⟩
  | .cmpm _ _ _ => ⟨0xF138, 0xB108⟩
  | .andToDn _ _ _ => ⟨0xF100, 0xC000⟩
  | .andToEa _ _ _ => ⟨0xF100, 0xC100⟩
  | .mulu _ _ => ⟨0xF1C0, 0xC0C0⟩
  | .muls _ _ => ⟨0xF1C0, 0xC1C0⟩
  | .abcd _ _ _ => ⟨0xF1F0, 0xC100⟩
  | .exgDxDy _ _ => ⟨0xF1F8, 0xC140⟩
  | .exgAxAy _ _ => ⟨0xF1F8, 0xC148⟩
  | .exgDxAy _ _ => ⟨0xF1F8, 0xC188⟩
  | .addToDn _ _ _ => ⟨0xF100, 0xD000⟩
  | .addToEa _ _ _ => ⟨0xF100, 0xD100⟩
  | .adda _ _ _ => ⟨0xF0C0, 0xD0C0⟩
  | .addx _ _ _ _ => ⟨0xF130, 0xD100⟩
  | .asrReg _ _ _ => ⟨0xF118, 0xE000⟩
  | .aslReg _ _ _ => ⟨0xF118, 0xE100⟩
  | .lsrReg _ _ _ => ⟨0xF118, 0xE008⟩
  | .lslReg _ _ _ => ⟨0xF118, 0xE108⟩
  | .roxrReg _ _ _ => ⟨0xF118, 0xE010⟩
  | .roxlReg _ _ _ => ⟨0xF118, 0xE110⟩
  | .rorReg _ _ _ => ⟨0xF118, 0xE018⟩
  | .rolReg _ _ _ => ⟨0xF118, 0xE118⟩
  | .asrMem _ => ⟨0xFFC0, 0xE0C0⟩
  | .aslMem _ => ⟨0xFFC0, 0xE1C0⟩
  | .lsrMem _ => ⟨0xFFC0, 0xE2C0⟩
  | .lslMem _ => ⟨0xFFC0, 0xE3C0⟩
  | .roxrMem _ => ⟨0xFFC0, 0xE4C0⟩
  | .roxlMem _ => ⟨0xFFC0, 0xE5C0⟩
  | .rorMem _ => ⟨0xFFC0, 0xE6C0⟩
  | .rolMem _ => ⟨0xFFC0, 0xE7C0⟩
  | .lineF _ => ⟨0xF000, 0xF000⟩

/-- The fields of each row (rule R131), each at its place. -/
def Instr.operandBits : Instr → Word
  | .oriToCcr => 0
  | .oriToSr => 0
  | .ori sz ea => place 6 sz.code ||| place 0 ea.code
  | .andiToCcr => 0
  | .andiToSr => 0
  | .andi sz ea => place 6 sz.code ||| place 0 ea.code
  | .eoriToCcr => 0
  | .eoriToSr => 0
  | .eori sz ea => place 6 sz.code ||| place 0 ea.code
  | .subi sz ea => place 6 sz.code ||| place 0 ea.code
  | .addi sz ea => place 6 sz.code ||| place 0 ea.code
  | .cmpi sz ea => place 6 sz.code ||| place 0 ea.code
  | .btst ea => place 0 ea.code
  | .bchg ea => place 0 ea.code
  | .bclr ea => place 0 ea.code
  | .bset ea => place 0 ea.code
  | .btstDn x ea => place 9 (regCode x) ||| place 0 ea.code
  | .bchgDn x ea => place 9 (regCode x) ||| place 0 ea.code
  | .bclrDn x ea => place 9 (regCode x) ||| place 0 ea.code
  | .bsetDn x ea => place 9 (regCode x) ||| place 0 ea.code
  | .movep m x y => place 6 m.code ||| place 9 (regCode x) ||| place 0 (regCode y)
  | .move sz src dst => place 12 sz.moveCode ||| place 0 src.code ||| place 6 dst.destCode
  | .movea sz src r => place 12 sz.toSize.moveCode ||| place 0 src.code ||| place 9 (regCode r)
  | .negx sz ea => place 6 sz.code ||| place 0 ea.code
  | .moveFromSr ea => place 0 ea.code
  | .chk x ea => place 9 (regCode x) ||| place 0 ea.code
  | .lea x ea => place 9 (regCode x) ||| place 0 ea.code
  | .clr sz ea => place 6 sz.code ||| place 0 ea.code
  | .neg sz ea => place 6 sz.code ||| place 0 ea.code
  | .moveToCcr ea => place 0 ea.code
  | .notEa sz ea => place 6 sz.code ||| place 0 ea.code
  | .moveToSr ea => place 0 ea.code
  | .nbcd ea => place 0 ea.code
  | .swap y => place 0 (regCode y)
  | .pea ea => place 0 ea.code
  | .extDn sz y => place 6 sz.code ||| place 0 (regCode y)
  | .movemToMem sz ea => place 6 sz.code ||| place 0 ea.code
  | .tst sz ea => place 6 sz.code ||| place 0 ea.code
  | .tas ea => place 0 ea.code
  | .illegal => 0
  | .movemToReg sz ea => place 6 sz.code ||| place 0 ea.code
  | .trap v => place 0 v
  | .link y => place 0 (regCode y)
  | .unlk y => place 0 (regCode y)
  | .moveToUsp y => place 0 (regCode y)
  | .moveFromUsp y => place 0 (regCode y)
  | .reset => 0
  | .nop => 0
  | .stop => 0
  | .rte => 0
  | .rts => 0
  | .trapv => 0
  | .rtr => 0
  | .jsr ea => place 0 ea.code
  | .jmp ea => place 0 ea.code
  | .addq q sz ea => place 9 (quickCode q) ||| place 6 sz.code ||| place 0 ea.code
  | .subq q sz ea => place 9 (quickCode q) ||| place 6 sz.code ||| place 0 ea.code
  | .scc c ea => place 8 c.code ||| place 0 ea.code
  | .dbcc c y => place 8 c.code ||| place 0 (regCode y)
  | .bra k => place 0 k
  | .bsr k => place 0 k
  | .bcc c k => place 8 c.code ||| place 0 k
  | .moveq x k => place 9 (regCode x) ||| place 0 k
  | .orToDn sz x ea => place 6 sz.code ||| place 9 (regCode x) ||| place 0 ea.code
  | .orToEa sz x ea => place 6 sz.code ||| place 9 (regCode x) ||| place 0 ea.code
  | .divu x ea => place 9 (regCode x) ||| place 0 ea.code
  | .divs x ea => place 9 (regCode x) ||| place 0 ea.code
  | .sbcd m x y => place 3 m.code ||| place 9 (regCode x) ||| place 0 (regCode y)
  | .subToDn sz x ea => place 6 sz.code ||| place 9 (regCode x) ||| place 0 ea.code
  | .subToEa sz x ea => place 6 sz.code ||| place 9 (regCode x) ||| place 0 ea.code
  | .suba sz x ea => place 8 sz.code ||| place 9 (regCode x) ||| place 0 ea.code
  | .subx m sz x y => place 3 m.code ||| place 6 sz.code ||| place 9 (regCode x) ||| place 0 (regCode y)
  | .lineA d => place 0 d
  | .cmp sz x ea => place 6 sz.code ||| place 9 (regCode x) ||| place 0 ea.code
  | .cmpa sz x ea => place 8 sz.code ||| place 9 (regCode x) ||| place 0 ea.code
  | .eor sz x ea => place 6 sz.code ||| place 9 (regCode x) ||| place 0 ea.code
  | .cmpm sz x y => place 6 sz.code ||| place 9 (regCode x) ||| place 0 (regCode y)
  | .andToDn sz x ea => place 6 sz.code ||| place 9 (regCode x) ||| place 0 ea.code
  | .andToEa sz x ea => place 6 sz.code ||| place 9 (regCode x) ||| place 0 ea.code
  | .mulu x ea => place 9 (regCode x) ||| place 0 ea.code
  | .muls x ea => place 9 (regCode x) ||| place 0 ea.code
  | .abcd m x y => place 3 m.code ||| place 9 (regCode x) ||| place 0 (regCode y)
  | .exgDxDy x y => place 9 (regCode x) ||| place 0 (regCode y)
  | .exgAxAy x y => place 9 (regCode x) ||| place 0 (regCode y)
  | .exgDxAy x y => place 9 (regCode x) ||| place 0 (regCode y)
  | .addToDn sz x ea => place 6 sz.code ||| place 9 (regCode x) ||| place 0 ea.code
  | .addToEa sz x ea => place 6 sz.code ||| place 9 (regCode x) ||| place 0 ea.code
  | .adda sz x ea => place 8 sz.code ||| place 9 (regCode x) ||| place 0 ea.code
  | .addx m sz x y => place 3 m.code ||| place 6 sz.code ||| place 9 (regCode x) ||| place 0 (regCode y)
  | .asrReg c sz y => c.code ||| place 6 sz.code ||| place 0 (regCode y)
  | .aslReg c sz y => c.code ||| place 6 sz.code ||| place 0 (regCode y)
  | .lsrReg c sz y => c.code ||| place 6 sz.code ||| place 0 (regCode y)
  | .lslReg c sz y => c.code ||| place 6 sz.code ||| place 0 (regCode y)
  | .roxrReg c sz y => c.code ||| place 6 sz.code ||| place 0 (regCode y)
  | .roxlReg c sz y => c.code ||| place 6 sz.code ||| place 0 (regCode y)
  | .rorReg c sz y => c.code ||| place 6 sz.code ||| place 0 (regCode y)
  | .rolReg c sz y => c.code ||| place 6 sz.code ||| place 0 (regCode y)
  | .asrMem ea => place 0 ea.code
  | .aslMem ea => place 0 ea.code
  | .lsrMem ea => place 0 ea.code
  | .lslMem ea => place 0 ea.code
  | .roxrMem ea => place 0 ea.code
  | .roxlMem ea => place 0 ea.code
  | .rorMem ea => place 0 ea.code
  | .rolMem ea => place 0 ea.code
  | .lineF d => place 0 d

/-- The opcode word of a well-formed instruction. -/
def encode (i : Instr) : Word := i.fixedBits.pattern ||| i.operandBits

/-- The opcode word as the two bytes memory holds (rule R82). -/
def encodeBytes (i : Instr) : List Byte := [(encode i).extractLsb' 8 8, (encode i).extractLsb' 0 8]

/-- A brief extension word with its ignored bits 0 (rule R138). -/
def encodeBrief (b : BriefExt) : Word :=
  BitVec.ofBool b.isAddr ++ regCode b.reg ++ BitVec.ofBool b.isLong ++ 0#3 ++ b.d8

end Sys2Proof
end

