-- ==== Sys2Proof/Config.lean ====
section
/-! DEFINITION. Config.lean: the named parameters of rule R9 (file 00_scope.md), and the free bits that an undefined
result is drawn from. -/

namespace Sys2Proof.Config

/-- FREE VALUE (log entry 1). The k-th bit that a rule writes `draw(1)` for (rules R13, R316, R317, R450-R452, R516):
no body, so nothing can be proved of it. -/
opaque freeBit : Nat → Bool

/-- `UNMAPPED_POLICY` (rules R9, R90). -/
inductive UnmappedPolicy where
  | busError
  | mirror
  deriving DecidableEq, Repr

/-- `HW_FLAGS` (rules R9, R740); `malformed` is an image whose flags are none of the three. -/
inductive HwFlags where
  | ym
  | amiga
  | both
  | malformed
  deriving DecidableEq, Repr

/-- The YM2149 engine is present when `HW_FLAGS` is `YM` or `BOTH` (rule R91). -/
def HwFlags.hasYm : HwFlags → Bool
  | .ym => true
  | .amiga => false
  | .both => true
  | .malformed => false

/-- The Paula engine is present when `HW_FLAGS` is `AMIGA` or `BOTH` (rule R91). -/
def HwFlags.hasPaula : HwFlags → Bool
  | .ym => false
  | .amiga => true
  | .both => true
  | .malformed => false

/-- `YM_ZERO_PERIOD` (rules R9, R633). -/
inductive ZeroPeriod where
  | hold
  | high
  | low
  deriving DecidableEq, Repr

/-- `PAULA_INTERP` (rules R9, R701). -/
inductive Interp where
  | none
  | linear
  deriving DecidableEq, Repr

/-- What an interrupt source answers to `IRQ.vector(L)` (rule R580). -/
inductive IrqAnswer where
  | autovector
  | vector (n : Byte)
  | spurious
  deriving DecidableEq, Repr

/-- The arguments of `CYCLES(IR, ext words, operands)` (rule R770). `operands` is the register file at the start of the
instruction followed by every value the instruction read from memory. -/
structure CycleKey where
  ir : Word
  ext : List Word
  operands : List Long
  deriving DecidableEq, Repr

/-- `LEAK` (rules R9, R645): an arithmetic shift (the intended form; `none` is the zero leak of rule R648's instance),
with single values overridden by the table. -/
structure Leak where
  overrides : List (Int × Int)
  shift : Option Nat
  deriving DecidableEq, Repr

/-- The parameters of rule R9, one field each, as plain data. A session never changes them. `RESET_REGS`, `ENTRY_PC` and
the image bytes are arguments of `reset()` (rule R741) and stand in `Machine.Launch`. -/
structure Params where
  /-- `MEM_SIZE`. -/
  memSize : Nat
  /-- `ADDR_BITS`. -/
  addrBits : Nat
  /-- `UNMAPPED_POLICY`. -/
  unmapped : UnmappedPolicy
  /-- `SR_T0_STORED`. -/
  srT0Stored : Bool
  /-- `TRACE_KEEPS_T`. -/
  traceKeepsT : Bool
  /-- `HW_FLAGS`. -/
  hw : HwFlags
  /-- `CYCLES`; a listed 0 counts as 1 (rule R770: a positive integer). -/
  cycles : Table CycleKey Nat
  /-- `EXC_CYCLES`; a listed 0 counts as 1. -/
  excCycles : Table Byte Nat
  /-- `WRITE_TS_OFFSET(instr, k)`, keyed by the opcode word and the index k (from 0) of the device write. -/
  writeTsOffset : Table (Word × Nat) Nat
  /-- `IRQ.level(cycles)`: the level from a cycle count on, as (cycle, level) breakpoints; 0 before the first. -/
  irqLevels : List (Nat × BitVec 3)
  /-- `IRQ.vector(L)`. -/
  irqVectors : Table (BitVec 3) IrqAnswer
  /-- `CPU_CLOCK_HZ`. -/
  cpuClock : Nat
  /-- `YM_CLOCK_HZ`. -/
  ymClock : Nat
  /-- `YM_ZERO_PERIOD`. -/
  ymZeroPeriod : ZeroPeriod
  /-- `YM_LEVEL`: the amplitude of each 5-bit level. -/
  ymLevel : Table (BitVec 5) Nat
  /-- `YM_MIX`: the listed triples; an unlisted one is the sum of the three amplitudes, at most 32767. -/
  ymMix : List ((Nat × Nat × Nat) × Int)
  /-- `YM_ODD_READ`. -/
  ymOddRead : Byte
  /-- `BLEP_KERNEL[p][j]`; an entry that is not listed is 0. -/
  blepKernel : List (List Int)
  /-- `BLEP_PHASES`. -/
  blepPhases : Nat
  /-- `BLEP_TAPS`. -/
  blepTaps : Nat
  /-- `TIME_FRAC_BITS`. -/
  timeFracBits : Nat
  /-- `LEAK`. -/
  leak : Leak
  /-- `BLEP_QUEUE_CAP`. -/
  blepQueueCap : Nat
  /-- `PAULA_CLOCK_HZ`. -/
  paulaClock : Nat
  /-- `PAULA_FRAC_BITS`. -/
  paulaFracBits : Nat
  /-- `PAULA_GAIN`. -/
  paulaGain : Nat
  /-- `PAULA_INTERP`. -/
  paulaInterp : Interp
  /-- `PAULA_IRQ`. -/
  paulaIrq : Bool
  /-- `OUT_RATE`. -/
  outRate : Nat
  /-- `SLICE_CYCLES`. -/
  sliceCycles : Nat
  deriving DecidableEq, Repr

/-- The parameters of `State.reset` (log entry 2, DESIGN CHOICE): the defaults rule R9 gives; for the parameters it
leaves OPEN, the instances that 95_test_vectors.md uses, and where that file has none, the value log entry 2 names. -/
def Params.standard : Params where
  memSize := 0x10000
  addrBits := 24
  unmapped := .busError
  srT0Stored := true
  traceKeepsT := true
  hw := .both
  cycles := ⟨[], 4⟩
  excCycles := ⟨[], 34⟩
  writeTsOffset := ⟨[], 0⟩
  irqLevels := []
  irqVectors := ⟨[], .autovector⟩
  cpuClock := 8000000
  ymClock := 2000000
  ymZeroPeriod := .hold
  ymLevel := ⟨(List.range 32).map (fun k => (BitVec.ofNat 5 k, 352 * k)), 0⟩
  ymMix := []
  ymOddRead := 0
  blepKernel := []
  blepPhases := 16
  blepTaps := 16
  timeFracBits := 16
  leak := ⟨[], some 8⟩
  blepQueueCap := 512
  paulaClock := 3546895
  paulaFracBits := 16
  paulaGain := 2
  paulaInterp := .none
  paulaIrq := false
  outRate := 44100
  sliceCycles := 8000

/-- The constraints the spec puts on the parameters of the CPU and of memory: `MEM_SIZE` even, above 0x400 and at most
0xDFF000 (rules R9, R91), and the external address wide enough for the map of rule R91. -/
def Params.memoryOk (p : Params) : Bool :=
  decide (0x400 < p.memSize) && decide (p.memSize ≤ 0xDFF000) && decide (p.memSize % 2 = 0) && decide (24 ≤ p.addrBits)

end Sys2Proof.Config
end

