-- ==== Sys2Proof/Machine/State.lean ====
section
/-! DEFINITION. Machine/State.lean: everything the spec gives the block, as plain data, and `State.reset`. -/

namespace Sys2Proof.Machine

open Sys2Proof.Config

/-! ## The CPU (file 10_state.md) -/

/-- The status register (rule R40). Bits 12, 11, 7, 6 and 5 are hardwired 0 (rule R47) and so are not stored;
`Sr.toWord` and `Sr.ofWord` (Machine/Flags.lean) are the 16-bit view. -/
structure Sr where
  /-- Bit 15 (rule R41). -/
  t1 : Bool
  /-- Bit 14 (rule R42). -/
  t0 : Bool
  /-- Bit 13 (rule R43). -/
  s : Bool
  /-- Bits 10..8 (rule R44). -/
  i : BitVec 3
  /-- Bit 4 (rule R45). -/
  x : Bool
  /-- Bit 3 (rule R46). -/
  n : Bool
  /-- Bit 2 (rule R46). -/
  z : Bool
  /-- Bit 1 (rule R46). -/
  v : Bool
  /-- Bit 0 (rule R46). -/
  c : Bool
  deriving DecidableEq, Repr

/-- The register file of rule R30 without the program counter: exactly what a faulted instruction has undone (rule
R563). -/
structure RegFile where
  /-- D0-D7 (rule R31). -/
  d : Vector Long 8
  /-- A0-A6 (rule R32). -/
  a : Vector Long 7
  /-- The user stack pointer (rule R33). -/
  usp : Long
  /-- The supervisor stack pointer (rule R33). -/
  ssp : Long
  /-- The status register (rule R40). -/
  sr : Sr
  deriving DecidableEq, Repr

/-- The run state (rule R49). -/
inductive Run where
  | normal
  | stopped
  | halted
  deriving DecidableEq, Repr

/-- The hidden per-instruction state of rule R51, and what rules R102 and R770 measure of the instruction in hand. Each
field is set before it is read. -/
structure Hidden where
  /-- The address of the current instruction's opcode word (rule R51). -/
  pc0 : Long
  /-- The opcode word last fetched, 0 if none (rules R51, R562). -/
  ir : Word
  /-- T1 at the start of the instruction (rules R51, R575); cleared when the instruction ends in a way no trace follows. -/
  tracePending : Bool
  /-- The registers at the start of the instruction (rule R51). -/
  snapshot : RegFile
  /-- How many device writes the instruction has made: the k of `WRITE_TS_OFFSET(instr, k)` (rule R102). -/
  devSeq : Nat
  /-- The extension words fetched so far, for `CYCLES` (rule R770). -/
  ext : List Word
  /-- The values read from memory so far, for `CYCLES` (rule R770). -/
  operands : List Long
  deriving DecidableEq, Repr

/-- The memory of the interrupt input's level-7 edge (rules R52, R580). -/
structure Irq where
  /-- The cycle count up to which the input has been looked at. -/
  seen : Nat
  /-- The input has risen to 7 since the last level-7 interrupt was taken. -/
  edge7 : Bool
  deriving DecidableEq, Repr

/-! ## The YM2149 engine (file 61_ym2149_blep.md) -/

/-- A register-write event `(ts, reg, value)` (rule R622). -/
structure YmWrite where
  ts : Nat
  reg : BitVec 4
  value : Byte
  deriving DecidableEq, Repr

/-- A tone generator (rule R630). -/
structure YmTone where
  count : BitVec 12
  out : Bool
  deriving DecidableEq, Repr

/-- The noise generator (rule R631). -/
structure YmNoise where
  count : BitVec 6
  lfsr : BitVec 17
  out : Bool
  deriving DecidableEq, Repr

/-- The envelope generator (rule R632). -/
structure YmEnvelope where
  count : BitVec 16
  step : BitVec 5
  attack : Bool
  held : Bool
  heldLevel : BitVec 5
  deriving DecidableEq, Repr

/-- A BLEP Event `{timestamp, level delta}` (rule R641). -/
structure BlepEvent where
  tau : Nat
  delta : Int
  deriving DecidableEq, Repr

/-- The sound-producing state, which replays the write list at render time (rules R53, R630-R645, R762). -/
structure YmSound where
  /-- The registers as the generators see them: the writes replayed so far. -/
  regs : Vector Byte 16
  tones : Vector YmTone 3
  noise : YmNoise
  env : YmEnvelope
  /-- The three current channel amplitudes `a_A`, `a_B`, `a_C` (rules R53, R636). -/
  amps : Vector (BitVec 5) 3
  /-- The number of prescaler ticks done: the engine's time position (rules R53, R625). -/
  ticks : Nat
  /-- The BLEP Event Queue (rule R642). -/
  queue : List BlepEvent
  /-- The level accumulator `L` (rule R644). -/
  level : Int
  /-- The residual ring `Res` (rule R644). -/
  res : List Int
  /-- The sticky flag `ym_fatal` (rule R642). -/
  fatal : Bool
  deriving DecidableEq, Repr

/-- The YM2149 engine: what the CPU sees (registers and select latch, rule R620), the write list (rule R622) and the
sound-producing state. -/
structure Ym where
  regs : Vector Byte 16
  sel : BitVec 4
  writes : List YmWrite
  sound : YmSound
  deriving DecidableEq, Repr

/-! ## The Paula engine (file 62_paula_mixer.md) -/

/-- The registers the window decodes for writing (rule R691). -/
inductive PaulaReg where
  | dmacon
  | intena
  | intreq
  | lch (x : Fin 4)
  | lcl (x : Fin 4)
  | len (x : Fin 4)
  | per (x : Fin 4)
  | vol (x : Fin 4)
  | dat (x : Fin 4)
  deriving DecidableEq, Repr

/-- A Paula register write with its timestamp (rules R697, R762). -/
structure PaulaWrite where
  ts : Nat
  reg : PaulaReg
  value : Word
  deriving DecidableEq, Repr

/-- A channel's latches (rule R690). -/
structure PaulaLatch where
  lc : Long
  len : Word
  per : Word
  vol : BitVec 7
  dat : Word
  deriving DecidableEq, Repr

/-- `state_x` of rule R695. -/
inductive PaulaRun where
  | off
  | playing
  | silent
  deriving DecidableEq, Repr

/-- A channel's playback state (rule R695). -/
structure PaulaPlay where
  state : PaulaRun
  ptr : Long
  left : Word
  word : Word
  /-- `bsel_x`: the low byte is current. -/
  low : Bool
  /-- The phase accumulator: below 2^PAULA_FRAC_BITS (rule R695), but for a channel that fell silent within rule R701's loop,
  where it keeps what the loop left and nothing reads it (DESIGN CHOICE, log entry 33). -/
  phase : Nat
  oneshot : Bool
  deriving DecidableEq, Repr

/-- A channel as the renderer sees it: the latches with the writes replayed so far, and the playback state. -/
structure PaulaChannel where
  latch : PaulaLatch
  play : PaulaPlay
  deriving DecidableEq, Repr

/-- The Paula engine: what the CPU sees (rules R690, R691), the write list, and the sound-producing state. -/
structure Paula where
  latches : Vector PaulaLatch 4
  dmacon : BitVec 15
  intena : BitVec 15
  intreq : BitVec 15
  writes : List PaulaWrite
  /-- DMACON with the writes replayed so far (rule R693). -/
  soundDmacon : BitVec 15
  channels : Vector PaulaChannel 4
  deriving DecidableEq, Repr

/-! ## The session (file 70_reset_and_hazards.md) -/

/-- A stereo frame, two signed 16-bit values (rule R764). -/
structure Frame where
  left : BitVec 16
  right : BitVec 16
  deriving DecidableEq, Repr

/-- The slice counter, the output and the end of the stream (rules R741, R761-R766). -/
structure Output where
  /-- The slice number j (rule R761). -/
  slice : Nat
  /-- The next output sample n (rules R741, R763). -/
  next : Nat
  /-- The output FIFO, oldest frame first (rule R763). -/
  fifo : List Frame
  /-- How many frames at the end of the FIFO come after the one whose tick overflowed: those rule R766 drops (the model's own
  field, log entry 36). -/
  afterOverflow : Nat
  /-- The session has ended (rules R740, R765, R766). -/
  ended : Bool
  /-- The frames returned so far: the stream position (rule R769). -/
  returned : Nat
  deriving DecidableEq, Repr

/-! ## The whole machine -/

/-- The state of the block. -/
structure State where
  /-- The parameters of rule R9; no step changes them. -/
  cfg : Params
  regs : RegFile
  /-- The program counter (rule R36). -/
  pc : Long
  /-- The run state (rule R49). -/
  run : Run
  /-- The cycle counter (rule R50). -/
  cycles : Nat
  hid : Hidden
  /-- `in_group0` (rules R51, R571). -/
  inGroup0 : Bool
  /-- The handler address of the group-0 exception being processed (rule R571, log entry 13): the opcode fetch there clears
  `inGroup0`. Read only while `inGroup0` is set. -/
  group0Handler : Long
  irq : Irq
  mem : Memory
  ym : Ym
  paula : Paula
  out : Output
  /-- THE MODEL'S OWN (log entry 1): how many free bits have been drawn. -/
  draws : Nat
  deriving DecidableEq, Repr

/-- The machine never stops with a fault: the spec turns every failing access into a bus or address error that the CPU
takes as an exception (rules R84, R90, R560), and every unrecoverable condition into the Halted run state (rule R583). No
constructor, so no step answers `.fault`; that is safe. -/
inductive Fault where
  deriving DecidableEq, Repr

/-- Why an instruction is refused. -/
inductive Refusal where
  /-- `exec`'s arm of an instruction that has no meaning yet raises it. Safe: nothing is claimed of it. No arm does. -/
  | notModelled (mnemonic : String)
  deriving DecidableEq, Repr

/-! ## Reset -/

/-- What the host hands to `setup` and `reset()` (rules R740, R741): the parts of the Program Image the block reads (the
bytes, the load address, the entry point) and the launch registers `RESET_REGS`. The hardware flags stand in `Params.hw`;
the image's other fields are not read (rule R744). -/
structure Launch where
  bytes : List Byte
  load : Nat
  entry : Long
  d : Vector Long 8
  a : Vector Long 7
  usp : Long
  deriving DecidableEq, Repr

/-- SR = 0x2700 (rule R55): S = 1, I = 7, every other bit 0. -/
def Sr.atReset : Sr where
  t1 := false
  t0 := false
  s := true
  i := 7
  x := false
  n := false
  z := false
  v := false
  c := false

/-- The YM2149 engine after `reset()` (rule R660), with a residual ring of `taps` entries. -/
def Ym.atReset (taps : Nat) : Ym where
  regs := Vector.replicate 16 0
  sel := 0
  writes := []
  sound := {
    regs := Vector.replicate 16 0
    tones := Vector.replicate 3 ⟨0, false⟩
    noise := ⟨0, 1, false⟩
    env := ⟨0, 0, false, true, 0⟩
    amps := Vector.replicate 3 0
    ticks := 0
    queue := []
    level := 0
    res := List.replicate taps 0
    fatal := false }

/-- The Paula engine after `reset()` (rule R705). -/
def Paula.atReset : Paula where
  latches := Vector.replicate 4 ⟨0, 0, 0, 0, 0⟩
  dmacon := 0
  intena := 0
  intreq := 0
  writes := []
  soundDmacon := 0
  channels := Vector.replicate 4 ⟨⟨0, 0, 0, 0, 0⟩, ⟨.off, 0, 0, 0, false, 0, false⟩⟩

/-- `reset()` (rules R55, R56, R741) for any parameters and any launch. That the stream position starts again at 0, which rule
R741 does not name, is the model's choice (DESIGN CHOICE, log entry 34). -/
def State.resetWith (p : Params) (l : Launch) : State :=
  let regs : RegFile := { d := l.d, a := l.a, usp := l.usp, ssp := BitVec.ofNat 32 p.memSize, sr := Sr.atReset }
  { cfg := p
    regs := regs
    pc := l.entry
    run := .normal
    cycles := 0
    hid := { pc0 := l.entry, ir := 0, tracePending := false, snapshot := regs, devSeq := 0, ext := [], operands := [] }
    inGroup0 := false
    group0Handler := 0
    irq := { seen := 0, edge7 := false }
    mem := Memory.writeBytes [] l.load l.bytes
    ym := Ym.atReset p.blepTaps
    paula := Paula.atReset
    out := { slice := 0, next := 0, fifo := [], afterOverflow := 0, ended := decide (p.hw = .malformed), returned := 0 }
    draws := 0 }

/-- The launch of `State.reset` (log entry 2): no image bytes, the entry point 0x1000 of 95_test_vectors.md, and 0 in
every register of the OPEN parameter `RESET_REGS`. -/
def Launch.standard : Launch where
  bytes := []
  load := 0
  entry := 0x1000
  d := Vector.replicate 8 0
  a := Vector.replicate 7 0
  usp := 0

/-- The machine right after reset: rule R741 at the parameters and the launch of log entry 2. -/
def State.reset : State := State.resetWith Params.standard Launch.standard

end Sys2Proof.Machine
end

