-- ==== Sys2Proof/Machine/Flags.lean ====
section
/-! DEFINITION. Machine/Flags.lean: the 16-bit view of SR (rules R40, R47), the flag helpers of rule R14, the conditions of
rule R460 and the one-bit steps of the shifts (rules R400-R408). -/

namespace Sys2Proof.Machine

open Sys2Proof.Config

/-! ## SR as a word -/

/-- The low byte of SR as a read gives it: `0 0 0 X N Z V C` (rule R40). -/
def Sr.ccr (r : Sr) : Byte :=
  0#3 ++ BitVec.ofBool r.x ++ BitVec.ofBool r.n ++ BitVec.ofBool r.z ++ BitVec.ofBool r.v ++ BitVec.ofBool r.c

/-- The high byte of SR: `T1 T0 S 0 0 I2 I1 I0` (rule R40). -/
def Sr.system (r : Sr) : Byte :=
  BitVec.ofBool r.t1 ++ BitVec.ofBool r.t0 ++ BitVec.ofBool r.s ++ 0#2 ++ r.i

/-- A read of SR (rule R47). -/
def Sr.toWord (r : Sr) : Word := r.system ++ r.ccr

/-- A write of an 8-bit value to CCR stores its bits 4..0 and leaves the system byte (rule R47). -/
def Sr.setCcr (r : Sr) (b : Byte) : Sr :=
  { r with x := b.getLsbD 4, n := b.getLsbD 3, z := b.getLsbD 2, v := b.getLsbD 1, c := b.getLsbD 0 }

/-- A write of a 16-bit value to SR: the value under `SR_MASK`, whose bit 14 is set when `SR_T0_STORED` (rules R42,
R47). -/
def Sr.ofWord (t0Stored : Bool) (w : Word) : Sr where
  t1 := w.getLsbD 15
  t0 := w.getLsbD 14 && t0Stored
  s := w.getLsbD 13
  i := w.extractLsb' 8 3
  x := w.getLsbD 4
  n := w.getLsbD 3
  z := w.getLsbD 2
  v := w.getLsbD 1
  c := w.getLsbD 0

/-! ## The helpers of rule R14 -/

/-- V of an addition: source and destination have one sign and the result the other. -/
def addV {n : Nat} (s d r : BitVec n) : Bool := (s.msb && d.msb && !r.msb) || (!s.msb && !d.msb && r.msb)

/-- C of an addition. -/
def addC {n : Nat} (s d r : BitVec n) : Bool := (s.msb && d.msb) || (!r.msb && d.msb) || (s.msb && !r.msb)

/-- V of a subtraction `d - s`. -/
def subV {n : Nat} (s d r : BitVec n) : Bool := (!s.msb && d.msb && !r.msb) || (s.msb && !d.msb && r.msb)

/-- C of a subtraction `d - s`: the borrow. -/
def subC {n : Nat} (s d r : BitVec n) : Bool := (s.msb && !d.msb) || (r.msb && !d.msb) || (s.msb && r.msb)

/-- `NZ(r)`. -/
def Sr.nz {n : Nat} (f : Sr) (r : BitVec n) : Sr := { f with n := r.msb, z := decide (r = 0) }

/-- `add_flags(s, d, r)`. -/
def Sr.addFlags {n : Nat} (f : Sr) (s d r : BitVec n) : Sr :=
  { f with x := addC s d r, n := r.msb, z := decide (r = 0), v := addV s d r, c := addC s d r }

/-- `sub_flags(s, d, r)`. -/
def Sr.subFlags {n : Nat} (f : Sr) (s d r : BitVec n) : Sr :=
  { f with x := subC s d r, n := r.msb, z := decide (r = 0), v := subV s d r, c := subC s d r }

/-- `cmp_flags(s, d, r)`: X unchanged. -/
def Sr.cmpFlags {n : Nat} (f : Sr) (s d r : BitVec n) : Sr :=
  { f with n := r.msb, z := decide (r = 0), v := subV s d r, c := subC s d r }

/-- `logic_flags(r)`: V and C cleared, X unchanged. -/
def Sr.logicFlags {n : Nat} (f : Sr) (r : BitVec n) : Sr :=
  { f with n := r.msb, z := decide (r = 0), v := false, c := false }

/-- The flags of ADDX (rule R304): as `add_flags`, but Z is only ever cleared. -/
def Sr.addxFlags {n : Nat} (f : Sr) (s d r : BitVec n) : Sr :=
  { f with x := addC s d r, n := r.msb, z := f.z && decide (r = 0), v := addV s d r, c := addC s d r }

/-- The flags of SUBX and NEGX (rules R309, R319): as `sub_flags`, but Z is only ever cleared. -/
def Sr.subxFlags {n : Nat} (f : Sr) (s d r : BitVec n) : Sr :=
  { f with x := subC s d r, n := r.msb, z := f.z && decide (r = 0), v := subV s d r, c := subC s d r }

/-! ## Conditions -/

/-- `cond(cc)` of rule R460. -/
def Sr.cond (f : Sr) : Cond → Bool
  | .t => true
  | .f => false
  | .hi => !f.c && !f.z
  | .ls => f.c || f.z
  | .cc => !f.c
  | .cs => f.c
  | .ne => !f.z
  | .eq => f.z
  | .vc => !f.v
  | .vs => f.v
  | .pl => !f.n
  | .mi => f.n
  | .ge => f.n == f.v
  | .lt => f.n != f.v
  | .gt => !f.z && (f.n == f.v)
  | .le => f.z || (f.n != f.v)

/-! ## Shifts and rotates -/

/-- The kind `tt` and the direction of a shift (rule R400). -/
inductive ShiftKind where
  | asl
  | asr
  | lsl
  | lsr
  | rol
  | ror
  | roxl
  | roxr
  deriving DecidableEq, Repr

/-- Kinds that rotate through X. -/
def ShiftKind.isRox : ShiftKind → Bool
  | .roxl => true
  | .roxr => true
  | _ => false

/-- Kinds that leave X unchanged (RO). -/
def ShiftKind.isRo : ShiftKind → Bool
  | .rol => true
  | .ror => true
  | _ => false

/-- The one-bit step of rules R401-R408: the new value and the bit shifted or rotated out. -/
def ShiftKind.step {n : Nat} (k : ShiftKind) (v : BitVec n) (x : Bool) : BitVec n × Bool :=
  match k with
  | .asl => (v <<< 1, v.msb)
  | .asr => (v.sshiftRight 1, v.getLsbD 0)
  | .lsl => (v <<< 1, v.msb)
  | .lsr => (v >>> 1, v.getLsbD 0)
  | .rol => (v <<< 1 ||| (BitVec.ofBool v.msb).setWidth n, v.msb)
  | .ror => (v >>> 1 ||| (BitVec.ofBool (v.getLsbD 0)).setWidth n <<< (n - 1), v.getLsbD 0)
  | .roxl => (v <<< 1 ||| (BitVec.ofBool x).setWidth n, v.msb)
  | .roxr => (v >>> 1 ||| (BitVec.ofBool x).setWidth n <<< (n - 1), v.getLsbD 0)

/-- What a shift has worked out: the value, the last bit out, whether ASL's sign has changed, and the X of ROXL and ROXR. -/
structure ShiftAcc (n : Nat) where
  value : BitVec n
  out : Bool
  signChanged : Bool
  x : Bool
  deriving DecidableEq, Repr

/-- One step of the loop of rule R400; only ASL sets V (rule R401) and only ROXL and ROXR carry X along. -/
def ShiftAcc.next {n : Nat} (k : ShiftKind) (acc : ShiftAcc n) : ShiftAcc n :=
  let r := k.step acc.value acc.x
  { value := r.1
    out := r.2
    signChanged := acc.signChanged || (decide (k = .asl) && (r.1.msb != acc.value.msb))
    x := if k.isRox then r.2 else acc.x }

/-- `repeat c times` of rule R400. -/
def ShiftAcc.iterate {n : Nat} (k : ShiftKind) : Nat → ShiftAcc n → ShiftAcc n
  | 0, acc => acc
  | c + 1, acc => ShiftAcc.iterate k c (acc.next k)

/-- The loop of rule R400 from the operand and the X flag. -/
def shiftLoop {n : Nat} (k : ShiftKind) (c : Nat) (v : BitVec n) (x : Bool) : ShiftAcc n :=
  ShiftAcc.iterate k c { value := v, out := false, signChanged := false, x := x }

/-- The flags of rule R400: a count of 0 clears C (ROX: copies X) and leaves X. -/
def Sr.shiftFlags {n : Nat} (f : Sr) (k : ShiftKind) (c : Nat) (acc : ShiftAcc n) : Sr :=
  { f with
    x := if c = 0 then f.x else if k.isRo then f.x else acc.out
    n := acc.value.msb
    z := decide (acc.value = 0)
    v := acc.signChanged
    c := if c = 0 then (if k.isRox then f.x else false) else acc.out }

/-! ## Decimal arithmetic (file 46_bcd.md) -/

/-- The digits of a byte, low and high, as integers. -/
def lowDigit (b : Byte) : Int := (b.toNat % 16 : Nat)

/-- The high digit of a byte. -/
def highDigit (b : Byte) : Int := (b.toNat / 16 : Nat)

/-- ABCD's result and decimal carry (rule R450). -/
def bcdAdd (s d : Byte) (x : Bool) : Byte × Bool :=
  let t := lowDigit s + lowDigit d + (if x then 1 else 0)
  let t := if t > 9 then t + 6 else t
  let t := t + 16 * highDigit s + 16 * highDigit d
  if t > 0x99 then (BitVec.ofInt 8 (t - 0xA0), true) else (BitVec.ofInt 8 t, false)

/-- SBCD's result `d - s - X` and decimal borrow (rule R451). -/
def bcdSub (s d : Byte) (x : Bool) : Byte × Bool :=
  let t := lowDigit d - lowDigit s - (if x then 1 else 0)
  let t := if t < 0 ∨ t > 9 then t - 6 else t
  let t := t + 16 * highDigit d - 16 * highDigit s
  if t < 0 ∨ t > 0x99 then (BitVec.ofInt 8 (t + 0xA0), true) else (BitVec.ofInt 8 t, false)

/-- The flags of rules R450-R452: X and C the decimal carry, Z only ever cleared, N and V the free bits drawn for them. -/
def Sr.bcdFlags (f : Sr) (r : Byte) (carry n v : Bool) : Sr :=
  { f with x := carry, n := n, z := f.z && decide (r = 0), v := v, c := carry }

end Sys2Proof.Machine
end

