-- ==== Sys2Proof/Machine/Paula.lean ====
section
/-! DEFINITION. Machine/Paula.lean: Paula's bus interface and the effect of a register write on the latches (rules
R690-R692, R699, R700). -/

namespace Sys2Proof.Machine

/-- The external addresses of the window (rule R691). -/
def inPaulaWindow (e : Nat) : Bool := decide (0xDFF000 ≤ e) && decide (e ≤ 0xDFF1FF)

/-- The offset of an external address of the window, which starts at a multiple of its 512 bytes (rule R691). -/
def paulaOffset (e : Nat) : Nat := e % 0x200

/-- The writable register at an even window offset, if the offset decodes one (rule R691). -/
def paulaRegAt (o : Nat) : Option PaulaReg :=
  if o = 0x096 then some .dmacon
  else if o = 0x09A then some .intena
  else if o = 0x09C then some .intreq
  else if 0x0A0 ≤ o ∧ o < 0x0E0 then
    let x : Fin 4 := ⟨(o - 0x0A0) / 0x10 % 4, Nat.mod_lt _ (by decide)⟩
    match o % 0x10 with
    | 0x0 => some (.lch x)
    | 0x2 => some (.lcl x)
    | 0x4 => some (.len x)
    | 0x6 => some (.per x)
    | 0x8 => some (.vol x)
    | 0xA => some (.dat x)
    | _ => none
  else none

/-- A set/clear write (rule R692): bit 15 chooses to set or to clear the bits written in 14..0. -/
def setClear (reg : BitVec 15) (v : Word) : BitVec 15 :=
  if v.getLsbD 15 then reg ||| v.extractLsb' 0 15 else reg &&& ~~~(v.extractLsb' 0 15)

/-- The effect of a write on one channel's latches (rule R690), for the channel registers. -/
def PaulaLatch.write (l : PaulaLatch) (r : PaulaReg) (v : Word) : PaulaLatch :=
  match r with
  | .lch _ => { l with lc := v ++ l.lc.extractLsb' 0 16 }
  | .lcl _ => { l with lc := l.lc.extractLsb' 16 16 ++ (v &&& 0xFFFE) }
  | .len _ => { l with len := v }
  | .per _ => { l with per := v }
  | .vol _ => { l with vol := v.extractLsb' 0 7 }
  | .dat _ => { l with dat := v }
  | .dmacon => l
  | .intena => l
  | .intreq => l

/-- The channel a register belongs to. -/
def PaulaReg.channel : PaulaReg → Option (Fin 4)
  | .lch x => some x
  | .lcl x => some x
  | .len x => some x
  | .per x => some x
  | .vol x => some x
  | .dat x => some x
  | .dmacon => none
  | .intena => none
  | .intreq => none

/-- The CPU-visible effect of a register write, at once (rules R692, R694, R762). -/
def Paula.store (p : Paula) (r : PaulaReg) (v : Word) : Paula :=
  match r with
  | .dmacon => { p with dmacon := setClear p.dmacon v }
  | .intena => { p with intena := setClear p.intena v }
  | .intreq => { p with intreq := setClear p.intreq v }
  | r =>
    match r.channel with
    | some x => { p with latches := p.latches.set x.val (p.latches[x].write r v) x.isLt }
    | none => p

/-- A word write at an even external address of the window (rule R691): the CPU-visible effect, and the entry of the
write list (rule R762). An offset that decodes no register ignores the write. -/
def Paula.writeWord (p : Paula) (e : Nat) (v : Word) (ts : Nat) : Paula :=
  match paulaRegAt (paulaOffset e) with
  | some r => { p.store r v with writes := p.writes ++ [{ ts := ts, reg := r, value := v }] }
  | none => p

/-- A word read at an even external address of the window (rule R691): the three read ports, 0 elsewhere. -/
def Paula.readWord (p : Paula) (e : Nat) : Word :=
  if paulaOffset e = 0x002 then p.dmacon.setWidth 16
  else if paulaOffset e = 0x01C then p.intena.setWidth 16
  else if paulaOffset e = 0x01E then p.intreq.setWidth 16
  else 0

/-- A byte write is the word write of the byte on both halves of the bus (rule R691). -/
def Paula.writeByte (p : Paula) (e : Nat) (v : Byte) (ts : Nat) : Paula := p.writeWord (e - e % 2) (v ++ v) ts

/-- A byte read is half of the word read (rule R691). -/
def Paula.readByte (p : Paula) (e : Nat) : Byte :=
  if e % 2 = 0 then (p.readWord e).extractLsb' 8 8 else (p.readWord (e - 1)).extractLsb' 0 8

/-- `raise_audio_irq(x)` (rule R700). -/
def Paula.raiseIrq (p : Paula) (x : Fin 4) : Paula := { p with intreq := p.intreq ||| (1 : BitVec 15) <<< (7 + x.val) }

/-- `paula_irq_level` (rule R700): level 4 while an enabled audio interrupt is requested. -/
def Paula.irqLevel (p : Paula) (enabled : Bool) : BitVec 3 :=
  if enabled && p.intena.getLsbD 14 && decide (p.intena.extractLsb' 7 4 &&& p.intreq.extractLsb' 7 4 ≠ 0) then 4 else 0

end Sys2Proof.Machine
end

