-- ==== Sys2Proof/Machine/Ym.lean ====
section
/-! DEFINITION. Machine/Ym.lean: the YM2149's bus interface (rules R620-R622). -/

namespace Sys2Proof.Machine

/-- A 4-bit register number as an index of the sixteen registers. -/
def ymIndex (r : BitVec 4) : Fin 16 := ⟨r.toNat, r.isLt⟩

/-- The stored bits of a register (rule R620). -/
def ymMask (r : BitVec 4) : Byte :=
  match r.toNat with
  | 1 => 0x0F
  | 3 => 0x0F
  | 5 => 0x0F
  | 6 => 0x1F
  | 8 => 0x1F
  | 9 => 0x1F
  | 10 => 0x1F
  | 13 => 0x0F
  | _ => 0xFF

/-- Stores `v & mask(r)` in register `r` (rule R620). -/
def ymStore (regs : Vector Byte 16) (r : BitVec 4) (v : Byte) : Vector Byte 16 :=
  regs.set (ymIndex r).val (v &&& ymMask r) (ymIndex r).isLt

/-- The external addresses of the window (rule R621). -/
def inYmWindow (e : Nat) : Bool := decide (0xFF8800 ≤ e) && decide (e ≤ 0xFF88FF)

/-- A byte read (rule R621): the selected register at even addresses, `YM_ODD_READ` at odd ones. No side effect. -/
def Ym.readByte (y : Ym) (oddRead : Byte) (e : Nat) : Byte :=
  if e % 2 = 0 then y.regs[ymIndex y.sel] else oddRead

/-- A byte write (rule R621): offset 0 selects a register, offset 2 writes the selected one and appends the event of rule
R622, the odd bytes are not connected. -/
def Ym.writeByte (y : Ym) (e : Nat) (v : Byte) (ts : Nat) : Ym :=
  match e % 4 with
  | 0 => { y with sel := v.extractLsb' 0 4 }
  | 2 => { y with
      regs := ymStore y.regs y.sel v
      writes := y.writes ++ [{ ts := ts, reg := y.sel, value := v }] }
  | _ => y

/-- A word read is two byte reads, high byte at the lower address (rules R621, R622). -/
def Ym.readWord (y : Ym) (oddRead : Byte) (e : Nat) : Word := y.readByte oddRead e ++ y.readByte oddRead (e + 1)

/-- A word write is two byte writes, high byte at the lower address (rules R621, R622). -/
def Ym.writeWord (y : Ym) (e : Nat) (v : Word) (ts : Nat) : Ym :=
  (y.writeByte e (v.extractLsb' 8 8) ts).writeByte (e + 1) (v.extractLsb' 0 8) ts

end Sys2Proof.Machine
end

