-- ==== Sys2Proof/Machine/Ops.lean ====
section
/-! DEFINITION. Machine/Ops.lean: the named operations every meaning is built from: registers, the bus (file
20_memory.md), instruction fetch, raising and entering exceptions and returning from them (file 60_exceptions.md), and
`complete`, which runs one instruction's rule as rule R585 says. -/

namespace Sys2Proof.Machine

open Sys2Proof.Config

/-! ## Exception events -/

/-- The fault record `(addr, read, fc, in)` of a bus or address error (rules R552, R566). -/
structure FaultRec where
  addr : Long
  read : Bool
  fc : BitVec 3
  /-- I/N: the access belonged to exception processing. -/
  inExc : Bool
  deriving DecidableEq, Repr

/-- The events of rule R560. -/
inductive Event where
  | busError (f : FaultRec)
  | addressError (f : FaultRec)
  | illegalInstruction
  | zeroDivide
  | chk
  | trapV
  | privilegeViolation
  | trace
  | lineA
  | lineF
  | interrupt (level : BitVec 3) (vector : Byte)
  | trap (k : BitVec 4)
  deriving DecidableEq, Repr

/-- The exception groups (rules R17, R550). -/
inductive Group where
  | zero
  | one
  | two
  deriving DecidableEq, Repr

/-- The vector number of an event (rules R550, R560). -/
def Event.vector : Event → Byte
  | .busError _ => 2
  | .addressError _ => 3
  | .illegalInstruction => 4
  | .zeroDivide => 5
  | .chk => 6
  | .trapV => 7
  | .privilegeViolation => 8
  | .trace => 9
  | .lineA => 10
  | .lineF => 11
  | .interrupt _ n => n
  | .trap k => 32 + k.setWidth 8

/-- The group of an event (rule R550). -/
def Event.group : Event → Group
  | .busError _ => .zero
  | .addressError _ => .zero
  | .illegalInstruction => .one
  | .privilegeViolation => .one
  | .trace => .one
  | .lineA => .one
  | .lineF => .one
  | .interrupt _ _ => .one
  | .zeroDivide => .two
  | .chk => .two
  | .trapV => .two
  | .trap _ => .two

/-- The fault record of a group-0 event, which has the `group0` frame (rule R552). -/
def Event.faultRec : Event → Option FaultRec
  | .busError f => some f
  | .addressError f => some f
  | _ => none

/-! ## The body of an instruction

A rule's pseudocode is an `Exec`: it changes the state and answers a value, or raises an event. On an event the state
reached so far is kept, because the effects before a group-2 `raise` stand (rule R563); `complete` does the rollback of
group 0. -/

/-- A piece of a rule's pseudocode. -/
abbrev Exec (α : Type) := EStateM Event State α

/-- Reads something of the state. -/
def reading {α : Type} (f : State → α) : Exec α := fun s => .ok (f s) s

/-- Changes the state. -/
def updating (f : State → State) : Exec Unit := fun s => .ok () (f s)

/-- `raise E` (rule R560). -/
def raise {α : Type} (e : Event) : Exec α := fun s => .error e s

/-! ## Registers (rules R12, R31-R35) -/

/-- A7 of rule R34: SSP in supervisor mode, USP in user mode. -/
def RegFile.sp (r : RegFile) : Long := if r.sr.s then r.ssp else r.usp

/-- Writes A7 (rule R34). -/
def RegFile.setSp (r : RegFile) (v : Long) : RegFile := if r.sr.s then { r with ssp := v } else { r with usp := v }

/-- `A[n]` (rules R12, R34). -/
def RegFile.getA (r : RegFile) (n : Reg) : Long := if h : n.val < 7 then r.a[n.val] else r.sp

/-- `A[n] <- v` (rules R12, R32, R34). -/
def RegFile.setA (r : RegFile) (n : Reg) (v : Long) : RegFile :=
  if h : n.val < 7 then { r with a := r.a.set n.val v } else r.setSp v

/-- `D[n]`. -/
def RegFile.getD (r : RegFile) (n : Reg) : Long := r.d[n]

/-- `D[n] <- v`. -/
def RegFile.setD (r : RegFile) (n : Reg) (v : Long) : RegFile := { r with d := r.d.set n.val v n.isLt }

/-- A long whose low `n` bits are replaced (rules R12, R31). -/
def mergeLow {n : Nat} (old : Long) (v : BitVec n) : Long := (old >>> n) <<< n ||| v.setWidth 32

/-- The registers as the list `CYCLES` sees (rule R770): D0-D7, A0-A6, USP, SSP, SR. -/
def RegFile.toList (r : RegFile) : List Long :=
  r.d.toList ++ r.a.toList ++ [r.usp, r.ssp, r.sr.toWord.setWidth 32]

/-- `D[n].sz`. -/
def readD (n : Reg) (sz : Size) : Exec (BitVec sz.bits) := reading (fun s => (s.regs.getD n).setWidth sz.bits)

/-- `D[n].sz <- v`: the upper bits are kept. -/
def writeD (n : Reg) (sz : Size) (v : BitVec sz.bits) : Exec Unit :=
  updating (fun s => { s with regs := s.regs.setD n (mergeLow (s.regs.getD n) v) })

/-- `A[n]`. -/
def readA (n : Reg) : Exec Long := reading (fun s => s.regs.getA n)

/-- `A[n] <- v`. -/
def writeA (n : Reg) (v : Long) : Exec Unit := updating (fun s => { s with regs := s.regs.setA n v })

/-- The register number i = 0..15 of a MOVEM list, in the order D0..D7, A0..A7 (rule R144). -/
def RegFile.getListed (r : RegFile) (i : Fin 16) : Long :=
  if h : i.val < 8 then r.getD ⟨i.val, h⟩ else r.getA ⟨i.val - 8, by omega⟩

/-- Writes register i of a MOVEM list (rules R144, R254). -/
def RegFile.setListed (r : RegFile) (i : Fin 16) (v : Long) : RegFile :=
  if h : i.val < 8 then r.setD ⟨i.val, h⟩ v else r.setA ⟨i.val - 8, by omega⟩ v

/-- Reads SR's fields. -/
def readSr : Exec Sr := reading (fun s => s.regs.sr)

/-- Changes SR's fields: the flags a rule names, or the whole of it. -/
def updateSr (f : Sr → Sr) : Exec Unit := updating (fun s => { s with regs := { s.regs with sr := f s.regs.sr } })

/-- `SR <- w` (rule R47). -/
def writeSrWord (w : Word) : Exec Unit :=
  updating (fun s => { s with regs := { s.regs with sr := Sr.ofWord s.cfg.srT0Stored w } })

/-- `CCR <- b` (rule R47). -/
def writeCcr (b : Byte) : Exec Unit := updateSr (fun f => f.setCcr b)

/-- `pc <- target` (rule R461). -/
def jumpTo (target : Long) : Exec Unit := updating (fun s => { s with pc := target })

/-- `draw(1)` (rule R13, log entry 1): the next free bit. -/
def drawBit : Exec Bool := fun s => .ok (freeBit s.draws) { s with draws := s.draws + 1 }

/-- The privilege check of rule R500, the first thing a privileged instruction does. -/
def requireSupervisor : Exec Unit := fun s => if s.regs.sr.s then .ok () s else .error .privilegeViolation s

/-! ## The bus (rules R80-R90) -/

/-- An odd address, at which no word or long access is made (rules R84, R85). -/
def isOdd (a : Long) : Bool := a.getLsbD 0

/-- What an access is for: a data access or an instruction fetch of the program, or an access of exception processing
(rules R80, R561, R566). -/
inductive AccessKind where
  | data
  | program
  | exception
  deriving DecidableEq, Repr

/-- The external address `ext(a)` (rule R81). -/
def State.extAddr (s : State) (a : Long) : Nat := a.toNat % 2 ^ s.cfg.addrBits

/-- The function code of an access (rules R80, R86, R88). -/
def State.functionCode (s : State) : AccessKind → BitVec 3
  | .data => if s.regs.sr.s then 5 else 1
  | .program => if s.regs.sr.s then 6 else 2
  | .exception => 5

/-- The fault record of an access. -/
def State.faultRec (s : State) (k : AccessKind) (a : Long) (read : Bool) : FaultRec where
  addr := a
  read := read
  fc := s.functionCode k
  inExc := decide (k = .exception)

/-- What answers at an external address (rules R86, R87, R90, R91). -/
inductive Target where
  | ram (e : Nat)
  | ym (e : Nat)
  | paula (e : Nat)
  | unmapped
  deriving DecidableEq, Repr

/-- The address map of rule R91 with the unmapped policy of rule R90. -/
def State.target (s : State) (e : Nat) : Target :=
  if s.cfg.hw.hasYm && inYmWindow e then .ym e
  else if s.cfg.hw.hasPaula && inPaulaWindow e then .paula e
  else if e < s.cfg.memSize then .ram e
  else if s.cfg.unmapped = .mirror then .ram (e % s.cfg.memSize)
  else .unmapped

/-- The byte an address reads as; none where no one answers. No read has a side effect (rules R94, R95). -/
def State.busByte (s : State) (a : Long) : Option Byte :=
  match s.target (s.extAddr a) with
  | .ram e => some (Memory.read s.mem e)
  | .ym e => some (s.ym.readByte s.cfg.ymOddRead e)
  | .paula e => some (s.paula.readByte e)
  | .unmapped => none

/-- The word an even address reads as, most significant byte first (rules R82, R83). -/
def State.busWord (s : State) (a : Long) : Option Word :=
  match s.target (s.extAddr a) with
  | .ram e => some (Memory.read s.mem e ++ Memory.read s.mem (e + 1))
  | .ym e => some (s.ym.readWord s.cfg.ymOddRead e)
  | .paula e => some (s.paula.readWord e)
  | .unmapped => none

/-- The state after a byte is written; none where no one answers. -/
def State.storeByte (s : State) (a : Long) (v : Byte) (ts : Nat) : Option State :=
  match s.target (s.extAddr a) with
  | .ram e => some { s with mem := Memory.write s.mem e v }
  | .ym e => some { s with ym := s.ym.writeByte e v ts }
  | .paula e => some { s with paula := s.paula.writeByte e v ts }
  | .unmapped => none

/-- The state after a word is written at an even address, most significant byte first; none where no one answers. -/
def State.storeWord (s : State) (a : Long) (v : Word) (ts : Nat) : Option State :=
  match s.target (s.extAddr a) with
  | .ram e => some { s with mem := Memory.write (Memory.write s.mem e (v.extractLsb' 8 8)) (e + 1) (v.extractLsb' 0 8) }
  | .ym e => some { s with ym := s.ym.writeWord e v ts }
  | .paula e => some { s with paula := s.paula.writeWord e v ts }
  | .unmapped => none

/-- `MemRead(a, 1)` (rule R86). -/
def readByteAt (k : AccessKind) (a : Long) : Exec Byte := fun s =>
  match s.busByte a with
  | some v => .ok v s
  | none => .error (.busError (s.faultRec k a true)) s

/-- `MemRead(a, 2)` (rules R84, R86): an odd address raises an address error before anything is read. -/
def readWordAt (k : AccessKind) (a : Long) : Exec Word := fun s =>
  if isOdd a then .error (.addressError (s.faultRec k a true)) s
  else
    match s.busWord a with
    | some v => .ok v s
    | none => .error (.busError (s.faultRec k a true)) s

/-- `MemRead(a, 4)`: two word reads, the high word first (rule R89). -/
def readLongAt (k : AccessKind) (a : Long) : Exec Long := do
  let hi ← readWordAt k a
  let lo ← readWordAt k (a + 2)
  return hi ++ lo

/-- `MemWrite(a, 1, v)` (rule R87). -/
def writeByteAt (k : AccessKind) (a : Long) (v : Byte) (ts : Nat) : Exec Unit := fun s =>
  match s.storeByte a v ts with
  | some t => .ok () t
  | none => .error (.busError (s.faultRec k a false)) s

/-- `MemWrite(a, 2, v)` (rules R84, R87): an odd address raises an address error before anything is written. -/
def writeWordAt (k : AccessKind) (a : Long) (v : Word) (ts : Nat) : Exec Unit := fun s =>
  if isOdd a then .error (.addressError (s.faultRec k a false)) s
  else
    match s.storeWord a v ts with
    | some t => .ok () t
    | none => .error (.busError (s.faultRec k a false)) s

/-- `MemWrite(a, 4, v)`: two word writes, the high word first, both with one timestamp (rules R87, R89). -/
def writeLongAt (k : AccessKind) (a : Long) (v : Long) (ts : Nat) : Exec Unit := do
  writeWordAt k a (v.extractLsb' 16 16) ts
  writeWordAt k (a + 2) (v.extractLsb' 0 16) ts

/-! ## Data accesses of an instruction -/

/-- Notes a value read from memory for `CYCLES` (rule R770). -/
def noteOperand (v : Long) : Exec Unit :=
  updating (fun s => { s with hid := { s.hid with operands := s.hid.operands ++ [v] } })

/-- A data read of size `sz` by the instruction in hand (rule R86). -/
def readMem (sz : Size) (a : Long) : Exec (BitVec sz.bits) :=
  match sz with
  | .b => do
    let v ← readByteAt .data a
    noteOperand (v.setWidth 32)
    return v
  | .w => do
    let v ← readWordAt .data a
    noteOperand (v.setWidth 32)
    return v
  | .l => do
    let v ← readLongAt .data a
    noteOperand v
    return v

/-- The timestamp of the instruction's next device write (rule R102). -/
def State.writeStamp (s : State) : Nat := s.cycles + s.cfg.writeTsOffset.get (s.hid.ir, s.hid.devSeq)

/-- Whether an address lies in a window of an enabled engine. -/
def State.isDevice (s : State) (a : Long) : Bool :=
  (s.cfg.hw.hasYm && inYmWindow (s.extAddr a)) || (s.cfg.hw.hasPaula && inPaulaWindow (s.extAddr a))

/-- Counts a device write of the instruction in hand (rule R102). -/
def noteDeviceWrite (device : Bool) : Exec Unit :=
  updating (fun s => { s with hid := { s.hid with devSeq := if device then s.hid.devSeq + 1 else s.hid.devSeq } })

/-- A data write of size `sz` by the instruction in hand (rules R87, R102). A long write is one device write with one
timestamp (rule R89). -/
def writeMem (sz : Size) (a : Long) (v : BitVec sz.bits) : Exec Unit := do
  let ts ← reading (fun s => s.writeStamp)
  let device ← reading (fun s => s.isDevice a || (decide (sz = .l) && s.isDevice (a + 2)))
  match sz, v with
  | .b, v => writeByteAt .data a v ts
  | .w, v => writeWordAt .data a v ts
  | .l, v => writeLongAt .data a v ts
  noteDeviceWrite device

/-- `Push(n, v)` of rule R202 for `n = bytes(sz)`. -/
def push (sz : Size) (v : BitVec sz.bits) : Exec Unit := do
  let sp ← readA 7
  let sp := sp - BitVec.ofNat 32 sz.bytes
  writeA 7 sp
  writeMem sz sp v

/-- `Pop(n)` of rule R202 for `n = bytes(sz)`. -/
def pop (sz : Size) : Exec (BitVec sz.bits) := do
  let sp ← readA 7
  let v ← readMem sz sp
  writeA 7 (sp + BitVec.ofNat 32 sz.bytes)
  return v

/-! ## The instruction stream (rule R88) -/

/-- The word at `pc` as program space, and `pc` moved past it. -/
def fetchWord : Exec Word := do
  let pc ← reading (fun s => s.pc)
  let w ← readWordAt .program pc
  updating (fun s => { s with pc := pc + 2 })
  return w

/-- `Fetch16()` for an extension word. -/
def fetch16 : Exec Word := do
  let w ← fetchWord
  updating (fun s => { s with hid := { s.hid with ext := s.hid.ext ++ [w] } })
  return w

/-- `Fetch32()`: high word first. -/
def fetch32 : Exec Long := do
  let hi ← fetch16
  let lo ← fetch16
  return hi ++ lo

/-- The fetch of an opcode word: `IR <- Fetch16()`. The one at the group-0 handler's address clears `in_group0` when it
completes (rules R571, R585, log entry 13). -/
def fetchOpcode : Exec Word := do
  let at_ ← reading (fun s => s.pc)
  let w ← fetchWord
  updating (fun s => { s with
    hid := { s.hid with ir := w }
    inGroup0 := s.inGroup0 && decide (at_ ≠ s.group0Handler) })
  return w

/-! ## Entering an exception (rules R561, R566, R571, R572) -/

/-- The status word of a group-0 frame (rule R566): bit 4 R/W, bit 3 I/N, bits 2..0 the function code. -/
def FaultRec.statusWord (f : FaultRec) : Word := 0#11 ++ BitVec.ofBool f.read ++ BitVec.ofBool f.inExc ++ f.fc

/-- SR on entry (rule R561): S set; T1 and T0 cleared unless the vector is 9 (a trace, or an interrupt whose source answers
9) and `TRACE_KEEPS_T`; an interrupt sets the mask to its level. -/
def Sr.onEntry (f : Sr) (e : Event) (keepsT : Bool) : Sr :=
  let keep := keepsT && decide (e.vector = 9)
  { f with
    s := true
    t1 := keep && f.t1
    t0 := keep && f.t0
    i := match e with
      | .interrupt l _ => l
      | _ => f.i }

/-- A push of exception processing on the supervisor stack (rule R561): the writes carry the cycle count of the entry. -/
def pushFrameWord (v : Word) : Exec Unit := do
  updating (fun s => { s with regs := { s.regs with ssp := s.regs.ssp - 2 } })
  let sp ← reading (fun s => s.regs.ssp)
  let ts ← reading (fun s => s.cycles)
  writeWordAt .exception sp v ts

/-- The same for a long. -/
def pushFrameLong (v : Long) : Exec Unit := do
  updating (fun s => { s with regs := { s.regs with ssp := s.regs.ssp - 4 } })
  let sp ← reading (fun s => s.regs.ssp)
  let ts ← reading (fun s => s.cycles)
  writeLongAt .exception sp v ts

/-- What a group-0 frame adds below the short frame (rule R566): IR field, access address, status word. -/
def pushFaultInfo (e : Event) : Exec Unit := do
  match e.faultRec with
  | some f =>
    let ir ← reading (fun s => s.hid.ir)
    pushFrameWord ir
    pushFrameLong f.addr
    pushFrameWord f.statusWord
  | none => return ()

/-- The cycles of exception processing through a vector (rule R770). -/
def State.excCost (s : State) (v : Byte) : Nat := max 1 (s.cfg.excCycles.get v)

/-- The jump to the handler (rules R561, R572): a handler that is 0 or outside RAM halts the CPU. The handler of a group-0
event is remembered for rule R571. -/
def enterHandler (e : Event) (h : Long) : Exec Unit :=
  updating (fun s =>
    if h = 0 ∨ s.cfg.memSize ≤ s.extAddr h then { s with run := .halted }
    else { s with
      pc := h
      cycles := s.cycles + s.excCost e.vector
      group0Handler := if e.group = .zero then h else s.group0Handler })

/-- The entry of rule R561, step by step. -/
def entryBody (e : Event) (p : Long) : Exec Unit := do
  let old ← readSr
  let keepsT ← reading (fun s => s.cfg.traceKeepsT)
  updateSr (fun f => f.onEntry e keepsT)
  updating (fun s => { s with inGroup0 := s.inGroup0 || decide (e.group = .zero) })
  pushFrameLong p
  pushFrameWord old.toWord
  pushFaultInfo e
  let h ← readLongAt .exception (e.vector.setWidth 32 * 4)
  enterHandler e h

/-- TAKING AN EXCEPTION (rules R561, R572): the entry of event `e` with stacked PC `p`. A fault while stacking halts the
CPU; what the entry has done before it stands (log entry 8). -/
def enter (e : Event) (p : Long) (s : State) : State :=
  match entryBody e p s with
  | .ok _ t => t
  | .error _ t => { t with run := .halted }

/-- A group-0 fault (rules R571, R585): its entry with the fault PC, or the double fault that halts and takes no frame. No
trace follows (rule R575). -/
def takeFault (e : Event) (faultPc : Long) (s : State) : State :=
  let s := { s with hid := { s.hid with tracePending := false } }
  if s.inGroup0 then { s with run := .halted } else enter e faultPc s

/-! ## Returning from an exception (rules R511, R573) -/

/-- What RTE does after its privilege check: SR and PC come from the frame at SSP. -/
def returnFromException : Exec Unit := do
  let ssp ← reading (fun s => s.regs.ssp)
  let w ← readMem .w ssp
  let p ← readMem .l (ssp + 2)
  updating (fun s => { s with regs := { s.regs with ssp := ssp + 6 } })
  writeSrWord w
  jumpTo p

/-! ## Running one instruction (rules R563, R585) -/

/-- The start of an instruction: the snapshot is taken and nothing is measured yet (rule R51). -/
def State.start (s : State) : State :=
  { s with hid := { s.hid with snapshot := s.regs, devSeq := 0, ext := [], operands := [] } }

/-- The arguments of `CYCLES` for the instruction in hand (rule R770). -/
def State.cycleKey (s : State) : CycleKey where
  ir := s.hid.ir
  ext := s.hid.ext
  operands := s.hid.snapshot.toList ++ s.hid.operands

/-- `cycles <- cycles + CYCLES(IR, ext words, operands)` (rules R585, R770), a positive number. -/
def State.charge (s : State) : State := { s with cycles := s.cycles + max 1 (s.cfg.cycles.get s.cycleKey) }

/-- The rollback of rule R563, to the state `s0` the instruction started from: the registers of the snapshot, and memory
and both engines without the writes the instruction made. -/
def State.rollback (s s0 : State) : State :=
  { s with regs := s0.hid.snapshot, mem := s0.mem, ym := s0.ym, paula := s0.paula }

/-- No trace follows this instruction (rule R575). -/
def State.noTrace (s : State) : State := { s with hid := { s.hid with tracePending := false } }

/-- The end of an instruction that raised `e` (rule R585): group 0 is rolled back and stacks `pc0 + 2` (rule R562), group 1
stacks `pc0`, group 2 stacks the current pc and its effects stand. -/
def State.afterEvent (s s0 : State) (e : Event) : State :=
  match e.group with
  | .zero => let t := (s.rollback s0).charge; takeFault e (t.hid.pc0 + 2) t
  | .one => let t := s.charge.noTrace; enter e t.hid.pc0 t
  | .two => let t := s.charge; enter e t.pc t

/-- Runs a rule from the state after the opcode fetch, charges its cycles, and takes the exception it raises (rule
R585). -/
def runRule (body : Exec Unit) (s : State) : State :=
  match body s.start with
  | .ok _ t => t.charge
  | .error e t => t.afterEvent s.start e

/-- The meaning a rule's pseudocode gives: always a next state. -/
def complete (body : Exec Unit) (s : State) : Host.Outcome State Fault Refusal := .next (runRule body s)

end Sys2Proof.Machine
end

