-- ==== Sys2Proof/Machine/Operands.lean ====
section
/-! DEFINITION. Machine/Operands.lean: the addressing modes (file 40_addressing.md) and the operand forms of the
instructions. -/

namespace Sys2Proof.Machine

/-- An operand location (rule R200). -/
inductive Loc where
  | dreg (n : Reg)
  | areg (n : Reg)
  | mem (a : Long)
  | imm (v : Long)
  deriving DecidableEq, Repr

/-- `step(r, sz)` of rule R206: a byte step of A7 is 2. -/
def autoStep (r : Reg) (sz : Size) : Long :=
  if r = 7 ∧ sz = .b then 2 else BitVec.ofNat 32 sz.bytes

/-- The index value of a brief extension word (rule R209). -/
def RegFile.indexValue (r : RegFile) (b : BriefExt) : Long :=
  let x := if b.isAddr then r.getA b.reg else r.getD b.reg
  if b.isLong then x else (x.extractLsb' 0 16).signExtend 32

/-- `base + d8 + Xi` of rules R209 and R211, with the brief extension word fetched. -/
def indexed (base : Long) : Exec Long := do
  let w ← fetch16
  let b := decodeBrief w
  let x ← reading (fun s => s.regs.indexValue b)
  return base + b.d8.signExtend 32 + x

/-- An immediate of size `sz` (rules R137, R214): a byte takes the low half of its word. -/
def fetchImm (sz : Size) : Exec (BitVec sz.bits) :=
  match sz with
  | .b => do
    let w ← fetch16
    return w.extractLsb' 0 8
  | .w => fetch16
  | .l => fetch32

/-- `EA(mode, reg, sz)` of rules R200, R203-R214. -/
def resolve (ea : Ea) (sz : Size) : Exec Loc :=
  match ea with
  | .dn r => return .dreg r
  | .an r => return .areg r
  | .ind r => do
    let a ← readA r
    return .mem a
  | .postinc r => do
    let a ← readA r
    writeA r (a + autoStep r sz)
    return .mem a
  | .predec r => do
    let a ← readA r
    writeA r (a - autoStep r sz)
    return .mem (a - autoStep r sz)
  | .disp r => do
    let d ← fetch16
    let a ← readA r
    return .mem (a + d.signExtend 32)
  | .index r => do
    let a ← readA r
    let a ← indexed a
    return .mem a
  | .absW => do
    let w ← fetch16
    return .mem (w.signExtend 32)
  | .absL => do
    let a ← fetch32
    return .mem a
  | .pcDisp => do
    let base ← reading (fun s => s.pc)
    let d ← fetch16
    return .mem (base + d.signExtend 32)
  | .pcIndex => do
    let base ← reading (fun s => s.pc)
    let a ← indexed base
    return .mem a
  | .imm => do
    let v ← fetchImm sz
    return .imm (v.setWidth 32)

/-- `Read(loc, sz)` of rule R201. -/
def Loc.read (loc : Loc) (sz : Size) : Exec (BitVec sz.bits) :=
  match loc with
  | .dreg n => readD n sz
  | .areg n => do
    let a ← readA n
    return a.setWidth sz.bits
  | .mem a => readMem sz a
  | .imm v => return v.setWidth sz.bits

/-- `Write(loc, sz, v)` of rule R201: a write to an address register is sign-extended to 32 bits; no row has an immediate
destination. -/
def Loc.write (loc : Loc) (sz : Size) (v : BitVec sz.bits) : Exec Unit :=
  match loc with
  | .dreg n => writeD n sz v
  | .areg n => writeA n (v.signExtend 32)
  | .mem a => writeMem sz a v
  | .imm _ => return ()

/-- `Read(EA(M, R, sz), sz)`. -/
def readEa (ea : Ea) (sz : Size) : Exec (BitVec sz.bits) := do
  let loc ← resolve ea sz
  loc.read sz

/-- `addr(EA(M, R, .L))` of rule R215: the address of the location, nothing is read. -/
def addressOf (ea : Ea) : Exec Long := do
  let loc ← resolve ea .l
  match loc with
  | .mem a => return a
  | .dreg _ => return 0
  | .areg _ => return 0
  | .imm v => return v

/-- A source of an address-register operation: a word is sign-extended to 32 bits (rules R251, R301, R306, R311). -/
def readAddrSource (ea : Ea) (sz : AddrSize) : Exec Long := do
  let v ← readEa ea sz.toSize
  return v.signExtend 32

/-- `loc <- EA(M, R, sz); d <- Read(loc, sz)`, then the value `f` makes of `d` is written back and the flags `g` makes of it
are set: the shape of every read-modify-write rule. -/
def modifyEa (ea : Ea) (sz : Size) (f : Sr → BitVec sz.bits → BitVec sz.bits)
    (g : Sr → BitVec sz.bits → Sr) : Exec Unit := do
  let loc ← resolve ea sz
  let d ← loc.read sz
  let sr ← readSr
  loc.write sz (f sr d)
  updateSr (fun _ => g sr d)

/-- The displacement of Bcc, BRA and BSR (rules R140, R462): the opcode's byte, or the word that follows it when that is
0. -/
def branchDisp (k : Byte) : Exec Long :=
  if k = 0 then do
    let w ← fetch16
    return w.signExtend 32
  else return k.signExtend 32

/-- `pc0 + 2 + disp` (rule R462). -/
def branchTarget (disp : Long) : Exec Long := reading (fun s => s.hid.pc0 + 2 + disp)

/-- The two operands of ADDX, SUBX, ABCD and SBCD (rules R304, R309, R450): source value, destination location,
destination value. -/
def extendedOperands (m : XMode) (sz : Size) (x y : Reg) :
    Exec (BitVec sz.bits × Loc × BitVec sz.bits) :=
  match m with
  | .reg => do
    let s ← readD y sz
    let d ← readD x sz
    return (s, .dreg x, d)
  | .mem => do
    let s ← readEa (.predec y) sz
    let loc ← resolve (.predec x) sz
    let d ← loc.read sz
    return (s, loc, d)

/-- The count of a register shift (rules R142, R400). -/
def shiftCount (c : ShiftCount) : Exec Nat :=
  match c with
  | .imm n => return n
  | .reg r => do
    let v ← readD r .l
    return v.toNat % 64

end Sys2Proof.Machine
end

