-- ==== Sys2Proof/Machine/Arithmetic.lean ====
section
/-! DEFINITION. Machine/Arithmetic.lean: the meanings of file 42_integer_arithmetic.md. -/

namespace Sys2Proof.Machine

/-- `<ea>,Dn`: `s <- Read(EA); d <- D[x].sz`, the result to D[x] and the flags (rules R300, R305, R370, R372). -/
def aluToDn (sz : Size) (x : Reg) (ea : Ea) (f : BitVec sz.bits → BitVec sz.bits → BitVec sz.bits)
    (g : Sr → BitVec sz.bits → BitVec sz.bits → BitVec sz.bits → Sr) : Exec Unit := do
  let s ← readEa ea sz
  let d ← readD x sz
  writeD x sz (f s d)
  updateSr (fun sr => g sr s d (f s d))

/-- `Dn,<ea>`: the location is resolved and read, then D[x] (rules R300, R305, R370, R372, R374). -/
def aluToEa (sz : Size) (x : Reg) (ea : Ea) (f : BitVec sz.bits → BitVec sz.bits → BitVec sz.bits)
    (g : Sr → BitVec sz.bits → BitVec sz.bits → BitVec sz.bits → Sr) : Exec Unit := do
  let loc ← resolve ea sz
  let d ← loc.read sz
  let s ← readD x sz
  loc.write sz (f s d)
  updateSr (fun sr => g sr s d (f s d))

/-- `#<data>,<ea>`: the immediate is fetched before the destination's extension words (rules R302, R307, R371, R373,
R375). -/
def aluImm (sz : Size) (ea : Ea) (f : BitVec sz.bits → BitVec sz.bits → BitVec sz.bits)
    (g : Sr → BitVec sz.bits → BitVec sz.bits → BitVec sz.bits → Sr) : Exec Unit := do
  let s ← fetchImm sz
  let loc ← resolve ea sz
  let d ← loc.read sz
  loc.write sz (f s d)
  updateSr (fun sr => g sr s d (f s d))

/-- ADDQ and SUBQ: an address register is changed as a whole and no flag is touched (rules R303, R308). -/
def quickOp (q : Nat) (sz : Size) (ea : Ea) (fa : Long → Long → Long)
    (f : BitVec sz.bits → BitVec sz.bits → BitVec sz.bits)
    (g : Sr → BitVec sz.bits → BitVec sz.bits → BitVec sz.bits → Sr) : Exec Unit :=
  match ea with
  | .an r => do
    let a ← readA r
    writeA r (fa (BitVec.ofNat 32 q) a)
  | ea => do
    let loc ← resolve ea sz
    let d ← loc.read sz
    loc.write sz (f (BitVec.ofNat sz.bits q) d)
    updateSr (fun sr => g sr (BitVec.ofNat sz.bits q) d (f (BitVec.ofNat sz.bits q) d))

/-- ADDX and SUBX (rules R304, R309): the result takes the X flag, which the operands' reads do not change. -/
def extendedOp (m : XMode) (sz : Size) (x y : Reg)
    (f : Bool → BitVec sz.bits → BitVec sz.bits → BitVec sz.bits)
    (g : Sr → BitVec sz.bits → BitVec sz.bits → BitVec sz.bits → Sr) : Exec Unit := do
  let (s, loc, d) ← extendedOperands m sz x y
  let sr ← readSr
  loc.write sz (f sr.x s d)
  updateSr (fun sr' => g sr' s d (f sr.x s d))

/-- The X flag as a number of the operand's width. -/
def xBit (n : Nat) (x : Bool) : BitVec n := (BitVec.ofBool x).setWidth n

/-- R300 ADD <ea>,Dn. -/
def execAddToDn (sz : Size) (x : Reg) (ea : Ea) (s : State) : Host.Outcome State Fault Refusal :=
  complete (aluToDn sz x ea (fun s d => d + s) (fun f s d r => f.addFlags s d r)) s

/-- R300 ADD Dn,<ea>. -/
def execAddToEa (sz : Size) (x : Reg) (ea : Ea) (s : State) : Host.Outcome State Fault Refusal :=
  complete (aluToEa sz x ea (fun s d => d + s) (fun f s d r => f.addFlags s d r)) s

/-- R301 ADDA. -/
def execAdda (sz : AddrSize) (x : Reg) (ea : Ea) (s : State) : Host.Outcome State Fault Refusal :=
  complete (do
    let v ← readAddrSource ea sz
    let a ← readA x
    writeA x (a + v)) s

/-- R302 ADDI. -/
def execAddi (sz : Size) (ea : Ea) (s : State) : Host.Outcome State Fault Refusal :=
  complete (aluImm sz ea (fun s d => d + s) (fun f s d r => f.addFlags s d r)) s

/-- R303 ADDQ. -/
def execAddq (q : Nat) (sz : Size) (ea : Ea) (s : State) : Host.Outcome State Fault Refusal :=
  complete (quickOp q sz ea (fun s d => d + s) (fun s d => d + s) (fun f s d r => f.addFlags s d r)) s

/-- R304 ADDX. -/
def execAddx (m : XMode) (sz : Size) (x y : Reg) (s : State) : Host.Outcome State Fault Refusal :=
  complete (extendedOp m sz x y (fun e s d => d + s + xBit sz.bits e) (fun f s d r => f.addxFlags s d r)) s

/-- R305 SUB <ea>,Dn. -/
def execSubToDn (sz : Size) (x : Reg) (ea : Ea) (s : State) : Host.Outcome State Fault Refusal :=
  complete (aluToDn sz x ea (fun s d => d - s) (fun f s d r => f.subFlags s d r)) s

/-- R305 SUB Dn,<ea>. -/
def execSubToEa (sz : Size) (x : Reg) (ea : Ea) (s : State) : Host.Outcome State Fault Refusal :=
  complete (aluToEa sz x ea (fun s d => d - s) (fun f s d r => f.subFlags s d r)) s

/-- R306 SUBA. -/
def execSuba (sz : AddrSize) (x : Reg) (ea : Ea) (s : State) : Host.Outcome State Fault Refusal :=
  complete (do
    let v ← readAddrSource ea sz
    let a ← readA x
    writeA x (a - v)) s

/-- R307 SUBI. -/
def execSubi (sz : Size) (ea : Ea) (s : State) : Host.Outcome State Fault Refusal :=
  complete (aluImm sz ea (fun s d => d - s) (fun f s d r => f.subFlags s d r)) s

/-- R308 SUBQ. -/
def execSubq (q : Nat) (sz : Size) (ea : Ea) (s : State) : Host.Outcome State Fault Refusal :=
  complete (quickOp q sz ea (fun s d => d - s) (fun s d => d - s) (fun f s d r => f.subFlags s d r)) s

/-- R309 SUBX. -/
def execSubx (m : XMode) (sz : Size) (x y : Reg) (s : State) : Host.Outcome State Fault Refusal :=
  complete (extendedOp m sz x y (fun e s d => d - s - xBit sz.bits e) (fun f s d r => f.subxFlags s d r)) s

/-- R310 CMP. -/
def execCmp (sz : Size) (x : Reg) (ea : Ea) (s : State) : Host.Outcome State Fault Refusal :=
  complete (do
    let s ← readEa ea sz
    let d ← readD x sz
    updateSr (fun f => f.cmpFlags s d (d - s))) s

/-- R311 CMPA: a word source is compared as a 32-bit sign-extended value. -/
def execCmpa (sz : AddrSize) (x : Reg) (ea : Ea) (s : State) : Host.Outcome State Fault Refusal :=
  complete (do
    let s ← readAddrSource ea sz
    let d ← readA x
    updateSr (fun f => f.cmpFlags s d (d - s))) s

/-- R312 CMPI. -/
def execCmpi (sz : Size) (ea : Ea) (s : State) : Host.Outcome State Fault Refusal :=
  complete (do
    let s ← fetchImm sz
    let d ← readEa ea sz
    updateSr (fun f => f.cmpFlags s d (d - s))) s

/-- R313 CMPM. -/
def execCmpm (sz : Size) (x y : Reg) (s : State) : Host.Outcome State Fault Refusal :=
  complete (do
    let s ← readEa (.postinc y) sz
    let d ← readEa (.postinc x) sz
    updateSr (fun f => f.cmpFlags s d (d - s))) s

/-- R314 MULU. -/
def execMulu (x : Reg) (ea : Ea) (s : State) : Host.Outcome State Fault Refusal :=
  complete (do
    let s ← readEa ea .w
    let d ← readD x .w
    let r : Long := BitVec.ofNat 32 (d.toNat * s.toNat)
    writeD x .l r
    updateSr (fun f => f.logicFlags r)) s

/-- R315 MULS. -/
def execMuls (x : Reg) (ea : Ea) (s : State) : Host.Outcome State Fault Refusal :=
  complete (do
    let s ← readEa ea .w
    let d ← readD x .w
    let r : Long := BitVec.ofInt 32 (d.toInt * s.toInt)
    writeD x .l r
    updateSr (fun f => f.logicFlags r)) s

/-- A zero divisor (rules R316, R317): N, Z and V are free, C is cleared, and the exception is raised. -/
def divideByZero : Exec Unit := do
  let n ← drawBit
  let z ← drawBit
  let v ← drawBit
  updateSr (fun f => { f with n := n, z := z, v := v, c := false })
  raise .zeroDivide

/-- A quotient that does not fit (rules R316, R317): V set, C cleared, N and Z free, the register kept. -/
def divideOverflow : Exec Unit := do
  let n ← drawBit
  let z ← drawBit
  updateSr (fun f => { f with n := n, z := z, v := true, c := false })

/-- A quotient that fits (rules R316, R317): remainder in the high half, quotient in the low half. -/
def divideResult (x : Reg) (q rem : Word) : Exec Unit := do
  writeD x .l (rem ++ q)
  updateSr (fun f => { f with n := q.msb, z := decide (q = 0), v := false, c := false })

/-- R316 DIVU. -/
def execDivu (x : Reg) (ea : Ea) (s : State) : Host.Outcome State Fault Refusal :=
  complete (do
    let s ← readEa ea .w
    let d ← readD x .l
    if s = 0 then divideByZero
    else
      let q := d.toNat / s.toNat
      let rem := d.toNat % s.toNat
      if q > 0xFFFF then divideOverflow
      else divideResult x (BitVec.ofNat 16 q) (BitVec.ofNat 16 rem)) s

/-- R317 DIVS: the quotient rounds toward zero, the remainder has the dividend's sign. -/
def execDivs (x : Reg) (ea : Ea) (s : State) : Host.Outcome State Fault Refusal :=
  complete (do
    let s ← readEa ea .w
    let d ← readD x .l
    if s = 0 then divideByZero
    else
      let q := d.toInt.tdiv s.toInt
      let rem := d.toInt - q * s.toInt
      if q < -32768 ∨ q > 32767 then divideOverflow
      else divideResult x (BitVec.ofInt 16 q) (BitVec.ofInt 16 rem)) s

/-- R318 NEG. -/
def execNeg (sz : Size) (ea : Ea) (s : State) : Host.Outcome State Fault Refusal :=
  complete (modifyEa ea sz (fun _ d => 0 - d) (fun f d => f.subFlags d 0 (0 - d))) s

/-- R319 NEGX. -/
def execNegx (sz : Size) (ea : Ea) (s : State) : Host.Outcome State Fault Refusal :=
  complete (modifyEa ea sz (fun f d => 0 - d - xBit sz.bits f.x)
    (fun f d => f.subxFlags d 0 (0 - d - xBit sz.bits f.x))) s

/-- R320 CLR: no read of the destination. -/
def execClr (sz : Size) (ea : Ea) (s : State) : Host.Outcome State Fault Refusal :=
  complete (do
    let loc ← resolve ea sz
    loc.write sz 0
    updateSr (fun f => { f with n := false, z := true, v := false, c := false })) s

/-- R321 EXT. -/
def execExtDn (sz : AddrSize) (y : Reg) (s : State) : Host.Outcome State Fault Refusal :=
  complete (match sz with
    | .w => do
      let b ← readD y .b
      let v : Word := b.signExtend 16
      writeD y .w v
      updateSr (fun f => f.logicFlags v)
    | .l => do
      let h ← readD y .w
      let v : Long := h.signExtend 32
      writeD y .l v
      updateSr (fun f => f.logicFlags v)) s

/-- R322 TST. -/
def execTst (sz : Size) (ea : Ea) (s : State) : Host.Outcome State Fault Refusal :=
  complete (do
    let v ← readEa ea sz
    updateSr (fun f => f.logicFlags v)) s

end Sys2Proof.Machine
end

