-- ==== Sys2Proof/Machine/Bcd.lean ====
section
/-! DEFINITION. Machine/Bcd.lean: the meanings of file 46_bcd.md. -/

namespace Sys2Proof.Machine

/-- The end of rules R450-R452: the result is written, X and C are the decimal carry, Z is only ever cleared, N and V are
free. -/
def bcdFinish (loc : Loc) (r : Byte × Bool) : Exec Unit := do
  loc.write .b r.1
  let n ← drawBit
  let v ← drawBit
  updateSr (fun f => f.bcdFlags r.1 r.2 n v)

/-- R450 ABCD. -/
def execAbcd (m : XMode) (x y : Reg) (s : State) : Host.Outcome State Fault Refusal :=
  complete (do
    let (s, loc, d) ← extendedOperands m .b x y
    let sr ← readSr
    bcdFinish loc (bcdAdd s d sr.x)) s

/-- R451 SBCD. -/
def execSbcd (m : XMode) (x y : Reg) (s : State) : Host.Outcome State Fault Refusal :=
  complete (do
    let (s, loc, d) ← extendedOperands m .b x y
    let sr ← readSr
    bcdFinish loc (bcdSub s d sr.x)) s

/-- R452 NBCD. -/
def execNbcd (ea : Ea) (s : State) : Host.Outcome State Fault Refusal :=
  complete (do
    let loc ← resolve ea .b
    let d ← loc.read .b
    let sr ← readSr
    bcdFinish loc (bcdSub d 0 sr.x)) s

end Sys2Proof.Machine
end

