-- ==== Sys2Proof/Machine/Bits.lean ====
section
/-! DEFINITION. Machine/Bits.lean: the meanings of file 45_bit_manipulation.md. -/

namespace Sys2Proof.Machine

/-- What a bit operation writes back (rules R431-R434): nothing for BTST, else the operand with the bit's mask `m`
applied. -/
inductive BitOp where
  | test
  | change
  | clear
  | set
  deriving DecidableEq, Repr

/-- The value written back. -/
def BitOp.apply {n : Nat} (op : BitOp) (v : BitVec n) (b : Nat) : BitVec n :=
  match op with
  | .test => v
  | .change => v ^^^ (BitVec.ofNat n 1 <<< b)
  | .clear => v &&& ~~~(BitVec.ofNat n 1 <<< b)
  | .set => v ||| (BitVec.ofNat n 1 <<< b)

/-- Rule R430 on an operand of size `sz`, whose bit `b` is tested. -/
def bitOpAt (op : BitOp) (ea : Ea) (sz : Size) (b : Nat) : Exec Unit := do
  let loc ← resolve ea sz
  let v ← loc.read sz
  updateSr (fun f => { f with z := !v.getLsbD b })
  match op with
  | .test => return ()
  | op => loc.write sz (op.apply v b)

/-- Rule R430: a long and the bit number mod 32 on a data register, a byte and mod 8 elsewhere. -/
def bitOp (op : BitOp) (ea : Ea) (n : Nat) : Exec Unit :=
  match ea with
  | .dn r => bitOpAt op (.dn r) .l (n % 32)
  | ea => bitOpAt op ea .b (n % 8)

/-- The static form: the bit number is the low byte of the instruction's own extension word, fetched before the EA's. -/
def bitStatic (op : BitOp) (ea : Ea) : Exec Unit := do
  let w ← fetch16
  bitOp op ea (w.extractLsb' 0 8).toNat

/-- The dynamic form: the bit number is D[x]. -/
def bitDynamic (op : BitOp) (x : Reg) (ea : Ea) : Exec Unit := do
  let v ← readD x .l
  bitOp op ea v.toNat

/-- R431 BTST #<data>,<ea>. -/
def execBtst (ea : Ea) (s : State) : Host.Outcome State Fault Refusal := complete (bitStatic .test ea) s

/-- R431 BTST Dn,<ea>. -/
def execBtstDn (x : Reg) (ea : Ea) (s : State) : Host.Outcome State Fault Refusal := complete (bitDynamic .test x ea) s

/-- R432 BCHG #<data>,<ea>. -/
def execBchg (ea : Ea) (s : State) : Host.Outcome State Fault Refusal := complete (bitStatic .change ea) s

/-- R432 BCHG Dn,<ea>. -/
def execBchgDn (x : Reg) (ea : Ea) (s : State) : Host.Outcome State Fault Refusal := complete (bitDynamic .change x ea) s

/-- R433 BCLR #<data>,<ea>. -/
def execBclr (ea : Ea) (s : State) : Host.Outcome State Fault Refusal := complete (bitStatic .clear ea) s

/-- R433 BCLR Dn,<ea>. -/
def execBclrDn (x : Reg) (ea : Ea) (s : State) : Host.Outcome State Fault Refusal := complete (bitDynamic .clear x ea) s

/-- R434 BSET #<data>,<ea>. -/
def execBset (ea : Ea) (s : State) : Host.Outcome State Fault Refusal := complete (bitStatic .set ea) s

/-- R434 BSET Dn,<ea>. -/
def execBsetDn (x : Reg) (ea : Ea) (s : State) : Host.Outcome State Fault Refusal := complete (bitDynamic .set x ea) s

end Sys2Proof.Machine
end

