-- ==== Sys2Proof/Machine/Control.lean ====
section
/-! DEFINITION. Machine/Control.lean: the meanings of file 47_program_control.md. -/

namespace Sys2Proof.Machine

/-- R462 Bcc: the word of the long form is fetched whether or not the branch is taken. -/
def execBcc (c : Cond) (k : Byte) (s : State) : Host.Outcome State Fault Refusal :=
  complete (do
    let disp ← branchDisp k
    let target ← branchTarget disp
    let sr ← readSr
    if sr.cond c then jumpTo target else return ()) s

/-- R463 BRA. -/
def execBra (k : Byte) (s : State) : Host.Outcome State Fault Refusal :=
  complete (do
    let disp ← branchDisp k
    let target ← branchTarget disp
    jumpTo target) s

/-- R464 BSR: the pushed address is that of the next instruction. -/
def execBsr (k : Byte) (s : State) : Host.Outcome State Fault Refusal :=
  complete (do
    let disp ← branchDisp k
    let next ← reading (fun s => s.pc)
    push .l next
    let target ← branchTarget disp
    jumpTo target) s

/-- R465 DBcc: the low word of Dn counts; the loop ends when it passes to 0xFFFF. -/
def execDbcc (c : Cond) (y : Reg) (s : State) : Host.Outcome State Fault Refusal :=
  complete (do
    let d ← fetch16
    let sr ← readSr
    if sr.cond c then return ()
    else
      let n ← readD y .w
      writeD y .w (n - 1)
      if n - 1 ≠ 0xFFFF then
        let target ← branchTarget (d.signExtend 32)
        jumpTo target
      else return ()) s

/-- R466 Scc: the destination is not read. -/
def execScc (c : Cond) (ea : Ea) (s : State) : Host.Outcome State Fault Refusal :=
  complete (do
    let loc ← resolve ea .b
    let sr ← readSr
    loc.write .b (if sr.cond c then 0xFF else 0)) s

/-- R467 JMP. -/
def execJmp (ea : Ea) (s : State) : Host.Outcome State Fault Refusal :=
  complete (do
    let a ← addressOf ea
    jumpTo a) s

/-- R468 JSR: the target is computed before A7 moves. -/
def execJsr (ea : Ea) (s : State) : Host.Outcome State Fault Refusal :=
  complete (do
    let a ← addressOf ea
    let next ← reading (fun s => s.pc)
    push .l next
    jumpTo a) s

/-- R469 RTS. -/
def execRts (s : State) : Host.Outcome State Fault Refusal :=
  complete (do
    let a ← pop .l
    jumpTo a) s

/-- R470 RTR. -/
def execRtr (s : State) : Host.Outcome State Fault Refusal :=
  complete (do
    let w ← pop .w
    writeCcr (w.extractLsb' 0 8)
    let a ← pop .l
    jumpTo a) s

/-- R471 NOP: pc has already advanced. -/
def execNop (s : State) : Host.Outcome State Fault Refusal := complete (return ()) s

end Sys2Proof.Machine
end

