-- ==== Sys2Proof/Machine/DataMovement.lean ====
section
/-! DEFINITION. Machine/DataMovement.lean: the meanings of file 41_data_movement.md. -/

namespace Sys2Proof.Machine

/-- R250 MOVE: the source is read before the destination is resolved (rule R216). -/
def execMove (sz : Size) (src dst : Ea) (s : State) : Host.Outcome State Fault Refusal :=
  complete (do
    let v ← readEa src sz
    let loc ← resolve dst sz
    loc.write sz v
    updateSr (fun f => f.logicFlags v)) s

/-- R251 MOVEA. -/
def execMovea (sz : AddrSize) (src : Ea) (r : Reg) (s : State) : Host.Outcome State Fault Refusal :=
  complete (do
    let v ← readAddrSource src sz
    writeA r v) s

/-- R252 MOVEQ. -/
def execMoveq (x : Reg) (k : Byte) (s : State) : Host.Outcome State Fault Refusal :=
  complete (do
    writeD x .l (k.signExtend 32)
    updateSr (fun f => f.logicFlags (k.signExtend 32))) s

/-- The registers a MOVEM mask selects, in the order D0..D7, A0..A7: bit i selects register i (rule R144). -/
def movemList (mask : Word) : List (Fin 16) := (List.finRange 16).filter (fun i => mask.getLsbD i.val)

/-- The registers the mask of the -(An) form selects, in the order they are stored, A7 first: bit i selects register
15 - i (rules R144, R253). -/
def movemListPredec (mask : Word) : List (Fin 16) :=
  ((List.finRange 16).filter (fun i => mask.getLsbD i.val)).map (fun i => ⟨15 - i.val, by omega⟩)

/-- Stores registers at rising addresses (rule R253). -/
def storeListed (sz : Size) : List (Fin 16) → Long → Exec Unit
  | [], _ => return ()
  | i :: rest, a => do
    let v ← reading (fun s => s.regs.getListed i)
    writeMem sz a (v.setWidth sz.bits)
    storeListed sz rest (a + BitVec.ofNat 32 sz.bytes)

/-- Stores registers at falling addresses and answers the last one (rule R253, the -(An) form). -/
def storeListedDown (sz : Size) : List (Fin 16) → Long → Exec Long
  | [], a => return a
  | i :: rest, a => do
    let v ← reading (fun s => s.regs.getListed i)
    writeMem sz (a - BitVec.ofNat 32 sz.bytes) (v.setWidth sz.bits)
    storeListedDown sz rest (a - BitVec.ofNat 32 sz.bytes)

/-- Loads registers from rising addresses, words sign-extended, and answers the address after the last one (rule
R254). -/
def loadListed (sz : Size) : List (Fin 16) → Long → Exec Long
  | [], a => return a
  | i :: rest, a => do
    let v ← readMem sz a
    updating (fun s => { s with regs := s.regs.setListed i (v.signExtend 32) })
    loadListed sz rest (a + BitVec.ofNat 32 sz.bytes)

/-- R253 MOVEM register-to-memory. No store changes a register, so a register's value when it is stored is its value at
the start of the instruction. -/
def execMovemToMem (sz : AddrSize) (ea : Ea) (s : State) : Host.Outcome State Fault Refusal :=
  complete (do
    let mask ← fetch16
    match ea with
    | .predec r =>
      let a ← readA r
      let a ← storeListedDown sz.toSize (movemListPredec mask) a
      writeA r a
    | ea =>
      let a ← addressOf ea
      storeListed sz.toSize (movemList mask) a) s

/-- R254 MOVEM memory-to-register. -/
def execMovemToReg (sz : AddrSize) (ea : Ea) (s : State) : Host.Outcome State Fault Refusal :=
  complete (do
    let mask ← fetch16
    match ea with
    | .postinc r =>
      let a ← readA r
      let a ← loadListed sz.toSize (movemList mask) a
      writeA r a
    | ea =>
      let a ← addressOf ea
      let _ ← loadListed sz.toSize (movemList mask) a
      return ()) s

/-- R255 LEA. -/
def execLea (x : Reg) (ea : Ea) (s : State) : Host.Outcome State Fault Refusal :=
  complete (do
    let a ← addressOf ea
    writeA x a) s

/-- R256 PEA: the address is computed before A7 moves. -/
def execPea (ea : Ea) (s : State) : Host.Outcome State Fault Refusal :=
  complete (do
    let a ← addressOf ea
    push .l a) s

/-- R257 EXG Dx,Dy. -/
def execExgDxDy (x y : Reg) (s : State) : Host.Outcome State Fault Refusal :=
  complete (do
    let u ← readD x .l
    let v ← readD y .l
    writeD x .l v
    writeD y .l u) s

/-- R257 EXG Ax,Ay. -/
def execExgAxAy (x y : Reg) (s : State) : Host.Outcome State Fault Refusal :=
  complete (do
    let u ← readA x
    let v ← readA y
    writeA x v
    writeA y u) s

/-- R257 EXG Dx,Ay. -/
def execExgDxAy (x y : Reg) (s : State) : Host.Outcome State Fault Refusal :=
  complete (do
    let u ← readD x .l
    let v ← readA y
    writeD x .l v
    writeA y u) s

/-- R258 MOVEP: byte accesses, so no address error. -/
def execMovep (m : MovepMode) (x y : Reg) (s : State) : Host.Outcome State Fault Refusal :=
  complete (do
    let d ← fetch16
    let base ← readA y
    let a := base + d.signExtend 32
    match m with
    | .wordFromMem =>
      let b1 ← readMem .b a
      let b0 ← readMem .b (a + 2)
      writeD x .w (b1 ++ b0)
    | .longFromMem =>
      let b3 ← readMem .b a
      let b2 ← readMem .b (a + 2)
      let b1 ← readMem .b (a + 4)
      let b0 ← readMem .b (a + 6)
      writeD x .l (b3 ++ b2 ++ b1 ++ b0)
    | .wordToMem =>
      let v ← readD x .l
      writeMem .b a (v.extractLsb' 8 8)
      writeMem .b (a + 2) (v.extractLsb' 0 8)
    | .longToMem =>
      let v ← readD x .l
      writeMem .b a (v.extractLsb' 24 8)
      writeMem .b (a + 2) (v.extractLsb' 16 8)
      writeMem .b (a + 4) (v.extractLsb' 8 8)
      writeMem .b (a + 6) (v.extractLsb' 0 8)) s

/-- SWAP's value: the two halves exchanged (rule R259). -/
def swapHalves (v : Long) : Long := v.extractLsb' 0 16 ++ v.extractLsb' 16 16

/-- R259 SWAP. -/
def execSwap (y : Reg) (s : State) : Host.Outcome State Fault Refusal :=
  complete (do
    let v ← readD y .l
    writeD y .l (swapHalves v)
    updateSr (fun f => f.logicFlags (swapHalves v))) s

/-- R260 LINK: An is read after A7 has moved. -/
def execLink (y : Reg) (s : State) : Host.Outcome State Fault Refusal :=
  complete (do
    let d ← fetch16
    let sp ← readA 7
    let sp := sp - 4
    writeA 7 sp
    let v ← readA y
    writeMem .l sp v
    writeA y sp
    let sp ← readA 7
    writeA 7 (sp + d.signExtend 32)) s

/-- R261 UNLK. -/
def execUnlk (y : Reg) (s : State) : Host.Outcome State Fault Refusal :=
  complete (do
    let sp ← readA y
    writeA 7 sp
    let v ← readMem .l sp
    writeA 7 (sp + 4)
    writeA y v) s

end Sys2Proof.Machine
end

