-- ==== Sys2Proof/Machine/Logical.lean ====
section
/-! DEFINITION. Machine/Logical.lean: the meanings of file 43_logical.md. -/

namespace Sys2Proof.Machine

/-- R370 AND <ea>,Dn. -/
def execAndToDn (sz : Size) (x : Reg) (ea : Ea) (s : State) : Host.Outcome State Fault Refusal :=
  complete (aluToDn sz x ea (fun s d => d &&& s) (fun f _ _ r => f.logicFlags r)) s

/-- R370 AND Dn,<ea>. -/
def execAndToEa (sz : Size) (x : Reg) (ea : Ea) (s : State) : Host.Outcome State Fault Refusal :=
  complete (aluToEa sz x ea (fun s d => d &&& s) (fun f _ _ r => f.logicFlags r)) s

/-- R371 ANDI. -/
def execAndi (sz : Size) (ea : Ea) (s : State) : Host.Outcome State Fault Refusal :=
  complete (aluImm sz ea (fun s d => d &&& s) (fun f _ _ r => f.logicFlags r)) s

/-- R372 OR <ea>,Dn. -/
def execOrToDn (sz : Size) (x : Reg) (ea : Ea) (s : State) : Host.Outcome State Fault Refusal :=
  complete (aluToDn sz x ea (fun s d => d ||| s) (fun f _ _ r => f.logicFlags r)) s

/-- R372 OR Dn,<ea>. -/
def execOrToEa (sz : Size) (x : Reg) (ea : Ea) (s : State) : Host.Outcome State Fault Refusal :=
  complete (aluToEa sz x ea (fun s d => d ||| s) (fun f _ _ r => f.logicFlags r)) s

/-- R373 ORI. -/
def execOri (sz : Size) (ea : Ea) (s : State) : Host.Outcome State Fault Refusal :=
  complete (aluImm sz ea (fun s d => d ||| s) (fun f _ _ r => f.logicFlags r)) s

/-- R374 EOR. -/
def execEor (sz : Size) (x : Reg) (ea : Ea) (s : State) : Host.Outcome State Fault Refusal :=
  complete (aluToEa sz x ea (fun s d => d ^^^ s) (fun f _ _ r => f.logicFlags r)) s

/-- R375 EORI. -/
def execEori (sz : Size) (ea : Ea) (s : State) : Host.Outcome State Fault Refusal :=
  complete (aluImm sz ea (fun s d => d ^^^ s) (fun f _ _ r => f.logicFlags r)) s

/-- R376 NOT. -/
def execNotEa (sz : Size) (ea : Ea) (s : State) : Host.Outcome State Fault Refusal :=
  complete (modifyEa ea sz (fun _ d => ~~~d) (fun f d => f.logicFlags (~~~d))) s

end Sys2Proof.Machine
end

