-- ==== Sys2Proof/Machine/Shift.lean ====
section
/-! DEFINITION. Machine/Shift.lean: the meanings of file 44_shift_rotate.md. -/

namespace Sys2Proof.Machine

/-- The register form of rule R400. -/
def shiftReg (k : ShiftKind) (c : ShiftCount) (sz : Size) (y : Reg) : Exec Unit := do
  let n ← shiftCount c
  let v ← readD y sz
  let sr ← readSr
  writeD y sz (shiftLoop k n v sr.x).value
  updateSr (fun f => f.shiftFlags k n (shiftLoop k n v sr.x))

/-- The memory form of rule R400: one word, shifted once. -/
def shiftMem (k : ShiftKind) (ea : Ea) : Exec Unit :=
  modifyEa ea .w (fun f v => (shiftLoop k 1 v f.x).value) (fun f v => f.shiftFlags k 1 (shiftLoop k 1 v f.x))

/-- R402 ASR on a register. -/
def execAsrReg (c : ShiftCount) (sz : Size) (y : Reg) (s : State) : Host.Outcome State Fault Refusal :=
  complete (shiftReg .asr c sz y) s

/-- R401 ASL on a register. -/
def execAslReg (c : ShiftCount) (sz : Size) (y : Reg) (s : State) : Host.Outcome State Fault Refusal :=
  complete (shiftReg .asl c sz y) s

/-- R404 LSR on a register. -/
def execLsrReg (c : ShiftCount) (sz : Size) (y : Reg) (s : State) : Host.Outcome State Fault Refusal :=
  complete (shiftReg .lsr c sz y) s

/-- R403 LSL on a register. -/
def execLslReg (c : ShiftCount) (sz : Size) (y : Reg) (s : State) : Host.Outcome State Fault Refusal :=
  complete (shiftReg .lsl c sz y) s

/-- R408 ROXR on a register. -/
def execRoxrReg (c : ShiftCount) (sz : Size) (y : Reg) (s : State) : Host.Outcome State Fault Refusal :=
  complete (shiftReg .roxr c sz y) s

/-- R407 ROXL on a register. -/
def execRoxlReg (c : ShiftCount) (sz : Size) (y : Reg) (s : State) : Host.Outcome State Fault Refusal :=
  complete (shiftReg .roxl c sz y) s

/-- R406 ROR on a register. -/
def execRorReg (c : ShiftCount) (sz : Size) (y : Reg) (s : State) : Host.Outcome State Fault Refusal :=
  complete (shiftReg .ror c sz y) s

/-- R405 ROL on a register. -/
def execRolReg (c : ShiftCount) (sz : Size) (y : Reg) (s : State) : Host.Outcome State Fault Refusal :=
  complete (shiftReg .rol c sz y) s

/-- R402 ASR on a word of memory. -/
def execAsrMem (ea : Ea) (s : State) : Host.Outcome State Fault Refusal :=
  complete (shiftMem .asr ea) s

/-- R401 ASL on a word of memory. -/
def execAslMem (ea : Ea) (s : State) : Host.Outcome State Fault Refusal :=
  complete (shiftMem .asl ea) s

/-- R404 LSR on a word of memory. -/
def execLsrMem (ea : Ea) (s : State) : Host.Outcome State Fault Refusal :=
  complete (shiftMem .lsr ea) s

/-- R403 LSL on a word of memory. -/
def execLslMem (ea : Ea) (s : State) : Host.Outcome State Fault Refusal :=
  complete (shiftMem .lsl ea) s

/-- R408 ROXR on a word of memory. -/
def execRoxrMem (ea : Ea) (s : State) : Host.Outcome State Fault Refusal :=
  complete (shiftMem .roxr ea) s

/-- R407 ROXL on a word of memory. -/
def execRoxlMem (ea : Ea) (s : State) : Host.Outcome State Fault Refusal :=
  complete (shiftMem .roxl ea) s

/-- R406 ROR on a word of memory. -/
def execRorMem (ea : Ea) (s : State) : Host.Outcome State Fault Refusal :=
  complete (shiftMem .ror ea) s

/-- R405 ROL on a word of memory. -/
def execRolMem (ea : Ea) (s : State) : Host.Outcome State Fault Refusal :=
  complete (shiftMem .rol ea) s

end Sys2Proof.Machine
end

