-- ==== Sys2Proof/Machine/System.lean ====
section
/-! DEFINITION. Machine/System.lean: the meanings of file 48_system_control.md. -/

namespace Sys2Proof.Machine

/-- `CCR <- SR[7:0] op #<data>` (rules R501, R503, R505). -/
def ccrImm (f : Byte → Byte → Byte) : Exec Unit := do
  let b ← fetchImm .b
  let sr ← readSr
  writeCcr (f sr.ccr b)

/-- `privilege check; SR <- SR op #<data>` (rules R502, R504, R506): the check comes before the word is fetched. -/
def srImm (f : Word → Word → Word) : Exec Unit := do
  requireSupervisor
  let w ← fetch16
  let sr ← readSr
  writeSrWord (f sr.toWord w)

/-- R501 ANDI to CCR. -/
def execAndiToCcr (s : State) : Host.Outcome State Fault Refusal := complete (ccrImm (fun a b => a &&& b)) s

/-- R502 ANDI to SR. -/
def execAndiToSr (s : State) : Host.Outcome State Fault Refusal := complete (srImm (fun a b => a &&& b)) s

/-- R503 EORI to CCR. -/
def execEoriToCcr (s : State) : Host.Outcome State Fault Refusal := complete (ccrImm (fun a b => a ^^^ b)) s

/-- R504 EORI to SR. -/
def execEoriToSr (s : State) : Host.Outcome State Fault Refusal := complete (srImm (fun a b => a ^^^ b)) s

/-- R505 ORI to CCR. -/
def execOriToCcr (s : State) : Host.Outcome State Fault Refusal := complete (ccrImm (fun a b => a ||| b)) s

/-- R506 ORI to SR. -/
def execOriToSr (s : State) : Host.Outcome State Fault Refusal := complete (srImm (fun a b => a ||| b)) s

/-- R507 MOVE to CCR: a word is read, its low byte used. -/
def execMoveToCcr (ea : Ea) (s : State) : Host.Outcome State Fault Refusal :=
  complete (do
    let v ← readEa ea .w
    writeCcr (v.extractLsb' 0 8)) s

/-- R508 MOVE to SR. -/
def execMoveToSr (ea : Ea) (s : State) : Host.Outcome State Fault Refusal :=
  complete (do
    requireSupervisor
    let v ← readEa ea .w
    writeSrWord v) s

/-- R509 MOVE from SR: not privileged, the destination is not read. -/
def execMoveFromSr (ea : Ea) (s : State) : Host.Outcome State Fault Refusal :=
  complete (do
    let loc ← resolve ea .w
    let sr ← readSr
    loc.write .w sr.toWord) s

/-- R510 MOVE An,USP. -/
def execMoveToUsp (y : Reg) (s : State) : Host.Outcome State Fault Refusal :=
  complete (do
    requireSupervisor
    let a ← readA y
    updating (fun s => { s with regs := { s.regs with usp := a } })) s

/-- R510 MOVE USP,An. -/
def execMoveFromUsp (y : Reg) (s : State) : Host.Outcome State Fault Refusal :=
  complete (do
    requireSupervisor
    let u ← reading (fun s => s.regs.usp)
    writeA y u) s

/-- R511 RTE. -/
def execRte (s : State) : Host.Outcome State Fault Refusal :=
  complete (do
    requireSupervisor
    returnFromException) s

/-- R512 STOP: a traced STOP stays in the Normal run state and the trace follows (rule R575). -/
def execStop (s : State) : Host.Outcome State Fault Refusal :=
  complete (do
    requireSupervisor
    let w ← fetch16
    writeSrWord w
    updating (fun s => if s.hid.tracePending then s else { s with run := .stopped })) s

/-- R513 RESET: Halted, and nothing else changes. -/
def execReset (s : State) : Host.Outcome State Fault Refusal :=
  complete (do
    requireSupervisor
    updating (fun s => { s with run := .halted })) s

/-- R514 TRAP. -/
def execTrap (v : BitVec 4) (s : State) : Host.Outcome State Fault Refusal := complete (raise (.trap v)) s

/-- R515 TRAPV. -/
def execTrapv (s : State) : Host.Outcome State Fault Refusal :=
  complete (do
    let sr ← readSr
    if sr.v then raise .trapV else return ()) s

/-- R516 CHK: Z, V and C are free, and N where no trap is taken. -/
def execChk (x : Reg) (ea : Ea) (s : State) : Host.Outcome State Fault Refusal :=
  complete (do
    let b ← readEa ea .w
    let i ← readD x .w
    let z ← drawBit
    let v ← drawBit
    let c ← drawBit
    updateSr (fun f => { f with z := z, v := v, c := c })
    if i.toInt < 0 then
      updateSr (fun f => { f with n := true })
      raise .chk
    else if b.toInt < i.toInt then
      updateSr (fun f => { f with n := false })
      raise .chk
    else
      let n ← drawBit
      updateSr (fun f => { f with n := n })) s

/-- R517 ILLEGAL. -/
def execIllegal (s : State) : Host.Outcome State Fault Refusal := complete (raise .illegalInstruction) s

/-- R518 TAS: N and Z from the byte before its bit 7 is set. -/
def execTas (ea : Ea) (s : State) : Host.Outcome State Fault Refusal :=
  complete (modifyEa ea .b (fun _ v => v ||| 0x80) (fun f v => f.logicFlags v)) s

/-- R519: a word of line 1010. -/
def execLineA (_d : BitVec 12) (s : State) : Host.Outcome State Fault Refusal := complete (raise .lineA) s

/-- R520: a word of line 1111. -/
def execLineF (_d : BitVec 12) (s : State) : Host.Outcome State Fault Refusal := complete (raise .lineF) s

end Sys2Proof.Machine
end

