-- ==== Sys2Proof/Machine/Dispatch.lean ====
section
/-! DEFINITION. Machine/Dispatch.lean: one arm per constructor of Instr. -/

namespace Sys2Proof.Machine

def exec (i : Instr) (s : State) : Host.Outcome State Fault Refusal :=
  match i with
  | .oriToCcr => Sys2Proof.Machine.execOriToCcr s
  | .oriToSr => Sys2Proof.Machine.execOriToSr s
  | .ori sz ea => Sys2Proof.Machine.execOri sz ea s
  | .andiToCcr => Sys2Proof.Machine.execAndiToCcr s
  | .andiToSr => Sys2Proof.Machine.execAndiToSr s
  | .andi sz ea => Sys2Proof.Machine.execAndi sz ea s
  | .eoriToCcr => Sys2Proof.Machine.execEoriToCcr s
  | .eoriToSr => Sys2Proof.Machine.execEoriToSr s
  | .eori sz ea => Sys2Proof.Machine.execEori sz ea s
  | .subi sz ea => Sys2Proof.Machine.execSubi sz ea s
  | .addi sz ea => Sys2Proof.Machine.execAddi sz ea s
  | .cmpi sz ea => Sys2Proof.Machine.execCmpi sz ea s
  | .btst ea => Sys2Proof.Machine.execBtst ea s
  | .bchg ea => Sys2Proof.Machine.execBchg ea s
  | .bclr ea => Sys2Proof.Machine.execBclr ea s
  | .bset ea => Sys2Proof.Machine.execBset ea s
  | .btstDn x ea => Sys2Proof.Machine.execBtstDn x ea s
  | .bchgDn x ea => Sys2Proof.Machine.execBchgDn x ea s
  | .bclrDn x ea => Sys2Proof.Machine.execBclrDn x ea s
  | .bsetDn x ea => Sys2Proof.Machine.execBsetDn x ea s
  | .movep m x y => Sys2Proof.Machine.execMovep m x y s
  | .move sz src dst => Sys2Proof.Machine.execMove sz src dst s
  | .movea sz src r => Sys2Proof.Machine.execMovea sz src r s
  | .negx sz ea => Sys2Proof.Machine.execNegx sz ea s
  | .moveFromSr ea => Sys2Proof.Machine.execMoveFromSr ea s
  | .chk x ea => Sys2Proof.Machine.execChk x ea s
  | .lea x ea => Sys2Proof.Machine.execLea x ea s
  | .clr sz ea => Sys2Proof.Machine.execClr sz ea s
  | .neg sz ea => Sys2Proof.Machine.execNeg sz ea s
  | .moveToCcr ea => Sys2Proof.Machine.execMoveToCcr ea s
  | .notEa sz ea => Sys2Proof.Machine.execNotEa sz ea s
  | .moveToSr ea => Sys2Proof.Machine.execMoveToSr ea s
  | .nbcd ea => Sys2Proof.Machine.execNbcd ea s
  | .swap y => Sys2Proof.Machine.execSwap y s
  | .pea ea => Sys2Proof.Machine.execPea ea s
  | .extDn sz y => Sys2Proof.Machine.execExtDn sz y s
  | .movemToMem sz ea => Sys2Proof.Machine.execMovemToMem sz ea s
  | .tst sz ea => Sys2Proof.Machine.execTst sz ea s
  | .tas ea => Sys2Proof.Machine.execTas ea s
  | .illegal => Sys2Proof.Machine.execIllegal s
  | .movemToReg sz ea => Sys2Proof.Machine.execMovemToReg sz ea s
  | .trap v => Sys2Proof.Machine.execTrap v s
  | .link y => Sys2Proof.Machine.execLink y s
  | .unlk y => Sys2Proof.Machine.execUnlk y s
  | .moveToUsp y => Sys2Proof.Machine.execMoveToUsp y s
  | .moveFromUsp y => Sys2Proof.Machine.execMoveFromUsp y s
  | .reset => Sys2Proof.Machine.execReset s
  | .nop => Sys2Proof.Machine.execNop s
  | .stop => Sys2Proof.Machine.execStop s
  | .rte => Sys2Proof.Machine.execRte s
  | .rts => Sys2Proof.Machine.execRts s
  | .trapv => Sys2Proof.Machine.execTrapv s
  | .rtr => Sys2Proof.Machine.execRtr s
  | .jsr ea => Sys2Proof.Machine.execJsr ea s
  | .jmp ea => Sys2Proof.Machine.execJmp ea s
  | .addq q sz ea => Sys2Proof.Machine.execAddq q sz ea s
  | .subq q sz ea => Sys2Proof.Machine.execSubq q sz ea s
  | .scc c ea => Sys2Proof.Machine.execScc c ea s
  | .dbcc c y => Sys2Proof.Machine.execDbcc c y s
  | .bra k => Sys2Proof.Machine.execBra k s
  | .bsr k => Sys2Proof.Machine.execBsr k s
  | .bcc c k => Sys2Proof.Machine.execBcc c k s
  | .moveq x k => Sys2Proof.Machine.execMoveq x k s
  | .orToDn sz x ea => Sys2Proof.Machine.execOrToDn sz x ea s
  | .orToEa sz x ea => Sys2Proof.Machine.execOrToEa sz x ea s
  | .divu x ea => Sys2Proof.Machine.execDivu x ea s
  | .divs x ea => Sys2Proof.Machine.execDivs x ea s
  | .sbcd m x y => Sys2Proof.Machine.execSbcd m x y s
  | .subToDn sz x ea => Sys2Proof.Machine.execSubToDn sz x ea s
  | .subToEa sz x ea => Sys2Proof.Machine.execSubToEa sz x ea s
  | .suba sz x ea => Sys2Proof.Machine.execSuba sz x ea s
  | .subx m sz x y => Sys2Proof.Machine.execSubx m sz x y s
  | .lineA d => Sys2Proof.Machine.execLineA d s
  | .cmp sz x ea => Sys2Proof.Machine.execCmp sz x ea s
  | .cmpa sz x ea => Sys2Proof.Machine.execCmpa sz x ea s
  | .eor sz x ea => Sys2Proof.Machine.execEor sz x ea s
  | .cmpm sz x y => Sys2Proof.Machine.execCmpm sz x y s
  | .andToDn sz x ea => Sys2Proof.Machine.execAndToDn sz x ea s
  | .andToEa sz x ea => Sys2Proof.Machine.execAndToEa sz x ea s
  | .mulu x ea => Sys2Proof.Machine.execMulu x ea s
  | .muls x ea => Sys2Proof.Machine.execMuls x ea s
  | .abcd m x y => Sys2Proof.Machine.execAbcd m x y s
  | .exgDxDy x y => Sys2Proof.Machine.execExgDxDy x y s
  | .exgAxAy x y => Sys2Proof.Machine.execExgAxAy x y s
  | .exgDxAy x y => Sys2Proof.Machine.execExgDxAy x y s
  | .addToDn sz x ea => Sys2Proof.Machine.execAddToDn sz x ea s
  | .addToEa sz x ea => Sys2Proof.Machine.execAddToEa sz x ea s
  | .adda sz x ea => Sys2Proof.Machine.execAdda sz x ea s
  | .addx m sz x y => Sys2Proof.Machine.execAddx m sz x y s
  | .asrReg c sz y => Sys2Proof.Machine.execAsrReg c sz y s
  | .aslReg c sz y => Sys2Proof.Machine.execAslReg c sz y s
  | .lsrReg c sz y => Sys2Proof.Machine.execLsrReg c sz y s
  | .lslReg c sz y => Sys2Proof.Machine.execLslReg c sz y s
  | .roxrReg c sz y => Sys2Proof.Machine.execRoxrReg c sz y s
  | .roxlReg c sz y => Sys2Proof.Machine.execRoxlReg c sz y s
  | .rorReg c sz y => Sys2Proof.Machine.execRorReg c sz y s
  | .rolReg c sz y => Sys2Proof.Machine.execRolReg c sz y s
  | .asrMem ea => Sys2Proof.Machine.execAsrMem ea s
  | .aslMem ea => Sys2Proof.Machine.execAslMem ea s
  | .lsrMem ea => Sys2Proof.Machine.execLsrMem ea s
  | .lslMem ea => Sys2Proof.Machine.execLslMem ea s
  | .roxrMem ea => Sys2Proof.Machine.execRoxrMem ea s
  | .roxlMem ea => Sys2Proof.Machine.execRoxlMem ea s
  | .rorMem ea => Sys2Proof.Machine.execRorMem ea s
  | .rolMem ea => Sys2Proof.Machine.execRolMem ea s
  | .lineF d => Sys2Proof.Machine.execLineF d s

end Sys2Proof.Machine
end

