-- ==== Sys2Proof/Machine/Cpu.lean ====
section
/-! DEFINITION. Machine/Cpu.lean: one step of the CPU: the Normal step of rule R585, the Stopped step of rule R582, trace
(rule R575) and interrupts (rules R580, R581). -/

namespace Sys2Proof.Machine

open Sys2Proof.Config

/-! ## The interrupt input -/

/-- `IRQ.level(c)`: the level of the last breakpoint at or before `c`, 0 before the first (rule R581, log entry 3). -/
def irqLevelAt (levels : List (Nat × BitVec 3)) (c : Nat) : BitVec 3 :=
  levels.foldl (fun l e => if e.1 ≤ c then e.2 else l) 0

/-- The input has risen from below 7 to 7 at a cycle after `a` and up to `b` (rule R580). -/
def irqRises (levels : List (Nat × BitVec 3)) (a b : Nat) : Bool :=
  levels.any (fun e => decide (a < e.1) && decide (e.1 ≤ b) && decide (irqLevelAt levels e.1 = 7) &&
    decide (irqLevelAt levels (e.1 - 1) ≠ 7))

/-- `ipl`: the higher of the external request and Paula's (rule R581). -/
def State.ipl (s : State) : BitVec 3 :=
  let ext := irqLevelAt s.cfg.irqLevels s.cycles
  let paula := s.paula.irqLevel s.cfg.paulaIrq
  if ext.ult paula then paula else ext

/-- The vector number of an accepted interrupt (rule R580). A source may answer any number, and 0, 1 and the numbers rule R550
calls never read or never raised are taken like every other (DESIGN CHOICE, log entry 35). -/
def IrqAnswer.vectorOf (l : BitVec 3) : IrqAnswer → Byte
  | .autovector => 24 + l.setWidth 8
  | .vector n => n
  | .spurious => 24

/-- Looks at the input: notes a level-7 edge since the last look (rule R580). -/
def State.lookAtIrq (s : State) : State :=
  { s with irq := { seen := s.cycles, edge7 := s.irq.edge7 || irqRises s.cfg.irqLevels s.irq.seen s.cycles } }

/-- Whether the requested interrupt is acceptable (rules R580, R742): levels 1 to 6 are level-sensitive and taken above the
mask, level 7 is taken on an edge only, whatever the mask (90_conflicts.md C18, decision D48, log entry 32). -/
def State.irqAcceptable (s : State) : Bool := if s.ipl = 7 then s.irq.edge7 else s.regs.sr.i.ult s.ipl

/-- The interrupt check that ends a step (rules R580, R582, R585): an accepted interrupt returns the CPU to Normal and is
entered; taking level 7 forgets its edge. -/
def State.checkIrq (s : State) : State :=
  let s := s.lookAtIrq
  if s.run ≠ .halted ∧ s.irqAcceptable then
    let l := s.ipl
    let v := IrqAnswer.vectorOf l (s.cfg.irqVectors.get l)
    let t := { s with run := .normal, irq := { s.irq with edge7 := s.irq.edge7 && decide (l ≠ 7) } }
    enter (.interrupt l v) t.pc t
  else s

/-! ## Trace -/

/-- The trace that follows an instruction whose `trace_pending` still stands (rules R575, R585); a halted CPU takes
none. -/
def State.checkTrace (s : State) : State :=
  if s.hid.tracePending ∧ s.run ≠ .halted then enter .trace s.pc s.noTrace else s

/-- What follows the instruction in a step: trace, then an interrupt (rule R585). -/
def State.boundary (s : State) : State := s.checkTrace.checkIrq

/-! ## Steps -/

/-- The start of a Normal step (rule R585): `pc0 <- pc; snapshot <- registers; trace_pending <- T1`. -/
def State.beginStep (s : State) : State :=
  { s with hid := { s.hid with pc0 := s.pc, tracePending := s.regs.sr.t1 } }.start

/-- A fault of the opcode fetch (rules R562, R585): the stacked PC is the fetch address, the IR field the last opcode
fetched. -/
def State.opcodeFault (s : State) (e : Event) : State :=
  let t := s.charge
  takeFault e t.pc t

/-- One Normal step (rule R585): fetch, decode, run the instruction, then the boundary. An illegal word raises the
illegal-instruction exception (rule R170). -/
def stepNormal (s : State) : Host.Outcome State Fault Refusal :=
  match fetchOpcode s.beginStep with
  | .error e t => .next (t.opcodeFault e).boundary
  | .ok w t =>
    match decode w with
    | .error _ => .next (runRule (raise .illegalInstruction) t).boundary
    | .ok i =>
      match exec i t with
      | .next u => .next u.boundary
      | .fault f => .fault f
      | .refused r => .refused r

/-- One Stopped step (rule R582): one cycle passes, then the interrupt check. -/
def stepStopped (s : State) : State := ({ s with cycles := s.cycles + 1 } : State).checkIrq

/-- One CPU step in any run state; in Halted nothing happens (rule R583). -/
def stepCpu (s : State) : Host.Outcome State Fault Refusal :=
  match s.run with
  | .normal => stepNormal s
  | .stopped => .next (stepStopped s)
  | .halted => .next s

end Sys2Proof.Machine
end

