-- ==== Sys2Proof/Machine/YmSynth.lean ====
section
/-! DEFINITION. Machine/YmSynth.lean: the YM2149's generators, its channel mix and the BLEP rendering of one output sample
(rules R625-R648). -/

namespace Sys2Proof.Machine

open Sys2Proof.Config

/-- A value limited to the signed 16-bit range. -/
def clamp16 (v : Int) : Int := max (-32768) (min v 32767)

/-! ## Register fields (rule R620) -/

/-- `TP_c`, 12 bits. -/
def ymTonePeriod (regs : Vector Byte 16) (c : Fin 3) : Nat :=
  regs[2 * c.val + 1].toNat % 16 * 256 + regs[2 * c.val].toNat

/-- `NP`, 5 bits. -/
def ymNoisePeriod (regs : Vector Byte 16) : Nat := regs[6].toNat % 32

/-- `EP`, 16 bits. -/
def ymEnvPeriod (regs : Vector Byte 16) : Nat := regs[12].toNat * 256 + regs[11].toNat

/-- R13's bits CONT, ATT, ALT and HOLD. -/
def ymCont (regs : Vector Byte 16) : Bool := regs[13].getLsbD 3

/-- R13 bit 2. -/
def ymAtt (regs : Vector Byte 16) : Bool := regs[13].getLsbD 2

/-- R13 bit 1. -/
def ymAlt (regs : Vector Byte 16) : Bool := regs[13].getLsbD 1

/-- R13 bit 0. -/
def ymHold (regs : Vector Byte 16) : Bool := regs[13].getLsbD 0

/-! ## Generators (rules R630-R634) -/

/-- What a period of 0 does to an output bit (rule R633). -/
def zeroPeriodBit (z : ZeroPeriod) (bit : Bool) : Bool :=
  match z with
  | .hold => bit
  | .high => true
  | .low => false

/-- A tone generator at a prescaler tick (rules R630, R633). -/
def YmTone.tick (z : ZeroPeriod) (tp : Nat) (t : YmTone) : YmTone :=
  if tp = 0 then { t with out := zeroPeriodBit z t.out }
  else if tp ≤ t.count.toNat + 1 then { count := 0, out := !t.out }
  else { t with count := t.count + 1 }

/-- One shift of the noise register: taps 0 and 3 of 17 bits (rule R631). -/
def noiseShift (l : BitVec 17) : BitVec 17 :=
  l >>> 1 ||| (BitVec.ofBool (l.getLsbD 0 ^^ l.getLsbD 3)).setWidth 17 <<< 16

/-- The noise generator at a tick (rules R631, R633). -/
def YmNoise.tick (z : ZeroPeriod) (np : Nat) (g : YmNoise) : YmNoise :=
  if np = 0 then { g with out := zeroPeriodBit z g.out }
  else if 2 * np ≤ g.count.toNat + 1 then
    { count := 0, lfsr := noiseShift g.lfsr, out := (noiseShift g.lfsr).getLsbD 0 }
  else { g with count := g.count + 1 }

/-- `env_level` (rule R632). -/
def YmEnvelope.level (e : YmEnvelope) : BitVec 5 :=
  if e.held then e.heldLevel else if e.attack then e.step else 31 - e.step

/-- The end of a 32-step ramp (rule R632). -/
def YmEnvelope.endRamp (regs : Vector Byte 16) (e : YmEnvelope) : YmEnvelope :=
  if !ymCont regs then { e with held := true, heldLevel := 0 }
  else if ymHold regs then { e with held := true, heldLevel := if ymAtt regs ^^ ymAlt regs then 31 else 0 }
  else { e with step := 0, attack := if ymAlt regs then !e.attack else e.attack }

/-- The envelope generator at a tick (rules R632, R633). -/
def YmEnvelope.tick (regs : Vector Byte 16) (e : YmEnvelope) : YmEnvelope :=
  if e.held ∨ ymEnvPeriod regs = 0 then e
  else if ymEnvPeriod regs ≤ e.count.toNat + 1 then
    let e := { e with count := 0 }
    if e.step.toNat < 31 then { e with step := e.step + 1 } else e.endRamp regs
  else { e with count := e.count + 1 }

/-- A write to R13 restarts the envelope (rules R632, R634). -/
def YmEnvelope.restart (regs : Vector Byte 16) (e : YmEnvelope) : YmEnvelope :=
  { e with count := 0, step := 0, held := false, attack := ymAtt regs }

/-! ## Amplitudes and the ideal output (rules R636, R637) -/

/-- `gate_c` (rule R636). -/
def YmSound.gate (y : YmSound) (c : Fin 3) : Bool :=
  (y.tones[c].out || y.regs[7].getLsbD c.val) && (y.noise.out || y.regs[7].getLsbD (3 + c.val))

/-- `lvl_c` (rule R636). -/
def YmSound.channelLevel (y : YmSound) (c : Fin 3) : BitVec 5 :=
  let amp := y.regs[8 + c.val]
  if amp.getLsbD 4 then y.env.level
  else if amp.extractLsb' 0 4 = 0 then 0
  else 2 * (amp.extractLsb' 0 4).setWidth 5 + 1

/-- `a_c` (rule R636). -/
def YmSound.amplitude (y : YmSound) (c : Fin 3) : BitVec 5 := if y.gate c then y.channelLevel c else 0

/-- `YM_MIX`. -/
def ymMixOf (p : Params) (a b c : Nat) : Int :=
  match p.ymMix.find? (fun e => decide (e.1 = (a, b, c))) with
  | some e => e.2
  | none => min (a + b + c : Nat) 32767

/-- `y` of rule R637 from the three amplitudes. -/
def ymIdeal (p : Params) (amps : Vector (BitVec 5) 3) : Int :=
  ymMixOf p (p.ymLevel.get amps[0]) (p.ymLevel.get amps[1]) (p.ymLevel.get amps[2])

/-! ## BLEP events (rules R640-R642) -/

/-- `τ(c)` of a prescaler tick, c = 8k (rule R640). -/
def tauOfTick (p : Params) (k : Nat) : Nat := 8 * k * p.outRate * 2 ^ p.timeFracBits / p.ymClock

/-- `τ(c_w)` of a register write at CPU time `ts`, c_w = ts · YM_CLOCK_HZ / CPU_CLOCK_HZ (rules R625, R640). -/
def tauOfWrite (p : Params) (ts : Nat) : Nat := ts * p.outRate * 2 ^ p.timeFracBits / p.cpuClock

/-- `p(c)` of a timestamp (rule R640). -/
def blepPhase (p : Params) (tau : Nat) : Nat := tau % 2 ^ p.timeFracBits * p.blepPhases / 2 ^ p.timeFracBits

/-- Appends an event; past the capacity the tick is clamped: the delta goes into `L` unfiltered and `ym_fatal` is set
(rule R642). -/
def YmSound.enqueue (p : Params) (y : YmSound) (e : BlepEvent) : YmSound :=
  if y.queue.length < p.blepQueueCap then { y with queue := y.queue ++ [e] }
  else { y with level := y.level + e.delta * 2 ^ 16, fatal := true }

/-- Works the output out again after a tick or a write, and appends an event where it changed (rules R635, R641). -/
def YmSound.reevaluate (p : Params) (tau : Nat) (y : YmSound) : YmSound :=
  let amps := Vector.ofFn (fun c : Fin 3 => y.amplitude c)
  let delta := ymIdeal p amps - ymIdeal p y.amps
  let y := { y with amps := amps }
  if delta = 0 then y else y.enqueue p { tau := tau, delta := delta }

/-- A prescaler tick (rules R625, R630-R633). -/
def YmSound.tick (p : Params) (y : YmSound) : YmSound :=
  let y := { y with
    tones := Vector.ofFn (fun c : Fin 3 => y.tones[c].tick p.ymZeroPeriod (ymTonePeriod y.regs c))
    noise := y.noise.tick p.ymZeroPeriod (ymNoisePeriod y.regs)
    env := y.env.tick y.regs
    ticks := y.ticks + 1 }
  y.reevaluate p (tauOfTick p y.ticks)

/-- A register write at its time (rule R635). -/
def YmSound.applyWrite (p : Params) (y : YmSound) (w : YmWrite) : YmSound :=
  let regs := ymStore y.regs w.reg w.value
  let y := { y with regs := regs, env := if w.reg = 13 then y.env.restart regs else y.env }
  y.reevaluate p (tauOfWrite p w.ts)

/-- Applies the pending writes that come before a bound, in program order, and keeps the others. -/
def YmSound.applyWrites (p : Params) (before : YmWrite → Bool) (y : YmSound) (ws : List YmWrite) :
    YmSound × List YmWrite :=
  ((ws.filter before).foldl (fun y w => y.applyWrite p w) y, ws.filter (fun w => !before w))

/-- Ticks `m` times; before tick k come the writes with `c_w < 8k` (rule R625). -/
def YmSound.runTicks (p : Params) : Nat → YmSound → List YmWrite → YmSound × List YmWrite
  | 0, y, ws => (y, ws)
  | m + 1, y, ws =>
    let r := y.applyWrites p (fun w => decide (w.ts * p.ymClock < 8 * (y.ticks + 1) * p.cpuClock)) ws
    YmSound.runTicks p m (r.1.tick p) r.2

/-- How many ticks lie in the intervals before sample `n`: those with `k(8k) ≤ n - 1`, that is `8k · OUT_RATE <
n · YM_CLOCK_HZ` (rule R640). -/
def ticksBefore (p : Params) (n : Nat) : Nat := (n * p.ymClock - 1) / (8 * p.outRate)

/-- "Advance the generators and apply the write events for all times c with k(c) = n - 1" (rule R644). A write has
`k(c_w) ≤ n - 1` when `ts · OUT_RATE < n · CPU_CLOCK_HZ`. -/
def YmSound.advanceTo (p : Params) (n : Nat) (y : YmSound) (ws : List YmWrite) : YmSound × List YmWrite :=
  let r := YmSound.runTicks p (ticksBefore p n - y.ticks) y ws
  r.1.applyWrites p (fun w => decide (w.ts * p.outRate < n * p.cpuClock)) r.2

/-! ## Rendering (rules R643-R645) -/

/-- `BLEP_KERNEL[p][j]`. -/
def blepKernelAt (p : Params) (phase tap : Nat) : Int := (p.blepKernel.getD phase []).getD tap 0

/-- `LEAK(x)`. -/
def leakOf (l : Leak) (x : Int) : Int :=
  match l.overrides.find? (fun e => decide (e.1 = x)) with
  | some e => e.2
  | none =>
    match l.shift with
    | some k => x >>> k
    | none => 0

/-- `Res[(n + j) mod BLEP_TAPS] += δ · BLEP_KERNEL[p][j]` for the taps from `j` on. -/
def addResidual (p : Params) (n phase : Nat) (delta : Int) : Nat → Nat → List Int → List Int
  | 0, _, res => res
  | m + 1, j, res =>
    let i := (n + j) % p.blepTaps
    addResidual p n phase delta m (j + 1) (res.set i (res.getD i 0 + delta * blepKernelAt p phase j))

/-- A queued event enters `L` and `Res` (rule R644). -/
def YmSound.consume (p : Params) (n : Nat) (y : YmSound) (e : BlepEvent) : YmSound :=
  { y with
    level := y.level + e.delta * 2 ^ 16
    res := addResidual p n (blepPhase p e.tau) e.delta p.blepTaps 0 y.res }

/-- Producing sample `n` from the advanced engine: the queue is consumed and cleared, and `L` leaks (rules R644, R645). -/
def YmSound.produce (p : Params) (n : Nat) (y : YmSound) : YmSound × Int :=
  let y := y.queue.foldl (fun y e => y.consume p n e) y
  let i := n % p.blepTaps
  let v := y.level + y.res.getD i 0
  ({ y with queue := [], res := y.res.set i 0, level := y.level - leakOf p.leak y.level }, clamp16 (v >>> 16))

/-- Sample `n` of the YM2149 (rule R644): the engine after it and `ym_out[n]`. -/
def Ym.sample (p : Params) (n : Nat) (y : Ym) : Ym × Int :=
  let r := y.sound.advanceTo p n y.writes
  let q := r.1.produce p n
  ({ y with sound := q.1, writes := r.2 }, q.2)

end Sys2Proof.Machine
end

