-- ==== Sys2Proof/Machine/PaulaSynth.lean ====
section
/-! DEFINITION. Machine/PaulaSynth.lean: Paula's playback, resampling and stereo mix (rules R693-R704). -/

namespace Sys2Proof.Machine

open Sys2Proof.Config

/-- `dma_word(p)` (rule R698): RAM as the slice left it, 0 outside RAM; never a fault, never a device. -/
def dmaWord (p : Params) (mem : Memory) (ptr : Long) : Word :=
  let e := ptr.toNat % 2 ^ p.addrBits / 2 * 2
  if e + 1 < p.memSize then Memory.read mem e ++ Memory.read mem (e + 1) else 0

/-- `cur_x` (rule R695). -/
def PaulaPlay.current (c : PaulaPlay) : Byte := if c.low then c.word.extractLsb' 0 8 else c.word.extractLsb' 8 8

/-- `start_x()` (rule R695), without its interrupt. -/
def PaulaLatch.startPlay (p : Params) (mem : Memory) (l : PaulaLatch) : PaulaPlay where
  state := .playing
  ptr := l.lc
  left := l.len
  word := dmaWord p mem l.lc
  low := false
  phase := 0
  oneshot := decide (l.len = 0)

/-- `advance_x()` (rule R696): the playback state after it, and whether it raises the channel's interrupt. -/
def PaulaPlay.advance (p : Params) (mem : Memory) (l : PaulaLatch) (c : PaulaPlay) : PaulaPlay × Bool :=
  if c.oneshot then ({ c with state := .silent }, false)
  else if !c.low then ({ c with low := true }, false)
  else if c.left - 1 = 0 then
    let c := { c with ptr := l.lc, left := l.len }
    if l.len = 0 then ({ c with state := .silent }, true)
    else ({ c with word := dmaWord p mem l.lc, low := false }, true)
  else
    ({ c with left := c.left - 1, ptr := c.ptr + 2, word := dmaWord p mem (c.ptr + 2), low := false }, false)

/-- `next_x` (rule R701): the byte `advance_x` would make current, 0 if it would silence the channel. -/
def PaulaPlay.nextByte (p : Params) (mem : Memory) (l : PaulaLatch) (c : PaulaPlay) : Byte :=
  let c' := (c.advance p mem l).1
  if c'.state = .playing then c'.current else 0

/-- `sample_x` (rule R701). -/
def PaulaPlay.sampleValue (p : Params) (mem : Memory) (l : PaulaLatch) (c : PaulaPlay) : Int :=
  match p.paulaInterp with
  | .none => c.current.toInt
  | .linear =>
    (c.current.toInt * ((2 ^ p.paulaFracBits : Nat) - (c.phase : Int)) + (c.nextByte p mem l).toInt * (c.phase : Int))
      >>> p.paulaFracBits

/-- `step(P)` (rule R701). -/
def paulaStep (p : Params) (per : Word) : Nat :=
  p.paulaClock * 2 ^ p.paulaFracBits / (per.toNat * p.outRate)

/-- The `while` loop of rule R701; every round takes 2^PAULA_FRAC_BITS off the phase, so `fuel` rounds are enough when fuel
is at least the phase divided by that. A channel that falls silent ends it early, with what is left in the phase (log entry
33). -/
def PaulaPlay.drain (p : Params) (mem : Memory) (l : PaulaLatch) : Nat → PaulaPlay → Bool → PaulaPlay × Bool
  | 0, c, irq => (c, irq)
  | fuel + 1, c, irq =>
    if 2 ^ p.paulaFracBits ≤ c.phase ∧ c.state = .playing then
      let r := ({ c with phase := c.phase - 2 ^ p.paulaFracBits } : PaulaPlay).advance p mem l
      PaulaPlay.drain p mem l fuel r.1 (irq || r.2)
    else (c, irq)

/-- Volumes above 64 act as 64 (rule R690). -/
def effectiveVolume (v : BitVec 7) : Int := min v.toNat 64

/-- `out_x[n]` (rule R701). -/
def PaulaChannel.output (p : Params) (mem : Memory) (c : PaulaChannel) : Int :=
  if c.play.state = .playing then c.play.sampleValue p mem c.latch * effectiveVolume c.latch.vol else 0

/-- The phase accumulator's move after a sample, and whether it raised the interrupt (rules R701, R703). -/
def PaulaChannel.move (p : Params) (mem : Memory) (c : PaulaChannel) : PaulaChannel × Bool :=
  if c.play.state = .playing ∧ c.latch.per ≠ 0 then
    let phase := c.play.phase + paulaStep p c.latch.per
    let r := PaulaPlay.drain p mem c.latch (phase / 2 ^ p.paulaFracBits) { c.play with phase := phase } false
    ({ c with play := r.1 }, r.2)
  else (c, false)

/-- A channel is enabled while DMACON[9] and DMACON[x] are set (rule R693). -/
def dmaEnabled (dmacon : BitVec 15) (x : Fin 4) : Bool := dmacon.getLsbD 9 && dmacon.getLsbD x.val

/-- Puts a channel back, and merges its interrupt bit into INTREQ if it raised it (rule R700). -/
def Paula.putChannel (q : Paula) (x : Fin 4) (c : PaulaChannel) (irq : Bool) : Paula :=
  let q := { q with channels := q.channels.set x.val c x.isLt }
  if irq then q.raiseIrq x else q

/-- The effect of a DMACON write on one channel (rule R693). -/
def Paula.switchChannel (p : Params) (mem : Memory) (old new : BitVec 15) (q : Paula) (x : Fin 4) : Paula :=
  let c := q.channels[x]
  if !dmaEnabled old x && dmaEnabled new x then
    q.putChannel x { c with play := c.latch.startPlay p mem } true
  else if dmaEnabled old x && !dmaEnabled new x then
    q.putChannel x { c with play := { c.play with state := .off } } false
  else q

/-- A write takes effect on the sound-producing state (rules R692-R694, R697). -/
def Paula.applyWrite (p : Params) (mem : Memory) (q : Paula) (w : PaulaWrite) : Paula :=
  match w.reg with
  | .dmacon =>
    let new := setClear q.soundDmacon w.value
    let r := (List.finRange 4).foldl (fun q x => q.switchChannel p mem q.soundDmacon new x) q
    { r with soundDmacon := new }
  | .intena => q
  | .intreq => q
  | r =>
    match r.channel with
    | some x =>
      let c := q.channels[x]
      q.putChannel x { c with latch := c.latch.write r w.value } false
    | none => q

/-- `n_w(ts)` (rule R697). -/
def paulaSampleOf (p : Params) (ts : Nat) : Nat := ts * p.outRate / p.cpuClock + 1

/-- The writes due at sample `n` are applied in program order (rule R701); the later ones stay. -/
def Paula.applyDue (p : Params) (mem : Memory) (n : Nat) (q : Paula) : Paula :=
  let due := fun w : PaulaWrite => decide (paulaSampleOf p w.ts ≤ n)
  let r := (q.writes.filter due).foldl (fun q w => q.applyWrite p mem w) q
  { r with writes := q.writes.filter (fun w => !due w) }

/-- One channel's output and move (rule R701). -/
def Paula.moveChannel (p : Params) (mem : Memory) (q : Paula) (x : Fin 4) : Paula :=
  let r := q.channels[x].move p mem
  q.putChannel x r.1 r.2

/-- Sample `n` of Paula (rules R701, R704): the engine after it, `paula_L[n]` and `paula_R[n]`. -/
def Paula.sample (p : Params) (mem : Memory) (n : Nat) (q : Paula) : Paula × Int × Int :=
  let q := q.applyDue p mem n
  let out := fun x : Fin 4 => q.channels[x].output p mem
  let left := clamp16 (p.paulaGain * (out 0 + out 3))
  let right := clamp16 (p.paulaGain * (out 1 + out 2))
  ((List.finRange 4).foldl (fun q x => q.moveChannel p mem x) q, left, right)

end Sys2Proof.Machine
end

