-- ==== Sys2Proof/Machine/Slice.lean ====
section
/-! DEFINITION. Machine/Slice.lean: slices and their rendering (rules R761-R766). -/

namespace Sys2Proof.Machine

open Sys2Proof.Config

/-- The frame of a hardware variant (rule R764). Malformed flags have no row there, and the frame given for them is never
appended (`State.produceSample`, log entry 24). -/
def mixFrame (hw : HwFlags) (ym left right : Int) : Frame :=
  match hw with
  | .ym => { left := BitVec.ofInt 16 ym, right := BitVec.ofInt 16 ym }
  | .amiga => { left := BitVec.ofInt 16 left, right := BitVec.ofInt 16 right }
  | .both => { left := BitVec.ofInt 16 (clamp16 (ym + left)), right := BitVec.ofInt 16 (clamp16 (ym + right)) }
  | .malformed => { left := 0, right := 0 }

/-- The YM2149's part of a sample, if the engine is present (rule R763). -/
def State.sampleYm (s : State) : State × Int :=
  if s.cfg.hw.hasYm then
    let r := s.ym.sample s.cfg s.out.next
    ({ s with ym := r.1 }, r.2)
  else (s, 0)

/-- Paula's part of a sample, if the engine is present (rule R763). -/
def State.samplePaula (s : State) : State × Int × Int :=
  if s.cfg.hw.hasPaula then
    let r := s.paula.sample s.cfg s.mem s.out.next
    ({ s with paula := r.1 }, r.2.1, r.2.2)
  else (s, 0, 0)

/-- Produces the next sample and appends its frame (rule R763), counting the frames after the one whose tick overflowed (log
entry 36). A session with malformed flags has no frame to append (rules R740, R764, log entry 24). -/
def State.produceSample (s : State) : State :=
  let a := s.sampleYm
  let b := a.1.samplePaula
  let frame := mixFrame s.cfg.hw a.2 b.2.1 b.2.2
  let t := b.1
  { t with out := { t.out with
      next := t.out.next + 1
      fifo := if s.cfg.hw = .malformed then t.out.fifo else t.out.fifo ++ [frame]
      afterOverflow := if s.ym.sound.fatal ∧ s.cfg.hw ≠ .malformed then t.out.afterOverflow + 1
        else t.out.afterOverflow } }

/-- Produces `m` samples in order. -/
def State.produceSamples : Nat → State → State
  | 0, s => s
  | m + 1, s => State.produceSamples m s.produceSample

/-- `N(E)` (rule R763). -/
def State.lastSample (s : State) : Nat := s.cycles * s.cfg.outRate / s.cfg.cpuClock

/-- `render_slice()` (rule R763): the samples from the next one up to `N(E)` inclusive. -/
def State.renderSlice (s : State) : State := State.produceSamples (s.lastSample + 1 - s.out.next) s

/-- The cycle target `T_j` (rule R761). -/
def State.sliceTarget (s : State) : Nat := (s.out.slice + 1) * s.cfg.sliceCycles

/-- The slice is over when its target is reached or the CPU has halted (rules R761, R765). With `SLICE_CYCLES = 0`, which rule
R761 does not exclude and whose loop would run nothing, every step ends a slice: the model's choice (log entry 21). -/
def State.sliceOver (s : State) : Bool := decide (s.run = .halted) || decide (s.sliceTarget ≤ s.cycles)

/-- What rule R766 does after a slice is rendered: the session ends if the CPU has halted or the BLEP queue has overflowed,
and after an overflow the frames that came after the overflowing one are dropped (rules R765, R766). -/
def State.markEnd (s : State) : State :=
  { s with out := { s.out with
      ended := s.out.ended || decide (s.run = .halted) || s.ym.sound.fatal
      fifo := if s.ym.sound.fatal then s.out.fifo.take (s.out.fifo.length - s.out.afterOverflow) else s.out.fifo
      afterOverflow := if s.ym.sound.fatal then 0 else s.out.afterOverflow } }

/-- The end of a slice within `step`: it is rendered, the end of the session is marked, and the next slice begins (rules R761,
R763, R765, R766). An instruction may end past the target of later slices: those are empty and are passed over (log entry
9). -/
def State.closeSlice (s : State) : State :=
  let t := s.renderSlice.markEnd
  { t with out := { t.out with slice := max (t.out.slice + 1) (t.cycles / t.cfg.sliceCycles) } }

/-- Closes the slice if it is over. -/
def State.endStep (s : State) : State := if s.sliceOver then s.closeSlice else s

end Sys2Proof.Machine
end

