-- ==== Sys2Proof/Machine/Step.lean ====
section
/-! DEFINITION. Machine/Step.lean: one step of the block, and where its next instruction is fetched. -/

namespace Sys2Proof.Machine

/-- One step of the session's loop (rules R761, R766): a CPU step, then the rendering of the slice if that step ended it. An
ended session does nothing more until `reset()`. -/
def step (s : State) : Host.Outcome State Fault Refusal :=
  if s.out.ended then .next s
  else
    match stepCpu s with
    | .next t => .next t.endStep
    | .fault f => .fault f
    | .refused r => .refused r

/-- `s` with an instruction, given as spec/opcode_table.json numbers its bits, stored at the external address of `pc`, where
`step` fetches its next opcode word. -/
def State.withFetchWord (s : State) (nbits w : Nat) : State :=
  { s with mem := Memory.writeBytes s.mem (s.extAddr s.pc) (tableBytes nbits w) }

end Sys2Proof.Machine
end

