-- ==== Sys2Proof/Safety.lean ====
section
/-! DEFINITION. Safety.lean: the terms claims are stated in: which accesses succeed and what they read, what an instruction
leaves unchanged, the register file an addressing mode leaves, and the invariants of the machine. -/

namespace Sys2Proof.Machine

open Sys2Proof.Config

/-! ## Accesses -/

/-- A data access of size `sz` at `a` completes: the address is even for a word or a long (rule R84) and someone answers at
every word of it (rule R90). -/
def State.canAccess (s : State) (sz : Size) (a : Long) : Bool :=
  match sz with
  | .b => decide (s.target (s.extAddr a) ≠ .unmapped)
  | .w => !isOdd a && decide (s.target (s.extAddr a) ≠ .unmapped)
  | .l => !isOdd a && decide (s.target (s.extAddr a) ≠ .unmapped) &&
      decide (s.target (s.extAddr (a + 2)) ≠ .unmapped)

/-- What an access that completes reads, most significant byte first (rules R82, R83, R89). -/
def State.memValue (s : State) (sz : Size) (a : Long) : BitVec sz.bits :=
  match sz with
  | .b => (s.busByte a).getD 0
  | .w => (s.busWord a).getD 0
  | .l => (s.busWord a).getD 0 ++ (s.busWord (a + 2)).getD 0

/-- The RAM cells a word access touches. -/
def State.wordCells (s : State) (a : Long) : List Nat :=
  match s.target (s.extAddr a) with
  | .ram e => [e, e + 1]
  | _ => []

/-- The RAM cells an access of size `sz` touches. -/
def State.cellsOf (s : State) (sz : Size) (a : Long) : List Nat :=
  match sz with
  | .b =>
    match s.target (s.extAddr a) with
    | .ram e => [e]
    | _ => []
  | .w => s.wordCells a
  | .l => s.wordCells a ++ s.wordCells (a + 2)

/-- The access stays in RAM: no device window answers any word of it. -/
def State.inRam (s : State) (sz : Size) (a : Long) : Bool :=
  !s.isDevice a && (decide (sz ≠ .l) || !s.isDevice (a + 2))

/-- A location can be read and written: a register and an immediate always, memory when the access completes. -/
def Loc.accessible (loc : Loc) (s : State) (sz : Size) : Bool :=
  match loc with
  | .mem a => s.canAccess sz a
  | _ => true

/-- The value a location holds (rule R201). -/
def Loc.value (loc : Loc) (s : State) (sz : Size) : BitVec sz.bits :=
  match loc with
  | .dreg n => (s.regs.getD n).setWidth sz.bits
  | .areg n => (s.regs.getA n).setWidth sz.bits
  | .mem a => s.memValue sz a
  | .imm v => v.setWidth sz.bits

/-- The register file after `v` is written to a location (rules R12, R32, R201). -/
def Loc.putRegs (loc : Loc) (sz : Size) (v : BitVec sz.bits) (r : RegFile) : RegFile :=
  match loc with
  | .dreg n => r.setD n (mergeLow (r.getD n) v)
  | .areg n => r.setA n (v.signExtend 32)
  | _ => r

/-- `EA(M, R, sz)` succeeds from `s`: it gives `loc`, leaves `t`, and the operand there can be read and written. -/
def Locates (ea : Ea) (sz : Size) (s : State) (loc : Loc) (t : State) : Prop :=
  resolve ea sz s = .ok loc t ∧ loc.accessible s sz = true

/-- The register file after an addressing mode's own effect: `(An)+` adds its step, `-(An)` subtracts it, no other mode
changes a register (rules R203-R214). -/
def RegFile.bump (r : RegFile) (ea : Ea) (sz : Size) : RegFile :=
  match ea with
  | .postinc n => r.setA n (r.getA n + autoStep n sz)
  | .predec n => r.setA n (r.getA n - autoStep n sz)
  | _ => r

/-- The register file with another SR. -/
def RegFile.withSr (r : RegFile) (f : Sr) : RegFile := { r with sr := f }

/-! ## What an instruction leaves unchanged -/

/-- Everything that is neither a register, pc, the run state, memory, an engine nor a measure of the instruction in hand is
unchanged; the cycle counter has gone forward. -/
structure SameControl (s t : State) : Prop where
  cfg : t.cfg = s.cfg
  inGroup0 : t.inGroup0 = s.inGroup0
  group0Handler : t.group0Handler = s.group0Handler
  irq : t.irq = s.irq
  out : t.out = s.out
  pc0 : t.hid.pc0 = s.hid.pc0
  ir : t.hid.ir = s.hid.ir
  tracePending : t.hid.tracePending = s.hid.tracePending
  cycles : s.cycles < t.cycles

/-- Every byte of memory and both engines are unchanged. -/
structure SameMemory (s t : State) : Prop where
  read : ∀ e, Memory.read t.mem e = Memory.read s.mem e
  mem : t.mem = s.mem
  ym : t.ym = s.ym
  paula : t.paula = s.paula

/-- `v` has been stored at `a`: every RAM byte outside the stored ones reads as before; in RAM the location now reads as `v`
(for a long, where its two words are not one and the same word under `mirror`); and where the access stays out of the device
windows both engines are unchanged. -/
structure StoresAt (s t : State) (sz : Size) (a : Long) (v : BitVec sz.bits) : Prop where
  frame : ∀ e, e ∉ s.cellsOf sz a → Memory.read t.mem e = Memory.read s.mem e
  value : s.inRam sz a = true → (s.cellsOf sz a).Nodup → t.memValue sz a = v
  ym : s.inRam sz a = true → t.ym = s.ym
  paula : s.inRam sz a = true → t.paula = s.paula

/-- What a write to a location does to memory and the engines. -/
def WritesAt (s t : State) (sz : Size) (loc : Loc) (v : BitVec sz.bits) : Prop :=
  match loc with
  | .mem a => StoresAt s t sz a v
  | _ => SameMemory s t

/-- The step from `s` to `t` leaves pc at `p` and the register file `r`, and changes nothing else but cycles and the measures
of the instruction in hand. -/
structure ChangesRegs (s t : State) (p : Long) (r : RegFile) : Prop where
  pc : t.pc = p
  regs : t.regs = r
  run : t.run = s.run
  control : SameControl s t
  memory : SameMemory s t

/-- The step from `s` to `t` leaves pc at `p` and the register file `r`, has written `v` to `loc`, and changes nothing else but
cycles and the measures of the instruction in hand. -/
structure ChangesAt (s t : State) (p : Long) (r : RegFile) (sz : Size) (loc : Loc) (v : BitVec sz.bits) : Prop where
  pc : t.pc = p
  regs : t.regs = r
  run : t.run = s.run
  control : SameControl s t
  memory : WritesAt s t sz loc v

/-! ## Invariants -/

/-- The T0 bit is stored only when `SR_T0_STORED` (rules R42, R47). -/
def Sr.legal (f : Sr) (t0Stored : Bool) : Bool := t0Stored || !f.t0

/-- Every YM2149 register holds only the bits of its mask (rule R620). -/
def ymRegsOk (regs : Vector Byte 16) : Bool :=
  (List.finRange 16).all (fun i => decide (regs[i] &&& ymMask (BitVec.ofNat 4 i.val) = regs[i]))

/-- `LC_x` is even (rule R690). -/
def PaulaLatch.ok (l : PaulaLatch) : Bool := !l.lc.getLsbD 0

/-- Both copies of Paula's latches hold even pointers. -/
def Paula.ok (p : Paula) : Bool :=
  (List.finRange 4).all (fun x => p.latches[x].ok && p.channels[x].latch.ok)

/-- Both copies of the YM2149's registers are masked and the noise register is not zero (rules R620, R631). -/
def Ym.ok (y : Ym) : Bool :=
  ymRegsOk y.regs && ymRegsOk y.sound.regs && decide (y.sound.noise.lfsr ≠ 0)

/-- THE INVARIANT: RAM is in its canonical form and inside `MEM_SIZE`, SR and the device registers hold only bits they have,
and the session has ended whenever the CPU has halted or the BLEP queue has overflowed (rules R765, R766). -/
structure State.Inv (s : State) : Prop where
  params : s.cfg.memoryOk = true
  memWf : Memory.wf s.mem = true
  memWithin : Memory.within s.cfg.memSize s.mem = true
  sr : s.regs.sr.legal s.cfg.srT0Stored = true
  ym : s.ym.ok = true
  paula : s.paula.ok = true
  halted : s.run = .halted → s.out.ended = true
  fatal : s.ym.sound.fatal = true → s.out.ended = true

/-- The state an instruction runs in when `w` is fetched at `pc` (rules R37, R51, R585). -/
def State.fetched (s : State) (w : Word) : State :=
  let t := s.beginStep
  { t with
    pc := s.pc + 2
    hid := { t.hid with ir := w }
    inGroup0 := s.inGroup0 && decide (s.pc ≠ s.group0Handler) }

/-- The frame of a group-1 or group-2 exception lies at `sp`: SR, then PC (rules R552, R561). -/
def State.shortFrameAt (s : State) (sp : Long) (sr : Word) (p : Long) : Prop :=
  s.memValue .w sp = sr ∧ s.memValue .l (sp + 2) = p

/-- The 14 bytes of a group-0 frame at `sp` (rule R566). -/
def State.groupZeroFrameAt (s : State) (sp : Long) (f : FaultRec) (ir sr : Word) (p : Long) : Prop :=
  s.memValue .w sp = f.statusWord ∧ s.memValue .l (sp + 2) = f.addr ∧ s.memValue .w (sp + 6) = ir ∧
    s.memValue .w (sp + 8) = sr ∧ s.memValue .l (sp + 10) = p

/-- The `n` bytes below the supervisor stack pointer are RAM above the vector table, at an even address that does not
wrap. -/
def State.stackRoom (s : State) (n : Nat) : Prop :=
  isOdd s.regs.ssp = false ∧ 0x400 + n ≤ s.regs.ssp.toNat ∧ s.regs.ssp.toNat ≤ s.cfg.memSize

/-- The handler an exception of vector `v` reads from the table (rule R550). -/
def State.handlerOf (s : State) (v : Byte) : Long := s.memValue .l (v.setWidth 32 * 4)

/-- A handler address that does not halt the CPU (rule R572). -/
def State.handlerOk (s : State) (v : Byte) : Prop :=
  s.handlerOf v ≠ 0 ∧ s.extAddr (s.handlerOf v) < s.cfg.memSize

end Sys2Proof.Machine
end

