-- ==== Sys2Proof/Certificates/Slice0/Obligations.lean ====
section
/-! DEFINITION. Certificates/Slice0/Obligations.lean: the statements for the provers. `s.start` is the state in which an
instruction's own rule runs (the registers, memory and pc of `s`, nothing measured yet). `ChangesRegs s u p r` and `ChangesAt s u
p r sz loc v` say that an instruction leaves pc at `p`, which without a control transfer is the pc that its last fetch left (rule
R37), and the registers `r`, and what else it changes. -/

open Sys2Proof Sys2Proof.Machine Sys2Proof.Config

/-! ## Helpers of the statements -/

namespace Sys2Proof.Claims

/-- The register form of a shift kind: ASL, ASR, LSL, LSR, ROL, ROR, ROXL, ROXR on a data register. -/
def regShift (k : ShiftKind) (c : ShiftCount) (sz : Size) (y : Reg) : Instr :=
  match k with
  | .asl => .aslReg c sz y
  | .asr => .asrReg c sz y
  | .lsl => .lslReg c sz y
  | .lsr => .lsrReg c sz y
  | .rol => .rolReg c sz y
  | .ror => .rorReg c sz y
  | .roxl => .roxlReg c sz y
  | .roxr => .roxrReg c sz y

/-- The memory form of a shift kind. -/
def memShift (k : ShiftKind) (ea : Ea) : Instr :=
  match k with
  | .asl => .aslMem ea
  | .asr => .asrMem ea
  | .lsl => .lslMem ea
  | .lsr => .lsrMem ea
  | .rol => .rolMem ea
  | .ror => .rorMem ea
  | .roxl => .roxlMem ea
  | .roxr => .roxrMem ea

/-- The count of a register shift: the immediate, or the register modulo 64 (rule R400). -/
def countOf (c : ShiftCount) (r : RegFile) : Nat :=
  match c with
  | .imm n => n
  | .reg n => (r.getD n).toNat % 64

/-- BTST, BCHG, BCLR and BSET with an immediate bit number. -/
def staticBit (op : BitOp) (ea : Ea) : Instr :=
  match op with
  | .test => .btst ea
  | .change => .bchg ea
  | .clear => .bclr ea
  | .set => .bset ea

/-- BTST, BCHG, BCLR and BSET with the bit number in D[x]. -/
def dynamicBit (op : BitOp) (x : Reg) (ea : Ea) : Instr :=
  match op with
  | .test => .btstDn x ea
  | .change => .bchgDn x ea
  | .clear => .bclrDn x ea
  | .set => .bsetDn x ea

/-- What a bit operation on bit `b` of the operand `v` at `loc` leaves: pc at `p`, Z the inverse of the tested bit, and BCHG,
BCLR and BSET write the operand back. -/
def BitResult (op : BitOp) (s u : State) (p : Long) (r : RegFile) (sz : Size) (loc : Loc) (v : BitVec sz.bits) (b : Nat) : Prop :=
  let f : Sr := { s.regs.sr with z := !v.getLsbD b }
  match op with
  | .test => ChangesRegs s u p (r.withSr f)
  | .change => ChangesAt s u p ((loc.putRegs sz (v ^^^ (BitVec.ofNat _ 1 <<< b)) r).withSr f) sz loc
      (v ^^^ (BitVec.ofNat _ 1 <<< b))
  | .clear => ChangesAt s u p ((loc.putRegs sz (v &&& ~~~(BitVec.ofNat _ 1 <<< b)) r).withSr f) sz loc
      (v &&& ~~~(BitVec.ofNat _ 1 <<< b))
  | .set => ChangesAt s u p ((loc.putRegs sz (v ||| (BitVec.ofNat _ 1 <<< b)) r).withSr f) sz loc
      (v ||| (BitVec.ofNat _ 1 <<< b))

/-- The number a byte of two decimal digits stands for. -/
def decimal (b : Byte) : Nat := b.toNat / 16 * 10 + b.toNat % 16

/-- Both digits of a byte are decimal. -/
def isDecimal (b : Byte) : Prop := b.toNat / 16 ≤ 9 ∧ b.toNat % 16 ≤ 9

/-- The exact value of an addition is outside the signed range of `n` bits. -/
def signedOut (n : Nat) (v : Int) : Bool := decide (v < -(2 ^ (n - 1) : Int)) || decide ((2 ^ (n - 1) : Int) ≤ v)

/-- The registers MOVEM loads from `a` on, in list order, each from the next word or long (rule R254). -/
def loadAll (s : State) (sz : Size) : List (Fin 16) → Long → RegFile → RegFile
  | [], _, r => r
  | i :: rest, a, r =>
    loadAll s sz rest (a + BitVec.ofNat 32 sz.bytes) (r.setListed i ((s.memValue sz a).signExtend 32))

end Sys2Proof.Claims

open Sys2Proof.Claims

/-! ## Encoding -/

/-- The decoder gives back every well-formed instruction from its opcode word (rule R173). -/
def Obligations.DecodeEncode : Prop :=
  ∀ i : Instr, i.wellFormed = true → decode (encode i) = .ok i

/-- Each opcode word that decodes stands for one well-formed instruction and is its encoding (rules R170, R173). -/
def Obligations.EncodeDecode : Prop :=
  ∀ (w : Word) (i : Instr), decode w = .ok i → encode i = w ∧ i.wellFormed = true

/-- Opcode words of the spec's own programs and examples decode to the instructions they stand for. -/
def Obligations.SpecWordsDecode : Prop :=
  decode 0x7204 = .ok (.moveq 1 4) ∧
  decode 0xD041 = .ok (.addToDn .w 0 (.dn 1)) ∧
  decode 0x51C9 = .ok (.dbcc .f 1) ∧
  decode 0x48E7 = .ok (.movemToMem .l (.predec 7)) ∧
  decode 0xC109 = .ok (.abcd .mem 0 1) ∧
  decode 0xE1D0 = .ok (.aslMem (.ind 0)) ∧
  decode 0x4E73 = .ok .rte ∧
  decode 0x4E7A = .error (.illegal 0x4E7A)

/-! ## The step -/

/-- A step runs the decoded instruction: when the word at an even pc decodes, the step is `exec` of it on the state with the
opcode fetched, followed by the trace and interrupt checks (`boundary`) and the end of the slice (`endStep`) (rules R585,
R761). That a step ends with the slice it reaches is the model's choice (log entry 9). -/
def Obligations.StepRunsDecodedInstruction : Prop :=
  ∀ (s : State) (w : Word) (i : Instr),
    s.out.ended = false → s.run = .normal → isOdd s.pc = false → s.busWord s.pc = some w → decode w = .ok i →
    ∃ u, exec i (s.fetched w) = .next u ∧ step s = .next u.boundary.endStep

/-- A word that decodes to nothing takes vector 4 with its own address stacked; no extension word is fetched and no trace
follows (rules R170, R565, R575). -/
def Obligations.IllegalWordTakesVectorFour : Prop :=
  ∀ (s : State) (w : Word),
    s.out.ended = false → s.run = .normal → isOdd s.pc = false → s.busWord s.pc = some w →
    decode w = .error (.illegal w) →
    step s = .next (enter .illegalInstruction s.pc (s.fetched w).start.charge.noTrace).boundary.endStep

/-- A fault of the opcode fetch stacks the fetch address and the last opcode fetched: an address error at an odd pc, a bus
error where no one answers (rules R85, R90, R562, R571). The cost charged is the model's choice (log entry 17). -/
def Obligations.OpcodeFetchFaults : Prop :=
  ∀ (s : State), s.out.ended = false → s.run = .normal → s.canAccess .w s.pc = false →
    let f : FaultRec := ⟨s.pc, true, if s.regs.sr.s then 6 else 2, false⟩
    let e : Event := if isOdd s.pc then .addressError f else .busError f
    step s = .next (takeFault e s.pc s.beginStep.charge).boundary.endStep ∧ s.beginStep.hid.ir = s.hid.ir

/-- A Stopped step passes one cycle and only looks at the interrupt input; a Halted CPU changes nothing but the end of its
slice; an ended session changes nothing (rules R582, R583, R766). -/
def Obligations.StoppedHaltedEndedSteps : Prop :=
  ∀ s : State,
    (s.out.ended = false → s.run = .stopped →
      step s = .next ({ s with cycles := s.cycles + 1 } : State).checkIrq.endStep) ∧
    (s.out.ended = false → s.run = .halted → step s = .next s.closeSlice ∧ s.closeSlice.out.ended = true ∧
      s.closeSlice.regs = s.regs ∧ s.closeSlice.mem = s.mem ∧ s.closeSlice.cycles = s.cycles ∧
      s.closeSlice.pc = s.pc ∧ s.closeSlice.run = .halted) ∧
    (s.out.ended = true → step s = .next s)

/-- The request is the higher of the external level and Paula's, which is 4 while INTENA bit 14 and an audio bit of both INTENA
and INTREQ are set. A request of level 1 to 6 above the mask, or of level 7 after a level-7 edge, is taken through the vector the source
answers (24 + level, its own number, or 24) with SR and pc stacked, the mask raised to its level, T1 and T0 cleared (kept when
the source answers vector 9 and `TRACE_KEEPS_T`) and the CPU Normal; any other is not taken (rules R44, R561, R580, R581,
R582, R700, R742). That a level 7 held above the mask is not taken without a new edge is R580 as rule R742, decision D48 and
conflict C18 read it (log entry 32). How the input is given and looked at (log entries 3, 19 and 26), and that every number a
source answers is entered alike (log entry 35), are the model's choices. -/
def Obligations.InterruptsAreTakenByLevel : Prop :=
  (∀ (l : BitVec 3) (n : Byte),
    (IrqAnswer.vectorOf l .autovector).toNat = 24 + l.toNat ∧ IrqAnswer.vectorOf l (.vector n) = n ∧
    IrqAnswer.vectorOf l .spurious = 24 ∧ (Event.interrupt l n).vector = n) ∧
  (∀ (levels : List (Nat × BitVec 3)) (a b c : Nat) (l : BitVec 3),
    irqLevelAt [] c = 0 ∧ irqLevelAt (levels ++ [(b, l)]) c = (if b ≤ c then l else irqLevelAt levels c) ∧
    (irqRises levels a b = true ↔
      ∃ c, a < c ∧ c ≤ b ∧ irqLevelAt levels c = 7 ∧ irqLevelAt levels (c - 1) ≠ 7)) ∧
  (∀ (q : Paula) (on : Bool), q.irqLevel on =
    if on = true ∧ q.intena.getLsbD 14 = true ∧
      ∃ x : Fin 4, q.intena.getLsbD (7 + x.val) = true ∧ q.intreq.getLsbD (7 + x.val) = true then 4 else 0) ∧
  (∀ s : State,
    s.ipl.toNat = max (irqLevelAt s.cfg.irqLevels s.cycles).toNat (s.paula.irqLevel s.cfg.paulaIrq).toNat ∧
    s.lookAtIrq.irq.edge7 = (s.irq.edge7 || irqRises s.cfg.irqLevels s.irq.seen s.cycles)) ∧
  ∀ s : State, s.run ≠ .halted → s.cfg.memoryOk = true → s.stackRoom 6 →
    ((s.ipl ≠ 7 ∧ s.regs.sr.i.toNat < s.ipl.toNat) ∨ (s.ipl = 7 ∧ s.lookAtIrq.irq.edge7 = true) →
      let v := IrqAnswer.vectorOf s.ipl (s.cfg.irqVectors.get s.ipl)
      let keep := s.cfg.traceKeepsT && decide (v = 9)
      s.handlerOk v →
      s.checkIrq.regs = { s.regs with
        ssp := s.regs.ssp - 6
        sr := { s.regs.sr with
          s := true, t1 := keep && s.regs.sr.t1, t0 := keep && s.regs.sr.t0, i := s.ipl } } ∧
      s.checkIrq.pc = s.handlerOf v ∧ s.checkIrq.run = .normal ∧
      s.checkIrq.shortFrameAt (s.regs.ssp - 6) s.regs.sr.toWord s.pc ∧
      s.checkIrq.irq.edge7 = (s.lookAtIrq.irq.edge7 && decide (s.ipl ≠ 7))) ∧
    ((s.ipl ≠ 7 ∧ s.ipl.toNat ≤ s.regs.sr.i.toNat) ∨ (s.ipl = 7 ∧ s.lookAtIrq.irq.edge7 = false) →
      s.checkIrq.regs = s.regs ∧ s.checkIrq.pc = s.pc ∧ s.checkIrq.run = s.run ∧ s.checkIrq.mem = s.mem ∧
      s.checkIrq.cycles = s.cycles)

/-- T1 at the start of an instruction is sampled; an instruction that raised a group-0 or a group-1 exception of its own
drops the sample, one that raised a group-2 exception keeps it; and after an instruction with the sample set on a CPU that is
not halted the boundary enters a trace (vector 9) with the current pc and SR, before the interrupt check, while without it the boundary
is the interrupt check alone (rules R550, R575, R585). That `tracePending` carries this to the boundary, and that a halted CPU
takes no trace, are the model's choices (log entry 10). -/
def Obligations.TraceAfterExceptions : Prop :=
  Event.trace.vector = 9 ∧
  (∀ (s : State) (w : Word), (s.fetched w).hid.tracePending = s.regs.sr.t1) ∧
  (∀ (s s0 : State) (e : Event),
    (e.group ≠ .two → (s.afterEvent s0 e).hid.tracePending = false) ∧
    (e.group = .two → (s.afterEvent s0 e).hid.tracePending = s.hid.tracePending) ∧
    (s.opcodeFault e).hid.tracePending = false) ∧
  (∀ u : State,
    (u.hid.tracePending = true → u.run ≠ .halted → u.boundary = (enter .trace u.pc u.noTrace).checkIrq) ∧
    (u.hid.tracePending = false ∨ u.run = .halted → u.boundary = u.checkIrq) ∧
    u.noTrace.regs = u.regs ∧ u.noTrace.hid.tracePending = false)

/-! ## Invariants and whole-machine rules -/

/-- THE INVARIANT is kept by every step from every state that has it: canonical memory inside RAM, legal SR, masked YM2149
registers and a non-zero noise register, even Paula pointers, and an ended session once halted or overflowed. `ADDR_BITS`
of at least 24 is the model's reading (log entry 21). -/
def Obligations.StepKeepsInvariant : Prop :=
  ∀ s t : State, s.Inv → step s = .next t → t.Inv

/-- The machine right after reset, with the parameters and the launch the model chose (log entry 2), has the invariant. -/
def Obligations.ResetHasInvariant : Prop := State.reset.Inv

/-- What `reset()` leaves, for every parameter and every launch: SR = 0x2700, SSP = MEM_SIZE, pc at the entry point, the
launch registers, the Normal run state, cycle 0, the image over zeroed RAM (rules R55, R741), every YM2149 and Paula register
and generator at the values of rules R660 and R705, and empty lists and FIFO (rule R741). That `in_group0` is clear, which
rules R51 and R55 leave open, is the model's choice (log entry 27), and so are the second copies of the device registers (log
entry 28), the stream position 0 (log entry 34) and the count of frames after an overflow (log entry 36). -/
def Obligations.ResetLeaves : Prop :=
  ∀ (p : Params) (l : Launch),
    let s := State.resetWith p l
    s.regs.sr.toWord = 0x2700 ∧ s.regs.ssp = BitVec.ofNat 32 p.memSize ∧ s.regs.getA 7 = s.regs.ssp ∧
    s.regs.usp = l.usp ∧ s.regs.d = l.d ∧ s.regs.a = l.a ∧ s.pc = l.entry ∧ s.run = .normal ∧ s.cycles = 0 ∧
    s.inGroup0 = false ∧
    s.ym.regs = Vector.replicate 16 0 ∧ s.ym.sel = 0 ∧ s.ym.writes = [] ∧ s.ym.sound.regs = Vector.replicate 16 0 ∧
    (∀ c : Fin 3, s.ym.sound.tones[c].count = 0 ∧ s.ym.sound.tones[c].out = false ∧ s.ym.sound.amps[c] = 0) ∧
    s.ym.sound.noise.count = 0 ∧ s.ym.sound.noise.lfsr = 1 ∧ s.ym.sound.noise.out = false ∧
    s.ym.sound.env.count = 0 ∧ s.ym.sound.env.step = 0 ∧ s.ym.sound.env.attack = false ∧ s.ym.sound.env.held = true ∧
    s.ym.sound.env.heldLevel = 0 ∧ s.ym.sound.ticks = 0 ∧ s.ym.sound.queue = [] ∧ s.ym.sound.level = 0 ∧
    s.ym.sound.res.length = p.blepTaps ∧ (∀ v ∈ s.ym.sound.res, v = 0) ∧ s.ym.sound.fatal = false ∧
    (∀ x : Fin 4, s.paula.latches[x] = ⟨0, 0, 0, 0, 0⟩ ∧ s.paula.channels[x].latch = ⟨0, 0, 0, 0, 0⟩ ∧
      s.paula.channels[x].play.state = .off ∧ s.paula.channels[x].play.ptr = 0 ∧
      s.paula.channels[x].play.left = 0 ∧ s.paula.channels[x].play.word = 0 ∧
      s.paula.channels[x].play.low = false ∧ s.paula.channels[x].play.phase = 0 ∧
      s.paula.channels[x].play.oneshot = false) ∧
    s.paula.dmacon = 0 ∧ s.paula.intena = 0 ∧ s.paula.intreq = 0 ∧ s.paula.writes = [] ∧ s.paula.soundDmacon = 0 ∧
    s.out.slice = 0 ∧ s.out.next = 0 ∧ s.out.fifo = [] ∧ s.out.afterOverflow = 0 ∧ s.out.returned = 0 ∧ s.out.ended = decide (p.hw = .malformed) ∧
    ∀ e, Memory.read s.mem e = if l.load ≤ e then (l.bytes[e - l.load]?).getD 0 else 0

/-- Every step of every state answers a next state; no step changes a parameter; and while the session lives and the CPU is
not halted, every step moves the cycle counter forward (rules R9, R770). That the parameters stand in the state, that a cost
is at least 1 and that a step runs with `SLICE_CYCLES = 0` too are the model's choices (log entries 4, 12 and 21). -/
def Obligations.StepAlwaysAnswers : Prop :=
  ∀ s : State, ∃ t, step s = .next t ∧ t.cfg = s.cfg ∧
    (s.out.ended = false → s.run ≠ .halted → s.cycles < t.cycles)

/-- Isolation of the system state: an instruction that starts and ends in user mode has changed neither the system byte of SR
nor SSP (rules R34, R48, R500, R587). -/
def Obligations.UserModeIsolation : Prop :=
  ∀ (i : Instr) (s t : State), exec i s = .next t → s.regs.sr.s = false → t.regs.sr.s = false →
    t.regs.sr.system = s.regs.sr.system ∧ t.regs.ssp = s.regs.ssp

/-- A7 names SSP in supervisor mode and USP in user mode, for reads and for writes; a change of S changes which of the two
it names and copies nothing (rule R34). -/
def Obligations.ActiveStackPointer : Prop :=
  ∀ (r : RegFile) (v : Long) (f : Sr),
    r.getA 7 = (if r.sr.s then r.ssp else r.usp) ∧
    r.setA 7 v = (if r.sr.s then { r with ssp := v } else { r with usp := v }) ∧
    (r.withSr f).getA 7 = (if f.s then r.ssp else r.usp) ∧ (r.withSr f).ssp = r.ssp ∧ (r.withSr f).usp = r.usp ∧
    ∀ n : Reg, n ≠ 7 → (r.withSr f).getA n = r.getA n ∧ (r.setA n v).ssp = r.ssp ∧ (r.setA n v).usp = r.usp

/-! ## Exceptions -/

/-- Entry of every exception but a bus or address error: S set, T1 and T0 cleared (kept for vector 9 when `TRACE_KEEPS_T`),
an interrupt's level in the mask, PC and the old SR pushed, pc at the vector's handler, nothing else changed (rules R552,
R561). A listed cost of 0 counting as 1 is the model's choice (log entry 12). -/
def Obligations.ShortFrameEntry : Prop :=
  ∀ (e : Event) (p : Long) (s : State), e.faultRec = none → s.cfg.memoryOk = true → s.stackRoom 6 →
    s.handlerOk e.vector →
    let t := enter e p s
    let keep := s.cfg.traceKeepsT && decide (e.vector = 9)
    t.regs = { s.regs with
      ssp := s.regs.ssp - 6
      sr := { s.regs.sr with
        s := true, t1 := keep && s.regs.sr.t1, t0 := keep && s.regs.sr.t0
        i := match e with
          | .interrupt l _ => l
          | _ => s.regs.sr.i } } ∧
    t.pc = s.handlerOf e.vector ∧ t.run = s.run ∧ t.cycles = s.cycles + max 1 (s.cfg.excCycles.get e.vector) ∧
    t.shortFrameAt (s.regs.ssp - 6) s.regs.sr.toWord p ∧
    (∀ a, a < s.regs.ssp.toNat - 6 ∨ s.regs.ssp.toNat ≤ a → Memory.read t.mem a = Memory.read s.mem a) ∧
    t.ym = s.ym ∧ t.paula = s.paula ∧ t.inGroup0 = s.inGroup0 ∧ t.group0Handler = s.group0Handler ∧ t.hid = s.hid ∧
    t.irq = s.irq ∧ t.out = s.out ∧ t.cfg = s.cfg ∧ t.draws = s.draws

/-- Entry of a bus error (vector 2) or an address error (vector 3): the 14-byte frame, its status word with R/W in bit 4, I/N
in bit 3 and the function code in bits 2..0, S set, T1 and T0 cleared, `in_group0` set until an opcode is fetched at the
handler, pc at the handler, nothing else changed (rules R550, R552, R561, R566, R571). That the handler is known by the 32-bit
address the entry read, so that a fetch at any other pc keeps `in_group0`, is the model's choice (log entry 13), and so is a
listed cost of 0 counting as 1 (log entry 12). -/
def Obligations.GroupZeroFrameEntry : Prop :=
  (∀ f : FaultRec, (Event.busError f).vector = 2 ∧ (Event.addressError f).vector = 3 ∧
    f.statusWord.extractLsb' 5 11 = 0 ∧ f.statusWord.getLsbD 4 = f.read ∧ f.statusWord.getLsbD 3 = f.inExc ∧
    f.statusWord.extractLsb' 0 3 = f.fc) ∧
  ∀ (e : Event) (f : FaultRec) (p : Long) (s : State), e.faultRec = some f → s.cfg.memoryOk = true → s.stackRoom 14 →
    s.handlerOk e.vector →
    let t := enter e p s
    t.regs = { s.regs with
      ssp := s.regs.ssp - 14
      sr := { s.regs.sr with s := true, t1 := false, t0 := false } } ∧
    t.pc = s.handlerOf e.vector ∧ t.run = s.run ∧ t.cycles = s.cycles + max 1 (s.cfg.excCycles.get e.vector) ∧
    t.inGroup0 = true ∧
    t.groupZeroFrameAt (s.regs.ssp - 14) f s.hid.ir s.regs.sr.toWord p ∧
    (∀ a, a < s.regs.ssp.toNat - 14 ∨ s.regs.ssp.toNat ≤ a → Memory.read t.mem a = Memory.read s.mem a) ∧
    t.ym = s.ym ∧ t.paula = s.paula ∧ t.hid = s.hid ∧ t.irq = s.irq ∧ t.out = s.out ∧ t.cfg = s.cfg ∧
    t.draws = s.draws ∧
    (∀ w, (t.fetched w).inGroup0 = false) ∧
    (∀ u : State, u.inGroup0 = true → u.group0Handler = t.group0Handler → u.pc ≠ s.handlerOf e.vector →
      ∀ w, (u.fetched w).inGroup0 = true)

/-- What halts the CPU in exception processing: a bus or address error while one is being handled (no frame, no register
changed), a fault while stacking (an odd SSP, or a push that no one answers), and a handler that is 0 or outside RAM (rules
R571, R572). -/
def Obligations.ExceptionsThatHalt : Prop :=
  (∀ (e : Event) (p : Long) (s : State), s.inGroup0 = true →
    (takeFault e p s).run = .halted ∧ (takeFault e p s).regs = s.regs ∧ (takeFault e p s).mem = s.mem) ∧
  (∀ (e : Event) (p : Long) (s : State), isOdd s.regs.ssp = true → (enter e p s).run = .halted) ∧
  (∀ (e : Event) (p : Long) (s : State),
    s.canAccess .l (s.regs.ssp - 4) = false ∨ s.canAccess .w (s.regs.ssp - 6) = false ∨
      (e.faultRec.isSome = true ∧ (s.canAccess .w (s.regs.ssp - 8) = false ∨ s.canAccess .l (s.regs.ssp - 12) = false ∨
        s.canAccess .w (s.regs.ssp - 14) = false)) →
    (enter e p s).run = .halted) ∧
  (∀ (e : Event) (p : Long) (s : State), s.cfg.memoryOk = true → s.stackRoom 14 →
    (s.handlerOf e.vector = 0 ∨ s.cfg.memSize ≤ s.extAddr (s.handlerOf e.vector)) →
    (enter e p s).run = .halted ∧ (enter e p s).pc = s.pc)

/-- A word or long MOVE whose source, or whose destination, is at an odd address, in any addressing mode, has no effect of its
own: no register (an autoincrement of the source included), no byte and no device is changed before the address error is
entered with pc0 + 2 stacked (rules R84, R562, R563). -/
def Obligations.MisalignedMoveRollsBack : Prop :=
  (∀ (sz : AddrSize) (src dst : Ea) (s s1 : State) (a : Long), s.inGroup0 = false →
    resolve src sz.toSize s.start = .ok (.mem a) s1 → isOdd a = true →
    ∃ w, exec (.move sz.toSize src dst) s =
        .next (enter (.addressError ⟨a, true, if s.regs.sr.s then 5 else 1, false⟩) (s.hid.pc0 + 2) w) ∧
      w.regs = s.regs ∧ SameMemory s w ∧ w.hid.ir = s.hid.ir ∧ s.cycles < w.cycles) ∧
  (∀ (sz : AddrSize) (src dst : Ea) (s s1 s2 : State) (v : BitVec sz.toSize.bits) (b : Long), s.inGroup0 = false →
    readEa src sz.toSize s.start = .ok v s1 → resolve dst sz.toSize s1 = .ok (.mem b) s2 → isOdd b = true →
    ∃ w, exec (.move sz.toSize src dst) s =
        .next (enter (.addressError ⟨b, false, if s.regs.sr.s then 5 else 1, false⟩) (s.hid.pc0 + 2) w) ∧
      w.regs = s.regs ∧ SameMemory s w ∧ w.hid.ir = s.hid.ir ∧ s.cycles < w.cycles)

/-- RTE right after an entry undoes it: pc is the stacked PC and every register, SR and both stack pointers included, is what
it was before the exception (rules R511, R561, R573). -/
def Obligations.RteUndoesEntry : Prop :=
  ∀ (e : Event) (p : Long) (s : State), e.faultRec = none → s.cfg.memoryOk = true → s.stackRoom 6 →
    s.handlerOk e.vector → s.regs.sr.legal s.cfg.srT0Stored = true →
    ∃ u, exec .rte (enter e p s) = .next u ∧ u.pc = p ∧ u.regs = s.regs ∧ u.run = s.run

/-! ## Memory -/

/-- Words and longs are stored most significant byte first, and every other byte of RAM reads as before (rules R82, R83,
R89). -/
def Obligations.BigEndianStores : Prop :=
  ∀ (s : State) (a : Long), s.cfg.memoryOk = true → isOdd a = false →
    (∀ v : Word, a.toNat + 2 ≤ s.cfg.memSize →
      ∃ t, writeMem .w a v s = .ok () t ∧ t.busByte a = some (v.extractLsb' 8 8) ∧
        t.busByte (a + 1) = some (v.extractLsb' 0 8) ∧
        ∀ b, b ≠ a.toNat → b ≠ a.toNat + 1 → Memory.read t.mem b = Memory.read s.mem b) ∧
    (∀ v : Long, a.toNat + 4 ≤ s.cfg.memSize →
      ∃ t, writeMem .l a v s = .ok () t ∧ t.busByte a = some (v.extractLsb' 24 8) ∧
        t.busByte (a + 1) = some (v.extractLsb' 16 8) ∧ t.busByte (a + 2) = some (v.extractLsb' 8 8) ∧
        t.busByte (a + 3) = some (v.extractLsb' 0 8) ∧
        ∀ b, b < a.toNat ∨ a.toNat + 4 ≤ b → Memory.read t.mem b = Memory.read s.mem b)

/-- A word or long data access at an odd address raises an address error with its record and changes nothing; an access at
an even address, and a byte access at any address, raises no address error; MOVEP either completes or takes a bus error,
whatever its address (rule R84). -/
def Obligations.Alignment : Prop :=
  ∀ (s : State) (a : Long),
    let fc : BitVec 3 := if s.regs.sr.s then 5 else 1
    (isOdd a = true →
      readMem .w a s = .error (.addressError ⟨a, true, fc, false⟩) s ∧
      readMem .l a s = .error (.addressError ⟨a, true, fc, false⟩) s ∧
      (∀ v, writeMem .w a v s = .error (.addressError ⟨a, false, fc, false⟩) s) ∧
      (∀ v, writeMem .l a v s = .error (.addressError ⟨a, false, fc, false⟩) s)) ∧
    (∀ (sz : Size) (e : Event) (t : State), isOdd a = false ∨ sz = .b →
      readMem sz a s = .error e t ∨ (∃ v, writeMem sz a v s = .error e t) → ∃ f, e = .busError f) ∧
    (∀ (m : MovepMode) (x y : Reg) (w : Word) (t : State), fetch16 s.start = .ok w t →
      ∃ u, exec (.movep m x y) s = .next u ∧
        (SameControl s u ∨ ∃ f v, u = takeFault (.busError f) (s.hid.pc0 + 2) v))

/-- Only the low `ADDR_BITS` bits of an address select what answers; an address that is neither RAM nor a device raises a bus
error under `busError` and is RAM modulo `MEM_SIZE` under `mirror` (rules R81, R90; log entry 22). -/
def Obligations.AddressMap : Prop :=
  (∀ (s : State) (a b : Long), a.toNat % 2 ^ s.cfg.addrBits = b.toNat % 2 ^ s.cfg.addrBits →
    s.busByte a = s.busByte b ∧ s.busWord a = s.busWord b ∧
    ∀ v ts, s.storeByte a v ts = s.storeByte b v ts) ∧
  (∀ (s : State) (a : Long), s.isDevice a = false → s.cfg.memSize ≤ a.toNat % 2 ^ s.cfg.addrBits →
    let fc : BitVec 3 := if s.regs.sr.s then 5 else 1
    (s.cfg.unmapped = .busError →
      readMem .b a s = .error (.busError ⟨a, true, fc, false⟩) s ∧
      ∀ v, writeMem .b a v s = .error (.busError ⟨a, false, fc, false⟩) s) ∧
    (s.cfg.unmapped = .mirror →
      s.busByte a = some (Memory.read s.mem (a.toNat % 2 ^ s.cfg.addrBits % s.cfg.memSize))))

/-! ## Addressing modes -/

/-- The location each addressing mode gives, with the extension word `w` at pc, and where pc is left (rules R203-R214). -/
def Obligations.EaLocations : Prop :=
  ∀ (s : State) (sz : Size) (r : Reg),
    let step : Long := match sz with
      | .b => if r = 7 then 2 else 1
      | .w => 2
      | .l => 4
    let w : Word := s.memValue .w s.pc
    let w2 : Word := s.memValue .w (s.pc + 2)
    let n : Reg := ⟨w.toNat / 2 ^ 12 % 8, Nat.mod_lt _ (by decide)⟩
    let x : Long := if w.getLsbD 15 then s.regs.getA n else s.regs.getD n
    let xi : Long := if w.getLsbD 11 then x else (x.setWidth 16).signExtend 32
    let d8 : Long := (w.setWidth 8).signExtend 32
    (∃ t, resolve (.dn r) sz s = .ok (.dreg r) t ∧ t.pc = s.pc) ∧
    (∃ t, resolve (.an r) sz s = .ok (.areg r) t ∧ t.pc = s.pc) ∧
    (∃ t, resolve (.ind r) sz s = .ok (.mem (s.regs.getA r)) t ∧ t.pc = s.pc) ∧
    (∃ t, resolve (.postinc r) sz s = .ok (.mem (s.regs.getA r)) t ∧ t.pc = s.pc ∧
      t.regs = s.regs.setA r (s.regs.getA r + step)) ∧
    (∃ t, resolve (.predec r) sz s = .ok (.mem (s.regs.getA r - step)) t ∧ t.pc = s.pc ∧
      t.regs = s.regs.setA r (s.regs.getA r - step)) ∧
    (s.canAccess .w s.pc = true →
      (∃ t, resolve (.disp r) sz s = .ok (.mem (s.regs.getA r + w.signExtend 32)) t ∧ t.pc = s.pc + 2) ∧
      (∃ t, resolve (.index r) sz s = .ok (.mem (s.regs.getA r + d8 + xi)) t ∧ t.pc = s.pc + 2) ∧
      (∃ t, resolve .absW sz s = .ok (.mem (w.signExtend 32)) t ∧ t.pc = s.pc + 2) ∧
      (∃ t, resolve .pcDisp sz s = .ok (.mem (s.pc + w.signExtend 32)) t ∧ t.pc = s.pc + 2) ∧
      (∃ t, resolve .pcIndex sz s = .ok (.mem (s.pc + d8 + xi)) t ∧ t.pc = s.pc + 2) ∧
      (∃ t, resolve .imm .b s = .ok (.imm ((w.setWidth 8).setWidth 32)) t ∧ t.pc = s.pc + 2) ∧
      (∃ t, resolve .imm .w s = .ok (.imm (w.setWidth 32)) t ∧ t.pc = s.pc + 2)) ∧
    (s.canAccess .w s.pc = true → s.canAccess .w (s.pc + 2) = true →
      (∃ t, resolve .absL sz s = .ok (.mem (w ++ w2)) t ∧ t.pc = s.pc + 4) ∧
      (∃ t, resolve .imm .l s = .ok (.imm (w ++ w2)) t ∧ t.pc = s.pc + 4))

/-! ## Flags -/

/-- The helpers of rule R14, with the extend bit `x` of the extended forms (0 for ADD and SUB): N and Z of the result, the bit
expressions of V and C, X = C for an addition and a subtraction, X kept by a compare and a logical operation; and those
expressions are the unsigned carry or borrow and the signed overflow of the exact sum or difference (rule R14). -/
def Obligations.FlagHelpersAreArithmetic : Prop :=
  ∀ (sz : Size) (f : Sr) (s d : BitVec sz.bits) (x : Bool),
    let e : BitVec sz.bits := (BitVec.ofBool x).setWidth sz.bits
    let k : Nat := if x then 1 else 0
    let a := d + s + e
    let b := d - s - e
    let av := (s.msb && d.msb && !a.msb) || (!s.msb && !d.msb && a.msb)
    let ac := (s.msb && d.msb) || (!a.msb && d.msb) || (s.msb && !a.msb)
    let bv := (!s.msb && d.msb && !b.msb) || (s.msb && !d.msb && b.msb)
    let bc := (s.msb && !d.msb) || (b.msb && !d.msb) || (s.msb && b.msb)
    f.addFlags s d a = { f with x := ac, n := a.msb, z := decide (a = 0), v := av, c := ac } ∧
    f.addxFlags s d a = { f with x := ac, n := a.msb, z := f.z && decide (a = 0), v := av, c := ac } ∧
    f.subFlags s d b = { f with x := bc, n := b.msb, z := decide (b = 0), v := bv, c := bc } ∧
    f.subxFlags s d b = { f with x := bc, n := b.msb, z := f.z && decide (b = 0), v := bv, c := bc } ∧
    f.cmpFlags s d b = { f with n := b.msb, z := decide (b = 0), v := bv, c := bc } ∧
    f.logicFlags d = { f with n := d.msb, z := decide (d = 0), v := false, c := false } ∧
    ac = decide (2 ^ sz.bits ≤ d.toNat + s.toNat + k) ∧ av = signedOut sz.bits (d.toInt + s.toInt + k) ∧
    a.toNat = (d.toNat + s.toNat + k) % 2 ^ sz.bits ∧
    bc = decide (d.toNat < s.toNat + k) ∧ bv = signedOut sz.bits (d.toInt - s.toInt - k) ∧
    (b.toNat : Int) = ((d.toNat : Int) - s.toNat - k) % (2 ^ sz.bits : Nat)

/-- After a compare of `d` with `s` the conditions of rule R460 are the comparisons of the two values, unsigned for HI, LS,
CC and CS, signed for GE, LT, GT and LE. -/
def Obligations.ConditionsAfterCompare : Prop :=
  ∀ (sz : Size) (f : Sr) (s d : BitVec sz.bits),
    let g := f.cmpFlags s d (d - s)
    g.cond .t = true ∧ g.cond .f = false ∧
    g.cond .eq = decide (d = s) ∧ g.cond .ne = decide (d ≠ s) ∧
    g.cond .hi = decide (s.toNat < d.toNat) ∧ g.cond .ls = decide (d.toNat ≤ s.toNat) ∧
    g.cond .cc = decide (s.toNat ≤ d.toNat) ∧ g.cond .cs = decide (d.toNat < s.toNat) ∧
    g.cond .ge = decide (s.toInt ≤ d.toInt) ∧ g.cond .lt = decide (d.toInt < s.toInt) ∧
    g.cond .gt = decide (s.toInt < d.toInt) ∧ g.cond .le = decide (d.toInt ≤ s.toInt) ∧
    g.cond .mi = (d - s).msb ∧ g.cond .pl = !(d - s).msb ∧
    g.cond .vs = signedOut sz.bits (d.toInt - s.toInt) ∧ g.cond .vc = !signedOut sz.bits (d.toInt - s.toInt)

/-- A shift or rotate by `c` is the one operation its name says: a shift by `c` positions, a rotate by `c` positions, a
rotate of the operand with X above it; the last bit out; and ASL's V says that the exact product by 2^c does not fit (rules
R400-R408). -/
def Obligations.ShiftsAreArithmetic : Prop :=
  ∀ (sz : Size) (c : Nat) (v : BitVec sz.bits) (x : Bool),
    let n := sz.bits
    (shiftLoop .asl c v x).value = v <<< c ∧ (shiftLoop .lsl c v x).value = v <<< c ∧
    (shiftLoop .lsr c v x).value = v >>> c ∧ (shiftLoop .asr c v x).value = v.sshiftRight c ∧
    (shiftLoop .rol c v x).value = v.rotateLeft c ∧ (shiftLoop .ror c v x).value = v.rotateRight c ∧
    (shiftLoop .roxl c v x).x = ((BitVec.ofBool x ++ v).rotateLeft c).getLsbD n ∧
    (shiftLoop .roxl c v x).value = ((BitVec.ofBool x ++ v).rotateLeft c).setWidth n ∧
    (shiftLoop .roxr c v x).x = ((BitVec.ofBool x ++ v).rotateRight c).getLsbD n ∧
    (shiftLoop .roxr c v x).value = ((BitVec.ofBool x ++ v).rotateRight c).setWidth n ∧
    (0 < c →
      (shiftLoop .asl c v x).out = (decide (c ≤ n) && v.getLsbD (n - c)) ∧
      (shiftLoop .lsl c v x).out = (decide (c ≤ n) && v.getLsbD (n - c)) ∧
      (shiftLoop .lsr c v x).out = v.getLsbD (c - 1) ∧
      (shiftLoop .asr c v x).out = (v.sshiftRight (c - 1)).getLsbD 0 ∧
      (shiftLoop .rol c v x).out = (v.rotateLeft c).getLsbD 0 ∧
      (shiftLoop .ror c v x).out = (v.rotateRight c).msb ∧
      (shiftLoop .roxl c v x).out = (shiftLoop .roxl c v x).x ∧
      (shiftLoop .roxr c v x).out = (shiftLoop .roxr c v x).x) ∧
    (shiftLoop .asl c v x).signChanged = signedOut n (v.toInt * 2 ^ c)

/-- On bytes of two decimal digits ABCD adds and SBCD subtracts them as numbers modulo 100 with the extend bit, and the carry
is the decimal carry or borrow (rules R450, R451). -/
def Obligations.BcdIsDecimal : Prop :=
  ∀ (s d : Byte) (x : Bool), isDecimal s → isDecimal d →
    let c : Nat := if x then 1 else 0
    isDecimal (bcdAdd s d x).1 ∧ decimal (bcdAdd s d x).1 = (decimal d + decimal s + c) % 100 ∧
    (bcdAdd s d x).2 = decide (100 ≤ decimal d + decimal s + c) ∧
    isDecimal (bcdSub s d x).1 ∧ decimal (bcdSub s d x).1 = (decimal d + 100 - decimal s - c) % 100 ∧
    (bcdSub s d x).2 = decide (decimal d < decimal s + c)

/-! ## Instructions: results, completion and frame -/

/-- ADD, SUB, AND and OR with a data-register destination complete when the source can be read; they write D[x].sz, whose
upper bits a byte or word write keeps, and the flags of rule R14 and change no other register (but the one `(An)+` or
`-(An)` names) and no byte of memory (rules R12, R31, R300, R305, R370, R372). -/
def Obligations.DyadicToDataRegister : Prop :=
  (∀ (sz : Size) (old : Long) (w : BitVec sz.bits) (i : Nat), i < 32 →
    (mergeLow old w).getLsbD i = if i < sz.bits then w.getLsbD i else old.getLsbD i) ∧
  (∀ (r : RegFile) (x y : Reg) (v : Long),
    r.getD y = r.d[y] ∧ (r.setD x v).getD y = (if y = x then v else r.getD y) ∧ (r.setD x v).a = r.a ∧
    (r.setD x v).ssp = r.ssp ∧ (r.setD x v).usp = r.usp ∧ (r.setD x v).sr = r.sr) ∧
  ∀ (sz : Size) (x : Reg) (ea : Ea) (s t : State) (loc : Loc), Locates ea sz s.start loc t →
    let v := loc.value s sz
    let d : BitVec sz.bits := (s.regs.getD x).setWidth sz.bits
    let f := s.regs.sr
    let r := fun (w : BitVec sz.bits) (g : Sr) =>
      ((s.regs.bump ea sz).setD x (mergeLow (s.regs.getD x) w)).withSr g
    (∃ u, exec (.addToDn sz x ea) s = .next u ∧ ChangesRegs s u t.pc (r (d + v) (f.addFlags v d (d + v)))) ∧
    (∃ u, exec (.subToDn sz x ea) s = .next u ∧ ChangesRegs s u t.pc (r (d - v) (f.subFlags v d (d - v)))) ∧
    (∃ u, exec (.andToDn sz x ea) s = .next u ∧ ChangesRegs s u t.pc (r (d &&& v) (f.logicFlags (d &&& v)))) ∧
    (∃ u, exec (.orToDn sz x ea) s = .next u ∧ ChangesRegs s u t.pc (r (d ||| v) (f.logicFlags (d ||| v))))

/-- ADD, SUB, AND, OR and EOR with D[x] as the source complete when the destination can be read and written; they write the
result at the destination's address and change no other byte (rules R300, R305, R370, R372, R374). -/
def Obligations.DyadicToOperand : Prop :=
  ∀ (sz : Size) (x : Reg) (ea : Ea) (s t : State) (loc : Loc), Locates ea sz s.start loc t →
    let d := loc.value s sz
    let v : BitVec sz.bits := (s.regs.getD x).setWidth sz.bits
    let f := s.regs.sr
    let r := fun (w : BitVec sz.bits) (g : Sr) => (loc.putRegs sz w (s.regs.bump ea sz)).withSr g
    (∃ u, exec (.addToEa sz x ea) s = .next u ∧
      ChangesAt s u t.pc (r (d + v) (f.addFlags v d (d + v))) sz loc (d + v)) ∧
    (∃ u, exec (.subToEa sz x ea) s = .next u ∧
      ChangesAt s u t.pc (r (d - v) (f.subFlags v d (d - v))) sz loc (d - v)) ∧
    (∃ u, exec (.andToEa sz x ea) s = .next u ∧
      ChangesAt s u t.pc (r (d &&& v) (f.logicFlags (d &&& v))) sz loc (d &&& v)) ∧
    (∃ u, exec (.orToEa sz x ea) s = .next u ∧
      ChangesAt s u t.pc (r (d ||| v) (f.logicFlags (d ||| v))) sz loc (d ||| v)) ∧
    (∃ u, exec (.eor sz x ea) s = .next u ∧
      ChangesAt s u t.pc (r (d ^^^ v) (f.logicFlags (d ^^^ v))) sz loc (d ^^^ v))

/-- ADDI, SUBI, ANDI, ORI and EORI: the immediate is fetched first, then the destination is located, read and written, and pc
is left after the last extension word; a fetch moves pc past each word it reads, a byte immediate being the low byte of its
word (rules R37, R302, R307, R371, R373, R375). -/
def Obligations.ImmediateToOperand : Prop :=
  (∀ s : State,
    let w : Word := s.memValue .w s.pc
    (s.canAccess .w s.pc = true →
      (∃ t, fetch16 s = .ok w t ∧ t.pc = s.pc + 2) ∧ (∃ t, fetchImm .w s = .ok w t ∧ t.pc = s.pc + 2) ∧
      ∃ t, fetchImm .b s = .ok (w.setWidth 8) t ∧ t.pc = s.pc + 2) ∧
    (s.canAccess .w s.pc = true → s.canAccess .w (s.pc + 2) = true →
      ∃ t, fetchImm .l s = .ok (w ++ (s.memValue .w (s.pc + 2) : Word)) t ∧ t.pc = s.pc + 4)) ∧
  ∀ (sz : Size) (ea : Ea) (s s1 t : State) (v : BitVec sz.bits) (loc : Loc),
    fetchImm sz s.start = .ok v s1 → Locates ea sz s1 loc t →
    let d := loc.value s sz
    let f := s.regs.sr
    let r := fun (w : BitVec sz.bits) (g : Sr) => (loc.putRegs sz w (s.regs.bump ea sz)).withSr g
    (∃ u, exec (.addi sz ea) s = .next u ∧
      ChangesAt s u t.pc (r (d + v) (f.addFlags v d (d + v))) sz loc (d + v)) ∧
    (∃ u, exec (.subi sz ea) s = .next u ∧
      ChangesAt s u t.pc (r (d - v) (f.subFlags v d (d - v))) sz loc (d - v)) ∧
    (∃ u, exec (.andi sz ea) s = .next u ∧
      ChangesAt s u t.pc (r (d &&& v) (f.logicFlags (d &&& v))) sz loc (d &&& v)) ∧
    (∃ u, exec (.ori sz ea) s = .next u ∧
      ChangesAt s u t.pc (r (d ||| v) (f.logicFlags (d ||| v))) sz loc (d ||| v)) ∧
    (∃ u, exec (.eori sz ea) s = .next u ∧
      ChangesAt s u t.pc (r (d ^^^ v) (f.logicFlags (d ^^^ v))) sz loc (d ^^^ v))

/-- CMP, CMPA, CMPI, CMPM and TST write flags only: N, Z, V and C of the difference with X kept, or of the operand with V and
C cleared; no register but an autoincremented one and no byte of memory changes (rules R310-R313, R322). -/
def Obligations.ComparesWriteFlagsOnly : Prop :=
  ∀ (s : State),
    (∀ (sz : Size) (x : Reg) (ea : Ea) (t : State) (loc : Loc), Locates ea sz s.start loc t →
      let v := loc.value s sz
      let d : BitVec sz.bits := (s.regs.getD x).setWidth sz.bits
      (∃ u, exec (.cmp sz x ea) s = .next u ∧
        ChangesRegs s u t.pc ((s.regs.bump ea sz).withSr (s.regs.sr.cmpFlags v d (d - v)))) ∧
      (∃ u, exec (.tst sz ea) s = .next u ∧
        ChangesRegs s u t.pc ((s.regs.bump ea sz).withSr (s.regs.sr.logicFlags v)))) ∧
    (∀ (sz : AddrSize) (x : Reg) (ea : Ea) (t : State) (loc : Loc), Locates ea sz.toSize s.start loc t →
      let v : Long := (loc.value s sz.toSize).signExtend 32
      let d := (s.regs.bump ea sz.toSize).getA x
      ∃ u, exec (.cmpa sz x ea) s = .next u ∧
        ChangesRegs s u t.pc ((s.regs.bump ea sz.toSize).withSr (s.regs.sr.cmpFlags v d (d - v)))) ∧
    (∀ (sz : Size) (ea : Ea) (s1 t : State) (v : BitVec sz.bits) (loc : Loc),
      fetchImm sz s.start = .ok v s1 → Locates ea sz s1 loc t →
      let d := loc.value s sz
      ∃ u, exec (.cmpi sz ea) s = .next u ∧
        ChangesRegs s u t.pc ((s.regs.bump ea sz).withSr (s.regs.sr.cmpFlags v d (d - v)))) ∧
    (∀ (sz : Size) (x y : Reg),
      let r := s.regs.bump (.postinc y) sz
      s.canAccess sz (s.regs.getA y) = true → s.canAccess sz (r.getA x) = true →
      let v := s.memValue sz (s.regs.getA y)
      let d := s.memValue sz (r.getA x)
      ∃ u, exec (.cmpm sz x y) s = .next u ∧
        ChangesRegs s u s.pc ((r.bump (.postinc x) sz).withSr (s.regs.sr.cmpFlags v d (d - v))))

/-- ADDA, SUBA, MOVEA and LEA write the whole address register, a word source sign-extended, and no flag; LEA reads no
memory (rules R32, R251, R255, R301, R306). -/
def Obligations.AddressRegisterResults : Prop :=
  ∀ (s : State) (x : Reg) (ea : Ea),
    (∀ (sz : AddrSize) (t : State) (loc : Loc), Locates ea sz.toSize s.start loc t →
      let v : Long := (loc.value s sz.toSize).signExtend 32
      let r := s.regs.bump ea sz.toSize
      (∃ u, exec (.adda sz x ea) s = .next u ∧ ChangesRegs s u t.pc (r.setA x (r.getA x + v))) ∧
      (∃ u, exec (.suba sz x ea) s = .next u ∧ ChangesRegs s u t.pc (r.setA x (r.getA x - v))) ∧
      (∃ u, exec (.movea sz ea x) s = .next u ∧ ChangesRegs s u t.pc (r.setA x v))) ∧
    (∀ (t : State) (a : Long), resolve ea .l s.start = .ok (.mem a) t →
      ∃ u, exec (.lea x ea) s = .next u ∧ ChangesRegs s u t.pc ((s.regs.bump ea .l).setA x a))

/-- ADDQ and SUBQ: on an address register the whole register changes, whatever the size, and no flag; on any other operand
they are ADD and SUB of the quick data (rules R303, R308). -/
def Obligations.QuickOperations : Prop :=
  ∀ (s : State) (q : Nat) (sz : Size),
    (∀ r : Reg,
      (∃ u, exec (.addq q sz (.an r)) s = .next u ∧
        ChangesRegs s u s.pc (s.regs.setA r (s.regs.getA r + BitVec.ofNat 32 q))) ∧
      (∃ u, exec (.subq q sz (.an r)) s = .next u ∧
        ChangesRegs s u s.pc (s.regs.setA r (s.regs.getA r - BitVec.ofNat 32 q)))) ∧
    (∀ (ea : Ea) (t : State) (loc : Loc), (∀ r, ea ≠ .an r) → Locates ea sz s.start loc t →
      let v := BitVec.ofNat sz.bits q
      let d := loc.value s sz
      let r := fun (w : BitVec sz.bits) (g : Sr) => (loc.putRegs sz w (s.regs.bump ea sz)).withSr g
      (∃ u, exec (.addq q sz ea) s = .next u ∧
        ChangesAt s u t.pc (r (d + v) (s.regs.sr.addFlags v d (d + v))) sz loc (d + v)) ∧
      (∃ u, exec (.subq q sz ea) s = .next u ∧
        ChangesAt s u t.pc (r (d - v) (s.regs.sr.subFlags v d (d - v))) sz loc (d - v)))

/-- ADDX and SUBX add and subtract with X; Z is only ever cleared; the memory form predecrements Ay, then Ax, and writes at
the address Ax then holds (rules R304, R309). -/
def Obligations.ExtendedArithmetic : Prop :=
  ∀ (s : State) (sz : Size) (x y : Reg),
    let e : BitVec sz.bits := (BitVec.ofBool s.regs.sr.x).setWidth sz.bits
    (
      let v : BitVec sz.bits := (s.regs.getD y).setWidth sz.bits
      let d : BitVec sz.bits := (s.regs.getD x).setWidth sz.bits
      let r := fun (w : BitVec sz.bits) (g : Sr) => (s.regs.setD x (mergeLow (s.regs.getD x) w)).withSr g
      (∃ u, exec (.addx .reg sz x y) s = .next u ∧
        ChangesRegs s u s.pc (r (d + v + e) (s.regs.sr.addxFlags v d (d + v + e)))) ∧
      (∃ u, exec (.subx .reg sz x y) s = .next u ∧
        ChangesRegs s u s.pc (r (d - v - e) (s.regs.sr.subxFlags v d (d - v - e))))) ∧
    (
      let r1 := s.regs.bump (.predec y) sz
      let r2 := r1.bump (.predec x) sz
      let a := r1.getA y
      let b := r2.getA x
      s.canAccess sz a = true → s.canAccess sz b = true →
      let v := s.memValue sz a
      let d := s.memValue sz b
      (∃ u, exec (.addx .mem sz x y) s = .next u ∧
        ChangesAt s u s.pc (r2.withSr (s.regs.sr.addxFlags v d (d + v + e))) sz (.mem b) (d + v + e)) ∧
      (∃ u, exec (.subx .mem sz x y) s = .next u ∧
        ChangesAt s u s.pc (r2.withSr (s.regs.sr.subxFlags v d (d - v - e))) sz (.mem b) (d - v - e)))

/-- MULU and MULS write the exact 32-bit product, unsigned and signed, with N and Z of it, V and C cleared and X kept (rules
R314, R315). -/
def Obligations.Multiplication : Prop :=
  ∀ (x : Reg) (ea : Ea) (s t : State) (loc : Loc), Locates ea .w s.start loc t →
    let v : Word := loc.value s .w
    let d : Word := (s.regs.getD x).setWidth 16
    (∃ (w : Long) (u : State), w.toNat = d.toNat * v.toNat ∧ exec (.mulu x ea) s = .next u ∧
      ChangesRegs s u t.pc (((s.regs.bump ea .w).setD x w).withSr (s.regs.sr.logicFlags w))) ∧
    (∃ (w : Long) (u : State), w.toInt = d.toInt * v.toInt ∧ exec (.muls x ea) s = .next u ∧
      ChangesRegs s u t.pc (((s.regs.bump ea .w).setD x w).withSr (s.regs.sr.logicFlags w)))

/-- DIVU and DIVS by a non-zero divisor: a quotient that fits is written with the remainder above it and N, Z of it, V and C
cleared; one that does not fit sets V, clears C, leaves N and Z free and writes no data register (rules R316, R317). -/
def Obligations.Division : Prop :=
  ∀ (x : Reg) (ea : Ea) (s t : State) (loc : Loc), Locates ea .w s.start loc t →
    let v : Word := loc.value s .w
    let d : Long := s.regs.getD x
    let fits := fun (q rem : Word) => ((s.regs.bump ea .w).setD x (rem ++ q)).withSr
      { s.regs.sr with n := q.msb, z := decide (q = 0), v := false, c := false }
    let tooBig := fun (n z : Bool) => (s.regs.bump ea .w).withSr { s.regs.sr with n := n, z := z, v := true, c := false }
    v ≠ 0 →
    (d.toNat / v.toNat < 2 ^ 16 → ∃ (q rem : Word) (u : State), q.toNat = d.toNat / v.toNat ∧
      rem.toNat = d.toNat % v.toNat ∧ exec (.divu x ea) s = .next u ∧ ChangesRegs s u t.pc (fits q rem)) ∧
    (2 ^ 16 ≤ d.toNat / v.toNat → ∃ (n z : Bool) (u : State), exec (.divu x ea) s = .next u ∧
      ChangesRegs s u t.pc (tooBig n z)) ∧
    (signedOut 16 (d.toInt.tdiv v.toInt) = false → ∃ (q rem : Word) (u : State), q.toInt = d.toInt.tdiv v.toInt ∧
      rem.toInt = d.toInt.tmod v.toInt ∧ exec (.divs x ea) s = .next u ∧ ChangesRegs s u t.pc (fits q rem)) ∧
    (signedOut 16 (d.toInt.tdiv v.toInt) = true → ∃ (n z : Bool) (u : State), exec (.divs x ea) s = .next u ∧
      ChangesRegs s u t.pc (tooBig n z))

/-- DIVU and DIVS by zero clear C, leave N, Z and V free, write no data register and take the zero-divide exception (vector 5) with
the address of the next instruction stacked (rules R316, R317, R550,
R560). -/
def Obligations.DivisionByZeroTraps : Prop :=
  ∀ (x : Reg) (ea : Ea) (s t : State) (loc : Loc), Locates ea .w s.start loc t → loc.value s .w = 0 →
    Event.zeroDivide.vector = 5 ∧
    (∃ (n z v : Bool) (w : State), exec (.divu x ea) s = .next (enter .zeroDivide t.pc w) ∧
      ChangesRegs s w t.pc ((s.regs.bump ea .w).withSr { s.regs.sr with n := n, z := z, v := v, c := false })) ∧
    (∃ (n z v : Bool) (w : State), exec (.divs x ea) s = .next (enter .zeroDivide t.pc w) ∧
      ChangesRegs s w t.pc ((s.regs.bump ea .w).withSr { s.regs.sr with n := n, z := z, v := v, c := false }))

/-- NEG, NEGX, NOT, TAS, CLR, Scc and MOVE from SR complete when the operand can be read and written; each writes its result
there and the flags its rule names (Scc and MOVE from SR none) (rules R318-R320, R376, R466, R509, R518). -/
def Obligations.UnaryOperand : Prop :=
  ∀ (ea : Ea) (s t : State) (loc : Loc),
    let f := s.regs.sr
    (∀ sz : Size, Locates ea sz s.start loc t →
      let d := loc.value s sz
      let x : BitVec sz.bits := (BitVec.ofBool f.x).setWidth sz.bits
      let r := fun (w : BitVec sz.bits) (g : Sr) => (loc.putRegs sz w (s.regs.bump ea sz)).withSr g
      (∃ u, exec (.neg sz ea) s = .next u ∧ ChangesAt s u t.pc (r (0 - d) (f.subFlags d 0 (0 - d))) sz loc (0 - d)) ∧
      (∃ u, exec (.negx sz ea) s = .next u ∧
        ChangesAt s u t.pc (r (0 - d - x) (f.subxFlags d 0 (0 - d - x))) sz loc (0 - d - x)) ∧
      (∃ u, exec (.notEa sz ea) s = .next u ∧ ChangesAt s u t.pc (r (~~~d) (f.logicFlags (~~~d))) sz loc (~~~d)) ∧
      (∃ u, exec (.clr sz ea) s = .next u ∧
        ChangesAt s u t.pc (r 0 { f with n := false, z := true, v := false, c := false }) sz loc 0)) ∧
    (Locates ea .b s.start loc t →
      let d : Byte := loc.value s .b
      let r := fun (w : Byte) (g : Sr) => (loc.putRegs .b w (s.regs.bump ea .b)).withSr g
      (∃ u, exec (.tas ea) s = .next u ∧ ChangesAt s u t.pc (r (d ||| 0x80) (f.logicFlags d)) .b loc (d ||| 0x80)) ∧
      (∀ c : Cond, ∃ u, exec (.scc c ea) s = .next u ∧
        ChangesAt s u t.pc (r (if f.cond c then 0xFF else 0) f) .b loc (if f.cond c then 0xFF else 0))) ∧
    (Locates ea .w s.start loc t →
      ∃ u, exec (.moveFromSr ea) s = .next u ∧
        ChangesAt s u t.pc ((loc.putRegs .w f.toWord (s.regs.bump ea .w)).withSr f) .w loc f.toWord)

/-- MOVEQ, EXT, SWAP and the three forms of EXG, at the opcode words the spec gives them, complete in every state and change
the registers they name and the flags of the first three, nothing else (rules R252, R257, R259, R321). -/
def Obligations.RegisterOnlyInstructions : Prop :=
  ∀ (s : State) (x y : Reg) (k : Byte),
    let f := s.regs.sr
    let d := s.regs.getD y
    let bx : BitVec 3 := BitVec.ofNat 3 x.val
    let ly : BitVec 3 := BitVec.ofNat 3 y.val
    decode (0b0111#4 ++ bx ++ 0#1 ++ k) = .ok (.moveq x k) ∧
    decode (0b010010001#9 ++ 0b000#3 ++ 0#1 ++ ly) = .ok (.extDn .w y) ∧
    decode (0b010010001#9 ++ 0b100#3 ++ 0#1 ++ ly) = .ok (.extDn .l y) ∧
    decode (0b0100100001#10 ++ 0b000#3 ++ ly) = .ok (.swap y) ∧
    decode (0b1100#4 ++ bx ++ 0b101000#6 ++ ly) = .ok (.exgDxDy x y) ∧
    decode (0b1100#4 ++ bx ++ 0b101001#6 ++ ly) = .ok (.exgAxAy x y) ∧
    decode (0b1100#4 ++ bx ++ 0b110001#6 ++ ly) = .ok (.exgDxAy x y) ∧
    (∃ u, exec (.moveq x k) s = .next u ∧
      ChangesRegs s u s.pc ((s.regs.setD x (k.signExtend 32)).withSr (f.logicFlags (k.signExtend 32)))) ∧
    (∃ u, exec (.extDn .w y) s = .next u ∧
      ChangesRegs s u s.pc ((s.regs.setD y (mergeLow d ((d.setWidth 8).signExtend 16))).withSr
        (f.logicFlags ((d.setWidth 8).signExtend 16)))) ∧
    (∃ u, exec (.extDn .l y) s = .next u ∧
      ChangesRegs s u s.pc ((s.regs.setD y ((d.setWidth 16).signExtend 32)).withSr
        (f.logicFlags ((d.setWidth 16).signExtend 32)))) ∧
    (∃ u, exec (.swap y) s = .next u ∧
      ChangesRegs s u s.pc ((s.regs.setD y (d.rotateLeft 16)).withSr (f.logicFlags (d.rotateLeft 16)))) ∧
    (∃ u, exec (.exgDxDy x y) s = .next u ∧
      ChangesRegs s u s.pc ((s.regs.setD x (s.regs.getD y)).setD y (s.regs.getD x))) ∧
    (∃ u, exec (.exgAxAy x y) s = .next u ∧
      ChangesRegs s u s.pc ((s.regs.setA x (s.regs.getA y)).setA y (s.regs.getA x))) ∧
    (∃ u, exec (.exgDxAy x y) s = .next u ∧
      ChangesRegs s u s.pc ((s.regs.setD x (s.regs.getA y)).setA y (s.regs.getD x)))

/-- MOVE reads its source, then locates its destination, writes the value there and sets N and Z of it with V and C cleared
and X kept (rules R216, R250). -/
def Obligations.MoveData : Prop :=
  ∀ (sz : Size) (src dst : Ea) (s s1 t : State) (v : BitVec sz.bits) (loc : Loc),
    readEa src sz s.start = .ok v s1 → Locates dst sz s1 loc t →
    ∃ u, exec (.move sz src dst) s = .next u ∧
      ChangesAt s u t.pc ((loc.putRegs sz v ((s.regs.bump src sz).bump dst sz)).withSr (s.regs.sr.logicFlags v)) sz loc v

/-- MOVEM to memory stores the selected registers in the order D0..D7, A0..A7 at rising addresses from the effective address
on (or A7..A0, D7..D0 at falling addresses below An, which is then left at the last one), changes no flag and no other
register, and stores to no other byte; where all of it is RAM each register reads back (rules R144, R253). -/
def Obligations.MovemStores : Prop :=
  (∀ (r : RegFile) (n : Nat),
    (∀ h : n < 8, r.getListed ⟨n, by omega⟩ = r.d[n]) ∧ (∀ h : n < 7, r.getListed ⟨8 + n, by omega⟩ = r.a[n]) ∧
    r.getListed 15 = if r.sr.s then r.ssp else r.usp) ∧
  ∀ (sz : AddrSize) (s s1 : State) (mask : Word), fetch16 s.start = .ok mask s1 →
    let n : Long := BitVec.ofNat 32 sz.toSize.bytes
    (∀ (ea : Ea) (t : State) (a : Long), (∀ r, ea ≠ .predec r) → resolve ea .l s1 = .ok (.mem a) t →
      let l := (List.finRange 16).filter (fun i => mask.getLsbD i.val)
      let at_ := fun k : Nat => a + BitVec.ofNat 32 k * n
      (∀ k < l.length, s.canAccess sz.toSize (at_ k) = true) →
      ∃ u, exec (.movemToMem sz ea) s = .next u ∧ u.pc = t.pc ∧ u.regs = s.regs.bump ea .l ∧ u.run = s.run ∧ SameControl s u ∧
        (∀ e, (∀ k < l.length, e ∉ s.cellsOf sz.toSize (at_ k)) → Memory.read u.mem e = Memory.read s.mem e) ∧
        (s.cfg.memoryOk = true → a.toNat + l.length * sz.toSize.bytes ≤ s.cfg.memSize → u.ym = s.ym ∧ u.paula = s.paula ∧
          ∀ (k : Nat) (h : k < l.length), u.memValue sz.toSize (at_ k) =
            ((s.regs.bump ea .l).getListed (l[k]'h)).setWidth sz.toSize.bits)) ∧
    (∀ r : Reg,
      let l := (List.finRange 16).filter (fun i => mask.getLsbD (15 - i.val))
      let a := s.regs.getA r - BitVec.ofNat 32 l.length * n
      let at_ := fun k : Nat => a + BitVec.ofNat 32 k * n
      (∀ k < l.length, s.canAccess sz.toSize (at_ k) = true) →
      ∃ u, exec (.movemToMem sz (.predec r)) s = .next u ∧ u.pc = s1.pc ∧ u.regs = s.regs.setA r a ∧
        u.run = s.run ∧ SameControl s u ∧
        (∀ e, (∀ k < l.length, e ∉ s.cellsOf sz.toSize (at_ k)) → Memory.read u.mem e = Memory.read s.mem e) ∧
        (s.cfg.memoryOk = true → a.toNat + l.length * sz.toSize.bytes ≤ s.cfg.memSize → u.ym = s.ym ∧ u.paula = s.paula ∧
          ∀ (k : Nat) (h : k < l.length), u.memValue sz.toSize (at_ k) =
            (s.regs.getListed (l[k]'h)).setWidth sz.toSize.bits))

/-- MOVEM from memory loads the selected registers in the order D0..D7, A0..A7 from rising addresses, words sign-extended to
32 bits; `(An)+` leaves An at the address after the last one even when An is loaded; no flag and no byte changes (rules
R144, R254). -/
def Obligations.MovemLoads : Prop :=
  (∀ (r : RegFile) (i j : Fin 16) (v : Long),
    (r.setListed i v).getListed j = (if j = i then v else r.getListed j) ∧ (r.setListed i v).sr = r.sr ∧
    (i ≠ 15 → (r.setListed i v).ssp = r.ssp ∧ (r.setListed i v).usp = r.usp) ∧
    r.setListed 15 v = if r.sr.s then { r with ssp := v } else { r with usp := v }) ∧
  ∀ (sz : AddrSize) (s s1 : State) (mask : Word), fetch16 s.start = .ok mask s1 →
    let n : Long := BitVec.ofNat 32 sz.toSize.bytes
    let l := (List.finRange 16).filter (fun i => mask.getLsbD i.val)
    (∀ (ea : Ea) (t : State) (a : Long), (∀ r, ea ≠ .postinc r) → resolve ea .l s1 = .ok (.mem a) t →
      (∀ k < l.length, s.canAccess sz.toSize (a + BitVec.ofNat 32 k * n) = true) →
      ∃ u, exec (.movemToReg sz ea) s = .next u ∧
        ChangesRegs s u t.pc (loadAll s sz.toSize l a (s.regs.bump ea .l))) ∧
    (∀ r : Reg,
      let a := s.regs.getA r
      (∀ k < l.length, s.canAccess sz.toSize (a + BitVec.ofNat 32 k * n) = true) →
      ∃ u, exec (.movemToReg sz (.postinc r)) s = .next u ∧
        ChangesRegs s u s1.pc ((loadAll s sz.toSize l a s.regs).setA r (a + BitVec.ofNat 32 l.length * n)))

/-- MOVEP moves the bytes of a data register to or from every second byte from d16(Ay) on, high byte first; no flag changes
and only the addressed bytes are stored to (rule R258). -/
def Obligations.MovePeripheral : Prop :=
  ∀ (x y : Reg) (s s1 : State) (w : Word), fetch16 s.start = .ok w s1 →
    let a : Long := s.regs.getA y + w.signExtend 32
    let d := s.regs.getD x
    let m := fun k : Long => (s.memValue .b (a + k) : Byte)
    let ok := fun k : Long => s.canAccess .b (a + k) = true
    let inRam := fun n : Nat => s.cfg.memoryOk = true ∧ a.toNat + n ≤ s.cfg.memSize
    (ok 0 → ok 2 →
      (∃ u, exec (.movep .wordFromMem x y) s = .next u ∧ ChangesRegs s u s1.pc (s.regs.setD x (mergeLow d (m 0 ++ m 2)))) ∧
      (∃ u, exec (.movep .wordToMem x y) s = .next u ∧ u.pc = s1.pc ∧ u.regs = s.regs ∧ u.run = s.run ∧
        SameControl s u ∧
        (∀ e, e ∉ s.cellsOf .b (a + 0) → e ∉ s.cellsOf .b (a + 2) → Memory.read u.mem e = Memory.read s.mem e) ∧
        (inRam 3 → u.ym = s.ym ∧ u.paula = s.paula ∧
          u.memValue .b (a + 0) = d.extractLsb' 8 8 ∧ u.memValue .b (a + 2) = d.extractLsb' 0 8))) ∧
    (ok 0 → ok 2 → ok 4 → ok 6 →
      (∃ u, exec (.movep .longFromMem x y) s = .next u ∧
        ChangesRegs s u s1.pc (s.regs.setD x (m 0 ++ m 2 ++ m 4 ++ m 6))) ∧
      (∃ u, exec (.movep .longToMem x y) s = .next u ∧ u.pc = s1.pc ∧ u.regs = s.regs ∧ u.run = s.run ∧
        SameControl s u ∧
        (∀ e, e ∉ s.cellsOf .b (a + 0) → e ∉ s.cellsOf .b (a + 2) → e ∉ s.cellsOf .b (a + 4) →
          e ∉ s.cellsOf .b (a + 6) → Memory.read u.mem e = Memory.read s.mem e) ∧
        (inRam 7 → u.ym = s.ym ∧ u.paula = s.paula ∧
          u.memValue .b (a + 0) = d.extractLsb' 24 8 ∧ u.memValue .b (a + 2) = d.extractLsb' 16 8 ∧
          u.memValue .b (a + 4) = d.extractLsb' 8 8 ∧ u.memValue .b (a + 6) = d.extractLsb' 0 8)))

/-- PEA, LINK and UNLK: what they push or pop, at which address, and the registers they leave; no flag changes (rules R202,
R256, R260, R261). -/
def Obligations.StackFrames : Prop :=
  ∀ (s : State),
    (∀ (ea : Ea) (t : State) (a : Long), resolve ea .l s.start = .ok (.mem a) t →
      let r := s.regs.bump ea .l
      let sp := r.getA 7 - 4
      s.canAccess .l sp = true →
      ∃ u, exec (.pea ea) s = .next u ∧ ChangesAt s u t.pc (r.setA 7 sp) .l (.mem sp) a) ∧
    (∀ (y : Reg) (s1 : State) (w : Word), fetch16 s.start = .ok w s1 →
      let sp := s.regs.getA 7 - 4
      let r := (s.regs.setA 7 sp).setA y sp
      s.canAccess .l sp = true →
      ∃ u, exec (.link y) s = .next u ∧
        ChangesAt s u s1.pc (r.setA 7 (sp + w.signExtend 32)) .l (.mem sp) ((s.regs.setA 7 sp).getA y)) ∧
    (∀ y : Reg,
      let a := s.regs.getA y
      s.canAccess .l a = true →
      ∃ u, exec (.unlk y) s = .next u ∧ ChangesRegs s u s.pc ((s.regs.setA 7 (a + 4)).setA y (s.memValue .l a)))

/-- The eight register shifts and rotates complete in every state, write D[y].sz and the flags of rule R400, and change
nothing else (rules R400-R408). -/
def Obligations.ShiftRegister : Prop :=
  ∀ (k : ShiftKind) (c : ShiftCount) (sz : Size) (y : Reg) (s : State),
    let n := countOf c s.regs
    let v : BitVec sz.bits := (s.regs.getD y).setWidth sz.bits
    let acc := shiftLoop k n v s.regs.sr.x
    ∃ u, exec (regShift k c sz y) s = .next u ∧
      ChangesRegs s u s.pc ((s.regs.setD y (mergeLow (s.regs.getD y) acc.value)).withSr
        { s.regs.sr with
          x := if n = 0 ∨ k = .rol ∨ k = .ror then s.regs.sr.x else acc.out
          n := acc.value.msb
          z := decide (acc.value = 0)
          v := decide (k = .asl) && acc.signChanged
          c := if n = 0 then decide (k = .roxl ∨ k = .roxr) && s.regs.sr.x else acc.out })

/-- The eight memory shifts and rotates move one word by one bit, write it back at its address and change no other byte
(rules R400-R408). -/
def Obligations.ShiftMemory : Prop :=
  ∀ (k : ShiftKind) (ea : Ea) (s t : State) (loc : Loc), Locates ea .w s.start loc t →
    let v : Word := loc.value s .w
    let acc := shiftLoop k 1 v s.regs.sr.x
    ∃ u, exec (memShift k ea) s = .next u ∧
      ChangesAt s u t.pc ((loc.putRegs .w acc.value (s.regs.bump ea .w)).withSr
        { s.regs.sr with
          x := if k = .rol ∨ k = .ror then s.regs.sr.x else acc.out
          n := acc.value.msb
          z := decide (acc.value = 0)
          v := decide (k = .asl) && acc.signChanged
          c := acc.out }) .w loc acc.value

/-- BTST, BCHG, BCLR and BSET, with an immediate or a register bit number: a long and the number mod 32 on a data register, a
byte and mod 8 elsewhere; only Z changes, and the tested bit where the instruction writes (rules R430-R434). -/
def Obligations.BitOperations : Prop :=
  ∀ (op : BitOp) (s : State),
    (∀ (s1 : State) (w : Word) (r : Reg), fetch16 s.start = .ok w s1 →
      ∃ u, exec (staticBit op (.dn r)) s = .next u ∧
        BitResult op s u s1.pc s.regs .l (.dreg r) (s.regs.getD r) (w.toNat % 256 % 32)) ∧
    (∀ (s1 t : State) (w : Word) (ea : Ea) (loc : Loc), fetch16 s.start = .ok w s1 → (∀ r, ea ≠ .dn r) →
      Locates ea .b s1 loc t →
      ∃ u, exec (staticBit op ea) s = .next u ∧
        BitResult op s u t.pc (s.regs.bump ea .b) .b loc (loc.value s .b) (w.toNat % 256 % 8)) ∧
    (∀ x r : Reg, ∃ u, exec (dynamicBit op x (.dn r)) s = .next u ∧
      BitResult op s u s.pc s.regs .l (.dreg r) (s.regs.getD r) ((s.regs.getD x).toNat % 32)) ∧
    (∀ (x : Reg) (t : State) (ea : Ea) (loc : Loc), (∀ r, ea ≠ .dn r) → Locates ea .b s.start loc t →
      ∃ u, exec (dynamicBit op x ea) s = .next u ∧
        BitResult op s u t.pc (s.regs.bump ea .b) .b loc (loc.value s .b) ((s.regs.getD x).toNat % 8))

/-- ABCD, SBCD and NBCD write the decimal result and set X and C to the decimal carry; Z is only ever cleared; N and V are
free (rules R450-R452). -/
def Obligations.DecimalInstructions : Prop :=
  ∀ (s : State) (x y : Reg),
    let f := s.regs.sr
    let g := fun (p : Byte × Bool) (n v : Bool) =>
      ({ f with x := p.2, n := n, z := f.z && decide (p.1 = 0), v := v, c := p.2 } : Sr)
    (
      let src : Byte := (s.regs.getD y).setWidth 8
      let dst : Byte := (s.regs.getD x).setWidth 8
      let r := fun (p : Byte × Bool) (n v : Bool) => (s.regs.setD x (mergeLow (s.regs.getD x) p.1)).withSr (g p n v)
      (∃ (n v : Bool) (u : State), exec (.abcd .reg x y) s = .next u ∧
        ChangesRegs s u s.pc (r (bcdAdd src dst f.x) n v)) ∧
      (∃ (n v : Bool) (u : State), exec (.sbcd .reg x y) s = .next u ∧
        ChangesRegs s u s.pc (r (bcdSub src dst f.x) n v))) ∧
    (
      let r1 := s.regs.bump (.predec y) .b
      let r2 := r1.bump (.predec x) .b
      let a := r1.getA y
      let b := r2.getA x
      s.canAccess .b a = true → s.canAccess .b b = true →
      let src : Byte := s.memValue .b a
      let dst : Byte := s.memValue .b b
      (∃ (n v : Bool) (u : State), exec (.abcd .mem x y) s = .next u ∧
        ChangesAt s u s.pc (r2.withSr (g (bcdAdd src dst f.x) n v)) .b (.mem b) (bcdAdd src dst f.x).1) ∧
      (∃ (n v : Bool) (u : State), exec (.sbcd .mem x y) s = .next u ∧
        ChangesAt s u s.pc (r2.withSr (g (bcdSub src dst f.x) n v)) .b (.mem b) (bcdSub src dst f.x).1)) ∧
    (∀ (ea : Ea) (t : State) (loc : Loc), Locates ea .b s.start loc t →
      let p := bcdSub (loc.value s .b) 0 f.x
      ∃ (n v : Bool) (u : State), exec (.nbcd ea) s = .next u ∧
        ChangesAt s u t.pc ((loc.putRegs .b p.1 (s.regs.bump ea .b)).withSr (g p n v)) .b loc p.1)

/-- BRA, Bcc, DBcc, JMP and NOP: where pc goes (the target is pc0 + 2 + displacement), the counter DBcc writes, and that
nothing else changes (rules R461-R463, R465, R467, R471). -/
def Obligations.BranchesAndJumps : Prop :=
  ∀ (s : State),
    (∀ (k : Byte) (disp : Long) (t : State), branchDisp k s.start = .ok disp t →
      (∃ u, exec (.bra k) s = .next u ∧ ChangesRegs s u (s.hid.pc0 + 2 + disp) s.regs) ∧
      (∀ c : Cond, ∃ u, exec (.bcc c k) s = .next u ∧ 
        ChangesRegs s u (if s.regs.sr.cond c then s.hid.pc0 + 2 + disp else t.pc) s.regs)) ∧
    (∀ (c : Cond) (y : Reg) (w : Word) (t : State), fetch16 s.start = .ok w t →
      let n : Word := (s.regs.getD y).setWidth 16 - 1
      ∃ u, exec (.dbcc c y) s = .next u ∧
        ChangesRegs s u (if s.regs.sr.cond c ∨ n = 0xFFFF then t.pc else s.hid.pc0 + 2 + w.signExtend 32)
          (if s.regs.sr.cond c then s.regs else s.regs.setD y (mergeLow (s.regs.getD y) n))) ∧
    (∀ (ea : Ea) (a : Long) (t : State), resolve ea .l s.start = .ok (.mem a) t →
      ∃ u, exec (.jmp ea) s = .next u ∧ ChangesRegs s u a (s.regs.bump ea .l)) ∧
    (∃ u, exec .nop s = .next u ∧ ChangesRegs s u s.pc s.regs) ∧
    (∀ (k : Byte), k ≠ 0 → branchDisp k s.start = .ok (k.signExtend 32) s.start) ∧
    (∀ (w : Word) (t : State), fetch16 s.start = .ok w t → branchDisp 0 s.start = .ok (w.signExtend 32) t)

/-- BSR and JSR push the address of the next instruction and jump; RTS and RTR pop it, RTR after a word whose low byte goes
to CCR; no other register, flag or byte changes (rules R464, R468-R470). -/
def Obligations.CallsAndReturns : Prop :=
  ∀ (s : State),
    (∀ (k : Byte) (disp : Long) (t : State), branchDisp k s.start = .ok disp t →
      let sp := s.regs.getA 7 - 4
      s.canAccess .l sp = true →
      ∃ u, exec (.bsr k) s = .next u ∧ 
        ChangesAt s u (s.hid.pc0 + 2 + disp) (s.regs.setA 7 sp) .l (.mem sp) t.pc) ∧
    (∀ (ea : Ea) (a : Long) (t : State), resolve ea .l s.start = .ok (.mem a) t →
      let r := s.regs.bump ea .l
      let sp := r.getA 7 - 4
      s.canAccess .l sp = true →
      ∃ u, exec (.jsr ea) s = .next u ∧ ChangesAt s u a (r.setA 7 sp) .l (.mem sp) t.pc) ∧
    (
      let sp := s.regs.getA 7
      s.canAccess .l sp = true →
      ∃ u, exec .rts s = .next u ∧ ChangesRegs s u (s.memValue .l sp) (s.regs.setA 7 (sp + 4))) ∧
    (
      let sp := s.regs.getA 7
      let w : Word := s.memValue .w sp
      s.canAccess .w sp = true → s.canAccess .l (sp + 2) = true →
      ∃ u, exec .rtr s = .next u ∧
        ChangesRegs s u (s.memValue .l (sp + 2)) ((s.regs.setA 7 (sp + 6)).withSr
          { s.regs.sr with x := w.getLsbD 4, n := w.getLsbD 3, z := w.getLsbD 2, v := w.getLsbD 1, c := w.getLsbD 0 }))

/-- Which bits SR holds, what a 16-bit write and a CCR write store and what reads give (rule R47); and with these ANDI, EORI,
ORI and MOVE to CCR write the five flags and leave the system byte, and ANDI, EORI, ORI and MOVE to SR, in supervisor mode,
write the value under SR_MASK (rules R501-R508). -/
def Obligations.StatusRegisterWrites : Prop :=
  ∀ (s : State),
    let f := s.regs.sr
    let mask : Word := if s.cfg.srT0Stored then 0xE71F else 0xA71F
    (∀ (g : Sr) (b : Byte) (w : Word),
      (Sr.ofWord s.cfg.srT0Stored w).toWord = w &&& mask ∧
      (g.setCcr b).toWord = (g.toWord &&& 0xFF00) ||| (0#8 ++ (b &&& 0x1F)) ∧
      g.ccr = g.toWord.extractLsb' 0 8 ∧
      g.toWord &&& 0x18E0 = 0 ∧ (g.legal s.cfg.srT0Stored = true → g.toWord &&& ~~~mask = 0)) ∧
    (∀ (w : Word) (t : State), fetch16 s.start = .ok w t →
      let b : Byte := w.setWidth 8
      (∃ u, exec .andiToCcr s = .next u ∧ ChangesRegs s u t.pc (s.regs.withSr (f.setCcr (f.ccr &&& b)))) ∧
      (∃ u, exec .eoriToCcr s = .next u ∧ ChangesRegs s u t.pc (s.regs.withSr (f.setCcr (f.ccr ^^^ b)))) ∧
      (∃ u, exec .oriToCcr s = .next u ∧ ChangesRegs s u t.pc (s.regs.withSr (f.setCcr (f.ccr ||| b)))) ∧
      (f.s = true →
        (∃ g u, exec .andiToSr s = .next u ∧ ChangesRegs s u t.pc (s.regs.withSr g) ∧
          g.toWord = (f.toWord &&& w) &&& mask) ∧
        (∃ g u, exec .eoriToSr s = .next u ∧ ChangesRegs s u t.pc (s.regs.withSr g) ∧
          g.toWord = (f.toWord ^^^ w) &&& mask) ∧
        (∃ g u, exec .oriToSr s = .next u ∧ ChangesRegs s u t.pc (s.regs.withSr g) ∧
          g.toWord = (f.toWord ||| w) &&& mask))) ∧
    (∀ (ea : Ea) (t : State) (loc : Loc), Locates ea .w s.start loc t →
      let v : Word := loc.value s .w
      (∃ u, exec (.moveToCcr ea) s = .next u ∧
        ChangesRegs s u t.pc ((s.regs.bump ea .w).withSr (f.setCcr (v.setWidth 8)))) ∧
      (f.s = true → ∃ g u, exec (.moveToSr ea) s = .next u ∧ ChangesRegs s u t.pc ((s.regs.bump ea .w).withSr g) ∧
        g.toWord = v &&& mask))

/-- MOVE to and from USP, STOP, RESET and RTE in supervisor mode: STOP loads SR and enters Stopped, unless it is traced, when
it stays as it was; RESET only halts; RTE loads SR and pc from the frame at SSP (rules R510-R513). -/
def Obligations.SupervisorInstructions : Prop :=
  ∀ (s : State), s.regs.sr.s = true →
    let mask : Word := if s.cfg.srT0Stored then 0xE71F else 0xA71F
    (∀ y : Reg,
      (∃ u, exec (.moveToUsp y) s = .next u ∧ ChangesRegs s u s.pc { s.regs with usp := s.regs.getA y }) ∧
      (∃ u, exec (.moveFromUsp y) s = .next u ∧ ChangesRegs s u s.pc (s.regs.setA y s.regs.usp))) ∧
    (∀ (w : Word) (t : State), fetch16 s.start = .ok w t →
      ∃ g u, exec .stop s = .next u ∧ g.toWord = w &&& mask ∧ u.regs = s.regs.withSr g ∧ u.pc = t.pc ∧
        u.run = (if s.hid.tracePending then s.run else .stopped) ∧ SameControl s u ∧ SameMemory s u) ∧
    (∃ u, exec .reset s = .next u ∧ u.regs = s.regs ∧ u.pc = s.pc ∧ u.run = .halted ∧ SameControl s u ∧
      SameMemory s u) ∧
    (s.canAccess .w s.regs.ssp = true → s.canAccess .l (s.regs.ssp + 2) = true →
      ∃ g u, exec .rte s = .next u ∧ g.toWord = s.memValue .w s.regs.ssp &&& mask ∧
        ChangesRegs s u (s.memValue .l (s.regs.ssp + 2)) { s.regs with ssp := s.regs.ssp + 6, sr := g })

/-- TRAP, TRAPV, ILLEGAL, line A and line F, their words and vectors: TRAP and TRAPV with V set take their exception with the
next address stacked, the others with their own address stacked, no extension word fetched and no trace to follow; TRAPV
with V clear does nothing (rules R171, R514, R515, R517, R519, R520). -/
def Obligations.TrapInstructions : Prop :=
  ∀ (s : State),
    (∀ v : BitVec 4, decode (0x4E4#12 ++ v) = .ok (.trap v) ∧ (Event.trap v).vector.toNat = 32 + v.toNat ∧
      exec (.trap v) s = .next (enter (.trap v) s.pc s.start.charge)) ∧
    decode 0x4E76 = .ok .trapv ∧ Event.trapV.vector = 7 ∧
    (s.regs.sr.v = true → exec .trapv s = .next (enter .trapV s.pc s.start.charge)) ∧
    (s.regs.sr.v = false → ∃ u, exec .trapv s = .next u ∧ ChangesRegs s u s.pc s.regs) ∧
    decode 0x4AFC = .ok .illegal ∧ Event.illegalInstruction.vector = 4 ∧
    exec .illegal s = .next (enter .illegalInstruction s.hid.pc0 s.start.charge.noTrace) ∧
    (∀ d : BitVec 12, decode (0xA#4 ++ d) = .ok (.lineA d) ∧ Event.lineA.vector = 10 ∧
      exec (.lineA d) s = .next (enter .lineA s.hid.pc0 s.start.charge.noTrace)) ∧
    (∀ d : BitVec 12, decode (0xF#4 ++ d) = .ok (.lineF d) ∧ Event.lineF.vector = 11 ∧
      exec (.lineF d) s = .next (enter .lineF s.hid.pc0 s.start.charge.noTrace)) ∧
    (∀ w : Word, (s.fetched w).hid.pc0 = s.pc ∧ (s.fetched w).pc = s.pc + 2) ∧
    s.start.charge.regs = s.regs ∧ s.start.charge.mem = s.mem ∧ s.start.charge.noTrace.hid.tracePending = false

/-- CHK: an index from 0 to the bound changes nothing but N, Z, V and C, which are free; a negative index traps with N set,
one above the bound with N clear (vector 6), Z, V and C free and the next address stacked (rules R516, R550, R560). -/
def Obligations.CheckBounds : Prop :=
  ∀ (x : Reg) (ea : Ea) (s t : State) (loc : Loc), Locates ea .w s.start loc t →
    let bound : Int := BitVec.toInt (n := 16) (loc.value s .w)
    let index : Int := BitVec.toInt ((s.regs.getD x).setWidth 16)
    let r := fun (n z v c : Bool) => (s.regs.bump ea .w).withSr { s.regs.sr with n := n, z := z, v := v, c := c }
    Event.chk.vector = 6 ∧
    (0 ≤ index → index ≤ bound → ∃ (n z v c : Bool) (u : State), exec (.chk x ea) s = .next u ∧
      ChangesRegs s u t.pc (r n z v c)) ∧
    (index < 0 → ∃ (z v c : Bool) (w : State), exec (.chk x ea) s = .next (enter .chk t.pc w) ∧
      ChangesRegs s w t.pc (r true z v c)) ∧
    (0 ≤ index → bound < index → ∃ (z v c : Bool) (w : State), exec (.chk x ea) s = .next (enter .chk t.pc w) ∧
      ChangesRegs s w t.pc (r false z v c))

/-- In user mode every privileged instruction takes a privilege violation (vector 8) with its own address stacked, before any
extension word is fetched and with no effect of its own; no trace follows. MOVE from SR, MOVE to CCR and the CCR logical
forms are not privileged: they complete in user mode (rule R500). -/
def Obligations.PrivilegeViolations : Prop :=
  ∀ s : State, s.regs.sr.s = false →
    (∀ i : Instr, (i = .andiToSr ∨ i = .eoriToSr ∨ i = .oriToSr ∨ (∃ ea, i = .moveToSr ea) ∨ (∃ y, i = .moveToUsp y) ∨
      (∃ y, i = .moveFromUsp y) ∨ i = .rte ∨ i = .stop ∨ i = .reset) →
      exec i s = .next (enter .privilegeViolation s.hid.pc0 s.start.charge.noTrace)) ∧
    Event.privilegeViolation.vector = 8 ∧
    s.start.charge.noTrace.regs = s.regs ∧ s.start.charge.noTrace.run = s.run ∧
    SameMemory s s.start.charge.noTrace ∧ s.start.charge.noTrace.hid.tracePending = false ∧
    (∀ (w : Word) (t : State), fetch16 s.start = .ok w t →
      ∀ i : Instr, i = .andiToCcr ∨ i = .eoriToCcr ∨ i = .oriToCcr →
        ∃ (b : Byte) (u : State), exec i s = .next u ∧ ChangesRegs s u t.pc (s.regs.withSr (s.regs.sr.setCcr b))) ∧
    (∀ (ea : Ea) (t : State) (loc : Loc), Locates ea .w s.start loc t →
      (∃ (b : Byte) (u : State), exec (.moveToCcr ea) s = .next u ∧
        ChangesRegs s u t.pc ((s.regs.bump ea .w).withSr (s.regs.sr.setCcr b))) ∧
      (∃ u, exec (.moveFromSr ea) s = .next u ∧
        ChangesAt s u t.pc ((loc.putRegs .w s.regs.sr.toWord (s.regs.bump ea .w)).withSr s.regs.sr) .w loc
          s.regs.sr.toWord))

/-! ## The engines -/

/-- The YM2149 on the bus: a byte at offset 0 mod 4 selects, a byte at offset 2 mod 4 writes the selected register under its
mask and appends the event, odd bytes do nothing; reads give the selected register or `YM_ODD_READ`; a word is its byte at
the even address, and a long at offset 0 mod 4 selects with its first byte and writes its third with one timestamp (rules
R89, R620-R622). -/
def Obligations.YmBus : Prop :=
  ∀ (s : State) (a : Long) (v : Byte) (w : Word) (l : Long) (ts : Nat), s.cfg.hw.hasYm = true →
    0xFF8800 ≤ s.extAddr a → s.extAddr a ≤ 0xFF88FF →
    let reg := s.ym.sel.toNat
    let mask := fun reg : Nat => (if reg = 1 ∨ reg = 3 ∨ reg = 5 ∨ reg = 13 then 0x0F
      else if reg = 6 ∨ reg = 8 ∨ reg = 9 ∨ reg = 10 then 0x1F else 0xFF : Byte)
    let value := s.ym.regs[reg]'s.ym.sel.isLt
    (s.extAddr a % 4 = 0 →
      s.storeByte a v ts = some { s with ym := { s.ym with sel := v.setWidth 4 } } ∧ s.busByte a = some value) ∧
    (s.extAddr a % 4 = 2 →
      s.storeByte a v ts = some { s with ym := { s.ym with
        regs := s.ym.regs.set reg (v &&& mask reg) s.ym.sel.isLt
        writes := s.ym.writes ++ [⟨ts, s.ym.sel, v⟩] } } ∧
      s.busByte a = some value) ∧
    (s.extAddr a % 2 = 1 → s.storeByte a v ts = some s ∧ s.busByte a = some s.cfg.ymOddRead) ∧
    (s.extAddr a % 2 = 0 →
      s.storeWord a w ts = s.storeByte a (w.extractLsb' 8 8) ts ∧ s.busWord a = some (value ++ s.cfg.ymOddRead)) ∧
    (s.extAddr a % 4 = 0 →
      let sel : BitVec 4 := l.extractLsb' 24 4
      let b : Byte := l.extractLsb' 8 8
      (∃ t, readMem .l a s = .ok (value ++ s.cfg.ymOddRead ++ value ++ s.cfg.ymOddRead) t ∧ t.ym = s.ym) ∧
      ∃ t, writeMem .l a l s = .ok () t ∧ t.mem = s.mem ∧ t.paula = s.paula ∧ t.regs = s.regs ∧
        t.ym = { s.ym with
          sel := sel
          regs := s.ym.regs.set sel.toNat (b &&& mask sel.toNat) sel.isLt
          writes := s.ym.writes ++ [⟨s.writeStamp, sel, b⟩] })

/-- The generators: a tone of period p toggles at every p-th tick; the noise register shifts at every 2p-th tick, right with
bit 0 xor bit 3 entering, never becomes zero, and its bit 0 is the output; a write of R13 restarts the envelope, and a write
of any other register leaves it and every counter; a restarted envelope of period p moves one of 32 steps at every p-th tick,
up or down as R13 says, and after them is held or repeats, in the other direction each time with ALT; a generator of period 0
keeps its state, but for a tone or noise bit that `YM_ZERO_PERIOD` forces (rules R620, R630-R635). That the bit is forced at
the ticks is the model's choice (log entry 18). -/
def Obligations.YmGenerators : Prop :=
  (∀ (z : ZeroPeriod) (p : Nat) (b : Bool), 1 ≤ p → p ≤ 4095 →
    (YmTone.tick z p)^[p] ⟨0, b⟩ = ⟨0, !b⟩ ∧ ∀ k < p, ((YmTone.tick z p)^[k] ⟨0, b⟩).out = b) ∧
  (∀ (z : ZeroPeriod) (p : Nat) (l : BitVec 17) (b : Bool), 1 ≤ p → p ≤ 31 →
    (YmNoise.tick z p)^[2 * p] ⟨0, l, b⟩ = ⟨0, noiseShift l, (noiseShift l).getLsbD 0⟩ ∧
    ∀ k < 2 * p, ((YmNoise.tick z p)^[k] ⟨0, l, b⟩).out = b ∧ ((YmNoise.tick z p)^[k] ⟨0, l, b⟩).lfsr = l) ∧
  (∀ (z : ZeroPeriod) (t : YmTone) (g : YmNoise),
    let forced := fun b : Bool => match z with
      | .hold => b
      | .high => true
      | .low => false
    t.tick z 0 = { t with out := forced t.out } ∧ g.tick z 0 = { g with out := forced g.out }) ∧
  (∀ (regs : Vector Byte 16) (e : YmEnvelope), ymEnvPeriod regs = 0 → e.tick regs = e) ∧
  (∀ l : BitVec 17, (l ≠ 0 → noiseShift l ≠ 0) ∧ (noiseShift l).getLsbD 16 = (l.getLsbD 0 ^^ l.getLsbD 3) ∧
    ∀ i < 16, (noiseShift l).getLsbD i = l.getLsbD (i + 1)) ∧
  (∀ (p : Params) (y : YmSound) (w : YmWrite),
    let z := y.applyWrite p w
    let mask : Byte := if w.reg = 1 ∨ w.reg = 3 ∨ w.reg = 5 ∨ w.reg = 13 then 0x0F
      else if w.reg = 6 ∨ w.reg = 8 ∨ w.reg = 9 ∨ w.reg = 10 then 0x1F else 0xFF
    z.regs = y.regs.set w.reg.toNat (w.value &&& mask) w.reg.isLt ∧
    z.env = (if w.reg = 13 then y.env.restart z.regs else y.env) ∧
    z.tones = y.tones ∧ z.noise = y.noise ∧ z.ticks = y.ticks) ∧
  (∀ (regs : Vector Byte 16) (e : YmEnvelope),
    let att := regs[13].getLsbD 2
    let alt := regs[13].getLsbD 1
    e.restart regs = ⟨0, 0, att, false, e.heldLevel⟩ ∧
    (1 ≤ ymEnvPeriod regs →
      ∀ n : Nat,
      let level := ((YmEnvelope.tick regs)^[n] (e.restart regs)).level
      let k := n / ymEnvPeriod regs
      let ramp := fun up : Bool => if up then k % 32 else 31 - k % 32
      (k ≤ 31 → level.toNat = ramp att) ∧
      (regs[13].getLsbD 3 = false → 32 ≤ k → level = 0) ∧
      (regs[13].getLsbD 3 = true → regs[13].getLsbD 0 = true → 32 ≤ k → level = if att ^^ alt then 31 else 0) ∧
      (regs[13].getLsbD 3 = true → regs[13].getLsbD 0 = false →
        level.toNat = ramp (att ^^ (alt && decide (k / 32 % 2 = 1))))))

/-- Paula's registers: the window as the CPU bus reaches it, a byte write on both halves, the set/clear writes and their read
ports, and the channel latches LC, LEN, PER, VOL and DAT. Its channels: a DMACON write starts a channel that it enables, with
the block-start interrupt, and stops one that it disables; a block of LEN words plays high byte first and begins again with
one interrupt; a channel of length 0 falls silent at its first advance without one; the phase advances by rule R701's step
and a channel of period 0 holds; a playing channel gives its current byte (the high one first) times its volume, at most 64, and any other gives 0 (rules
R690-R693, R695, R696, R698, R700-R703). -/
def Obligations.PaulaRegistersAndChannels : Prop :=
  (∀ (s : State) (a : Long) (b : Byte) (v : Word) (ts : Nat), s.cfg.hw.hasPaula = true →
    0xDFF000 ≤ s.extAddr a → s.extAddr a ≤ 0xDFF1FF →
    s.busByte a = some (s.paula.readByte (s.extAddr a)) ∧ s.busWord a = some (s.paula.readWord (s.extAddr a)) ∧
    s.storeByte a b ts = some { s with paula := s.paula.writeByte (s.extAddr a) b ts } ∧
    s.storeWord a v ts = some { s with paula := s.paula.writeWord (s.extAddr a) v ts }) ∧
  (∀ (reg : BitVec 15) (v : Word) (i : Nat), i < 15 →
    (setClear reg v).getLsbD i = if v.getLsbD i then v.getLsbD 15 else reg.getLsbD i) ∧
  (∀ (q : Paula) (v : Word) (ts : Nat),
    (q.writeWord 0xDFF096 v ts).readWord 0xDFF002 = (setClear q.dmacon v).setWidth 16 ∧
    (q.writeWord 0xDFF09A v ts).readWord 0xDFF01C = (setClear q.intena v).setWidth 16 ∧
    (q.writeWord 0xDFF09C v ts).readWord 0xDFF01E = (setClear q.intreq v).setWidth 16) ∧
  (∀ (q : Paula) (e : Nat) (b : Byte) (ts : Nat), e % 2 = 0 →
    q.writeByte e b ts = q.writeWord e (b ++ b) ts ∧ q.writeByte (e + 1) b ts = q.writeWord e (b ++ b) ts) ∧
  (∀ (q : Paula) (x : Fin 4) (v : Word) (ts : Nat),
    let l := q.latches[x]
    let after := fun (k : Nat) (r : PaulaReg) (new : PaulaLatch) =>
      q.writeWord (0xDFF0A0 + 0x10 * x.val + k) v ts =
        { q with latches := q.latches.set x.val new, writes := q.writes ++ [⟨ts, r, v⟩] }
    after 0x0 (.lch x) { l with lc := v ++ l.lc.extractLsb' 0 16 } ∧
    after 0x2 (.lcl x) { l with lc := l.lc.extractLsb' 16 16 ++ (v &&& 0xFFFE) } ∧
    after 0x4 (.len x) { l with len := v } ∧
    after 0x6 (.per x) { l with per := v } ∧
    after 0x8 (.vol x) { l with vol := v.setWidth 7 } ∧
    after 0xA (.dat x) { l with dat := v }) ∧
  (∀ (p : Params) (mem : Memory) (q : Paula) (v : Word) (ts : Nat) (x : Fin 4),
    let t := q.applyWrite p mem ⟨ts, .dmacon, v⟩
    let on := fun r : BitVec 15 => r.getLsbD 9 && r.getLsbD x.val
    let new := setClear q.soundDmacon v
    let c := q.channels[x]
    t.soundDmacon = new ∧ t.channels[x].latch = c.latch ∧
    t.channels[x].play = (if on new && !on q.soundDmacon then c.latch.startPlay p mem
      else if on q.soundDmacon && !on new then { c.play with state := .off } else c.play) ∧
    t.intreq.getLsbD (7 + x.val) = (q.intreq.getLsbD (7 + x.val) || (on new && !on q.soundDmacon))) ∧
  (∀ (p : Params) (mem : Memory) (l : PaulaLatch) (ptr : Long),
    let e := ptr.toNat % 2 ^ p.addrBits / 2 * 2
    (dmaWord p mem ptr = if e + 1 < p.memSize then Memory.read mem e ++ Memory.read mem (e + 1) else 0) ∧
    l.startPlay p mem = ⟨.playing, l.lc, l.len, dmaWord p mem l.lc, false, 0, decide (l.len = 0)⟩) ∧
  (∀ c : PaulaPlay, c.current = if c.low then c.word.extractLsb' 0 8 else c.word.extractLsb' 8 8) ∧
  (∀ (p : Params) (mem : Memory) (l : PaulaLatch), l.len ≠ 0 →
    let start := l.startPlay p mem
    let adv := fun c : PaulaPlay => (c.advance p mem l).1
    (∀ k < l.len.toNat,
      let ptr := l.lc + BitVec.ofNat 32 (2 * k)
      let c := { start with ptr := ptr, left := l.len - BitVec.ofNat 16 k, word := dmaWord p mem ptr }
      adv^[2 * k] start = c ∧ adv^[2 * k + 1] start = { c with low := true }) ∧
    adv^[2 * l.len.toNat] start = start ∧
    ∀ j < 2 * l.len.toNat, ((adv^[j] start).advance p mem l).2 = decide (j + 1 = 2 * l.len.toNat)) ∧
  (∀ (p : Params) (mem : Memory) (l : PaulaLatch), l.len = 0 →
    ((l.startPlay p mem).advance p mem l).1.state = .silent ∧ ((l.startPlay p mem).advance p mem l).2 = false) ∧
  (∀ (p : Params) (mem : Memory) (c : PaulaChannel),
    let one := 2 ^ p.paulaFracBits
    let phase := c.play.phase + p.paulaClock * one / (c.latch.per.toNat * p.outRate)
    (c.latch.per = 0 → c.move p mem = (c, false)) ∧
    (c.play.state = .playing → c.latch.per ≠ 0 →
      (phase < one → c.move p mem = ({ c with play := { c.play with phase := phase } }, false)) ∧
      (one ≤ phase → phase < 2 * one →
        let r := ({ c.play with phase := phase - one } : PaulaPlay).advance p mem c.latch
        c.move p mem = ({ c with play := r.1 }, r.2))) ∧
    (c.play.state = .playing → p.paulaInterp = .none →
      c.output p mem = c.play.current.toInt * (min c.latch.vol.toNat 64 : Nat)) ∧
    (c.play.state ≠ .playing → c.output p mem = 0))

/-- Rendering a slice: the samples up to floor(E · OUT_RATE / CPU_CLOCK_HZ) are produced one after the other, each appending
the frame mixed from the engines' samples, so the FIFO grows by one frame a sample; the frames already there stay in front,
and nothing the CPU sees but Paula's INTREQ changes. A frame is the YM2149's sample on both sides, or Paula's pair, or with
both engines the sums limited to 16 bits. What render does after it: the session ends if the CPU has halted or the BLEP queue
has overflowed, and then the frames after the overflowing one leave the FIFO (rules R762-R766). That those frames are counted
as they are appended, that a session with malformed hardware flags appends none and that a clock of 0 divides to 0 are the
model's choices (log entries 36, 24 and 21). -/
def Obligations.RenderedFrames : Prop :=
  (∀ s : State,
    s.renderSlice = State.produceSample^[s.cycles * s.cfg.outRate / s.cfg.cpuClock + 1 - s.out.next] s ∧
    s.renderSlice.out.next = max s.out.next (s.cycles * s.cfg.outRate / s.cfg.cpuClock + 1) ∧
    s.out.fifo <+: s.renderSlice.out.fifo ∧
    (s.cfg.hw ≠ .malformed →
      s.renderSlice.out.fifo.length + s.out.next = s.out.fifo.length + s.renderSlice.out.next) ∧
    (s.cfg.hw = .malformed → s.renderSlice.out.fifo = s.out.fifo) ∧
    s.renderSlice.regs = s.regs ∧ s.renderSlice.pc = s.pc ∧
    s.renderSlice.mem = s.mem ∧ s.renderSlice.cycles = s.cycles ∧ s.renderSlice.run = s.run ∧
    s.renderSlice.ym.regs = s.ym.regs ∧ s.renderSlice.ym.sel = s.ym.sel ∧
    s.renderSlice.paula.latches = s.paula.latches ∧ s.renderSlice.paula.dmacon = s.paula.dmacon ∧
    s.renderSlice.paula.intena = s.paula.intena) ∧
  (∀ s : State,
    let ym := s.ym.sample s.cfg s.out.next
    let paula := s.paula.sample s.cfg s.mem s.out.next
    let y := if s.cfg.hw.hasYm then ym.2 else 0
    let l := if s.cfg.hw.hasPaula then paula.2.1 else 0
    let r := if s.cfg.hw.hasPaula then paula.2.2 else 0
    s.produceSample.out.next = s.out.next + 1 ∧
    s.produceSample.ym = (if s.cfg.hw.hasYm then ym.1 else s.ym) ∧
    s.produceSample.paula = (if s.cfg.hw.hasPaula then paula.1 else s.paula) ∧
    s.produceSample.out.fifo =
      (if s.cfg.hw = .malformed then s.out.fifo else s.out.fifo ++ [mixFrame s.cfg.hw y l r]) ∧
    s.produceSample.out.afterOverflow = (if s.ym.sound.fatal = true ∧ s.cfg.hw ≠ .malformed then s.out.afterOverflow + 1
      else s.out.afterOverflow) ∧
    -32768 ≤ ym.2 ∧ ym.2 ≤ 32767 ∧ -32768 ≤ paula.2.1 ∧ paula.2.1 ≤ 32767 ∧
    -32768 ≤ paula.2.2 ∧ paula.2.2 ≤ 32767) ∧
  (∀ s : State,
    s.markEnd.out.ended = (s.out.ended || decide (s.run = .halted) || s.ym.sound.fatal) ∧
    (s.ym.sound.fatal = false → s.markEnd.out.fifo = s.out.fifo) ∧
    (s.ym.sound.fatal = true →
      s.markEnd.out.fifo = s.out.fifo.take (s.out.fifo.length - s.out.afterOverflow) ∧ s.markEnd.out.afterOverflow = 0) ∧
    s.markEnd.regs = s.regs ∧ s.markEnd.mem = s.mem ∧ s.markEnd.ym = s.ym ∧ s.markEnd.paula = s.paula) ∧
  (∀ ym l r : Int,
    (-32768 ≤ ym → ym ≤ 32767 →
      (mixFrame .ym ym l r).left.toInt = ym ∧ (mixFrame .ym ym l r).right.toInt = ym) ∧
    (-32768 ≤ l → l ≤ 32767 → -32768 ≤ r → r ≤ 32767 →
      (mixFrame .amiga ym l r).left.toInt = l ∧ (mixFrame .amiga ym l r).right.toInt = r) ∧
    (mixFrame .both ym l r).left.toInt = max (-32768) (min (ym + l) 32767) ∧
    (mixFrame .both ym l r).right.toInt = max (-32768) (min (ym + r) 32767))
end

