-- ==== Sys2Proof/Laws/State.lean ====
section
/-! SUPPORT. Laws/State.lean: one lemma per field per named update of the state, and the laws of the register file. -/

namespace Sys2Proof.Machine

open Sys2Proof.Config

/-! ## `State.start` -/

@[simp] theorem State.start_cfg (s : State) : s.start.cfg = s.cfg := rfl
@[simp] theorem State.start_regs (s : State) : s.start.regs = s.regs := rfl
@[simp] theorem State.start_pc (s : State) : s.start.pc = s.pc := rfl
@[simp] theorem State.start_run (s : State) : s.start.run = s.run := rfl
@[simp] theorem State.start_cycles (s : State) : s.start.cycles = s.cycles := rfl
@[simp] theorem State.start_pc0 (s : State) : s.start.hid.pc0 = s.hid.pc0 := rfl
@[simp] theorem State.start_ir (s : State) : s.start.hid.ir = s.hid.ir := rfl
@[simp] theorem State.start_tracePending (s : State) : s.start.hid.tracePending = s.hid.tracePending := rfl
@[simp] theorem State.start_snapshot (s : State) : s.start.hid.snapshot = s.regs := rfl
@[simp] theorem State.start_devSeq (s : State) : s.start.hid.devSeq = 0 := rfl
@[simp] theorem State.start_ext (s : State) : s.start.hid.ext = [] := rfl
@[simp] theorem State.start_operands (s : State) : s.start.hid.operands = [] := rfl
@[simp] theorem State.start_inGroup0 (s : State) : s.start.inGroup0 = s.inGroup0 := rfl
@[simp] theorem State.start_group0Handler (s : State) : s.start.group0Handler = s.group0Handler := rfl
@[simp] theorem State.start_irq (s : State) : s.start.irq = s.irq := rfl
@[simp] theorem State.start_mem (s : State) : s.start.mem = s.mem := rfl
@[simp] theorem State.start_ym (s : State) : s.start.ym = s.ym := rfl
@[simp] theorem State.start_paula (s : State) : s.start.paula = s.paula := rfl
@[simp] theorem State.start_out (s : State) : s.start.out = s.out := rfl
@[simp] theorem State.start_draws (s : State) : s.start.draws = s.draws := rfl

/-! ## `State.charge` -/

@[simp] theorem State.charge_cfg (s : State) : s.charge.cfg = s.cfg := rfl
@[simp] theorem State.charge_regs (s : State) : s.charge.regs = s.regs := rfl
@[simp] theorem State.charge_pc (s : State) : s.charge.pc = s.pc := rfl
@[simp] theorem State.charge_run (s : State) : s.charge.run = s.run := rfl
@[simp] theorem State.charge_hid (s : State) : s.charge.hid = s.hid := rfl
@[simp] theorem State.charge_inGroup0 (s : State) : s.charge.inGroup0 = s.inGroup0 := rfl
@[simp] theorem State.charge_group0Handler (s : State) : s.charge.group0Handler = s.group0Handler := rfl
@[simp] theorem State.charge_irq (s : State) : s.charge.irq = s.irq := rfl
@[simp] theorem State.charge_mem (s : State) : s.charge.mem = s.mem := rfl
@[simp] theorem State.charge_ym (s : State) : s.charge.ym = s.ym := rfl
@[simp] theorem State.charge_paula (s : State) : s.charge.paula = s.paula := rfl
@[simp] theorem State.charge_out (s : State) : s.charge.out = s.out := rfl
@[simp] theorem State.charge_draws (s : State) : s.charge.draws = s.draws := rfl

/-- Charging an instruction moves the cycle counter forward (rule R770). -/
theorem State.charge_cycles_lt (s : State) : s.cycles < s.charge.cycles := by
  show s.cycles < s.cycles + max 1 _
  omega

/-! ## `State.rollback` -/

@[simp] theorem State.rollback_cfg (s s0 : State) : (s.rollback s0).cfg = s.cfg := rfl
@[simp] theorem State.rollback_regs (s s0 : State) : (s.rollback s0).regs = s0.hid.snapshot := rfl
@[simp] theorem State.rollback_pc (s s0 : State) : (s.rollback s0).pc = s.pc := rfl
@[simp] theorem State.rollback_run (s s0 : State) : (s.rollback s0).run = s.run := rfl
@[simp] theorem State.rollback_cycles (s s0 : State) : (s.rollback s0).cycles = s.cycles := rfl
@[simp] theorem State.rollback_hid (s s0 : State) : (s.rollback s0).hid = s.hid := rfl
@[simp] theorem State.rollback_inGroup0 (s s0 : State) : (s.rollback s0).inGroup0 = s.inGroup0 := rfl
@[simp] theorem State.rollback_group0Handler (s s0 : State) : (s.rollback s0).group0Handler = s.group0Handler := rfl
@[simp] theorem State.rollback_irq (s s0 : State) : (s.rollback s0).irq = s.irq := rfl
@[simp] theorem State.rollback_mem (s s0 : State) : (s.rollback s0).mem = s0.mem := rfl
@[simp] theorem State.rollback_ym (s s0 : State) : (s.rollback s0).ym = s0.ym := rfl
@[simp] theorem State.rollback_paula (s s0 : State) : (s.rollback s0).paula = s0.paula := rfl
@[simp] theorem State.rollback_out (s s0 : State) : (s.rollback s0).out = s.out := rfl
@[simp] theorem State.rollback_draws (s s0 : State) : (s.rollback s0).draws = s.draws := rfl

/-! ## `State.noTrace` -/

@[simp] theorem State.noTrace_cfg (s : State) : s.noTrace.cfg = s.cfg := rfl
@[simp] theorem State.noTrace_regs (s : State) : s.noTrace.regs = s.regs := rfl
@[simp] theorem State.noTrace_pc (s : State) : s.noTrace.pc = s.pc := rfl
@[simp] theorem State.noTrace_run (s : State) : s.noTrace.run = s.run := rfl
@[simp] theorem State.noTrace_cycles (s : State) : s.noTrace.cycles = s.cycles := rfl
@[simp] theorem State.noTrace_pc0 (s : State) : s.noTrace.hid.pc0 = s.hid.pc0 := rfl
@[simp] theorem State.noTrace_ir (s : State) : s.noTrace.hid.ir = s.hid.ir := rfl
@[simp] theorem State.noTrace_tracePending (s : State) : s.noTrace.hid.tracePending = false := rfl
@[simp] theorem State.noTrace_inGroup0 (s : State) : s.noTrace.inGroup0 = s.inGroup0 := rfl
@[simp] theorem State.noTrace_group0Handler (s : State) : s.noTrace.group0Handler = s.group0Handler := rfl
@[simp] theorem State.noTrace_irq (s : State) : s.noTrace.irq = s.irq := rfl
@[simp] theorem State.noTrace_mem (s : State) : s.noTrace.mem = s.mem := rfl
@[simp] theorem State.noTrace_ym (s : State) : s.noTrace.ym = s.ym := rfl
@[simp] theorem State.noTrace_paula (s : State) : s.noTrace.paula = s.paula := rfl
@[simp] theorem State.noTrace_out (s : State) : s.noTrace.out = s.out := rfl
@[simp] theorem State.noTrace_draws (s : State) : s.noTrace.draws = s.draws := rfl

/-! ## `State.beginStep`, `State.fetched`, `State.lookAtIrq` -/

@[simp] theorem State.beginStep_cfg (s : State) : s.beginStep.cfg = s.cfg := rfl
@[simp] theorem State.beginStep_regs (s : State) : s.beginStep.regs = s.regs := rfl
@[simp] theorem State.beginStep_pc (s : State) : s.beginStep.pc = s.pc := rfl
@[simp] theorem State.beginStep_run (s : State) : s.beginStep.run = s.run := rfl
@[simp] theorem State.beginStep_cycles (s : State) : s.beginStep.cycles = s.cycles := rfl
@[simp] theorem State.beginStep_pc0 (s : State) : s.beginStep.hid.pc0 = s.pc := rfl
@[simp] theorem State.beginStep_ir (s : State) : s.beginStep.hid.ir = s.hid.ir := rfl
@[simp] theorem State.beginStep_tracePending (s : State) : s.beginStep.hid.tracePending = s.regs.sr.t1 := rfl
@[simp] theorem State.beginStep_snapshot (s : State) : s.beginStep.hid.snapshot = s.regs := rfl
@[simp] theorem State.beginStep_inGroup0 (s : State) : s.beginStep.inGroup0 = s.inGroup0 := rfl
@[simp] theorem State.beginStep_group0Handler (s : State) : s.beginStep.group0Handler = s.group0Handler := rfl
@[simp] theorem State.beginStep_irq (s : State) : s.beginStep.irq = s.irq := rfl
@[simp] theorem State.beginStep_mem (s : State) : s.beginStep.mem = s.mem := rfl
@[simp] theorem State.beginStep_ym (s : State) : s.beginStep.ym = s.ym := rfl
@[simp] theorem State.beginStep_paula (s : State) : s.beginStep.paula = s.paula := rfl
@[simp] theorem State.beginStep_out (s : State) : s.beginStep.out = s.out := rfl
@[simp] theorem State.beginStep_draws (s : State) : s.beginStep.draws = s.draws := rfl

@[simp] theorem State.fetched_cfg (s : State) (w : Word) : (s.fetched w).cfg = s.cfg := rfl
@[simp] theorem State.fetched_regs (s : State) (w : Word) : (s.fetched w).regs = s.regs := rfl
@[simp] theorem State.fetched_pc (s : State) (w : Word) : (s.fetched w).pc = s.pc + 2 := rfl
@[simp] theorem State.fetched_run (s : State) (w : Word) : (s.fetched w).run = s.run := rfl
@[simp] theorem State.fetched_cycles (s : State) (w : Word) : (s.fetched w).cycles = s.cycles := rfl
@[simp] theorem State.fetched_pc0 (s : State) (w : Word) : (s.fetched w).hid.pc0 = s.pc := rfl
@[simp] theorem State.fetched_ir (s : State) (w : Word) : (s.fetched w).hid.ir = w := rfl
@[simp] theorem State.fetched_inGroup0 (s : State) (w : Word) :
    (s.fetched w).inGroup0 = (s.inGroup0 && decide (s.pc ≠ s.group0Handler)) := rfl
@[simp] theorem State.fetched_group0Handler (s : State) (w : Word) : (s.fetched w).group0Handler = s.group0Handler := rfl
@[simp] theorem State.fetched_irq (s : State) (w : Word) : (s.fetched w).irq = s.irq := rfl
@[simp] theorem State.fetched_mem (s : State) (w : Word) : (s.fetched w).mem = s.mem := rfl
@[simp] theorem State.fetched_ym (s : State) (w : Word) : (s.fetched w).ym = s.ym := rfl
@[simp] theorem State.fetched_paula (s : State) (w : Word) : (s.fetched w).paula = s.paula := rfl
@[simp] theorem State.fetched_out (s : State) (w : Word) : (s.fetched w).out = s.out := rfl
@[simp] theorem State.fetched_draws (s : State) (w : Word) : (s.fetched w).draws = s.draws := rfl

@[simp] theorem State.lookAtIrq_cfg (s : State) : s.lookAtIrq.cfg = s.cfg := rfl
@[simp] theorem State.lookAtIrq_regs (s : State) : s.lookAtIrq.regs = s.regs := rfl
@[simp] theorem State.lookAtIrq_pc (s : State) : s.lookAtIrq.pc = s.pc := rfl
@[simp] theorem State.lookAtIrq_run (s : State) : s.lookAtIrq.run = s.run := rfl
@[simp] theorem State.lookAtIrq_cycles (s : State) : s.lookAtIrq.cycles = s.cycles := rfl
@[simp] theorem State.lookAtIrq_hid (s : State) : s.lookAtIrq.hid = s.hid := rfl
@[simp] theorem State.lookAtIrq_inGroup0 (s : State) : s.lookAtIrq.inGroup0 = s.inGroup0 := rfl
@[simp] theorem State.lookAtIrq_group0Handler (s : State) : s.lookAtIrq.group0Handler = s.group0Handler := rfl
@[simp] theorem State.lookAtIrq_mem (s : State) : s.lookAtIrq.mem = s.mem := rfl
@[simp] theorem State.lookAtIrq_ym (s : State) : s.lookAtIrq.ym = s.ym := rfl
@[simp] theorem State.lookAtIrq_paula (s : State) : s.lookAtIrq.paula = s.paula := rfl
@[simp] theorem State.lookAtIrq_out (s : State) : s.lookAtIrq.out = s.out := rfl
@[simp] theorem State.lookAtIrq_draws (s : State) : s.lookAtIrq.draws = s.draws := rfl

/-! ## The register file -/

@[simp] theorem RegFile.setD_a (r : RegFile) (n : Reg) (v : Long) : (r.setD n v).a = r.a := rfl
@[simp] theorem RegFile.setD_usp (r : RegFile) (n : Reg) (v : Long) : (r.setD n v).usp = r.usp := rfl
@[simp] theorem RegFile.setD_ssp (r : RegFile) (n : Reg) (v : Long) : (r.setD n v).ssp = r.ssp := rfl
@[simp] theorem RegFile.setD_sr (r : RegFile) (n : Reg) (v : Long) : (r.setD n v).sr = r.sr := rfl
@[simp] theorem RegFile.setD_sp (r : RegFile) (n : Reg) (v : Long) : (r.setD n v).sp = r.sp := rfl
@[simp] theorem RegFile.getA_setD (r : RegFile) (n m : Reg) (v : Long) : (r.setD n v).getA m = r.getA m := rfl

@[simp] theorem RegFile.setSp_d (r : RegFile) (v : Long) : (r.setSp v).d = r.d := by
  unfold RegFile.setSp; split <;> rfl

@[simp] theorem RegFile.setSp_a (r : RegFile) (v : Long) : (r.setSp v).a = r.a := by
  unfold RegFile.setSp; split <;> rfl

@[simp] theorem RegFile.setSp_sr (r : RegFile) (v : Long) : (r.setSp v).sr = r.sr := by
  unfold RegFile.setSp; split <;> rfl

@[simp] theorem RegFile.setSp_sp (r : RegFile) (v : Long) : (r.setSp v).sp = v := by
  unfold RegFile.setSp RegFile.sp; split <;> simp_all

@[simp] theorem RegFile.setA_d (r : RegFile) (n : Reg) (v : Long) : (r.setA n v).d = r.d := by
  unfold RegFile.setA; split
  · rfl
  · exact r.setSp_d v

@[simp] theorem RegFile.setA_sr (r : RegFile) (n : Reg) (v : Long) : (r.setA n v).sr = r.sr := by
  unfold RegFile.setA; split
  · rfl
  · exact r.setSp_sr v

@[simp] theorem RegFile.getD_setA (r : RegFile) (n m : Reg) (v : Long) : (r.setA n v).getD m = r.getD m := by
  simp [RegFile.getD]

@[simp] theorem RegFile.getD_setD_same (r : RegFile) (n : Reg) (v : Long) : (r.setD n v).getD n = v := by
  simp [RegFile.getD, RegFile.setD]

theorem RegFile.getD_setD_ne (r : RegFile) {n m : Reg} (v : Long) (h : n ≠ m) : (r.setD n v).getD m = r.getD m := by
  have : n.val ≠ m.val := fun e => h (Fin.ext e)
  simp [RegFile.getD, RegFile.setD, this]

@[simp] theorem RegFile.getA_setA_same (r : RegFile) (n : Reg) (v : Long) : (r.setA n v).getA n = v := by
  unfold RegFile.getA RegFile.setA
  by_cases h : n.val < 7
  · simp [h]
  · simp [h]

theorem RegFile.getA_setA_ne (r : RegFile) {n m : Reg} (v : Long) (h : n ≠ m) : (r.setA n v).getA m = r.getA m := by
  have hne : n.val ≠ m.val := fun e => h (Fin.ext e)
  unfold RegFile.getA RegFile.setA
  by_cases hn : n.val < 7
  · by_cases hm : m.val < 7
    · simp [hn, hm, hne]
    · simp [hn, hm, RegFile.sp]
  · have hm : m.val < 7 := by omega
    simp [hn, hm]

/-- Writing an address register leaves the stack pointer of the other mode alone (rule R34). -/
theorem RegFile.setA_otherSp (r : RegFile) (n : Reg) (v : Long) :
    (r.setA n v).usp = (if n.val = 7 ∧ r.sr.s = false then v else r.usp) ∧
    (r.setA n v).ssp = (if n.val = 7 ∧ r.sr.s = true then v else r.ssp) := by
  unfold RegFile.setA RegFile.setSp
  by_cases hn : n.val < 7
  · have : n.val ≠ 7 := by omega
    simp [hn, this]
  · have : n.val = 7 := by omega
    by_cases hs : r.sr.s <;> simp [this, hs]

/-- A second write to an address register hides the first. -/
@[simp] theorem RegFile.setA_setA (r : RegFile) (n : Reg) (u v : Long) : (r.setA n u).setA n v = r.setA n v := by
  unfold RegFile.setA
  by_cases h : n.val < 7
  · simp [h]
  · simp only [h, dite_false]
    unfold RegFile.setSp
    by_cases hs : r.sr.s <;> simp [hs]

/-- A second write to a data register hides the first. -/
@[simp] theorem RegFile.setD_setD (r : RegFile) (n : Reg) (u v : Long) : (r.setD n u).setD n v = r.setD n v := by
  simp [RegFile.setD]

/-- A long written to a data register replaces all of it (rules R12, R31). -/
@[simp] theorem mergeLow_long (old v : Long) : mergeLow old v = v := by simp [mergeLow]

@[simp] theorem RegFile.withSr_self (r : RegFile) : r.withSr r.sr = r := rfl

@[simp] theorem RegFile.withSr_d (r : RegFile) (f : Sr) : (r.withSr f).d = r.d := rfl
@[simp] theorem RegFile.withSr_a (r : RegFile) (f : Sr) : (r.withSr f).a = r.a := rfl
@[simp] theorem RegFile.withSr_usp (r : RegFile) (f : Sr) : (r.withSr f).usp = r.usp := rfl
@[simp] theorem RegFile.withSr_ssp (r : RegFile) (f : Sr) : (r.withSr f).ssp = r.ssp := rfl
@[simp] theorem RegFile.withSr_sr (r : RegFile) (f : Sr) : (r.withSr f).sr = f := rfl
@[simp] theorem RegFile.getD_withSr (r : RegFile) (f : Sr) (n : Reg) : (r.withSr f).getD n = r.getD n := rfl

@[simp] theorem RegFile.bump_d (r : RegFile) (ea : Ea) (sz : Size) : (r.bump ea sz).d = r.d := by
  cases ea <;> simp [RegFile.bump]

@[simp] theorem RegFile.bump_sr (r : RegFile) (ea : Ea) (sz : Size) : (r.bump ea sz).sr = r.sr := by
  cases ea <;> simp [RegFile.bump]

@[simp] theorem RegFile.getD_bump (r : RegFile) (ea : Ea) (sz : Size) (n : Reg) :
    (r.bump ea sz).getD n = r.getD n := by
  cases ea <;> simp [RegFile.bump]

@[simp] theorem Loc.putRegs_sr (loc : Loc) (sz : Size) (v : BitVec sz.bits) (r : RegFile) :
    (loc.putRegs sz v r).sr = r.sr := by
  cases loc <;> simp [Loc.putRegs]

/-! ## The status register -/

@[simp] theorem Sr.setCcr_system (f : Sr) (b : Byte) : (f.setCcr b).system = f.system := rfl
@[simp] theorem Sr.setCcr_s (f : Sr) (b : Byte) : (f.setCcr b).s = f.s := rfl
@[simp] theorem Sr.nz_system {n : Nat} (f : Sr) (r : BitVec n) : (f.nz r).system = f.system := rfl
@[simp] theorem Sr.addFlags_system {n : Nat} (f : Sr) (s d r : BitVec n) : (f.addFlags s d r).system = f.system := rfl
@[simp] theorem Sr.subFlags_system {n : Nat} (f : Sr) (s d r : BitVec n) : (f.subFlags s d r).system = f.system := rfl
@[simp] theorem Sr.cmpFlags_system {n : Nat} (f : Sr) (s d r : BitVec n) : (f.cmpFlags s d r).system = f.system := rfl
@[simp] theorem Sr.cmpFlags_x {n : Nat} (f : Sr) (s d r : BitVec n) : (f.cmpFlags s d r).x = f.x := rfl
@[simp] theorem Sr.logicFlags_system {n : Nat} (f : Sr) (r : BitVec n) : (f.logicFlags r).system = f.system := rfl
@[simp] theorem Sr.logicFlags_x {n : Nat} (f : Sr) (r : BitVec n) : (f.logicFlags r).x = f.x := rfl
@[simp] theorem Sr.addxFlags_system {n : Nat} (f : Sr) (s d r : BitVec n) : (f.addxFlags s d r).system = f.system := rfl
@[simp] theorem Sr.subxFlags_system {n : Nat} (f : Sr) (s d r : BitVec n) : (f.subxFlags s d r).system = f.system := rfl
@[simp] theorem Sr.shiftFlags_system {n : Nat} (f : Sr) (k : ShiftKind) (c : Nat) (acc : ShiftAcc n) :
    (f.shiftFlags k c acc).system = f.system := rfl
@[simp] theorem Sr.bcdFlags_system (f : Sr) (r : Byte) (c n v : Bool) : (f.bcdFlags r c n v).system = f.system := rfl
@[simp] theorem Sr.onEntry_s (f : Sr) (e : Event) (k : Bool) : (f.onEntry e k).s = true := rfl

end Sys2Proof.Machine
end

