-- ==== Sys2Proof/Laws/Exec.lean ====
section
/-! SUPPORT. Laws/Exec.lean: taking the pseudocode of a rule apart, and what its measuring leaves unchanged. -/

namespace Sys2Proof.Machine

open Sys2Proof.Config

variable {α β : Type}

/-! ## Sequencing -/

theorem Exec.bind_apply (x : Exec α) (f : α → Exec β) (s : State) :
    (x >>= f) s = match x s with
      | .ok a t => f a t
      | .error e t => .error e t := by
  show EStateM.bind x f s = _
  unfold EStateM.bind
  cases x s <;> rfl

@[simp] theorem Exec.pure_apply (a : α) (s : State) : (pure a : Exec α) s = .ok a s := rfl

@[simp] theorem reading_apply (f : State → α) (s : State) : reading f s = .ok (f s) s := rfl

@[simp] theorem updating_apply (f : State → State) (s : State) : updating f s = .ok () (f s) := rfl

@[simp] theorem raise_apply (e : Event) (s : State) : (raise e : Exec α) s = .error e s := rfl

@[simp] theorem drawBit_apply (s : State) :
    drawBit s = .ok (freeBit s.draws) { s with draws := s.draws + 1 } := rfl

theorem Exec.bind_of_ok {x : Exec α} {f : α → Exec β} {s t : State} {a : α} (h : x s = .ok a t) :
    (x >>= f) s = f a t := by rw [Exec.bind_apply, h]

theorem Exec.bind_of_error {x : Exec α} {f : α → Exec β} {s t : State} {e : Event} (h : x s = .error e t) :
    (x >>= f) s = .error e t := by rw [Exec.bind_apply, h]

/-- A sequence answers when its first part answers and its second part answers from there. -/
theorem Exec.bind_eq_ok {x : Exec α} {f : α → Exec β} {s u : State} {b : β} :
    (x >>= f) s = .ok b u ↔ ∃ a t, x s = .ok a t ∧ f a t = .ok b u := by
  rw [Exec.bind_apply]
  cases h : x s with
  | ok a t => simp
  | error e t => simp

/-- A sequence raises when its first part raises, or answers and its second part raises from there. -/
theorem Exec.bind_eq_error {x : Exec α} {f : α → Exec β} {s u : State} {e : Event} :
    (x >>= f) s = .error e u ↔ x s = .error e u ∨ ∃ a t, x s = .ok a t ∧ f a t = .error e u := by
  rw [Exec.bind_apply]
  cases h : x s with
  | ok a t => simp
  | error e t => simp

@[simp] theorem reading_bind (f : State → α) (g : α → Exec β) (s : State) : (reading f >>= g) s = g (f s) s := rfl

@[simp] theorem updating_bind (f : State → State) (g : Unit → Exec β) (s : State) :
    (updating f >>= g) s = g () (f s) := rfl

@[simp] theorem readD_apply (n : Reg) (sz : Size) (s : State) :
    readD n sz s = .ok ((s.regs.getD n).setWidth sz.bits) s := rfl

@[simp] theorem readD_bind (n : Reg) (sz : Size) (g : BitVec sz.bits → Exec β) (s : State) :
    (readD n sz >>= g) s = g ((s.regs.getD n).setWidth sz.bits) s := rfl

@[simp] theorem writeD_apply (n : Reg) (sz : Size) (v : BitVec sz.bits) (s : State) :
    writeD n sz v s = .ok () { s with regs := s.regs.setD n (mergeLow (s.regs.getD n) v) } := rfl

@[simp] theorem writeD_bind (n : Reg) (sz : Size) (v : BitVec sz.bits) (g : Unit → Exec β) (s : State) :
    (writeD n sz v >>= g) s = g () { s with regs := s.regs.setD n (mergeLow (s.regs.getD n) v) } := rfl

@[simp] theorem readA_apply (n : Reg) (s : State) : readA n s = .ok (s.regs.getA n) s := rfl

@[simp] theorem readA_bind (n : Reg) (g : Long → Exec β) (s : State) : (readA n >>= g) s = g (s.regs.getA n) s := rfl

@[simp] theorem writeA_apply (n : Reg) (v : Long) (s : State) :
    writeA n v s = .ok () { s with regs := s.regs.setA n v } := rfl

@[simp] theorem writeA_bind (n : Reg) (v : Long) (g : Unit → Exec β) (s : State) :
    (writeA n v >>= g) s = g () { s with regs := s.regs.setA n v } := rfl

@[simp] theorem readSr_apply (s : State) : readSr s = .ok s.regs.sr s := rfl

@[simp] theorem readSr_bind (g : Sr → Exec β) (s : State) : (readSr >>= g) s = g s.regs.sr s := rfl

@[simp] theorem updateSr_apply (f : Sr → Sr) (s : State) :
    updateSr f s = .ok () { s with regs := { s.regs with sr := f s.regs.sr } } := rfl

@[simp] theorem updateSr_bind (f : Sr → Sr) (g : Unit → Exec β) (s : State) :
    (updateSr f >>= g) s = g () { s with regs := { s.regs with sr := f s.regs.sr } } := rfl

@[simp] theorem writeSrWord_apply (w : Word) (s : State) :
    writeSrWord w s = .ok () { s with regs := { s.regs with sr := Sr.ofWord s.cfg.srT0Stored w } } := rfl

@[simp] theorem writeSrWord_bind (w : Word) (g : Unit → Exec β) (s : State) :
    (writeSrWord w >>= g) s = g () { s with regs := { s.regs with sr := Sr.ofWord s.cfg.srT0Stored w } } := rfl

@[simp] theorem writeCcr_apply (b : Byte) (s : State) :
    writeCcr b s = .ok () { s with regs := { s.regs with sr := s.regs.sr.setCcr b } } := rfl

@[simp] theorem writeCcr_bind (b : Byte) (g : Unit → Exec β) (s : State) :
    (writeCcr b >>= g) s = g () { s with regs := { s.regs with sr := s.regs.sr.setCcr b } } := rfl

@[simp] theorem jumpTo_apply (a : Long) (s : State) : jumpTo a s = .ok () { s with pc := a } := rfl

@[simp] theorem jumpTo_bind (a : Long) (g : Unit → Exec β) (s : State) :
    (jumpTo a >>= g) s = g () { s with pc := a } := rfl

@[simp] theorem drawBit_bind (g : Bool → Exec β) (s : State) :
    (drawBit >>= g) s = g (freeBit s.draws) { s with draws := s.draws + 1 } := rfl

@[simp] theorem branchTarget_apply (d : Long) (s : State) : branchTarget d s = .ok (s.hid.pc0 + 2 + d) s := rfl

@[simp] theorem branchTarget_bind (d : Long) (g : Long → Exec β) (s : State) :
    (branchTarget d >>= g) s = g (s.hid.pc0 + 2 + d) s := rfl

@[simp] theorem requireSupervisor_bind_of_supervisor {g : Unit → Exec β} {s : State} (h : s.regs.sr.s = true) :
    (requireSupervisor >>= g) s = g () s := by simp [Exec.bind_apply, requireSupervisor, h]

@[simp] theorem requireSupervisor_bind_of_user {g : Unit → Exec β} {s : State} (h : s.regs.sr.s = false) :
    (requireSupervisor >>= g) s = .error .privilegeViolation s := by
  simp [Exec.bind_apply, requireSupervisor, h]

/-! ## Running a rule -/

/-- A rule that completes: the next state is what it leaves, with its cycles charged (rule R585). -/
theorem complete_of_ok {body : Exec Unit} {s t : State} (h : body s.start = .ok () t) :
    complete body s = .next t.charge := by simp [complete, runRule, h]

/-- A rule that raises: the next state is the one its event leads to (rule R585). -/
theorem complete_of_error {body : Exec Unit} {s t : State} {e : Event} (h : body s.start = .error e t) :
    complete body s = .next (t.afterEvent s.start e) := by simp [complete, runRule, h]

/-! ## Measures -/

/-- `t` differs from `s` at most in pc and in what is measured of the instruction in hand (rules R37, R51, R102, R770). -/
def Measured (s t : State) : Prop :=
  ∃ pc ext ops dev, t = { s with pc := pc, hid := { s.hid with ext := ext, operands := ops, devSeq := dev } }

theorem Measured.refl (s : State) : Measured s s := ⟨s.pc, s.hid.ext, s.hid.operands, s.hid.devSeq, rfl⟩

theorem Measured.trans {s t u : State} (h : Measured s t) (k : Measured t u) : Measured s u := by
  obtain ⟨_, _, _, _, rfl⟩ := h
  obtain ⟨pc, ext, ops, dev, rfl⟩ := k
  exact ⟨pc, ext, ops, dev, rfl⟩

theorem Measured.cfg {s t : State} (h : Measured s t) : t.cfg = s.cfg := by obtain ⟨_, _, _, _, rfl⟩ := h; rfl
theorem Measured.regs {s t : State} (h : Measured s t) : t.regs = s.regs := by obtain ⟨_, _, _, _, rfl⟩ := h; rfl
theorem Measured.run {s t : State} (h : Measured s t) : t.run = s.run := by obtain ⟨_, _, _, _, rfl⟩ := h; rfl
theorem Measured.cycles {s t : State} (h : Measured s t) : t.cycles = s.cycles := by obtain ⟨_, _, _, _, rfl⟩ := h; rfl
theorem Measured.inGroup0 {s t : State} (h : Measured s t) : t.inGroup0 = s.inGroup0 := by
  obtain ⟨_, _, _, _, rfl⟩ := h; rfl
theorem Measured.group0Handler {s t : State} (h : Measured s t) : t.group0Handler = s.group0Handler := by
  obtain ⟨_, _, _, _, rfl⟩ := h; rfl
theorem Measured.irq {s t : State} (h : Measured s t) : t.irq = s.irq := by obtain ⟨_, _, _, _, rfl⟩ := h; rfl
theorem Measured.mem {s t : State} (h : Measured s t) : t.mem = s.mem := by obtain ⟨_, _, _, _, rfl⟩ := h; rfl
theorem Measured.ym {s t : State} (h : Measured s t) : t.ym = s.ym := by obtain ⟨_, _, _, _, rfl⟩ := h; rfl
theorem Measured.paula {s t : State} (h : Measured s t) : t.paula = s.paula := by obtain ⟨_, _, _, _, rfl⟩ := h; rfl
theorem Measured.out {s t : State} (h : Measured s t) : t.out = s.out := by obtain ⟨_, _, _, _, rfl⟩ := h; rfl
theorem Measured.draws {s t : State} (h : Measured s t) : t.draws = s.draws := by obtain ⟨_, _, _, _, rfl⟩ := h; rfl
theorem Measured.pc0 {s t : State} (h : Measured s t) : t.hid.pc0 = s.hid.pc0 := by
  obtain ⟨_, _, _, _, rfl⟩ := h; rfl
theorem Measured.ir {s t : State} (h : Measured s t) : t.hid.ir = s.hid.ir := by obtain ⟨_, _, _, _, rfl⟩ := h; rfl
theorem Measured.tracePending {s t : State} (h : Measured s t) : t.hid.tracePending = s.hid.tracePending := by
  obtain ⟨_, _, _, _, rfl⟩ := h; rfl
theorem Measured.snapshot {s t : State} (h : Measured s t) : t.hid.snapshot = s.hid.snapshot := by
  obtain ⟨_, _, _, _, rfl⟩ := h; rfl

/-- An update of the registers before measuring is one after it. -/
theorem Measured.withRegs {s t : State} (h : Measured s t) (r : RegFile) :
    Measured { s with regs := r } { t with regs := r } := by
  obtain ⟨pc, ext, ops, dev, rfl⟩ := h
  exact ⟨pc, ext, ops, dev, rfl⟩

theorem State.measured_start (s : State) :
    ∃ snap ext ops dev, s.start =
      { s with hid := { s.hid with snapshot := snap, ext := ext, operands := ops, devSeq := dev } } :=
  ⟨s.regs, [], [], 0, rfl⟩

end Sys2Proof.Machine
end

