-- ==== Sys2Proof/Laws/Access.lean ====
section
/-! SUPPORT. Laws/Access.lean: what a data access, a fetch, an addressing mode and a location can do, each said once. -/

namespace Sys2Proof.Machine

open Sys2Proof.Config

/-! ## Accesses depend on parameters, memory and engines only -/

theorem State.extAddr_congr {s t : State} (h : t.cfg = s.cfg) (a : Long) : t.extAddr a = s.extAddr a := by
  simp [State.extAddr, h]

theorem State.target_congr {s t : State} (h : t.cfg = s.cfg) (e : Nat) : t.target e = s.target e := by
  simp [State.target, h]

theorem State.isDevice_congr {s t : State} (h : t.cfg = s.cfg) (a : Long) : t.isDevice a = s.isDevice a := by
  simp [State.isDevice, State.extAddr, h]

theorem State.canAccess_congr {s t : State} (h : t.cfg = s.cfg) (sz : Size) (a : Long) :
    t.canAccess sz a = s.canAccess sz a := by
  cases sz <;> simp [State.canAccess, State.target_congr h, State.extAddr_congr h]

theorem State.cellsOf_congr {s t : State} (h : t.cfg = s.cfg) (sz : Size) (a : Long) :
    t.cellsOf sz a = s.cellsOf sz a := by
  cases sz <;> simp [State.cellsOf, State.wordCells, State.target_congr h, State.extAddr_congr h]

theorem State.inRam_congr {s t : State} (h : t.cfg = s.cfg) (sz : Size) (a : Long) : t.inRam sz a = s.inRam sz a := by
  simp [State.inRam, State.isDevice_congr h]

theorem State.busByte_congr {s t : State} (h : t.cfg = s.cfg) (hm : t.mem = s.mem) (hy : t.ym = s.ym)
    (hp : t.paula = s.paula) (a : Long) : t.busByte a = s.busByte a := by
  simp [State.busByte, State.target_congr h, State.extAddr_congr h, hm, hy, hp, h]

theorem State.busWord_congr {s t : State} (h : t.cfg = s.cfg) (hm : t.mem = s.mem) (hy : t.ym = s.ym)
    (hp : t.paula = s.paula) (a : Long) : t.busWord a = s.busWord a := by
  simp [State.busWord, State.target_congr h, State.extAddr_congr h, hm, hy, hp, h]

theorem State.memValue_congr {s t : State} (h : t.cfg = s.cfg) (hm : t.mem = s.mem) (hy : t.ym = s.ym)
    (hp : t.paula = s.paula) (sz : Size) (a : Long) : t.memValue sz a = s.memValue sz a := by
  cases sz <;> simp [State.memValue, State.busByte_congr h hm hy hp, State.busWord_congr h hm hy hp]

theorem Measured.canAccess {s t : State} (h : Measured s t) (sz : Size) (a : Long) :
    t.canAccess sz a = s.canAccess sz a := State.canAccess_congr h.cfg sz a

theorem Measured.memValue {s t : State} (h : Measured s t) (sz : Size) (a : Long) :
    t.memValue sz a = s.memValue sz a := State.memValue_congr h.cfg h.mem h.ym h.paula sz a

theorem Measured.value {s t : State} (h : Measured s t) (loc : Loc) (sz : Size) : loc.value t sz = loc.value s sz := by
  cases loc <;> simp [Loc.value, h.regs, h.memValue]

theorem Loc.accessible_congr {s t : State} (h : t.cfg = s.cfg) (loc : Loc) (sz : Size) :
    loc.accessible t sz = loc.accessible s sz := by
  cases loc <;> simp [Loc.accessible, State.canAccess_congr h]

/-! ## One bus access -/

theorem State.target_ram_of_windows {s : State} {e : Nat} (hy : (s.cfg.hw.hasYm && inYmWindow e) = false)
    (hp : (s.cfg.hw.hasPaula && inPaulaWindow e) = false) (ht : s.target e ≠ .unmapped) : ∃ x, s.target e = .ram x := by
  revert ht
  unfold State.target
  rw [hy, hp, if_neg Bool.false_ne_true, if_neg Bool.false_ne_true]
  intro ht
  by_cases h1 : e < s.cfg.memSize
  · exact ⟨_, if_pos h1⟩
  · rw [if_neg h1] at ht ⊢
    by_cases h2 : s.cfg.unmapped = .mirror
    · exact ⟨_, if_pos h2⟩
    · rw [if_neg h2] at ht
      exact absurd rfl ht

/-- Where no device answers, an answer comes from RAM (rule R91). -/
theorem State.target_ram {s : State} {a : Long} (hd : s.isDevice a = false)
    (ht : s.target (s.extAddr a) ≠ .unmapped) : ∃ e, s.target (s.extAddr a) = .ram e := by
  unfold State.isDevice at hd
  have hd' := Bool.or_eq_false_iff.1 hd
  exact State.target_ram_of_windows hd'.1 hd'.2 ht

theorem State.busByte_isSome {s : State} {a : Long} (h : s.target (s.extAddr a) ≠ .unmapped) :
    s.busByte a = some ((s.busByte a).getD 0) := by
  unfold State.busByte
  split <;> simp_all

theorem State.busWord_isSome {s : State} {a : Long} (h : s.target (s.extAddr a) ≠ .unmapped) :
    s.busWord a = some ((s.busWord a).getD 0) := by
  unfold State.busWord
  split <;> simp_all

theorem State.busByte_none {s : State} {a : Long} (h : s.target (s.extAddr a) = .unmapped) : s.busByte a = none := by
  simp [State.busByte, h]

theorem State.busWord_none {s : State} {a : Long} (h : s.target (s.extAddr a) = .unmapped) : s.busWord a = none := by
  simp [State.busWord, h]

theorem State.busByte_ram {s : State} {a : Long} {e : Nat} (h : s.target (s.extAddr a) = .ram e) :
    s.busByte a = some (Memory.read s.mem e) := by
  simp [State.busByte, h]

theorem State.busWord_ram {s : State} {a : Long} {e : Nat} (h : s.target (s.extAddr a) = .ram e) :
    s.busWord a = some (Memory.read s.mem e ++ Memory.read s.mem (e + 1)) := by
  simp [State.busWord, h]

theorem readByteAt_ok {k : AccessKind} {a : Long} {s : State} (h : s.canAccess .b a = true) :
    readByteAt k a s = .ok (s.memValue .b a) s := by
  have h' : s.target (s.extAddr a) ≠ .unmapped := by simpa [State.canAccess] using h
  rw [readByteAt, State.busByte_isSome h']
  simp [State.memValue]

theorem readWordAt_ok {k : AccessKind} {a : Long} {s : State} (h : s.canAccess .w a = true) :
    readWordAt k a s = .ok (s.memValue .w a) s := by
  simp only [State.canAccess, Bool.and_eq_true, Bool.not_eq_true', decide_eq_true_eq] at h
  rw [readWordAt, State.busWord_isSome h.2]
  simp [h.1, State.memValue]

/-- A word access that does not complete raises an address error at an odd address and else a bus error (rules R84, R86,
R90), and changes nothing. -/
theorem readWordAt_error {k : AccessKind} {a : Long} {s : State} (h : s.canAccess .w a = false) :
    readWordAt k a s =
      .error (if isOdd a then .addressError (s.faultRec k a true) else .busError (s.faultRec k a true)) s := by
  unfold readWordAt
  by_cases hodd : isOdd a = true
  · simp [hodd]
  · have : s.target (s.extAddr a) = .unmapped := by
      by_contra hc
      simp [State.canAccess, hodd, hc] at h
    simp [hodd, State.busWord_none this]

theorem readByteAt_error {k : AccessKind} {a : Long} {s : State} (h : s.canAccess .b a = false) :
    readByteAt k a s = .error (.busError (s.faultRec k a true)) s := by
  have : s.target (s.extAddr a) = .unmapped := by simpa [State.canAccess] using h
  simp [readByteAt, State.busByte_none this]

theorem isOdd_eq (a : Long) : isOdd a = decide (a.toNat % 2 = 1) := by
  simp only [isOdd, BitVec.getLsbD, Nat.testBit_zero]

theorem isOdd_add_two (a : Long) : isOdd (a + 2) = isOdd a := by
  have h : (2 : Long).toNat = 2 := rfl
  rw [isOdd_eq, isOdd_eq, BitVec.toNat_add, h]
  congr 1
  apply propext
  omega

theorem State.canAccess_long (s : State) (a : Long) :
    s.canAccess .l a = (s.canAccess .w a && s.canAccess .w (a + 2)) := by
  simp only [State.canAccess, isOdd_add_two]
  cases isOdd a <;> simp

theorem readLongAt_ok {k : AccessKind} {a : Long} {s : State} (h : s.canAccess .l a = true) :
    readLongAt k a s = .ok (s.memValue .l a) s := by
  rw [State.canAccess_long, Bool.and_eq_true] at h
  rw [readLongAt, Exec.bind_of_ok (readWordAt_ok h.1), Exec.bind_of_ok (readWordAt_ok h.2)]
  rfl

/-- A long read that does not complete raises the fault of the first word that does not (rule R89), and changes nothing. -/
theorem readLongAt_error {k : AccessKind} {a : Long} {s : State} (h : s.canAccess .l a = false) :
    ∃ e f, readLongAt k a s = .error e s ∧ e.faultRec = some f ∧ f.read = true ∧ f.fc = s.functionCode k ∧
      f.addr = (if s.canAccess .w a then a + 2 else a) := by
  rw [State.canAccess_long] at h
  by_cases h1 : s.canAccess .w a = true
  · have h2 : s.canAccess .w (a + 2) = false := by simpa [h1] using h
    rw [readLongAt, Exec.bind_of_ok (readWordAt_ok h1), Exec.bind_of_error (readWordAt_error h2)]
    by_cases hodd : isOdd (a + 2) = true <;>
      simp only [hodd, if_true, if_false, Bool.false_eq_true] <;> exact ⟨_, _, rfl, rfl, rfl, rfl, by simp [h1, State.faultRec]⟩
  · have h1 : s.canAccess .w a = false := by simpa using h1
    rw [readLongAt, Exec.bind_of_error (readWordAt_error h1)]
    by_cases hodd : isOdd a = true <;>
      simp only [hodd, if_true, if_false, Bool.false_eq_true] <;> exact ⟨_, _, rfl, rfl, rfl, rfl, by simp [h1, State.faultRec]⟩

/-! ## Data reads -/

/-- A data read that completes answers the value there and only notes it (rules R86, R770). -/
theorem readMem_ok {sz : Size} {a : Long} {s : State} (h : s.canAccess sz a = true) :
    readMem sz a s = .ok (s.memValue sz a)
      { s with hid := { s.hid with operands := s.hid.operands ++ [(s.memValue sz a).setWidth 32] } } := by
  cases sz with
  | b => simp only [readMem]; rw [Exec.bind_of_ok (readByteAt_ok h)]; rfl
  | w => simp only [readMem]; rw [Exec.bind_of_ok (readWordAt_ok h)]; rfl
  | l =>
    simp only [readMem]; rw [Exec.bind_of_ok (readLongAt_ok h)]
    simp [noteOperand, Exec.bind_apply]

/-- A data read that does not complete raises a group-0 event with the record of a read, and changes nothing. -/
theorem readMem_error {sz : Size} {a : Long} {s : State} (h : s.canAccess sz a = false) :
    ∃ e f, readMem sz a s = .error e s ∧ e.faultRec = some f ∧ f.read = true ∧ f.fc = s.functionCode .data := by
  cases sz with
  | b => simp only [readMem]; rw [Exec.bind_of_error (readByteAt_error h)]; exact ⟨_, _, rfl, rfl, rfl, rfl⟩
  | w =>
    simp only [readMem]; rw [Exec.bind_of_error (readWordAt_error h)]
    by_cases hodd : isOdd a = true <;>
      simp only [hodd, if_true, if_false, Bool.false_eq_true] <;> exact ⟨_, _, rfl, rfl, rfl, rfl⟩
  | l =>
    obtain ⟨e, f, he, hf, hr, hc, _⟩ := readLongAt_error (k := .data) h
    simp only [readMem]; rw [Exec.bind_of_error he]; exact ⟨e, f, rfl, hf, hr, hc⟩

/-- Everything a data read can do when it answers. -/
theorem readMem_eq_ok {sz : Size} {a : Long} {s t : State} {v : BitVec sz.bits} (h : readMem sz a s = .ok v t) :
    s.canAccess sz a = true ∧ v = s.memValue sz a ∧ Measured s t := by
  by_cases hc : s.canAccess sz a = true
  · rw [readMem_ok hc] at h
    cases h
    exact ⟨hc, rfl, s.pc, s.hid.ext, _, s.hid.devSeq, rfl⟩
  · obtain ⟨e, f, he, _⟩ := readMem_error (by simpa using hc : s.canAccess sz a = false)
    rw [he] at h; cases h

/-! ## Data writes -/

theorem State.storeByte_some {s : State} {a : Long} (h : s.target (s.extAddr a) ≠ .unmapped) (v : Byte) (ts : Nat) :
    ∃ m y p, s.storeByte a v ts = some { s with mem := m, ym := y, paula := p } := by
  unfold State.storeByte
  split
  · exact ⟨_, _, _, rfl⟩
  · exact ⟨_, _, _, rfl⟩
  · exact ⟨_, _, _, rfl⟩
  · simp_all

theorem State.storeWord_some {s : State} {a : Long} (h : s.target (s.extAddr a) ≠ .unmapped) (v : Word) (ts : Nat) :
    ∃ m y p, s.storeWord a v ts = some { s with mem := m, ym := y, paula := p } := by
  unfold State.storeWord
  split
  · exact ⟨_, _, _, rfl⟩
  · exact ⟨_, _, _, rfl⟩
  · exact ⟨_, _, _, rfl⟩
  · simp_all

theorem State.storeByte_stores {s t : State} {a : Long} {v : Byte} {ts : Nat} (h : s.storeByte a v ts = some t) :
    StoresAt s t .b a v := by
  unfold State.storeByte at h
  split at h
  · rename_i e he
    cases h
    refine ⟨fun b hb => ?_, fun _ _ => ?_, fun _ => rfl, fun _ => rfl⟩
    · simp only [State.cellsOf, he, List.mem_singleton] at hb
      exact Memory.read_write_ne _ _ (fun h => hb h.symm)
    · have hr := congrArg some (Memory.read_write_same s.mem e v)
      simp only [State.memValue, State.busByte_ram (s := { s with mem := Memory.write s.mem e v }) he]
      simp
  · rename_i e he
    cases h
    have hd : s.inRam .b a = true → False := fun hr => by
      simp only [State.inRam, Bool.and_eq_true, Bool.not_eq_true'] at hr
      obtain ⟨x, hx⟩ := State.target_ram hr.1 (by rw [he]; simp)
      rw [he] at hx; cases hx
    exact ⟨fun _ _ => rfl, fun hr _ => (hd hr).elim, fun hr => (hd hr).elim, fun hr => (hd hr).elim⟩
  · rename_i e he
    cases h
    have hd : s.inRam .b a = true → False := fun hr => by
      simp only [State.inRam, Bool.and_eq_true, Bool.not_eq_true'] at hr
      obtain ⟨x, hx⟩ := State.target_ram hr.1 (by rw [he]; simp)
      rw [he] at hx; cases hx
    exact ⟨fun _ _ => rfl, fun hr _ => (hd hr).elim, fun hr => (hd hr).elim, fun hr => (hd hr).elim⟩
  · cases h

theorem byte_append (v : Word) : v.extractLsb' 8 8 ++ v.extractLsb' 0 8 = v := by
  apply BitVec.eq_of_getLsbD_eq
  intro i hi
  simp only [BitVec.getLsbD_append, BitVec.getLsbD_extractLsb']
  split
  · simp [*]
  · have h1 : i - 8 < 8 := by omega
    have h2 : 8 + (i - 8) = i := by omega
    simp [h1, h2]

theorem word_append (v : Long) : v.extractLsb' 16 16 ++ v.extractLsb' 0 16 = v := by
  apply BitVec.eq_of_getLsbD_eq
  intro i hi
  simp only [BitVec.getLsbD_append, BitVec.getLsbD_extractLsb']
  split
  · simp [*]
  · have h1 : i - 16 < 16 := by omega
    have h2 : 16 + (i - 16) = i := by omega
    simp [h1, h2]

theorem State.storeWord_stores {s t : State} {a : Long} {v : Word} {ts : Nat} (h : s.storeWord a v ts = some t) :
    StoresAt s t .w a v := by
  unfold State.storeWord at h
  split at h
  · rename_i e he
    cases h
    refine ⟨fun b hb => ?_, fun _ _ => ?_, fun _ => rfl, fun _ => rfl⟩
    · simp only [State.cellsOf, State.wordCells, he, List.mem_cons, List.not_mem_nil, or_false, not_or] at hb
      rw [Memory.read_write_ne _ _ (fun h => hb.2 h.symm), Memory.read_write_ne _ _ (fun h => hb.1 h.symm)]
    · have : ¬ e + 1 = e := by omega
      simp only [State.memValue]
      rw [State.busWord_ram (s := { s with mem := Memory.write (Memory.write s.mem e (v.extractLsb' 8 8)) (e + 1) (v.extractLsb' 0 8) }) he]
      simp only [Memory.read_write, this, if_true, if_false, Option.getD_some]
      exact byte_append v
  · rename_i e he
    cases h
    have hd : s.inRam .w a = true → False := fun hr => by
      simp only [State.inRam, Bool.and_eq_true, Bool.not_eq_true'] at hr
      obtain ⟨x, hx⟩ := State.target_ram hr.1 (by rw [he]; simp)
      rw [he] at hx; cases hx
    exact ⟨fun _ _ => rfl, fun hr _ => (hd hr).elim, fun hr => (hd hr).elim, fun hr => (hd hr).elim⟩
  · rename_i e he
    cases h
    have hd : s.inRam .w a = true → False := fun hr => by
      simp only [State.inRam, Bool.and_eq_true, Bool.not_eq_true'] at hr
      obtain ⟨x, hx⟩ := State.target_ram hr.1 (by rw [he]; simp)
      rw [he] at hx; cases hx
    exact ⟨fun _ _ => rfl, fun hr _ => (hd hr).elim, fun hr => (hd hr).elim, fun hr => (hd hr).elim⟩
  · cases h

theorem writeByteAt_ok {k : AccessKind} {a : Long} {s : State} (h : s.canAccess .b a = true) (v : Byte) (ts : Nat) :
    ∃ m y p, writeByteAt k a v ts s = .ok () { s with mem := m, ym := y, paula := p } ∧
      StoresAt s { s with mem := m, ym := y, paula := p } .b a v := by
  have h' : s.target (s.extAddr a) ≠ .unmapped := by simpa [State.canAccess] using h
  obtain ⟨m, y, p, hs⟩ := State.storeByte_some h' v ts
  exact ⟨m, y, p, by simp [writeByteAt, hs], State.storeByte_stores hs⟩

theorem writeWordAt_ok {k : AccessKind} {a : Long} {s : State} (h : s.canAccess .w a = true) (v : Word) (ts : Nat) :
    ∃ m y p, writeWordAt k a v ts s = .ok () { s with mem := m, ym := y, paula := p } ∧
      StoresAt s { s with mem := m, ym := y, paula := p } .w a v := by
  simp only [State.canAccess, Bool.and_eq_true, Bool.not_eq_true', decide_eq_true_eq] at h
  obtain ⟨m, y, p, hs⟩ := State.storeWord_some h.2 v ts
  exact ⟨m, y, p, by simp [writeWordAt, hs, h.1], State.storeWord_stores hs⟩

/-- Two words stored one after the other are a long stored (rule R89). -/
theorem StoresAt.long {s t u : State} {a : Long} {v : Long} (hst : t.cfg = s.cfg) (htu : u.cfg = s.cfg)
    (h1 : StoresAt s t .w a (v.extractLsb' 16 16)) (h2 : StoresAt t u .w (a + 2) (v.extractLsb' 0 16))
    (hc : s.canAccess .l a = true) : StoresAt s u .l a v := by
  have hcell : t.cellsOf .w (a + 2) = s.wordCells (a + 2) := State.cellsOf_congr hst .w (a + 2)
  have hram : s.inRam .l a = true → s.inRam .w a = true ∧ t.inRam .w (a + 2) = true := by
    intro h
    rw [State.inRam_congr hst]
    simpa [State.inRam] using h
  refine ⟨fun e he => ?_, fun hr hn => ?_, fun hr => ?_, fun hr => ?_⟩
  · simp only [State.cellsOf, List.mem_append, not_or] at he
    rw [h2.frame e (by rw [hcell]; exact he.2)]
    exact h1.frame e he.1
  · obtain ⟨r1, r2⟩ := hram hr
    simp only [State.cellsOf] at hn
    have hn' := List.nodup_append.1 hn
    have v2 := h2.value r2 (by rw [hcell]; exact hn'.2.1)
    have v1 := h1.value r1 hn'.1
    simp only [State.inRam, Bool.and_eq_true, Bool.not_eq_true'] at r1
    rw [State.canAccess_long, Bool.and_eq_true] at hc
    have ha := hc.1
    simp only [State.canAccess, Bool.and_eq_true, Bool.not_eq_true', decide_eq_true_eq] at ha
    obtain ⟨e, he⟩ := State.target_ram r1.1 ha.2
    have et : t.target (t.extAddr a) = .ram e := by rw [State.target_congr hst, State.extAddr_congr hst, he]
    have eu : u.target (u.extAddr a) = .ram e := by rw [State.target_congr htu, State.extAddr_congr htu, he]
    have hw : s.wordCells a = [e, e + 1] := by simp [State.wordCells, he]
    have hd := hn'.2.2
    have f1 : Memory.read u.mem e = Memory.read t.mem e :=
      h2.frame e (by rw [hcell]; exact fun hm => hd e (by simp [hw]) e hm rfl)
    have f2 : Memory.read u.mem (e + 1) = Memory.read t.mem (e + 1) :=
      h2.frame (e + 1) (by rw [hcell]; exact fun hm => hd (e + 1) (by simp [hw]) (e + 1) hm rfl)
    have hb : u.busWord a = t.busWord a := by
      rw [State.busWord_ram et, State.busWord_ram eu, f1, f2]
    have v1' : (t.busWord a).getD 0 = v.extractLsb' 16 16 := v1
    have v2' : (u.busWord (a + 2)).getD 0 = v.extractLsb' 0 16 := v2
    show (u.busWord a).getD 0 ++ (u.busWord (a + 2)).getD 0 = v
    rw [hb, v1', v2']
    exact word_append v
  · rw [h2.ym (hram hr).2, h1.ym (hram hr).1]
  · rw [h2.paula (hram hr).2, h1.paula (hram hr).1]

theorem writeLongAt_ok {k : AccessKind} {a : Long} {s : State} (h : s.canAccess .l a = true) (v : Long) (ts : Nat) :
    ∃ m y p, writeLongAt k a v ts s = .ok () { s with mem := m, ym := y, paula := p } ∧
      StoresAt s { s with mem := m, ym := y, paula := p } .l a v := by
  have h' := h
  rw [State.canAccess_long, Bool.and_eq_true] at h'
  obtain ⟨m1, y1, p1, e1, st1⟩ := writeWordAt_ok (k := k) h'.1 (v.extractLsb' 16 16) ts
  have hc2 : State.canAccess { s with mem := m1, ym := y1, paula := p1 } .w (a + 2) = true := h'.2
  obtain ⟨m2, y2, p2, e2, st2⟩ := writeWordAt_ok (k := k) hc2 (v.extractLsb' 0 16) ts
  exact ⟨m2, y2, p2, by rw [writeLongAt, Exec.bind_of_ok e1, e2], StoresAt.long (t := { s with mem := m1, ym := y1, paula := p1 }) rfl rfl st1 st2 h⟩

/-- A data write that completes stores the value and changes nothing else but the count of device writes (rules R87, R89,
R102). -/
theorem writeMem_ok {sz : Size} {a : Long} {s : State} (h : s.canAccess sz a = true) (v : BitVec sz.bits) :
    ∃ m y p dev, writeMem sz a v s =
        .ok () { s with mem := m, ym := y, paula := p, hid := { s.hid with devSeq := dev } } ∧
      StoresAt s { s with mem := m, ym := y, paula := p, hid := { s.hid with devSeq := dev } } sz a v := by
  cases sz with
  | b =>
    obtain ⟨m, y, p, e, st⟩ := writeByteAt_ok (k := .data) h v s.writeStamp
    refine ⟨m, y, p, if s.isDevice a || (decide (Size.b = .l) && s.isDevice (a + 2)) then s.hid.devSeq + 1
      else s.hid.devSeq, ?_, ⟨st.frame, st.value, st.ym, st.paula⟩⟩
    simp only [writeMem, reading_bind]
    rw [Exec.bind_of_ok e]
    rfl
  | w =>
    obtain ⟨m, y, p, e, st⟩ := writeWordAt_ok (k := .data) h v s.writeStamp
    refine ⟨m, y, p, if s.isDevice a || (decide (Size.w = .l) && s.isDevice (a + 2)) then s.hid.devSeq + 1
      else s.hid.devSeq, ?_, ⟨st.frame, st.value, st.ym, st.paula⟩⟩
    simp only [writeMem, reading_bind]
    rw [Exec.bind_of_ok e]
    rfl
  | l =>
    obtain ⟨m, y, p, e, st⟩ := writeLongAt_ok (k := .data) h v s.writeStamp
    refine ⟨m, y, p, if s.isDevice a || (decide (Size.l = .l) && s.isDevice (a + 2)) then s.hid.devSeq + 1
      else s.hid.devSeq, ?_, ⟨st.frame, st.value, st.ym, st.paula⟩⟩
    simp only [writeMem, reading_bind]
    rw [Exec.bind_of_ok e]
    rfl

theorem writeByteAt_error {k : AccessKind} {a : Long} {s : State} (h : s.canAccess .b a = false) (v : Byte) (ts : Nat) :
    writeByteAt k a v ts s = .error (.busError (s.faultRec k a false)) s := by
  have : s.target (s.extAddr a) = .unmapped := by simpa [State.canAccess] using h
  simp [writeByteAt, State.storeByte, this]

theorem writeWordAt_error {k : AccessKind} {a : Long} {s : State} (h : s.canAccess .w a = false) (v : Word) (ts : Nat) :
    writeWordAt k a v ts s =
      .error (if isOdd a then .addressError (s.faultRec k a false) else .busError (s.faultRec k a false)) s := by
  unfold writeWordAt
  by_cases hodd : isOdd a = true
  · simp [hodd]
  · have : s.target (s.extAddr a) = .unmapped := by
      by_contra hc
      simp [State.canAccess, hodd, hc] at h
    simp [hodd, State.storeWord, this]

/-- Everything a word write can do: it stores and changes memory or an engine, or it raises a group-0 event and changes
nothing. -/
theorem writeWordAt_cases (k : AccessKind) (a : Long) (v : Word) (ts : Nat) (s : State) :
    (∃ t, s.storeWord a v ts = some t ∧ writeWordAt k a v ts s = .ok () t ∧ isOdd a = false) ∨
    (∃ e f, writeWordAt k a v ts s = .error e s ∧ e.faultRec = some f) := by
  by_cases h : s.canAccess .w a = true
  · simp only [State.canAccess, Bool.and_eq_true, Bool.not_eq_true', decide_eq_true_eq] at h
    obtain ⟨m, y, p, hs⟩ := State.storeWord_some h.2 v ts
    exact .inl ⟨_, hs, by simp [writeWordAt, hs, h.1], h.1⟩
  · refine .inr ?_
    rw [writeWordAt_error (by simpa using h)]
    by_cases hodd : isOdd a = true <;> simp only [hodd, if_true, if_false, Bool.false_eq_true] <;>
      exact ⟨_, _, rfl, rfl⟩

/-- A data write that does not complete raises a group-0 event with the record of a write (rules R84, R89, R90). -/
theorem writeMem_error {sz : Size} {a : Long} {s : State} (h : s.canAccess sz a = false) (v : BitVec sz.bits) :
    ∃ e f u, writeMem sz a v s = .error e u ∧ e.faultRec = some f ∧ f.read = false ∧ f.fc = s.functionCode .data := by
  cases sz with
  | b =>
    simp only [writeMem, reading_bind]
    rw [Exec.bind_of_error (writeByteAt_error h v _)]
    exact ⟨_, _, _, rfl, rfl, rfl, rfl⟩
  | w =>
    simp only [writeMem, reading_bind]
    rw [Exec.bind_of_error (writeWordAt_error h v _)]
    by_cases hodd : isOdd a = true <;> simp only [hodd, if_true, if_false, Bool.false_eq_true] <;>
      exact ⟨_, _, _, rfl, rfl, rfl, rfl⟩
  | l =>
    simp only [writeMem, reading_bind, writeLongAt, bind_assoc]
    by_cases h1 : s.canAccess .w a = true
    · obtain ⟨m, y, p, e1, _⟩ := writeWordAt_ok (k := .data) h1 (v.extractLsb' 16 16) s.writeStamp
      have h2 : State.canAccess { s with mem := m, ym := y, paula := p } .w (a + 2) = false := by
        rw [State.canAccess_long, h1, Bool.true_and] at h
        exact h
      rw [Exec.bind_of_ok e1, Exec.bind_of_error (writeWordAt_error h2 _ _)]
      by_cases hodd : isOdd (a + 2) = true <;> simp only [hodd, if_true, if_false, Bool.false_eq_true] <;>
        exact ⟨_, _, _, rfl, rfl, rfl, rfl⟩
    · rw [Exec.bind_of_error (writeWordAt_error (by simpa using h1) _ _)]
      by_cases hodd : isOdd a = true <;> simp only [hodd, if_true, if_false, Bool.false_eq_true] <;>
        exact ⟨_, _, _, rfl, rfl, rfl, rfl⟩

/-- Everything a data write can do when it answers. -/
theorem writeMem_eq_ok {sz : Size} {a : Long} {s t : State} {v : BitVec sz.bits} (h : writeMem sz a v s = .ok () t) :
    s.canAccess sz a = true ∧ StoresAt s t sz a v ∧
      ∃ m y p dev, t = { s with mem := m, ym := y, paula := p, hid := { s.hid with devSeq := dev } } := by
  by_cases hc : s.canAccess sz a = true
  · obtain ⟨m, y, p, dev, e, st⟩ := writeMem_ok hc v
    rw [e] at h
    cases h
    exact ⟨hc, st, m, y, p, dev, rfl⟩
  · obtain ⟨e, f, u, he, _⟩ := writeMem_error (by simpa using hc : s.canAccess sz a = false) v
    rw [he] at h; cases h

/-! ## The instruction stream -/

/-- Everything the fetch of an extension word can do when it answers (rule R88): it answers the word at `pc`, which is even
and mapped, and moves `pc` past it. -/
theorem fetch16_eq_ok {s t : State} {w : Word} (h : fetch16 s = .ok w t) :
    s.canAccess .w s.pc = true ∧ w = s.memValue .w s.pc ∧ t.pc = s.pc + 2 ∧ Measured s t := by
  by_cases hc : s.canAccess .w s.pc = true
  · simp only [fetch16, fetchWord, bind_assoc, reading_bind] at h
    rw [Exec.bind_of_ok (readWordAt_ok hc)] at h
    simp only [updating_bind, pure_bind, Exec.pure_apply] at h
    cases h
    exact ⟨hc, rfl, rfl, s.pc + 2, _, s.hid.operands, s.hid.devSeq, rfl⟩
  · simp only [fetch16, fetchWord, bind_assoc, reading_bind] at h
    rw [Exec.bind_of_error (readWordAt_error (by simpa using hc))] at h
    cases h

theorem fetch16_ok {s : State} (h : s.canAccess .w s.pc = true) :
    fetch16 s = .ok (s.memValue .w s.pc)
      { s with pc := s.pc + 2, hid := { s.hid with ext := s.hid.ext ++ [s.memValue .w s.pc] } } := by
  simp only [fetch16, fetchWord, bind_assoc, reading_bind]
  rw [Exec.bind_of_ok (readWordAt_ok h)]
  rfl

/-- Everything the fetch of a long can do when it answers: two words, high word first. -/
theorem fetch32_eq_ok {s t : State} {v : Long} (h : fetch32 s = .ok v t) :
    v = s.memValue .w s.pc ++ s.memValue .w (s.pc + 2) ∧ t.pc = s.pc + 2 + 2 ∧ Measured s t := by
  simp only [fetch32, Exec.bind_eq_ok, Exec.pure_apply] at h
  obtain ⟨hi, t1, h1, lo, t2, h2, h3⟩ := h
  cases h3
  obtain ⟨_, rfl, hp1, m1⟩ := fetch16_eq_ok h1
  obtain ⟨_, rfl, hp2, m2⟩ := fetch16_eq_ok h2
  refine ⟨?_, by rw [hp2, hp1], m1.trans m2⟩
  rw [hp1, m1.memValue]

/-- Everything the fetch of an immediate can do when it answers: only `pc` and the measures change. -/
theorem fetchImm_eq_ok {sz : Size} {s t : State} {v : BitVec sz.bits} (h : fetchImm sz s = .ok v t) : Measured s t := by
  cases sz with
  | b =>
    simp only [fetchImm, Exec.bind_eq_ok, Exec.pure_apply] at h
    obtain ⟨w, t1, h1, h2⟩ := h
    cases h2
    exact (fetch16_eq_ok h1).2.2.2
  | w => exact (fetch16_eq_ok h).2.2.2
  | l => exact (fetch32_eq_ok h).2.2

/-- Everything an opcode fetch can do when it answers (rules R85, R88, R571). -/
theorem fetchOpcode_eq_ok {s t : State} {w : Word} (h : fetchOpcode s = .ok w t) :
    s.canAccess .w s.pc = true ∧ w = s.memValue .w s.pc ∧
      t = { s with
        pc := s.pc + 2
        hid := { s.hid with ir := w }
        inGroup0 := s.inGroup0 && decide (s.pc ≠ s.group0Handler) } := by
  by_cases hc : s.canAccess .w s.pc = true
  · simp only [fetchOpcode, fetchWord, bind_assoc, reading_bind] at h
    rw [Exec.bind_of_ok (readWordAt_ok hc)] at h
    simp only [updating_bind, pure_bind, Exec.pure_apply] at h
    cases h
    exact ⟨hc, rfl, rfl⟩
  · simp only [fetchOpcode, fetchWord, bind_assoc, reading_bind] at h
    rw [Exec.bind_of_error (readWordAt_error (by simpa using hc))] at h
    cases h

theorem fetchOpcode_ok {s : State} (h : s.canAccess .w s.pc = true) :
    fetchOpcode s = .ok (s.memValue .w s.pc)
      { s with
        pc := s.pc + 2
        hid := { s.hid with ir := s.memValue .w s.pc }
        inGroup0 := s.inGroup0 && decide (s.pc ≠ s.group0Handler) } := by
  simp only [fetchOpcode, fetchWord, bind_assoc, reading_bind]
  rw [Exec.bind_of_ok (readWordAt_ok h)]
  rfl

/-- An opcode fetch that does not complete raises a group-0 event and changes nothing. -/
theorem fetchOpcode_error {s : State} (h : s.canAccess .w s.pc = false) :
    fetchOpcode s = .error (if isOdd s.pc then .addressError (s.faultRec .program s.pc true)
      else .busError (s.faultRec .program s.pc true)) s := by
  simp only [fetchOpcode, fetchWord, bind_assoc, reading_bind]
  rw [Exec.bind_of_error (readWordAt_error h)]

/-! ## Addressing modes -/

theorem indexed_eq_ok {base a : Long} {s t : State} (h : indexed base s = .ok a t) :
    Measured s t ∧
      a = base + (decodeBrief (s.memValue .w s.pc)).d8.signExtend 32 +
        s.regs.indexValue (decodeBrief (s.memValue .w s.pc)) := by
  simp only [indexed, Exec.bind_eq_ok, Exec.pure_apply, reading_apply] at h
  obtain ⟨w, t1, h1, x, t2, h2, h3⟩ := h
  cases h2; cases h3
  obtain ⟨_, rfl, _, m⟩ := fetch16_eq_ok h1
  exact ⟨m, by rw [m.regs]⟩

/-- Everything an addressing mode can do when it answers: it changes no register but the one `(An)+` or `-(An)` names, no
memory and no engine (rules R200, R203-R214). -/
theorem resolve_eq_ok {ea : Ea} {sz : Size} {s t : State} {loc : Loc} (h : resolve ea sz s = .ok loc t) :
    Measured { s with regs := s.regs.bump ea sz } t := by
  cases ea with
  | dn r => cases h; exact Measured.refl _
  | an r => cases h; exact Measured.refl _
  | ind r => cases h; exact Measured.refl _
  | postinc r => cases h; exact Measured.refl _
  | predec r => cases h; exact Measured.refl _
  | disp r =>
    simp only [resolve, Exec.bind_eq_ok, Exec.pure_apply, readA_apply] at h
    obtain ⟨d, t1, h1, a, t2, h2, h3⟩ := h
    cases h2; cases h3
    exact (fetch16_eq_ok h1).2.2.2
  | index r =>
    simp only [resolve, readA_bind, Exec.bind_eq_ok, Exec.pure_apply] at h
    obtain ⟨a, t1, h1, h2⟩ := h
    cases h2
    exact (indexed_eq_ok h1).1
  | absW =>
    simp only [resolve, Exec.bind_eq_ok, Exec.pure_apply] at h
    obtain ⟨a, t1, h1, h2⟩ := h
    cases h2
    exact (fetch16_eq_ok h1).2.2.2
  | absL =>
    simp only [resolve, Exec.bind_eq_ok, Exec.pure_apply] at h
    obtain ⟨a, t1, h1, h2⟩ := h
    cases h2
    exact (fetch32_eq_ok h1).2.2
  | pcDisp =>
    simp only [resolve, reading_bind, Exec.bind_eq_ok, Exec.pure_apply] at h
    obtain ⟨a, t1, h1, h2⟩ := h
    cases h2
    exact (fetch16_eq_ok h1).2.2.2
  | pcIndex =>
    simp only [resolve, reading_bind, Exec.bind_eq_ok, Exec.pure_apply] at h
    obtain ⟨a, t1, h1, h2⟩ := h
    cases h2
    exact (indexed_eq_ok h1).1
  | imm =>
    simp only [resolve, Exec.bind_eq_ok, Exec.pure_apply] at h
    obtain ⟨v, t1, h1, h2⟩ := h
    cases h2
    exact fetchImm_eq_ok h1

/-- An addressing mode does not change the value of the location it gives. -/
theorem resolve_value {ea : Ea} {sz : Size} {s t : State} {loc : Loc} (h : resolve ea sz s = .ok loc t) :
    loc.value t sz = loc.value s sz := by
  have hm := resolve_eq_ok h
  rw [hm.value]
  cases loc with
  | mem a => exact State.memValue_congr rfl rfl rfl rfl sz a
  | imm v => rfl
  | dreg n => simp [Loc.value]
  | areg n =>
    cases ea with
    | an r => rfl
    | dn r => rfl
    | ind r => rfl
    | postinc r => cases h
    | predec r => cases h
    | disp r => rfl
    | index r => rfl
    | absW => rfl
    | absL => rfl
    | pcDisp => rfl
    | pcIndex => rfl
    | imm => rfl

/-! ## Locations -/

/-- Reading an accessible location answers its value and only measures; pc stays (rule R201). -/
theorem Loc.read_ok {loc : Loc} {sz : Size} {s : State} (h : loc.accessible s sz = true) :
    ∃ t, loc.read sz s = .ok (loc.value s sz) t ∧ Measured s t ∧ t.pc = s.pc := by
  cases loc with
  | dreg n => exact ⟨s, rfl, Measured.refl s, rfl⟩
  | areg n => exact ⟨s, rfl, Measured.refl s, rfl⟩
  | mem a => exact ⟨_, readMem_ok h, ⟨s.pc, s.hid.ext, _, s.hid.devSeq, rfl⟩, rfl⟩
  | imm v => exact ⟨s, rfl, Measured.refl s, rfl⟩

/-- Writing an accessible location leaves the registers `Loc.putRegs` says and stores what `WritesAt` says (rule R201). -/
theorem Loc.write_ok {loc : Loc} {sz : Size} {s : State} (h : loc.accessible s sz = true) (v : BitVec sz.bits) :
    ∃ m y p dev, loc.write sz v s = .ok () { s with
        regs := loc.putRegs sz v s.regs, mem := m, ym := y, paula := p, hid := { s.hid with devSeq := dev } } ∧
      WritesAt s { s with
        regs := loc.putRegs sz v s.regs, mem := m, ym := y, paula := p, hid := { s.hid with devSeq := dev } } sz loc v := by
  cases loc with
  | dreg n => exact ⟨s.mem, s.ym, s.paula, s.hid.devSeq, rfl, fun _ => rfl, rfl, rfl, rfl⟩
  | areg n => exact ⟨s.mem, s.ym, s.paula, s.hid.devSeq, rfl, fun _ => rfl, rfl, rfl, rfl⟩
  | mem a =>
    obtain ⟨m, y, p, dev, e, st⟩ := writeMem_ok h v
    exact ⟨m, y, p, dev, e, st⟩
  | imm x => exact ⟨s.mem, s.ym, s.paula, s.hid.devSeq, rfl, fun _ => rfl, rfl, rfl, rfl⟩

/-- Everything a write to a location can do when it answers. -/
theorem Loc.write_eq_ok {loc : Loc} {sz : Size} {s t : State} {v : BitVec sz.bits} (h : loc.write sz v s = .ok () t) :
    loc.accessible s sz = true ∧ WritesAt s t sz loc v ∧
      ∃ m y p dev, t = { s with
        regs := loc.putRegs sz v s.regs, mem := m, ym := y, paula := p, hid := { s.hid with devSeq := dev } } := by
  have ha : loc.accessible s sz = true := by
    cases loc with
    | mem a => exact (writeMem_eq_ok h).1
    | dreg n => rfl
    | areg n => rfl
    | imm x => rfl
  obtain ⟨m, y, p, dev, e, st⟩ := Loc.write_ok ha v
  rw [e] at h
  cases h
  exact ⟨ha, st, m, y, p, dev, rfl⟩

/-- What an operand that is located reads as, and what is left after it is resolved and read. -/
theorem Locates.resolve_read {ea : Ea} {sz : Size} {s t : State} {loc : Loc} (h : Locates ea sz s loc t) :
    resolve ea sz s = .ok loc t ∧ ∃ u, loc.read sz t = .ok (loc.value s sz) u ∧
      Measured { s with regs := s.regs.bump ea sz } u ∧ u.pc = t.pc := by
  have hm := resolve_eq_ok h.1
  have ha : loc.accessible t sz = true := by
    rw [Loc.accessible_congr (s := s) hm.cfg loc sz]; exact h.2
  obtain ⟨u, hu, hmu, hpc⟩ := Loc.read_ok ha
  exact ⟨h.1, u, by rw [hu, resolve_value h.1], hm.trans hmu, hpc⟩

/-- The same for `readEa`. -/
theorem Locates.readEa {ea : Ea} {sz : Size} {s t : State} {loc : Loc} (h : Locates ea sz s loc t) :
    ∃ u, readEa ea sz s = .ok (loc.value s sz) u ∧ Measured { s with regs := s.regs.bump ea sz } u ∧ u.pc = t.pc := by
  obtain ⟨h1, u, h2, hm, hpc⟩ := h.resolve_read
  exact ⟨u, by rw [Machine.readEa, Exec.bind_of_ok h1, h2], hm, hpc⟩

/-- A source operand that is located: the value it reads as, with the registers and the pc left. -/
theorem Locates.source {ea : Ea} {sz : Size} {s t : State} {loc : Loc} (h : Locates ea sz s.start loc t) :
    ∃ u, Machine.readEa ea sz s.start = .ok (loc.value s sz) u ∧
      Measured { s.start with regs := s.regs.bump ea sz } u ∧ u.regs = s.regs.bump ea sz ∧ u.pc = t.pc := by
  obtain ⟨u, hu, hm, hpc⟩ := h.readEa
  refine ⟨u, ?_, hm, hm.regs, hpc⟩
  rw [hu]
  cases loc with
  | mem a => rw [show (Loc.mem a).value s.start sz = (Loc.mem a).value s sz from
      State.memValue_congr rfl rfl rfl rfl sz a]
  | dreg n => rfl
  | areg n => rfl
  | imm v => rfl

end Sys2Proof.Machine
end

