-- ==== Sys2Proof/Laws/Always.lean ====
section
/-! SUPPORT. Laws/Always.lean: a relation between the state before and after that every primitive operation keeps is kept by
every shared operation. This is how a statement about all instructions is proved without unfolding the operations. -/

namespace Sys2Proof.Machine

open Sys2Proof.Config

variable {α β : Type} {R : State → State → Prop}

/-- However the piece of pseudocode ends, the state it leaves is related to the state it started from. -/
def Exec.Always (R : State → State → Prop) (x : Exec α) : Prop :=
  ∀ s, (∀ a t, x s = .ok a t → R s t) ∧ (∀ e t, x s = .error e t → R s t)

/-- Two status registers with one system byte: only flags differ. -/
def SameSystem (f g : Sr) : Prop := f.t1 = g.t1 ∧ f.t0 = g.t0 ∧ f.s = g.s ∧ f.i = g.i

/-- What an unprivileged rule's primitive operations do, as a list of requirements on a relation. -/
structure Tolerant (R : State → State → Prop) : Prop where
  trans : ∀ {s t u}, R s t → R t u → R s u
  measured : ∀ {s t}, Measured s t → R s t
  setD : ∀ s n v, R s { s with regs := s.regs.setD n v }
  setA : ∀ s n v, R s { s with regs := s.regs.setA n v }
  flags : ∀ s f, SameSystem f s.regs.sr → R s { s with regs := { s.regs with sr := f } }
  draw : ∀ s, R s { s with draws := s.draws + 1 }
  storeByte : ∀ {s t : State} {a v ts}, s.storeByte a v ts = some t → R s t
  storeWord : ∀ {s t : State} {a v ts}, isOdd a = false → s.storeWord a v ts = some t → R s t

theorem Tolerant.refl (h : Tolerant R) (s : State) : R s s := h.measured (Measured.refl s)

/-! ## Sequencing -/

theorem Exec.Always.pure (h : Tolerant R) (a : α) : Exec.Always R (pure a : Exec α) := by
  intro s
  refine ⟨fun b t e => ?_, fun e t k => ?_⟩
  · cases e; exact h.refl s
  · cases k

theorem Exec.Always.bind (h : Tolerant R) {x : Exec α} {f : α → Exec β} (hx : Exec.Always R x)
    (hf : ∀ a, Exec.Always R (f a)) : Exec.Always R (x >>= f) := by
  intro s
  refine ⟨fun b u e => ?_, fun e u k => ?_⟩
  · obtain ⟨a, t, h1, h2⟩ := Exec.bind_eq_ok.1 e
    exact h.trans ((hx s).1 a t h1) ((hf a t).1 b u h2)
  · rcases Exec.bind_eq_error.1 k with h1 | ⟨a, t, h1, h2⟩
    · exact (hx s).2 e u h1
    · exact h.trans ((hx s).1 a t h1) ((hf a t).2 e u h2)

theorem Exec.Always.reading (h : Tolerant R) (f : State → α) : Exec.Always R (reading f) := by
  intro s
  refine ⟨fun b t e => ?_, fun e t k => ?_⟩
  · cases e; exact h.refl s
  · cases k

theorem Exec.Always.updating {f : State → State} (hf : ∀ s, R s (f s)) : Exec.Always R (updating f) := by
  intro s
  refine ⟨fun b t e => ?_, fun e t k => ?_⟩
  · cases e; exact hf s
  · cases k

theorem Exec.Always.raise (h : Tolerant R) (e : Event) : Exec.Always R (raise e : Exec α) := by
  intro s
  refine ⟨fun b t k => ?_, fun e' t k => ?_⟩
  · cases k
  · cases k; exact h.refl s

theorem Exec.Always.ite {c : Prop} [Decidable c] {x y : Exec α} (hx : Exec.Always R x) (hy : Exec.Always R y) :
    Exec.Always R (if c then x else y) := by
  split
  · exact hx
  · exact hy

/-! ## Registers and flags -/

theorem Exec.Always.readD (h : Tolerant R) (n : Reg) (sz : Size) : Exec.Always R (readD n sz) := Exec.Always.reading h _

theorem Exec.Always.writeD (h : Tolerant R) (n : Reg) (sz : Size) (v : BitVec sz.bits) :
    Exec.Always R (writeD n sz v) := Exec.Always.updating fun s => h.setD s n _

theorem Exec.Always.readA (h : Tolerant R) (n : Reg) : Exec.Always R (readA n) := Exec.Always.reading h _

theorem Exec.Always.writeA (h : Tolerant R) (n : Reg) (v : Long) : Exec.Always R (writeA n v) :=
  Exec.Always.updating fun s => h.setA s n v

theorem Exec.Always.readSr (h : Tolerant R) : Exec.Always R readSr := Exec.Always.reading h _

theorem Exec.Always.updateSr (h : Tolerant R) {f : Sr → Sr} (hf : ∀ g, SameSystem (f g) g) :
    Exec.Always R (updateSr f) := Exec.Always.updating fun s => h.flags s _ (hf _)

theorem Exec.Always.writeCcr (h : Tolerant R) (b : Byte) : Exec.Always R (writeCcr b) :=
  Exec.Always.updateSr h fun _ => ⟨rfl, rfl, rfl, rfl⟩

theorem Exec.Always.drawBit (h : Tolerant R) : Exec.Always R drawBit := by
  intro s
  refine ⟨fun b t e => ?_, fun e t k => ?_⟩
  · cases e; exact h.draw s
  · cases k

theorem Exec.Always.jumpTo (h : Tolerant R) (a : Long) : Exec.Always R (jumpTo a) :=
  Exec.Always.updating fun s => h.measured ⟨a, s.hid.ext, s.hid.operands, s.hid.devSeq, rfl⟩

theorem Exec.Always.branchTarget (h : Tolerant R) (d : Long) : Exec.Always R (branchTarget d) :=
  Exec.Always.reading h _

theorem Exec.Always.requireSupervisor (h : Tolerant R) : Exec.Always R requireSupervisor := by
  intro s
  unfold Machine.requireSupervisor
  refine ⟨fun b t e => ?_, fun e t k => ?_⟩
  · split at e <;> cases e; exact h.refl s
  · split at k <;> cases k; exact h.refl s

/-! ## The bus -/

theorem Exec.Always.readByteAt (h : Tolerant R) (k : AccessKind) (a : Long) : Exec.Always R (readByteAt k a) := by
  intro s
  unfold Machine.readByteAt
  refine ⟨fun b t e => ?_, fun e t k => ?_⟩
  · split at e <;> cases e; exact h.refl s
  · split at k <;> cases k; exact h.refl s

theorem Exec.Always.readWordAt (h : Tolerant R) (k : AccessKind) (a : Long) : Exec.Always R (readWordAt k a) := by
  intro s
  unfold Machine.readWordAt
  refine ⟨fun b t e => ?_, fun e t k => ?_⟩
  · split at e
    · cases e
    · split at e <;> cases e; exact h.refl s
  · split at k
    · cases k; exact h.refl s
    · split at k <;> cases k; exact h.refl s

theorem Exec.Always.readLongAt (h : Tolerant R) (k : AccessKind) (a : Long) : Exec.Always R (readLongAt k a) :=
  .bind h (.readWordAt h k a) fun _ => .bind h (.readWordAt h k _) fun _ => .pure h _

theorem Exec.Always.writeByteAt (h : Tolerant R) (k : AccessKind) (a : Long) (v : Byte) (ts : Nat) :
    Exec.Always R (writeByteAt k a v ts) := by
  intro s
  unfold Machine.writeByteAt
  refine ⟨fun b t e => ?_, fun e t k => ?_⟩
  · split at e <;> cases e; rename_i hs; exact h.storeByte hs
  · split at k <;> cases k; exact h.refl s

theorem Exec.Always.writeWordAt (h : Tolerant R) (k : AccessKind) (a : Long) (v : Word) (ts : Nat) :
    Exec.Always R (writeWordAt k a v ts) := by
  intro s
  rcases writeWordAt_cases k a v ts s with ⟨t, hs, hw, ho⟩ | ⟨e, f, hw, _⟩
  · refine ⟨fun b u e => ?_, fun e u k => ?_⟩
    · rw [hw] at e; cases e; exact h.storeWord ho hs
    · rw [hw] at k; cases k
  · refine ⟨fun b u e => ?_, fun e u k => ?_⟩
    · rw [hw] at e; cases e
    · rw [hw] at k; cases k; exact h.refl s

theorem Exec.Always.writeLongAt (h : Tolerant R) (k : AccessKind) (a : Long) (v : Long) (ts : Nat) :
    Exec.Always R (writeLongAt k a v ts) := .bind h (.writeWordAt h k a _ ts) fun _ => .writeWordAt h k _ _ ts

theorem Exec.Always.noteOperand (h : Tolerant R) (v : Long) : Exec.Always R (noteOperand v) :=
  Exec.Always.updating fun s => h.measured ⟨s.pc, s.hid.ext, _, s.hid.devSeq, rfl⟩

theorem Exec.Always.readMem (h : Tolerant R) (sz : Size) (a : Long) : Exec.Always R (readMem sz a) := by
  cases sz with
  | b => exact .bind h (.readByteAt h _ a) fun _ => .bind h (.noteOperand h _) fun _ => .pure h _
  | w => exact .bind h (.readWordAt h _ a) fun _ => .bind h (.noteOperand h _) fun _ => .pure h _
  | l => exact .bind h (.readLongAt h _ a) fun _ => .bind h (.noteOperand h _) fun _ => .pure h _

theorem Exec.Always.writeMem (h : Tolerant R) (sz : Size) (a : Long) (v : BitVec sz.bits) :
    Exec.Always R (writeMem sz a v) := by
  have hn : ∀ d, Exec.Always R (noteDeviceWrite d) := fun d =>
    .updating fun s => h.measured ⟨s.pc, s.hid.ext, s.hid.operands, _, rfl⟩
  cases sz with
  | b => exact .bind h (.reading h _) fun _ => .bind h (.reading h _) fun _ =>
      .bind h (.writeByteAt h _ a v _) fun _ => hn _
  | w => exact .bind h (.reading h _) fun _ => .bind h (.reading h _) fun _ =>
      .bind h (.writeWordAt h _ a v _) fun _ => hn _
  | l => exact .bind h (.reading h _) fun _ => .bind h (.reading h _) fun _ =>
      .bind h (.writeLongAt h _ a v _) fun _ => hn _

theorem Exec.Always.push (h : Tolerant R) (sz : Size) (v : BitVec sz.bits) : Exec.Always R (push sz v) :=
  .bind h (.readA h 7) fun _ => .bind h (.writeA h 7 _) fun _ => .writeMem h sz _ v

theorem Exec.Always.pop (h : Tolerant R) (sz : Size) : Exec.Always R (pop sz) :=
  .bind h (.readA h 7) fun _ => .bind h (.readMem h sz _) fun _ => .bind h (.writeA h 7 _) fun _ => .pure h _

/-! ## The instruction stream and operands -/

theorem Exec.Always.fetch16 (h : Tolerant R) : Exec.Always R fetch16 :=
  .bind h (.bind h (.reading h _) fun _ => .bind h (.readWordAt h _ _) fun _ =>
      .bind h (.updating fun s => h.measured ⟨_, s.hid.ext, s.hid.operands, s.hid.devSeq, rfl⟩) fun _ => .pure h _)
    fun _ => .bind h (.updating fun s => h.measured ⟨s.pc, _, s.hid.operands, s.hid.devSeq, rfl⟩) fun _ => .pure h _

theorem Exec.Always.fetch32 (h : Tolerant R) : Exec.Always R fetch32 :=
  .bind h (.fetch16 h) fun _ => .bind h (.fetch16 h) fun _ => .pure h _

theorem Exec.Always.fetchImm (h : Tolerant R) (sz : Size) : Exec.Always R (fetchImm sz) := by
  cases sz with
  | b => exact .bind h (.fetch16 h) fun _ => .pure h _
  | w => exact .fetch16 h
  | l => exact .fetch32 h

theorem Exec.Always.indexed (h : Tolerant R) (base : Long) : Exec.Always R (indexed base) :=
  .bind h (.fetch16 h) fun _ => .bind h (.reading h _) fun _ => .pure h _

theorem Exec.Always.resolve (h : Tolerant R) (ea : Ea) (sz : Size) : Exec.Always R (resolve ea sz) := by
  cases ea with
  | dn r => exact .pure h _
  | an r => exact .pure h _
  | ind r => exact .bind h (.readA h r) fun _ => .pure h _
  | postinc r => exact .bind h (.readA h r) fun _ => .bind h (.writeA h r _) fun _ => .pure h _
  | predec r => exact .bind h (.readA h r) fun _ => .bind h (.writeA h r _) fun _ => .pure h _
  | disp r => exact .bind h (.fetch16 h) fun _ => .bind h (.readA h r) fun _ => .pure h _
  | index r => exact .bind h (.readA h r) fun _ => .bind h (.indexed h _) fun _ => .pure h _
  | absW => exact .bind h (.fetch16 h) fun _ => .pure h _
  | absL => exact .bind h (.fetch32 h) fun _ => .pure h _
  | pcDisp => exact .bind h (.reading h _) fun _ => .bind h (.fetch16 h) fun _ => .pure h _
  | pcIndex => exact .bind h (.reading h _) fun _ => .bind h (.indexed h _) fun _ => .pure h _
  | imm => exact .bind h (.fetchImm h sz) fun _ => .pure h _

theorem Exec.Always.locRead (h : Tolerant R) (loc : Loc) (sz : Size) : Exec.Always R (loc.read sz) := by
  cases loc with
  | dreg n => exact .readD h n sz
  | areg n => exact .bind h (.readA h n) fun _ => .pure h _
  | mem a => exact .readMem h sz a
  | imm v => exact .pure h _

theorem Exec.Always.locWrite (h : Tolerant R) (loc : Loc) (sz : Size) (v : BitVec sz.bits) :
    Exec.Always R (loc.write sz v) := by
  cases loc with
  | dreg n => exact .writeD h n sz v
  | areg n => exact .writeA h n _
  | mem a => exact .writeMem h sz a v
  | imm v => exact .pure h _

theorem Exec.Always.readEa (h : Tolerant R) (ea : Ea) (sz : Size) : Exec.Always R (readEa ea sz) :=
  .bind h (.resolve h ea sz) fun loc => .locRead h loc sz

theorem Exec.Always.addressOf (h : Tolerant R) (ea : Ea) : Exec.Always R (addressOf ea) :=
  .bind h (.resolve h ea .l) fun loc => by cases loc <;> exact .pure h _

theorem Exec.Always.readAddrSource (h : Tolerant R) (ea : Ea) (sz : AddrSize) : Exec.Always R (readAddrSource ea sz) :=
  .bind h (.readEa h ea sz.toSize) fun _ => .pure h _

theorem Exec.Always.modifyEa (h : Tolerant R) (ea : Ea) (sz : Size) {f : Sr → BitVec sz.bits → BitVec sz.bits}
    {g : Sr → BitVec sz.bits → Sr} (hg : ∀ r d, SameSystem (g r d) r) : Exec.Always R (modifyEa ea sz f g) := by
  have hx : Exec.Always R (Machine.resolve ea sz) := .resolve h ea sz
  intro s
  refine ⟨fun a u e => ?_, fun e u k => ?_⟩
  · simp only [Machine.modifyEa, Exec.bind_eq_ok, readSr_apply, updateSr_apply] at e
    obtain ⟨loc, t1, h1, d, t2, h2, _, _, h3, _, t4, h4, h5⟩ := e
    cases h3; cases h5
    refine h.trans ((hx s).1 _ _ h1) (h.trans ((Exec.Always.locRead h loc sz _).1 _ _ h2)
      (h.trans ((Exec.Always.locWrite h loc sz _ _).1 _ _ h4) (h.flags t4 _ ?_)))
    obtain ⟨_, _, _, _, _, _, rfl⟩ := Loc.write_eq_ok h4
    rw [Loc.putRegs_sr]
    exact hg _ _
  · simp only [Machine.modifyEa, Exec.bind_eq_error, readSr_apply, updateSr_apply] at k
    rcases k with h1 | ⟨loc, t1, h1, h2 | ⟨d, t2, h2, h3 | ⟨_, _, h3, h4 | ⟨_, t4, h4, h5⟩⟩⟩⟩
    · exact (hx s).2 _ _ h1
    · exact h.trans ((hx s).1 _ _ h1) ((Exec.Always.locRead h loc sz _).2 _ _ h2)
    · cases h3
    · cases h3
      exact h.trans ((hx s).1 _ _ h1) (h.trans ((Exec.Always.locRead h loc sz _).1 _ _ h2)
        ((Exec.Always.locWrite h loc sz _ _).2 _ _ h4))
    · cases h5

theorem Exec.Always.branchDisp (h : Tolerant R) (k : Byte) : Exec.Always R (branchDisp k) := by
  unfold Machine.branchDisp
  exact .ite (.bind h (.fetch16 h) fun _ => .pure h _) (.pure h _)

theorem Exec.Always.extendedOperands (h : Tolerant R) (m : XMode) (sz : Size) (x y : Reg) :
    Exec.Always R (extendedOperands m sz x y) := by
  cases m with
  | reg => exact .bind h (.readD h y sz) fun _ => .bind h (.readD h x sz) fun _ => .pure h _
  | mem => exact .bind h (.readEa h _ sz) fun _ => .bind h (.resolve h _ sz) fun loc =>
      .bind h (.locRead h loc sz) fun _ => .pure h _

theorem Exec.Always.shiftCount (h : Tolerant R) (c : ShiftCount) : Exec.Always R (shiftCount c) := by
  cases c with
  | imm n => exact .pure h _
  | reg r => exact .bind h (.readD h r .l) fun _ => .pure h _

/-! ## Entering an exception -/

/-- What taking an exception does, as a list of requirements on a relation. -/
structure EntryTolerant (R : State → State → Prop) : Prop where
  trans : ∀ s t u, R s t → R t u → R s u
  refl : ∀ s, R s s
  ssp : ∀ s v, R s { s with regs := { s.regs with ssp := v } }
  sr : ∀ s e, R s { s with regs := { s.regs with sr := s.regs.sr.onEntry e s.cfg.traceKeepsT } }
  inGroup0 : ∀ s b, R s { s with inGroup0 := b }
  storeWord : ∀ {s t : State} {a v ts}, isOdd a = false → s.storeWord a v ts = some t → R s t
  handler : ∀ s h n g, R s { s with pc := h, cycles := s.cycles + n, group0Handler := g }
  halted : ∀ s, R s { s with run := .halted }

/-- A sequence whose parts keep a transitive relation keeps it. -/
theorem Exec.Always.seq (ht : ∀ s t u, R s t → R t u → R s u) {x : Exec α} {f : α → Exec β}
    (hx : Exec.Always R x) (hf : ∀ a, Exec.Always R (f a)) : Exec.Always R (x >>= f) := by
  intro s
  refine ⟨fun b u e => ?_, fun e u k => ?_⟩
  · obtain ⟨a, t, h1, h2⟩ := Exec.bind_eq_ok.1 e
    exact ht _ _ _ ((hx s).1 a t h1) ((hf a t).1 b u h2)
  · rcases Exec.bind_eq_error.1 k with h1 | ⟨a, t, h1, h2⟩
    · exact (hx s).2 e u h1
    · exact ht _ _ _ ((hx s).1 a t h1) ((hf a t).2 e u h2)

/-- A piece of pseudocode that only looks keeps every reflexive relation. -/
theorem Exec.Always.look (hr : ∀ s, R s s) {x : Exec α}
    (hx : ∀ s, (∃ a, x s = .ok a s) ∨ ∃ e, x s = .error e s) : Exec.Always R x := by
  intro s
  rcases hx s with ⟨a, h⟩ | ⟨e, h⟩
  · exact ⟨fun b t k => by rw [h] at k; cases k; exact hr s, fun e t k => by rw [h] at k; cases k⟩
  · exact ⟨fun b t k => by (rw [h] at k; cases k), fun e t k => by (rw [h] at k; cases k; exact hr s)⟩

theorem readWordAt_look (k : AccessKind) (a : Long) (s : State) :
    (∃ v, readWordAt k a s = .ok v s) ∨ ∃ e, readWordAt k a s = .error e s := by
  by_cases h : s.canAccess .w a = true
  · exact .inl ⟨_, readWordAt_ok h⟩
  · exact .inr ⟨_, readWordAt_error (by simpa using h)⟩

theorem readLongAt_look (k : AccessKind) (a : Long) (s : State) :
    (∃ v, readLongAt k a s = .ok v s) ∨ ∃ e, readLongAt k a s = .error e s := by
  by_cases h : s.canAccess .l a = true
  · exact .inl ⟨_, readLongAt_ok h⟩
  · obtain ⟨e, _, he, _⟩ := readLongAt_error (k := k) (by simpa using h : s.canAccess .l a = false)
    exact .inr ⟨e, he⟩

theorem EntryTolerant.writeWord (h : EntryTolerant R) (k : AccessKind) (a : Long) (v : Word) (ts : Nat) :
    Exec.Always R (writeWordAt k a v ts) := by
  intro s
  rcases writeWordAt_cases k a v ts s with ⟨t, hs, hw, ho⟩ | ⟨e, f, hw, _⟩
  · exact ⟨fun b u e => by rw [hw] at e; cases e; exact h.storeWord ho hs, fun e u k => by rw [hw] at k; cases k⟩
  · exact ⟨fun b u e => by (rw [hw] at e; cases e), fun e u k => by (rw [hw] at k; cases k; exact h.refl s)⟩

theorem EntryTolerant.read (h : EntryTolerant R) (f : State → α) : Exec.Always R (reading f) :=
  .look h.refl fun s => .inl ⟨f s, rfl⟩

theorem EntryTolerant.pushWord (h : EntryTolerant R) (v : Word) : Exec.Always R (pushFrameWord v) :=
  .seq h.trans (.updating fun s => h.ssp s _) fun _ => .seq h.trans (h.read _) fun _ =>
    .seq h.trans (h.read _) fun _ => h.writeWord _ _ _ _

theorem EntryTolerant.pushLong (h : EntryTolerant R) (v : Long) : Exec.Always R (pushFrameLong v) :=
  .seq h.trans (.updating fun s => h.ssp s _) fun _ => .seq h.trans (h.read _) fun _ =>
    .seq h.trans (h.read _) fun _ => .seq h.trans (h.writeWord _ _ _ _) fun _ => h.writeWord _ _ _ _

theorem EntryTolerant.pushInfo (h : EntryTolerant R) (e : Event) : Exec.Always R (pushFaultInfo e) := by
  unfold pushFaultInfo
  cases e.faultRec with
  | some f =>
    exact .seq h.trans (h.read _) fun _ => .seq h.trans (h.pushWord _) fun _ =>
      .seq h.trans (h.pushLong _) fun _ => h.pushWord _
  | none => exact .look h.refl fun s => .inl ⟨_, rfl⟩

theorem EntryTolerant.body (h : EntryTolerant R) (e : Event) (p : Long) : Exec.Always R (entryBody e p) := by
  unfold entryBody
  refine .seq h.trans (h.read _) fun old => ?_
  intro s
  simp only [reading_bind, updateSr_bind]
  have hrest : Exec.Always R (do
      updating (fun s => { s with inGroup0 := s.inGroup0 || decide (e.group = .zero) })
      pushFrameLong p
      pushFrameWord old.toWord
      pushFaultInfo e
      let h ← readLongAt .exception (e.vector.setWidth 32 * 4)
      enterHandler e h) :=
    .seq h.trans (.updating fun s => h.inGroup0 s _) fun _ => .seq h.trans (h.pushLong p) fun _ =>
      .seq h.trans (h.pushWord _) fun _ => .seq h.trans (h.pushInfo e) fun _ =>
        .seq h.trans (.look h.refl (readLongAt_look _ _)) fun a => .updating fun s => by
          split
          · exact h.halted s
          · exact h.handler s _ _ _
  have h1 : R s { s with regs := { s.regs with sr := s.regs.sr.onEntry e s.cfg.traceKeepsT } } := h.sr s e
  exact ⟨fun a t k => h.trans _ _ _ h1 ((hrest _).1 a t k), fun e' t k => h.trans _ _ _ h1 ((hrest _).2 e' t k)⟩

/-- Taking an exception keeps the relation (rules R561, R572). -/
theorem EntryTolerant.enter (h : EntryTolerant R) (e : Event) (p : Long) (s : State) : R s (enter e p s) := by
  unfold Machine.enter
  split
  · rename_i t k; exact (h.body e p s).1 _ _ k
  · rename_i e' t k; exact h.trans _ _ _ ((h.body e p s).2 _ _ k) (h.halted t)

end Sys2Proof.Machine
end

