-- ==== Sys2Proof/Laws/Bodies.lean ====
section
/-! SUPPORT. Laws/Bodies.lean: a relation that every primitive operation of the CPU keeps is kept by every instruction. -/

namespace Sys2Proof.Machine

open Sys2Proof.Config

variable {R : State → State → Prop}

/-- What the whole instruction set does, as a list of requirements on a relation. -/
structure ExecTolerant (R : State → State → Prop) : Prop extends Tolerant R where
  entry : EntryTolerant R
  srWord : ∀ s w, R s { s with regs := { s.regs with sr := Sr.ofWord s.cfg.srT0Stored w } }
  usp : ∀ s v, R s { s with regs := { s.regs with usp := v } }
  run : ∀ s r, R s { s with run := r }
  hid : ∀ s h, R s { s with hid := h }
  cycles : ∀ s n, R s { s with cycles := s.cycles + n }
  rollback : ∀ s t : State, R s.start t → R s (t.rollback s.start)

/-! ## The shared bodies -/

theorem Exec.Always.aluToDn (h : Tolerant R) (sz : Size) (x : Reg) (ea : Ea)
    (f : BitVec sz.bits → BitVec sz.bits → BitVec sz.bits)
    {g : Sr → BitVec sz.bits → BitVec sz.bits → BitVec sz.bits → Sr} (hg : ∀ r a b c, SameSystem (g r a b c) r) :
    Exec.Always R (aluToDn sz x ea f g) :=
  .bind h (.readEa h ea sz) fun _ => .bind h (.readD h x sz) fun _ => .bind h (.writeD h x sz _) fun _ =>
    .updateSr h fun _ => hg _ _ _ _

theorem Exec.Always.aluToEa (h : Tolerant R) (sz : Size) (x : Reg) (ea : Ea)
    (f : BitVec sz.bits → BitVec sz.bits → BitVec sz.bits)
    {g : Sr → BitVec sz.bits → BitVec sz.bits → BitVec sz.bits → Sr} (hg : ∀ r a b c, SameSystem (g r a b c) r) :
    Exec.Always R (aluToEa sz x ea f g) :=
  .bind h (.resolve h ea sz) fun loc => .bind h (.locRead h loc sz) fun _ => .bind h (.readD h x sz) fun _ =>
    .bind h (.locWrite h loc sz _) fun _ => .updateSr h fun _ => hg _ _ _ _

theorem Exec.Always.aluImm (h : Tolerant R) (sz : Size) (ea : Ea)
    (f : BitVec sz.bits → BitVec sz.bits → BitVec sz.bits)
    {g : Sr → BitVec sz.bits → BitVec sz.bits → BitVec sz.bits → Sr} (hg : ∀ r a b c, SameSystem (g r a b c) r) :
    Exec.Always R (aluImm sz ea f g) :=
  .bind h (.fetchImm h sz) fun _ => .bind h (.resolve h ea sz) fun loc => .bind h (.locRead h loc sz) fun _ =>
    .bind h (.locWrite h loc sz _) fun _ => .updateSr h fun _ => hg _ _ _ _

theorem Exec.Always.quickOp (h : Tolerant R) (q : Nat) (sz : Size) (ea : Ea) (fa : Long → Long → Long)
    (f : BitVec sz.bits → BitVec sz.bits → BitVec sz.bits)
    {g : Sr → BitVec sz.bits → BitVec sz.bits → BitVec sz.bits → Sr} (hg : ∀ r a b c, SameSystem (g r a b c) r) :
    Exec.Always R (quickOp q sz ea fa f g) := by
  have hr : ∀ ea, Exec.Always R (do
      let loc ← Machine.resolve ea sz
      let d ← loc.read sz
      loc.write sz (f (BitVec.ofNat sz.bits q) d)
      Machine.updateSr (fun sr => g sr (BitVec.ofNat sz.bits q) d (f (BitVec.ofNat sz.bits q) d))) := fun ea =>
    .bind h (.resolve h ea sz) fun loc => .bind h (.locRead h loc sz) fun _ =>
      .bind h (.locWrite h loc sz _) fun _ => .updateSr h fun _ => hg _ _ _ _
  cases ea with
  | an r => exact .bind h (.readA h r) fun _ => .writeA h r _
  | dn r => exact hr _
  | ind r => exact hr _
  | postinc r => exact hr _
  | predec r => exact hr _
  | disp r => exact hr _
  | index r => exact hr _
  | absW => exact hr _
  | absL => exact hr _
  | pcDisp => exact hr _
  | pcIndex => exact hr _
  | imm => exact hr _

theorem Exec.Always.extendedOp (h : Tolerant R) (m : XMode) (sz : Size) (x y : Reg)
    (f : Bool → BitVec sz.bits → BitVec sz.bits → BitVec sz.bits)
    {g : Sr → BitVec sz.bits → BitVec sz.bits → BitVec sz.bits → Sr} (hg : ∀ r a b c, SameSystem (g r a b c) r) :
    Exec.Always R (extendedOp m sz x y f g) :=
  .bind h (.extendedOperands h m sz x y) fun (_, loc, _) => .bind h (.readSr h) fun _ =>
    .bind h (.locWrite h loc sz _) fun _ => .updateSr h fun _ => hg _ _ _ _

theorem Exec.Always.shiftReg (h : Tolerant R) (k : ShiftKind) (c : ShiftCount) (sz : Size) (y : Reg) :
    Exec.Always R (shiftReg k c sz y) :=
  .bind h (.shiftCount h c) fun _ => .bind h (.readD h y sz) fun _ => .bind h (.readSr h) fun _ =>
    .bind h (.writeD h y sz _) fun _ => .updateSr h fun _ => ⟨rfl, rfl, rfl, rfl⟩

theorem Exec.Always.shiftMem (h : Tolerant R) (k : ShiftKind) (ea : Ea) : Exec.Always R (shiftMem k ea) :=
  .modifyEa h ea .w fun _ _ => ⟨rfl, rfl, rfl, rfl⟩

theorem Exec.Always.bitOpAt (h : Tolerant R) (op : BitOp) (ea : Ea) (sz : Size) (b : Nat) :
    Exec.Always R (bitOpAt op ea sz b) :=
  .bind h (.resolve h ea sz) fun loc => .bind h (.locRead h loc sz) fun _ =>
    .bind h (.updateSr h fun _ => ⟨rfl, rfl, rfl, rfl⟩) fun _ => by
      cases op with
      | test => exact .pure h _
      | change => exact .locWrite h loc sz _
      | clear => exact .locWrite h loc sz _
      | set => exact .locWrite h loc sz _

theorem Exec.Always.bitOp (h : Tolerant R) (op : BitOp) (ea : Ea) (n : Nat) : Exec.Always R (bitOp op ea n) := by
  cases ea <;> exact .bitOpAt h op _ _ _

theorem Exec.Always.bitStatic (h : Tolerant R) (op : BitOp) (ea : Ea) : Exec.Always R (bitStatic op ea) :=
  .bind h (.fetch16 h) fun _ => .bitOp h op ea _

theorem Exec.Always.bitDynamic (h : Tolerant R) (op : BitOp) (x : Reg) (ea : Ea) :
    Exec.Always R (bitDynamic op x ea) := .bind h (.readD h x .l) fun _ => .bitOp h op ea _

theorem Exec.Always.bcdFinish (h : Tolerant R) (loc : Loc) (r : Byte × Bool) : Exec.Always R (bcdFinish loc r) :=
  .bind h (.locWrite h loc .b _) fun _ => .bind h (.drawBit h) fun _ => .bind h (.drawBit h) fun _ =>
    .updateSr h fun _ => ⟨rfl, rfl, rfl, rfl⟩

theorem Exec.Always.divideByZero (h : Tolerant R) : Exec.Always R divideByZero :=
  .bind h (.drawBit h) fun _ => .bind h (.drawBit h) fun _ => .bind h (.drawBit h) fun _ =>
    .bind h (.updateSr h fun _ => ⟨rfl, rfl, rfl, rfl⟩) fun _ => .raise h _

theorem Exec.Always.divideOverflow (h : Tolerant R) : Exec.Always R divideOverflow :=
  .bind h (.drawBit h) fun _ => .bind h (.drawBit h) fun _ => .updateSr h fun _ => ⟨rfl, rfl, rfl, rfl⟩

theorem Exec.Always.divideResult (h : Tolerant R) (x : Reg) (q rem : Word) : Exec.Always R (divideResult x q rem) :=
  .bind h (.writeD h x .l _) fun _ => .updateSr h fun _ => ⟨rfl, rfl, rfl, rfl⟩

theorem RegFile.setListed_cases (s : State) (i : Fin 16) (v : Long) :
    (∃ n w, s.regs.setListed i v = s.regs.setD n w) ∨ ∃ n w, s.regs.setListed i v = s.regs.setA n w := by
  unfold RegFile.setListed
  split
  · exact .inl ⟨_, _, rfl⟩
  · exact .inr ⟨_, _, rfl⟩

theorem Exec.Always.storeListed (h : Tolerant R) (sz : Size) :
    ∀ (l : List (Fin 16)) (a : Long), Exec.Always R (storeListed sz l a)
  | [], _ => .pure h _
  | _ :: rest, _ => .bind h (.reading h _) fun _ => .bind h (.writeMem h sz _ _) fun _ => .storeListed h sz rest _

theorem Exec.Always.storeListedDown (h : Tolerant R) (sz : Size) :
    ∀ (l : List (Fin 16)) (a : Long), Exec.Always R (storeListedDown sz l a)
  | [], _ => .pure h _
  | _ :: rest, _ => .bind h (.reading h _) fun _ => .bind h (.writeMem h sz _ _) fun _ => .storeListedDown h sz rest _

theorem Exec.Always.loadListed (h : Tolerant R) (sz : Size) :
    ∀ (l : List (Fin 16)) (a : Long), Exec.Always R (loadListed sz l a)
  | [], _ => .pure h _
  | _ :: rest, _ => .bind h (.readMem h sz _) fun _ => .bind h (.updating fun s => by
      rcases RegFile.setListed_cases s _ _ with ⟨n, w, e⟩ | ⟨n, w, e⟩
      · rw [e]; exact h.setD s n w
      · rw [e]; exact h.setA s n w) fun _ => .loadListed h sz rest _

theorem Exec.Always.ccrImm (h : Tolerant R) (f : Byte → Byte → Byte) : Exec.Always R (ccrImm f) :=
  .bind h (.fetchImm h .b) fun _ => .bind h (.readSr h) fun _ => .writeCcr h _

theorem Exec.Always.writeSrWord (h : ExecTolerant R) (w : Word) : Exec.Always R (writeSrWord w) :=
  .updating fun s => h.srWord s w

theorem Exec.Always.srImm (h : ExecTolerant R) (f : Word → Word → Word) : Exec.Always R (srImm f) :=
  .bind h.toTolerant (.requireSupervisor h.toTolerant) fun _ => .bind h.toTolerant (.fetch16 h.toTolerant) fun _ =>
    .bind h.toTolerant (.readSr h.toTolerant) fun _ => .writeSrWord h _

/-! ## Running a rule -/

/-- A rule whose body keeps the relation keeps it as a whole, whatever it raises. -/
theorem ExecTolerant.runRule (h : ExecTolerant R) {body : Exec Unit} (hb : Exec.Always R body) (s : State) :
    R s (runRule body s) := by
  have h0 : R s s.start := h.hid s _
  have charge : ∀ t : State, R t t.charge := fun t => h.cycles t _
  have noTrace : ∀ t : State, R t t.noTrace := fun t => h.hid t _
  unfold Machine.runRule
  cases hs : body s.start with
  | ok a t => exact h.trans h0 (h.trans ((hb _).1 a t hs) (charge t))
  | error e t =>
    have ht : R s t := h.trans h0 ((hb _).2 e t hs)
    show R s (t.afterEvent s.start e)
    unfold State.afterEvent
    cases e.group with
    | zero =>
      have hr : R s (t.rollback s.start) := h.rollback s t ((hb _).2 e t hs)
      refine h.trans hr (h.trans (charge _) ?_)
      unfold takeFault
      refine h.trans (noTrace _) ?_
      show R _ (if (t.rollback s.start).charge.noTrace.inGroup0 then _ else _)
      split
      · exact h.entry.halted _
      · exact h.entry.enter _ _ _
    | one => exact h.trans ht (h.trans (charge _) (h.trans (noTrace _) (h.entry.enter _ _ _)))
    | two => exact h.trans ht (h.trans (charge _) (h.entry.enter _ _ _))

/-! ## All instructions -/

/-- The instructions of rule R500, which check the mode before anything else. -/
def isPrivileged : Instr → Bool
  | .andiToSr => true
  | .eoriToSr => true
  | .oriToSr => true
  | .moveToSr _ => true
  | .moveToUsp _ => true
  | .moveFromUsp _ => true
  | .rte => true
  | .stop => true
  | .reset => true
  | _ => false

/-- The instruction's meaning is the completion of a body that keeps the relation. -/
def HasBody (R : State → State → Prop) (i : Instr) : Prop :=
  ∃ body, (∀ s, exec i s = complete body s) ∧ Exec.Always R body

/-- Every unprivileged instruction is built from operations a tolerant relation allows. -/
theorem Tolerant.hasBody (h : Tolerant R) : ∀ i : Instr, isPrivileged i = false → HasBody R i := by
  have same : ∀ f : Sr, SameSystem f f := fun f => ⟨rfl, rfl, rfl, rfl⟩
  intro i hi
  cases i with
  | oriToSr => cases hi
  | andiToSr => cases hi
  | eoriToSr => cases hi
  | moveToSr ea => cases hi
  | moveToUsp y => cases hi
  | moveFromUsp y => cases hi
  | reset => cases hi
  | stop => cases hi
  | rte => cases hi
  | oriToCcr => exact ⟨_, fun _ => rfl, .ccrImm h _⟩
  | andiToCcr => exact ⟨_, fun _ => rfl, .ccrImm h _⟩
  | eoriToCcr => exact ⟨_, fun _ => rfl, .ccrImm h _⟩
  | ori sz ea => exact ⟨_, fun _ => rfl, .aluImm h _ _ _ fun _ _ _ _ => ⟨rfl, rfl, rfl, rfl⟩⟩
  | andi sz ea => exact ⟨_, fun _ => rfl, .aluImm h _ _ _ fun _ _ _ _ => ⟨rfl, rfl, rfl, rfl⟩⟩
  | eori sz ea => exact ⟨_, fun _ => rfl, .aluImm h _ _ _ fun _ _ _ _ => ⟨rfl, rfl, rfl, rfl⟩⟩
  | subi sz ea => exact ⟨_, fun _ => rfl, .aluImm h _ _ _ fun _ _ _ _ => ⟨rfl, rfl, rfl, rfl⟩⟩
  | addi sz ea => exact ⟨_, fun _ => rfl, .aluImm h _ _ _ fun _ _ _ _ => ⟨rfl, rfl, rfl, rfl⟩⟩
  | cmpi sz ea => exact ⟨_, fun _ => rfl, .bind h (.fetchImm h _) fun _ => .bind h (.readEa h _ _) fun _ =>
      .updateSr h fun _ => ⟨rfl, rfl, rfl, rfl⟩⟩
  | btst ea => exact ⟨_, fun _ => rfl, .bitStatic h _ _⟩
  | bchg ea => exact ⟨_, fun _ => rfl, .bitStatic h _ _⟩
  | bclr ea => exact ⟨_, fun _ => rfl, .bitStatic h _ _⟩
  | bset ea => exact ⟨_, fun _ => rfl, .bitStatic h _ _⟩
  | btstDn x ea => exact ⟨_, fun _ => rfl, .bitDynamic h _ _ _⟩
  | bchgDn x ea => exact ⟨_, fun _ => rfl, .bitDynamic h _ _ _⟩
  | bclrDn x ea => exact ⟨_, fun _ => rfl, .bitDynamic h _ _ _⟩
  | bsetDn x ea => exact ⟨_, fun _ => rfl, .bitDynamic h _ _ _⟩
  | movep m x y =>
    refine ⟨_, fun _ => rfl, .bind h (.fetch16 h) fun _ => .bind h (.readA h _) fun _ => ?_⟩
    cases m with
    | wordFromMem => exact .bind h (.readMem h .b _) fun _ => .bind h (.readMem h .b _) fun _ => .writeD h _ .w _
    | longFromMem =>
      exact .bind h (.readMem h .b _) fun _ => .bind h (.readMem h .b _) fun _ =>
        .bind h (.readMem h .b _) fun _ => .bind h (.readMem h .b _) fun _ => .writeD h _ .l _
    | wordToMem => exact .bind h (.readD h _ .l) fun _ => .bind h (.writeMem h .b _ _) fun _ => .writeMem h .b _ _
    | longToMem =>
      exact .bind h (.readD h _ .l) fun _ => .bind h (.writeMem h .b _ _) fun _ =>
        .bind h (.writeMem h .b _ _) fun _ => .bind h (.writeMem h .b _ _) fun _ => .writeMem h .b _ _
  | move sz src dst => exact ⟨_, fun _ => rfl, .bind h (.readEa h _ _) fun _ => .bind h (.resolve h _ _) fun _ =>
      .bind h (.locWrite h _ _ _) fun _ => .updateSr h fun _ => ⟨rfl, rfl, rfl, rfl⟩⟩
  | movea sz src r => exact ⟨_, fun _ => rfl, .bind h (.readAddrSource h _ _) fun _ => .writeA h _ _⟩
  | negx sz ea => exact ⟨_, fun _ => rfl, .modifyEa h _ _ fun _ _ => ⟨rfl, rfl, rfl, rfl⟩⟩
  | moveFromSr ea => exact ⟨_, fun _ => rfl, .bind h (.resolve h _ _) fun _ => .bind h (.readSr h) fun _ =>
      .locWrite h _ .w _⟩
  | chk x ea => exact ⟨_, fun _ => rfl, .bind h (.readEa h _ _) fun _ => .bind h (.readD h _ .w) fun _ =>
      .bind h (.drawBit h) fun _ => .bind h (.drawBit h) fun _ => .bind h (.drawBit h) fun _ =>
      .bind h (.updateSr h fun _ => ⟨rfl, rfl, rfl, rfl⟩) fun _ =>
        .ite (.bind h (.updateSr h fun _ => ⟨rfl, rfl, rfl, rfl⟩) fun _ => .raise h _)
          (.ite (.bind h (.updateSr h fun _ => ⟨rfl, rfl, rfl, rfl⟩) fun _ => .raise h _)
            (.bind h (.drawBit h) fun _ => .updateSr h fun _ => ⟨rfl, rfl, rfl, rfl⟩))⟩
  | lea x ea => exact ⟨_, fun _ => rfl, .bind h (.addressOf h _) fun _ => .writeA h _ _⟩
  | clr sz ea => exact ⟨_, fun _ => rfl, .bind h (.resolve h _ _) fun _ => .bind h (.locWrite h _ _ _) fun _ =>
      .updateSr h fun _ => ⟨rfl, rfl, rfl, rfl⟩⟩
  | neg sz ea => exact ⟨_, fun _ => rfl, .modifyEa h _ _ fun _ _ => ⟨rfl, rfl, rfl, rfl⟩⟩
  | moveToCcr ea => exact ⟨_, fun _ => rfl, .bind h (.readEa h _ _) fun _ => .writeCcr h _⟩
  | notEa sz ea => exact ⟨_, fun _ => rfl, .modifyEa h _ _ fun _ _ => ⟨rfl, rfl, rfl, rfl⟩⟩
  | nbcd ea => exact ⟨_, fun _ => rfl, .bind h (.resolve h _ _) fun _ => .bind h (.locRead h _ _) fun _ =>
      .bind h (.readSr h) fun _ => .bcdFinish h _ _⟩
  | swap y => exact ⟨_, fun _ => rfl, .bind h (.readD h _ .l) fun _ => .bind h (.writeD h _ .l _) fun _ =>
      .updateSr h fun _ => ⟨rfl, rfl, rfl, rfl⟩⟩
  | pea ea => exact ⟨_, fun _ => rfl, .bind h (.addressOf h _) fun _ => .push h .l _⟩
  | extDn sz y =>
    cases sz with
    | w => exact ⟨_, fun _ => rfl, .bind h (.readD h _ .b) fun _ => .bind h (.writeD h _ .w _) fun _ =>
        .updateSr h fun _ => ⟨rfl, rfl, rfl, rfl⟩⟩
    | l => exact ⟨_, fun _ => rfl, .bind h (.readD h _ .w) fun _ => .bind h (.writeD h _ .l _) fun _ =>
        .updateSr h fun _ => ⟨rfl, rfl, rfl, rfl⟩⟩
  | movemToMem sz ea =>
    refine ⟨_, fun _ => rfl, .bind h (.fetch16 h) fun mask => ?_⟩
    have hr : ∀ ea, Exec.Always R (Machine.addressOf ea >>= Machine.storeListed sz.toSize (movemList mask)) :=
      fun ea => .bind h (.addressOf h ea) fun _ => .storeListed h _ _ _
    cases ea with
    | predec r => exact .bind h (.readA h _) fun _ => .bind h (.storeListedDown h _ _ _) fun _ => .writeA h _ _
    | _ => exact hr _
  | movemToReg sz ea =>
    refine ⟨_, fun _ => rfl, .bind h (.fetch16 h) fun mask => ?_⟩
    have hr : ∀ ea, Exec.Always R (do
        let a ← Machine.addressOf ea
        let _ ← Machine.loadListed sz.toSize (movemList mask) a
        return ()) :=
      fun ea => .bind h (.addressOf h ea) fun _ => .bind h (.loadListed h _ _ _) fun _ => .pure h _
    cases ea with
    | postinc r => exact .bind h (.readA h _) fun _ => .bind h (.loadListed h _ _ _) fun _ => .writeA h _ _
    | _ => exact hr _
  | tst sz ea => exact ⟨_, fun _ => rfl, .bind h (.readEa h _ _) fun _ => .updateSr h fun _ => ⟨rfl, rfl, rfl, rfl⟩⟩
  | tas ea => exact ⟨_, fun _ => rfl, .modifyEa h _ _ fun _ _ => ⟨rfl, rfl, rfl, rfl⟩⟩
  | illegal => exact ⟨_, fun _ => rfl, .raise h _⟩
  | trap v => exact ⟨_, fun _ => rfl, .raise h _⟩
  | link y => exact ⟨_, fun _ => rfl, .bind h (.fetch16 h) fun _ => .bind h (.readA h _) fun _ =>
      .bind h (.writeA h _ _) fun _ => .bind h (.readA h _) fun _ => .bind h (.writeMem h .l _ _) fun _ =>
      .bind h (.writeA h _ _) fun _ => .bind h (.readA h _) fun _ => .writeA h _ _⟩
  | unlk y => exact ⟨_, fun _ => rfl, .bind h (.readA h _) fun _ => .bind h (.writeA h _ _) fun _ =>
      .bind h (.readMem h .l _) fun _ => .bind h (.writeA h _ _) fun _ => .writeA h _ _⟩
  | nop => exact ⟨_, fun _ => rfl, .pure h _⟩
  | rts => exact ⟨_, fun _ => rfl, .bind h (.pop h .l) fun _ => .jumpTo h _⟩
  | trapv => exact ⟨_, fun _ => rfl, .bind h (.readSr h) fun _ => .ite (.raise h _) (.pure h _)⟩
  | rtr => exact ⟨_, fun _ => rfl, .bind h (.pop h .w) fun _ => .bind h (.writeCcr h _) fun _ =>
      .bind h (.pop h .l) fun _ => .jumpTo h _⟩
  | jsr ea => exact ⟨_, fun _ => rfl, .bind h (.addressOf h _) fun _ => .bind h (.reading h _) fun _ =>
      .bind h (.push h .l _) fun _ => .jumpTo h _⟩
  | jmp ea => exact ⟨_, fun _ => rfl, .bind h (.addressOf h _) fun _ => .jumpTo h _⟩
  | addq q sz ea => exact ⟨_, fun _ => rfl, .quickOp h _ _ _ _ _ fun _ _ _ _ => ⟨rfl, rfl, rfl, rfl⟩⟩
  | subq q sz ea => exact ⟨_, fun _ => rfl, .quickOp h _ _ _ _ _ fun _ _ _ _ => ⟨rfl, rfl, rfl, rfl⟩⟩
  | scc c ea => exact ⟨_, fun _ => rfl, .bind h (.resolve h _ _) fun _ => .bind h (.readSr h) fun _ =>
      .locWrite h _ .b _⟩
  | dbcc c y => exact ⟨_, fun _ => rfl, .bind h (.fetch16 h) fun _ => .bind h (.readSr h) fun _ =>
      .ite (.pure h _) (.bind h (.readD h _ .w) fun _ => .bind h (.writeD h _ .w _) fun _ =>
        .ite (.bind h (.branchTarget h _) fun _ => .jumpTo h _) (.pure h _))⟩
  | bra k => exact ⟨_, fun _ => rfl, .bind h (.branchDisp h _) fun _ => .bind h (.branchTarget h _) fun _ =>
      .jumpTo h _⟩
  | bsr k => exact ⟨_, fun _ => rfl, .bind h (.branchDisp h _) fun _ => .bind h (.reading h _) fun _ =>
      .bind h (.push h .l _) fun _ => .bind h (.branchTarget h _) fun _ => .jumpTo h _⟩
  | bcc c k => exact ⟨_, fun _ => rfl, .bind h (.branchDisp h _) fun _ => .bind h (.branchTarget h _) fun _ =>
      .bind h (.readSr h) fun _ => .ite (.jumpTo h _) (.pure h _)⟩
  | moveq x k => exact ⟨_, fun _ => rfl, .bind h (.writeD h _ .l _) fun _ =>
      .updateSr h fun _ => ⟨rfl, rfl, rfl, rfl⟩⟩
  | orToDn sz x ea => exact ⟨_, fun _ => rfl, .aluToDn h _ _ _ _ fun _ _ _ _ => ⟨rfl, rfl, rfl, rfl⟩⟩
  | andToDn sz x ea => exact ⟨_, fun _ => rfl, .aluToDn h _ _ _ _ fun _ _ _ _ => ⟨rfl, rfl, rfl, rfl⟩⟩
  | addToDn sz x ea => exact ⟨_, fun _ => rfl, .aluToDn h _ _ _ _ fun _ _ _ _ => ⟨rfl, rfl, rfl, rfl⟩⟩
  | subToDn sz x ea => exact ⟨_, fun _ => rfl, .aluToDn h _ _ _ _ fun _ _ _ _ => ⟨rfl, rfl, rfl, rfl⟩⟩
  | orToEa sz x ea => exact ⟨_, fun _ => rfl, .aluToEa h _ _ _ _ fun _ _ _ _ => ⟨rfl, rfl, rfl, rfl⟩⟩
  | andToEa sz x ea => exact ⟨_, fun _ => rfl, .aluToEa h _ _ _ _ fun _ _ _ _ => ⟨rfl, rfl, rfl, rfl⟩⟩
  | addToEa sz x ea => exact ⟨_, fun _ => rfl, .aluToEa h _ _ _ _ fun _ _ _ _ => ⟨rfl, rfl, rfl, rfl⟩⟩
  | subToEa sz x ea => exact ⟨_, fun _ => rfl, .aluToEa h _ _ _ _ fun _ _ _ _ => ⟨rfl, rfl, rfl, rfl⟩⟩
  | eor sz x ea => exact ⟨_, fun _ => rfl, .aluToEa h _ _ _ _ fun _ _ _ _ => ⟨rfl, rfl, rfl, rfl⟩⟩
  | divu x ea => exact ⟨_, fun _ => rfl, .bind h (.readEa h _ _) fun _ => .bind h (.readD h _ .l) fun _ =>
      .ite (.divideByZero h) (.ite (.divideOverflow h) (.divideResult h _ _ _))⟩
  | divs x ea => exact ⟨_, fun _ => rfl, .bind h (.readEa h _ _) fun _ => .bind h (.readD h _ .l) fun _ =>
      .ite (.divideByZero h) (.ite (.divideOverflow h) (.divideResult h _ _ _))⟩
  | mulu x ea => exact ⟨_, fun _ => rfl, .bind h (.readEa h _ _) fun _ => .bind h (.readD h _ .w) fun _ =>
      .bind h (.writeD h _ .l _) fun _ => .updateSr h fun _ => ⟨rfl, rfl, rfl, rfl⟩⟩
  | muls x ea => exact ⟨_, fun _ => rfl, .bind h (.readEa h _ _) fun _ => .bind h (.readD h _ .w) fun _ =>
      .bind h (.writeD h _ .l _) fun _ => .updateSr h fun _ => ⟨rfl, rfl, rfl, rfl⟩⟩
  | sbcd m x y => exact ⟨_, fun _ => rfl, .bind h (.extendedOperands h _ _ _ _) fun (_, _, _) =>
      .bind h (.readSr h) fun _ => .bcdFinish h _ _⟩
  | abcd m x y => exact ⟨_, fun _ => rfl, .bind h (.extendedOperands h _ _ _ _) fun (_, _, _) =>
      .bind h (.readSr h) fun _ => .bcdFinish h _ _⟩
  | suba sz x ea => exact ⟨_, fun _ => rfl, .bind h (.readAddrSource h _ _) fun _ => .bind h (.readA h _) fun _ =>
      .writeA h _ _⟩
  | adda sz x ea => exact ⟨_, fun _ => rfl, .bind h (.readAddrSource h _ _) fun _ => .bind h (.readA h _) fun _ =>
      .writeA h _ _⟩
  | subx m sz x y => exact ⟨_, fun _ => rfl, .extendedOp h _ _ _ _ _ fun _ _ _ _ => ⟨rfl, rfl, rfl, rfl⟩⟩
  | addx m sz x y => exact ⟨_, fun _ => rfl, .extendedOp h _ _ _ _ _ fun _ _ _ _ => ⟨rfl, rfl, rfl, rfl⟩⟩
  | lineA d => exact ⟨_, fun _ => rfl, .raise h _⟩
  | lineF d => exact ⟨_, fun _ => rfl, .raise h _⟩
  | cmp sz x ea => exact ⟨_, fun _ => rfl, .bind h (.readEa h _ _) fun _ => .bind h (.readD h _ _) fun _ =>
      .updateSr h fun _ => ⟨rfl, rfl, rfl, rfl⟩⟩
  | cmpa sz x ea => exact ⟨_, fun _ => rfl, .bind h (.readAddrSource h _ _) fun _ => .bind h (.readA h _) fun _ =>
      .updateSr h fun _ => ⟨rfl, rfl, rfl, rfl⟩⟩
  | cmpm sz x y => exact ⟨_, fun _ => rfl, .bind h (.readEa h _ _) fun _ => .bind h (.readEa h _ _) fun _ =>
      .updateSr h fun _ => ⟨rfl, rfl, rfl, rfl⟩⟩
  | exgDxDy x y => exact ⟨_, fun _ => rfl, .bind h (.readD h _ .l) fun _ => .bind h (.readD h _ .l) fun _ =>
      .bind h (.writeD h _ .l _) fun _ => .writeD h _ .l _⟩
  | exgAxAy x y => exact ⟨_, fun _ => rfl, .bind h (.readA h _) fun _ => .bind h (.readA h _) fun _ =>
      .bind h (.writeA h _ _) fun _ => .writeA h _ _⟩
  | exgDxAy x y => exact ⟨_, fun _ => rfl, .bind h (.readD h _ .l) fun _ => .bind h (.readA h _) fun _ =>
      .bind h (.writeD h _ .l _) fun _ => .writeA h _ _⟩
  | asrReg c sz y => exact ⟨_, fun _ => rfl, .shiftReg h _ _ _ _⟩
  | aslReg c sz y => exact ⟨_, fun _ => rfl, .shiftReg h _ _ _ _⟩
  | lsrReg c sz y => exact ⟨_, fun _ => rfl, .shiftReg h _ _ _ _⟩
  | lslReg c sz y => exact ⟨_, fun _ => rfl, .shiftReg h _ _ _ _⟩
  | roxrReg c sz y => exact ⟨_, fun _ => rfl, .shiftReg h _ _ _ _⟩
  | roxlReg c sz y => exact ⟨_, fun _ => rfl, .shiftReg h _ _ _ _⟩
  | rorReg c sz y => exact ⟨_, fun _ => rfl, .shiftReg h _ _ _ _⟩
  | rolReg c sz y => exact ⟨_, fun _ => rfl, .shiftReg h _ _ _ _⟩
  | asrMem ea => exact ⟨_, fun _ => rfl, .shiftMem h _ _⟩
  | aslMem ea => exact ⟨_, fun _ => rfl, .shiftMem h _ _⟩
  | lsrMem ea => exact ⟨_, fun _ => rfl, .shiftMem h _ _⟩
  | lslMem ea => exact ⟨_, fun _ => rfl, .shiftMem h _ _⟩
  | roxrMem ea => exact ⟨_, fun _ => rfl, .shiftMem h _ _⟩
  | roxlMem ea => exact ⟨_, fun _ => rfl, .shiftMem h _ _⟩
  | rorMem ea => exact ⟨_, fun _ => rfl, .shiftMem h _ _⟩
  | rolMem ea => exact ⟨_, fun _ => rfl, .shiftMem h _ _⟩

/-- Every instruction is built from operations that a relation with the system writes allows. -/
theorem ExecTolerant.hasBody (h : ExecTolerant R) (i : Instr) : HasBody R i := by
  by_cases hi : isPrivileged i = true
  · have ht := h.toTolerant
    have sup := Exec.Always.requireSupervisor ht
    cases i with
    | oriToSr => exact ⟨_, fun _ => rfl, .srImm h _⟩
    | andiToSr => exact ⟨_, fun _ => rfl, .srImm h _⟩
    | eoriToSr => exact ⟨_, fun _ => rfl, .srImm h _⟩
    | moveToSr ea => exact ⟨_, fun _ => rfl, .bind ht sup fun _ => .bind ht (.readEa ht _ .w) fun _ => .writeSrWord h _⟩
    | moveToUsp y => exact ⟨_, fun _ => rfl, .bind ht sup fun _ => .bind ht (.readA ht _) fun _ =>
        .updating fun s => h.usp s _⟩
    | moveFromUsp y => exact ⟨_, fun _ => rfl, .bind ht sup fun _ => .bind ht (.reading ht _) fun _ => .writeA ht _ _⟩
    | reset => exact ⟨_, fun _ => rfl, .bind ht sup fun _ => .updating fun s => h.run s _⟩
    | stop => exact ⟨_, fun _ => rfl, .bind ht sup fun _ => .bind ht (.fetch16 ht) fun _ =>
        .bind ht (.writeSrWord h _) fun _ => .updating fun s => by
          split
          · exact ht.refl s
          · exact h.run s _⟩
    | rte => exact ⟨_, fun _ => rfl, .bind ht sup fun _ => .bind ht (.reading ht _) fun _ =>
        .bind ht (.readMem ht .w _) fun _ => .bind ht (.readMem ht .l _) fun _ =>
        .bind ht (.updating fun s => h.entry.ssp s _) fun _ => .bind ht (.writeSrWord h _) fun _ => .jumpTo ht _⟩
    | _ => cases hi
  · exact h.toTolerant.hasBody i (by simpa using hi)

/-- What every primitive operation keeps, every instruction keeps. -/
theorem ExecTolerant.exec_keeps (h : ExecTolerant R) {i : Instr} {s t : State} (e : exec i s = .next t) : R s t := by
  obtain ⟨body, hb, ha⟩ := h.hasBody i
  rw [hb] at e
  cases e
  exact h.runRule ha s

/-- Every instruction answers a next state. -/
theorem exec_next (i : Instr) (s : State) : ∃ t, exec i s = .next t := by
  cases i <;> exact ⟨_, rfl⟩

end Sys2Proof.Machine
end

