-- ==== Sys2Proof/Laws/Complete.lean ====
section
/-! SUPPORT. Laws/Complete.lean: from what a rule's body leaves to what the instruction changes. -/

namespace Sys2Proof.Machine

open Sys2Proof.Config

/-- A rule that leaves another pc, other registers, draws and measures, and nothing else, completes as `ChangesRegs` says. -/
theorem complete_changesRegs {body : Exec Unit} {s t : State} {r : RegFile} {d : Nat} (h : body s.start = .ok () t)
    (m : Measured { s.start with regs := r, draws := d } t) :
    ∃ u, complete body s = .next u ∧ ChangesRegs s u t.pc r := by
  refine ⟨t.charge, complete_of_ok h, rfl, m.regs, m.run, ⟨m.cfg, m.inGroup0, m.group0Handler, m.irq, m.out, m.pc0, m.ir, m.tracePending, ?_⟩,
    ⟨fun e => ?_, m.mem, m.ym, m.paula⟩⟩
  · have h1 := t.charge_cycles_lt
    have h2 : t.cycles = s.cycles := m.cycles
    omega
  · have h1 : t.charge.mem = s.mem := m.mem
    rw [h1]

/-- What a location write stores depends only on the parameters, memory and engines before it and after it. -/
theorem WritesAt.congr {s s' t t' : State} {sz : Size} {loc : Loc} {v : BitVec sz.bits} (h : WritesAt s t sz loc v)
    (hc : s'.cfg = s.cfg) (hm : s'.mem = s.mem) (hy : s'.ym = s.ym) (hp : s'.paula = s.paula)
    (tc : t'.cfg = t.cfg) (tm : t'.mem = t.mem) (ty : t'.ym = t.ym) (tp : t'.paula = t.paula) :
    WritesAt s' t' sz loc v := by
  have same : SameMemory s t → SameMemory s' t' := fun k =>
    ⟨fun e => by rw [tm, hm]; exact k.read e, by rw [tm, hm]; exact k.mem, by rw [ty, hy]; exact k.ym,
      by rw [tp, hp]; exact k.paula⟩
  cases loc with
  | dreg n => exact same h
  | areg n => exact same h
  | imm x => exact same h
  | mem a =>
    have h' : StoresAt s t sz a v := h
    refine StoresAt.mk (fun e he => ?_) (fun hr hn => ?_) (fun hr => ?_) (fun hr => ?_)
    · rw [tm, hm]; exact h'.frame e (by rwa [State.cellsOf_congr hc] at he)
    · rw [State.memValue_congr tc tm ty tp]
      exact h'.value (by rwa [State.inRam_congr hc] at hr) (by rwa [State.cellsOf_congr hc] at hn)
    · rw [ty, hy]; exact h'.ym (by rwa [State.inRam_congr hc] at hr)
    · rw [tp, hp]; exact h'.paula (by rwa [State.inRam_congr hc] at hr)

/-- A rule that, from a measured state with registers `r`, writes a location and then sets SR completes as `ChangesAt`
says, with pc where it was before the write. -/
theorem complete_changesAt {body : Exec Unit} {s t w : State} {r : RegFile} {sz : Size} {loc : Loc}
    {v : BitVec sz.bits} {f : Sr} {d d' : Nat} (m : Measured { s.start with regs := r, draws := d } t) (hw : loc.write sz v t = .ok () w)
    (h : body s.start = .ok () { w with regs := { w.regs with sr := f }, draws := d' }) :
    ∃ u, complete body s = .next u ∧ ChangesAt s u t.pc ((loc.putRegs sz v r).withSr f) sz loc v := by
  obtain ⟨_, st, mem, y, p, dev, rfl⟩ := Loc.write_eq_ok hw
  refine ⟨_, complete_of_ok h, rfl, ?_, m.run, ⟨m.cfg, m.inGroup0, m.group0Handler, m.irq, m.out, m.pc0, m.ir, m.tracePending, ?_⟩, ?_⟩
  · have hr := m.regs
    show ({ loc.putRegs sz v t.regs with sr := f } : RegFile) = _
    rw [hr]
    rfl
  · have h2 : t.cycles = s.cycles := m.cycles
    exact h2 ▸ State.charge_cycles_lt _
  · exact st.congr m.cfg.symm m.mem.symm m.ym.symm m.paula.symm rfl rfl rfl rfl

/-! ## Operands of an instruction -/

/-- The start of an instruction changes no location's value. -/
theorem Loc.value_start (loc : Loc) (s : State) (sz : Size) : loc.value s.start sz = loc.value s sz := by
  cases loc with
  | mem a => exact State.memValue_congr rfl rfl rfl rfl sz a
  | dreg n => rfl
  | areg n => rfl
  | imm v => rfl

/-- A located operand can be read and then written; in between only measures have changed besides what the addressing mode
does to its register. -/
theorem Locates.readModifyWrite {sz : Size} {ea : Ea} {s t s1 : State} {loc : Loc} (hm : Measured s.start s1)
    (h : Locates ea sz s1 loc t) :
    ∃ u, resolve ea sz s1 = .ok loc t ∧ loc.read sz t = .ok (loc.value s sz) u ∧
      Measured { s.start with regs := s.regs.bump ea sz } u ∧ u.pc = t.pc ∧
      ∀ w : BitVec sz.bits, ∃ x, loc.write sz w u = .ok () x ∧ x.regs.sr = s.regs.sr := by
  obtain ⟨h1, u, h2, hu, hpc⟩ := h.resolve_read
  have hmu : Measured { s.start with regs := s.regs.bump ea sz } u := by
    rw [show s1.regs = s.regs from hm.regs] at hu
    exact (hm.withRegs (s.regs.bump ea sz)).trans hu
  have ha : loc.accessible u sz = true := by
    rw [Loc.accessible_congr (s := s1) (by rw [hmu.cfg, hm.cfg])]
    exact h.2
  refine ⟨u, h1, by rw [h2, hm.value, Loc.value_start], hmu, hpc, fun w => ?_⟩
  obtain ⟨m, y, p, dev, e, _⟩ := Loc.write_ok ha w
  exact ⟨_, e, by simp [hmu.regs]⟩

/-- A located operand can be written without being read. -/
theorem Locates.store {sz : Size} {ea : Ea} {s t : State} {loc : Loc} (h : Locates ea sz s.start loc t)
    (v : BitVec sz.bits) :
    Measured { s.start with regs := s.regs.bump ea sz } t ∧ ∃ x, loc.write sz v t = .ok () x ∧ x.regs.sr = s.regs.sr := by
  have hm := resolve_eq_ok h.1
  have ha : loc.accessible t sz = true := by
    rw [Loc.accessible_congr (s := s.start) hm.cfg]
    exact h.2
  obtain ⟨m, y, p, dev, e, _⟩ := Loc.write_ok ha v
  exact ⟨hm, _, e, by simp [hm.regs]⟩

end Sys2Proof.Machine
end

