-- ==== Sys2Proof/Machine/Session.lean ====
section
/-! DEFINITION. Machine/Session.lean: the operations the block offers its scheduler and host (rules R740, R743, R760-R769)
beside `step` and `State.resetWith`. -/

namespace Sys2Proof.Machine

open Sys2Proof.Config

/-- A configuration error of session setup (rule R740). -/
inductive ConfigError where
  /-- `OUT_RATE` is outside 8,000..96,000. -/
  | sampleRate
  /-- `ENTRY_PC` is odd or outside RAM. -/
  | entryPoint
  /-- The image bytes do not fit in RAM. -/
  | imageSize
  deriving DecidableEq, Repr

/-- `setup(image, parameters)` (rule R740): the checks in order, then the power-up state. Malformed hardware flags are no
configuration error: the session exists and has ended. -/
def setup (p : Params) (l : Launch) : Except ConfigError State :=
  if p.outRate < 8000 ∨ 96000 < p.outRate then .error .sampleRate
  else if isOdd l.entry ∨ p.memSize ≤ l.entry.toNat % 2 ^ p.addrBits then .error .entryPoint
  else if p.memSize < l.load + l.bytes.length then .error .imageSize
  else .ok (State.resetWith p l)

/-! ## Host register access between steps (rule R743); reading is the fields themselves -/

/-- The host writes D[n]. -/
def State.hostSetD (s : State) (n : Reg) (v : Long) : State := { s with regs := s.regs.setD n v }

/-- The host writes A[n]; A7 is the active stack pointer. -/
def State.hostSetA (s : State) (n : Reg) (v : Long) : State := { s with regs := s.regs.setA n v }

/-- The host writes USP. -/
def State.hostSetUsp (s : State) (v : Long) : State := { s with regs := { s.regs with usp := v } }

/-- The host writes SSP. -/
def State.hostSetSsp (s : State) (v : Long) : State := { s with regs := { s.regs with ssp := v } }

/-- The host writes pc; an odd one faults at the next fetch. -/
def State.hostSetPc (s : State) (v : Long) : State := { s with pc := v }

/-- The host writes SR under its mask (rule R47). -/
def State.hostSetSr (s : State) (w : Word) : State :=
  { s with regs := { s.regs with sr := Sr.ofWord s.cfg.srT0Stored w } }

/-- The host writes the run state. -/
def State.hostSetRun (s : State) (r : Run) : State := { s with run := r }

/-! ## Slices and output -/

/-- The loop of `run_slice()` (rule R761): CPU steps while the CPU is not halted and the slice's target lies ahead, at most
`fuel` of them. -/
def State.runCpu : Nat → State → State
  | 0, s => s
  | fuel + 1, s =>
    if s.run ≠ .halted ∧ s.cycles < s.sliceTarget then
      match stepCpu s with
      | .next t => State.runCpu fuel t
      | .fault _ => s
      | .refused _ => s
    else s

/-- `run_slice()` (rules R760, R761): the CPU runs to the slice's target, and the next slice's number stands; nothing is
rendered. Each CPU step takes a cycle or more, so the cycles still ahead are fuel enough (`State.runCpu_done`). -/
def State.runSlice (s : State) : State :=
  let t := State.runCpu (s.sliceTarget - s.cycles) s
  { t with out := { t.out with slice := t.out.slice + 1 } }

/-- The loop of `render(k)` (rule R766): `run_slice(); render_slice()` and the end marks, until the FIFO holds `k` frames or
the session has ended, at most `fuel` times. -/
def State.fillFifo : Nat → Nat → State → State
  | 0, _, s => s
  | fuel + 1, k, s =>
    if s.out.fifo.length < k ∧ s.out.ended = false then State.fillFifo fuel k s.runSlice.renderSlice.markEnd else s

/-- The bytes of a frame: left then right, each little-endian (rule R764). -/
def Frame.bytes (f : Frame) : List Byte :=
  [f.left.extractLsb' 0 8, f.left.extractLsb' 8 8, f.right.extractLsb' 0 8, f.right.extractLsb' 8 8]

/-- The result of `render` (rule R766). -/
structure RenderResult where
  pcm : List Byte
  framesWritten : Nat
  endOfStream : Bool
  deriving DecidableEq, Repr

/-- The end of `render(k)` (rule R766): the first `k` frames, or all there are, leave the FIFO. -/
def takeFrames (k : Nat) (s : State) : RenderResult × State :=
  let taken := s.out.fifo.take k
  let rest := s.out.fifo.drop k
  ({ pcm := taken.flatMap Frame.bytes
     framesWritten := taken.length
     endOfStream := s.out.ended && rest.isEmpty },
   { s with out := { s.out with fifo := rest, returned := s.out.returned + taken.length } })

/-- Slices enough to render `k` more frames (log entry 25): slice j ends at (j + 1) · SLICE_CYCLES or later, and `k` more
frames are there once the cycles reach (n + k) · CPU_CLOCK_HZ / OUT_RATE. -/
def renderFuel (k : Nat) (s : State) : Nat :=
  ((s.out.next + k) * s.cfg.cpuClock / s.cfg.outRate + 1) / s.cfg.sliceCycles + 1

/-- `render(session, k)` (rule R766). -/
def render (k : Nat) (s : State) : RenderResult × State := takeFrames k (State.fillFifo (renderFuel k s) k s)

/-- The stream position in milliseconds (rule R769). The spec writes `frames · 1000 / OUT_RATE` and 'about 1,000 ms'; rounding
down is the model's choice (log entry 31, DESIGN CHOICE). -/
def State.positionMs (s : State) : Nat := s.out.returned * 1000 / s.cfg.outRate

end Sys2Proof.Machine
end

