-- ==== Sys2Proof/Laws/Session.lean ====
section
/-! SUPPORT. Laws/Session.lean: a CPU step keeps the parameters and the output and moves the cycle counter forward, so the
fuel of `run_slice()` is enough. -/

namespace Sys2Proof.Machine

open Sys2Proof.Config

/-- From `s` to `t` no parameter and nothing of the output has changed, and the cycle counter has not gone back. -/
def Forward (s t : State) : Prop := t.cfg = s.cfg ∧ t.out = s.out ∧ s.cycles ≤ t.cycles

theorem Forward.refl (s : State) : Forward s s := ⟨rfl, rfl, Nat.le_refl _⟩

theorem Forward.trans {s t u : State} (h : Forward s t) (k : Forward t u) : Forward s u :=
  ⟨k.1.trans h.1, k.2.1.trans h.2.1, Nat.le_trans h.2.2 k.2.2⟩

theorem Forward.storeByte {s t : State} {a : Long} {v : Byte} {ts : Nat} (h : s.storeByte a v ts = some t) :
    Forward s t := by
  unfold State.storeByte at h
  split at h <;> cases h <;> exact ⟨rfl, rfl, Nat.le_refl _⟩

theorem Forward.storeWord {s t : State} {a : Long} {v : Word} {ts : Nat} (h : s.storeWord a v ts = some t) :
    Forward s t := by
  unfold State.storeWord at h
  split at h <;> cases h <;> exact ⟨rfl, rfl, Nat.le_refl _⟩

theorem Forward.execTolerant : ExecTolerant Forward where
  trans := Forward.trans
  measured := by rintro s t ⟨_, _, _, _, rfl⟩; exact ⟨rfl, rfl, Nat.le_refl _⟩
  setD _ _ _ := ⟨rfl, rfl, Nat.le_refl _⟩
  setA _ _ _ := ⟨rfl, rfl, Nat.le_refl _⟩
  flags _ _ _ := ⟨rfl, rfl, Nat.le_refl _⟩
  draw _ := ⟨rfl, rfl, Nat.le_refl _⟩
  storeByte := Forward.storeByte
  storeWord _ := Forward.storeWord
  entry := {
    trans := fun _ _ _ => Forward.trans
    refl := Forward.refl
    ssp := fun _ _ => ⟨rfl, rfl, Nat.le_refl _⟩
    sr := fun _ _ => ⟨rfl, rfl, Nat.le_refl _⟩
    inGroup0 := fun _ _ => ⟨rfl, rfl, Nat.le_refl _⟩
    storeWord := fun _ => Forward.storeWord
    handler := fun _ _ _ _ => ⟨rfl, rfl, Nat.le_add_right _ _⟩
    halted := fun _ => ⟨rfl, rfl, Nat.le_refl _⟩ }
  srWord _ _ := ⟨rfl, rfl, Nat.le_refl _⟩
  usp _ _ := ⟨rfl, rfl, Nat.le_refl _⟩
  run _ _ := ⟨rfl, rfl, Nat.le_refl _⟩
  hid _ _ := ⟨rfl, rfl, Nat.le_refl _⟩
  cycles _ _ := ⟨rfl, rfl, Nat.le_add_right _ _⟩
  rollback _ _ h := h

theorem Forward.charge (s : State) : Forward s s.charge := ⟨rfl, rfl, Nat.le_of_lt s.charge_cycles_lt⟩

theorem Forward.enter (e : Event) (p : Long) (s : State) : Forward s (enter e p s) := Forward.execTolerant.entry.enter e p s

theorem Forward.takeFault (e : Event) (p : Long) (s : State) : Forward s (takeFault e p s) := by
  unfold Machine.takeFault
  dsimp only
  split
  · exact ⟨rfl, rfl, Nat.le_refl _⟩
  · exact Forward.enter e p { s with hid := { s.hid with tracePending := false } }

theorem Forward.afterEvent {s s0 : State} (h : Forward s0 s) (e : Event) :
    Forward s0 (s.afterEvent s0 e) ∧ s0.cycles < (s.afterEvent s0 e).cycles := by
  have key : ∀ t u : State, Forward s0 t → Forward t.charge u → Forward s0 u ∧ s0.cycles < u.cycles := fun t u ht hu =>
    ⟨ht.trans ((Forward.charge t).trans hu),
      Nat.lt_of_le_of_lt ht.2.2 (Nat.lt_of_lt_of_le t.charge_cycles_lt hu.2.2)⟩
  unfold State.afterEvent
  cases e.group with
  | zero => exact key (s.rollback s0) _ h (Forward.takeFault _ _ _)
  | one => exact key s _ h (Forward.enter _ _ s.charge.noTrace)
  | two => exact key s _ h (Forward.enter _ _ _)

/-- A rule whose body does not turn the counter back moves it forward (rule R770). -/
theorem Forward.runRule {body : Exec Unit} (hb : Exec.Always Forward body) (s : State) :
    Forward s (runRule body s) ∧ s.cycles < (runRule body s).cycles := by
  unfold Machine.runRule
  cases hs : body s.start with
  | ok a t =>
    have h := (hb _).1 a t hs
    exact ⟨Forward.trans h (Forward.charge t), Nat.lt_of_le_of_lt h.2.2 t.charge_cycles_lt⟩
  | error e t => exact Forward.afterEvent ((hb _).2 e t hs) e

theorem Forward.exec {i : Instr} {s t : State} (h : exec i s = .next t) : Forward s t ∧ s.cycles < t.cycles := by
  obtain ⟨body, hb, ha⟩ := Forward.execTolerant.hasBody i
  rw [hb] at h
  cases h
  exact Forward.runRule ha s

theorem Forward.checkIrq (s : State) : Forward s s.checkIrq := by
  unfold State.checkIrq
  dsimp only
  split
  · exact Forward.enter _ _ _
  · exact ⟨rfl, rfl, Nat.le_refl _⟩

theorem Forward.boundary (s : State) : Forward s s.boundary := by
  have ht : Forward s s.checkTrace := by
    unfold State.checkTrace
    split
    · exact Forward.enter _ _ s.noTrace
    · exact Forward.refl s
  exact ht.trans (Forward.checkIrq _)

theorem Forward.fetchOpcode {s t : State} {w : Word} (h : Machine.fetchOpcode s = .ok w t) : Forward s t := by
  obtain ⟨_, _, rfl⟩ := fetchOpcode_eq_ok h
  exact ⟨rfl, rfl, Nat.le_refl _⟩

theorem fetchOpcode_error_same {s t : State} {e : Event} (h : fetchOpcode s = .error e t) : t = s := by
  by_cases hc : s.canAccess .w s.pc = true
  · rw [fetchOpcode_ok hc] at h; cases h
  · rw [fetchOpcode_error (by simpa using hc)] at h; cases h; rfl

/-- Every CPU step that is not a halted one takes a cycle or more (rules R582, R770). -/
theorem stepCpu_forward {s t : State} (h : stepCpu s = .next t) :
    Forward s t ∧ (s.run ≠ .halted → s.cycles < t.cycles) := by
  have strict : ∀ u v : State, Forward s u → Forward u v ∧ u.cycles < v.cycles →
      Forward s v.boundary ∧ (s.run ≠ .halted → s.cycles < v.boundary.cycles) := fun u v hu hv =>
    ⟨(hu.trans hv.1).trans (Forward.boundary v), fun _ =>
      Nat.lt_of_le_of_lt hu.2.2 (Nat.lt_of_lt_of_le hv.2 (Forward.boundary v).2.2)⟩
  unfold stepCpu at h
  split at h
  · unfold stepNormal at h
    split at h
    · rename_i e u he
      cases h
      have hu := fetchOpcode_error_same he
      subst hu
      refine strict s.beginStep _ ⟨rfl, rfl, Nat.le_refl _⟩ ⟨?_, ?_⟩
      · exact (Forward.charge _).trans (Forward.takeFault _ _ _)
      · exact Nat.lt_of_lt_of_le (State.charge_cycles_lt _) (Forward.takeFault _ _ _).2.2
    · rename_i w u he
      have hu : Forward s u := Forward.trans (t := s.beginStep) ⟨rfl, rfl, Nat.le_refl _⟩ (Forward.fetchOpcode he)
      split at h
      · cases h
        exact strict u _ hu (Forward.runRule (.raise Forward.execTolerant.toTolerant _) u)
      · obtain ⟨v, hv⟩ := exec_next ‹_› u
        rw [hv] at h
        cases h
        exact strict u v hu (Forward.exec hv)
  · cases h
    have hq := Forward.checkIrq { s with cycles := s.cycles + 1 }
    have h1 : Forward s { s with cycles := s.cycles + 1 } := ⟨rfl, rfl, Nat.le_succ _⟩
    exact ⟨h1.trans hq, fun _ => hq.2.2⟩
  · cases h
    exact ⟨Forward.refl s, fun k => absurd ‹_› k⟩

/-! The end marks of a slice touch the end of the session and the FIFO alone. -/

@[simp] theorem State.markEnd_regs (s : State) : s.markEnd.regs = s.regs := rfl
@[simp] theorem State.markEnd_pc (s : State) : s.markEnd.pc = s.pc := rfl
@[simp] theorem State.markEnd_run (s : State) : s.markEnd.run = s.run := rfl
@[simp] theorem State.markEnd_cycles (s : State) : s.markEnd.cycles = s.cycles := rfl
@[simp] theorem State.markEnd_mem (s : State) : s.markEnd.mem = s.mem := rfl
@[simp] theorem State.markEnd_ym (s : State) : s.markEnd.ym = s.ym := rfl
@[simp] theorem State.markEnd_paula (s : State) : s.markEnd.paula = s.paula := rfl
@[simp] theorem State.markEnd_cfg (s : State) : s.markEnd.cfg = s.cfg := rfl
@[simp] theorem State.markEnd_inGroup0 (s : State) : s.markEnd.inGroup0 = s.inGroup0 := rfl
@[simp] theorem State.markEnd_group0Handler (s : State) : s.markEnd.group0Handler = s.group0Handler := rfl
@[simp] theorem State.markEnd_hid (s : State) : s.markEnd.hid = s.hid := rfl
@[simp] theorem State.markEnd_irq (s : State) : s.markEnd.irq = s.irq := rfl
@[simp] theorem State.markEnd_draws (s : State) : s.markEnd.draws = s.draws := rfl
@[simp] theorem State.markEnd_ended (s : State) :
    s.markEnd.out.ended = (s.out.ended || decide (s.run = .halted) || s.ym.sound.fatal) := rfl
@[simp] theorem State.markEnd_slice (s : State) : s.markEnd.out.slice = s.out.slice := rfl
@[simp] theorem State.markEnd_next (s : State) : s.markEnd.out.next = s.out.next := rfl
theorem State.markEnd_fifo (s : State) : s.markEnd.out.fifo =
    if s.ym.sound.fatal then s.out.fifo.take (s.out.fifo.length - s.out.afterOverflow) else s.out.fifo := rfl
@[simp] theorem State.markEnd_fifo_of_not_fatal {s : State} (h : s.ym.sound.fatal = false) :
    s.markEnd.out.fifo = s.out.fifo := by simp [State.markEnd_fifo, h]
@[simp] theorem State.markEnd_afterOverflow (s : State) :
    s.markEnd.out.afterOverflow = if s.ym.sound.fatal then 0 else s.out.afterOverflow := rfl
@[simp] theorem State.markEnd_returned (s : State) : s.markEnd.out.returned = s.out.returned := rfl

/-- The fuel of `run_slice()` is enough: its loop ends because the CPU has halted or the target is reached (rule R761). -/
theorem State.runCpu_done : ∀ (fuel : Nat) (s : State), s.sliceTarget - s.cycles ≤ fuel →
    (State.runCpu fuel s).run = .halted ∨ (State.runCpu fuel s).sliceTarget ≤ (State.runCpu fuel s).cycles
  | 0, s, h => .inr (by unfold State.runCpu; omega)
  | fuel + 1, s, h => by
    unfold State.runCpu
    split
    · rename_i hc
      split
      · rename_i t ht
        obtain ⟨⟨hcfg, hout, _⟩, hlt⟩ := stepCpu_forward ht
        refine State.runCpu_done fuel t ?_
        have := hlt hc.1
        have : t.sliceTarget = s.sliceTarget := by unfold State.sliceTarget; rw [hcfg, hout]
        omega
      · rename_i f hf; cases f
      · rename_i r hr
        exfalso
        revert hr
        unfold stepCpu stepNormal
        split
        · split
          · exact fun k => by cases k
          · split
            · exact fun k => by cases k
            · obtain ⟨v, hv⟩ := exec_next ‹_› ‹_›
              rw [hv]
              exact fun k => by cases k
        · exact fun k => by cases k
        · exact fun k => by cases k
    · rename_i hc
      by_cases hr : s.run = .halted
      · exact .inl hr
      · exact .inr (by
          have : ¬ s.cycles < s.sliceTarget := fun k => hc ⟨hr, k⟩
          omega)

end Sys2Proof.Machine
end

