-- ==== Sys2Proof/Laws/Sound.lean ====
section
/-! SUPPORT. Laws/Sound.lean: what working the YM2149's output out again leaves alone. -/

namespace Sys2Proof.Machine

open Sys2Proof.Config

/-- Everything an append to the BLEP queue can do (rule R642). -/
theorem YmSound.enqueue_eq (p : Params) (y : YmSound) (e : BlepEvent) :
    ∃ q l f, y.enqueue p e = { y with queue := q, level := l, fatal := f } := by
  unfold YmSound.enqueue
  split <;> exact ⟨_, _, _, rfl⟩

/-- Everything a re-evaluation can do: it changes the amplitudes, the queue, the level and the overflow flag alone (rules
R635, R641, R642). -/
theorem YmSound.reevaluate_eq (p : Params) (tau : Nat) (y : YmSound) :
    ∃ a q l f, y.reevaluate p tau = { y with amps := a, queue := q, level := l, fatal := f } := by
  unfold YmSound.reevaluate
  dsimp only
  split
  · exact ⟨_, _, _, _, rfl⟩
  · obtain ⟨q, l, f, h⟩ := YmSound.enqueue_eq p { y with amps := Vector.ofFn fun c => y.amplitude c }
      ⟨tau, ymIdeal p (Vector.ofFn fun c => y.amplitude c) - ymIdeal p y.amps⟩
    exact ⟨_, q, l, f, h⟩

@[simp] theorem YmSound.reevaluate_regs (p : Params) (tau : Nat) (y : YmSound) : (y.reevaluate p tau).regs = y.regs := by
  obtain ⟨_, _, _, _, h⟩ := y.reevaluate_eq p tau; rw [h]
@[simp] theorem YmSound.reevaluate_tones (p : Params) (tau : Nat) (y : YmSound) :
    (y.reevaluate p tau).tones = y.tones := by
  obtain ⟨_, _, _, _, h⟩ := y.reevaluate_eq p tau; rw [h]
@[simp] theorem YmSound.reevaluate_noise (p : Params) (tau : Nat) (y : YmSound) :
    (y.reevaluate p tau).noise = y.noise := by
  obtain ⟨_, _, _, _, h⟩ := y.reevaluate_eq p tau; rw [h]
@[simp] theorem YmSound.reevaluate_env (p : Params) (tau : Nat) (y : YmSound) : (y.reevaluate p tau).env = y.env := by
  obtain ⟨_, _, _, _, h⟩ := y.reevaluate_eq p tau; rw [h]
@[simp] theorem YmSound.reevaluate_ticks (p : Params) (tau : Nat) (y : YmSound) :
    (y.reevaluate p tau).ticks = y.ticks := by
  obtain ⟨_, _, _, _, h⟩ := y.reevaluate_eq p tau; rw [h]

end Sys2Proof.Machine
end

