-- ==== Sys2Proof/Tests/Slice0.lean ====
section
/-! SUPPORT. Tests/Slice0.lean: the well-formedness smoke test, a decoded word for every constructor, one-step tests from the
spec's examples (files 40-48 and 95_test_vectors.md), and for every obligation with hypotheses a state that meets them. -/

namespace Sys2Proof.Tests

open Sys2Proof.Machine Sys2Proof.Config

set_option Elab.async false

/-! ## Well-formedness: each check refuses an ill-formed term -/

theorem test_refuses_not_data_alterable :
    (Instr.ori .b (.an 0)).wellFormed = false ∧ (Instr.addi .w .imm).wellFormed = false ∧
    (Instr.cmpi .l .pcDisp).wellFormed = false ∧ (Instr.bset .pcIndex).wellFormed = false ∧
    (Instr.bclrDn 1 (.an 2)).wellFormed = false ∧ (Instr.clr .b (.an 1)).wellFormed = false ∧
    (Instr.scc .eq .imm).wellFormed = false ∧ (Instr.tas .pcDisp).wellFormed = false ∧
    (Instr.eor .l 0 (.an 3)).wellFormed = false ∧ (Instr.move .w (.dn 0) .pcDisp).wellFormed = false := by decide

theorem test_refuses_not_data :
    (Instr.btstDn 0 (.an 1)).wellFormed = false ∧ (Instr.chk 1 (.an 0)).wellFormed = false ∧
    (Instr.mulu 0 (.an 7)).wellFormed = false ∧ (Instr.divs 2 (.an 0)).wellFormed = false ∧
    (Instr.moveToSr (.an 0)).wellFormed = false ∧ (Instr.andToDn .w 0 (.an 1)).wellFormed = false := by decide

theorem test_refuses_btst_immediate_operand : (Instr.btst .imm).wellFormed = false ∧
    (Instr.btst (.an 0)).wellFormed = false := by decide

theorem test_refuses_not_control :
    (Instr.lea 0 (.postinc 1)).wellFormed = false ∧ (Instr.pea (.dn 0)).wellFormed = false ∧
    (Instr.jmp .imm).wellFormed = false ∧ (Instr.jsr (.predec 7)).wellFormed = false := by decide

theorem test_refuses_movem_modes :
    (Instr.movemToMem .l (.postinc 0)).wellFormed = false ∧ (Instr.movemToMem .w .pcDisp).wellFormed = false ∧
    (Instr.movemToReg .l (.predec 0)).wellFormed = false ∧ (Instr.movemToReg .w (.dn 1)).wellFormed = false := by decide

theorem test_refuses_not_memory_alterable :
    (Instr.addToEa .w 0 (.dn 1)).wellFormed = false ∧ (Instr.orToEa .b 0 .pcDisp).wellFormed = false ∧
    (Instr.aslMem (.dn 0)).wellFormed = false ∧ (Instr.rorMem .imm).wellFormed = false := by decide

theorem test_refuses_byte_address_register :
    (Instr.move .b (.an 0) (.dn 0)).wellFormed = false ∧ (Instr.addToDn .b 0 (.an 0)).wellFormed = false ∧
    (Instr.cmp .b 0 (.an 0)).wellFormed = false ∧ (Instr.addq 1 .b (.an 0)).wellFormed = false := by decide

theorem test_refuses_quick_and_count_range :
    (Instr.addq 0 .w (.dn 0)).wellFormed = false ∧ (Instr.subq 9 .w (.dn 0)).wellFormed = false ∧
    (Instr.aslReg (.imm 0) .w 0).wellFormed = false ∧ (Instr.roxrReg (.imm 9) .l 0).wellFormed = false := by decide

theorem test_refuses_not_alterable_quick : (Instr.subq 1 .l .pcDisp).wellFormed = false := by decide

theorem test_refuses_bcc_of_true_and_false :
    (Instr.bcc .t 2).wellFormed = false ∧ (Instr.bcc .f 2).wellFormed = false := by decide

/-! ## Decoding: each row's word, written out from the bit pattern of spec/opcode_table.json -/

theorem test_decode_immediate_and_bit_rows :
    decode 0b0000000000111100 = .ok .oriToCcr ∧
    decode 0b0000000001111100 = .ok .oriToSr ∧
    decode 0b0000000010011101 = .ok (.ori .l (.postinc 5)) ∧
    decode 0b0000001000111100 = .ok .andiToCcr ∧
    decode 0b0000001001111100 = .ok .andiToSr ∧
    decode 0b0000001000000111 = .ok (.andi .b (.dn 7)) ∧
    decode 0b0000101000111100 = .ok .eoriToCcr ∧
    decode 0b0000101001111100 = .ok .eoriToSr ∧
    decode 0b0000101001111000 = .ok (.eori .w .absW) ∧
    decode 0b0000010001100010 = .ok (.subi .w (.predec 2)) ∧
    decode 0b0000011010111001 = .ok (.addi .l .absL) ∧
    decode 0b0000110000010110 = .ok (.cmpi .b (.ind 6)) ∧
    decode 0b0000100000111010 = .ok (.btst .pcDisp) ∧
    decode 0b0000100001101001 = .ok (.bchg (.disp 1)) ∧
    decode 0b0000100010110011 = .ok (.bclr (.index 3)) ∧
    decode 0b0000100011000100 = .ok (.bset (.dn 4)) ∧
    decode 0b0000101100111100 = .ok (.btstDn 5 .imm) ∧
    decode 0b0000001101000110 = .ok (.bchgDn 1 (.dn 6)) ∧
    decode 0b0000110110011001 = .ok (.bclrDn 6 (.postinc 1)) ∧
    decode 0b0000011111010100 = .ok (.bsetDn 3 (.ind 4)) ∧
    decode 0b0000110110001011 = .ok (.movep .wordToMem 6 3) := by decide +kernel

theorem test_decode_move_rows :
    decode 0b0011001011110010 = .ok (.move .w (.index 2) (.postinc 1)) ∧
    decode 0b0010110001001011 = .ok (.movea .l (.an 3) 6) := by decide +kernel

theorem test_decode_line_0100_rows :
    decode 0b0100000001100011 = .ok (.negx .w (.predec 3)) ∧
    decode 0b0100000011000010 = .ok (.moveFromSr (.dn 2)) ∧
    decode 0b0100101110111011 = .ok (.chk 5 .pcIndex) ∧
    decode 0b0100011111101110 = .ok (.lea 3 (.disp 6)) ∧
    decode 0b0100001010111000 = .ok (.clr .l .absW) ∧
    decode 0b0100010000010001 = .ok (.neg .b (.ind 1)) ∧
    decode 0b0100010011111100 = .ok (.moveToCcr .imm) ∧
    decode 0b0100011001000011 = .ok (.notEa .w (.dn 3)) ∧
    decode 0b0100011011011111 = .ok (.moveToSr (.postinc 7)) ∧
    decode 0b0100100000100110 = .ok (.nbcd (.predec 6)) ∧
    decode 0b0100100001000101 = .ok (.swap 5) ∧
    decode 0b0100100001111001 = .ok (.pea .absL) ∧
    decode 0b0100100011000011 = .ok (.extDn .l 3) ∧
    decode 0b0100100010100111 = .ok (.movemToMem .w (.predec 7)) ∧
    decode 0b0100101000110101 = .ok (.tst .b (.index 5)) ∧
    decode 0b0100101011010011 = .ok (.tas (.ind 3)) ∧
    decode 0b0100101011111100 = .ok .illegal ∧
    decode 0b0100110011011111 = .ok (.movemToReg .l (.postinc 7)) ∧
    decode 0b0100111001001101 = .ok (.trap 13) ∧
    decode 0b0100111001010110 = .ok (.link 6) ∧
    decode 0b0100111001011101 = .ok (.unlk 5) ∧
    decode 0b0100111001100011 = .ok (.moveToUsp 3) ∧
    decode 0b0100111001101110 = .ok (.moveFromUsp 6) ∧
    decode 0b0100111001110000 = .ok .reset ∧
    decode 0b0100111001110001 = .ok .nop ∧
    decode 0b0100111001110010 = .ok .stop ∧
    decode 0b0100111001110011 = .ok .rte ∧
    decode 0b0100111001110101 = .ok .rts ∧
    decode 0b0100111001110110 = .ok .trapv ∧
    decode 0b0100111001110111 = .ok .rtr ∧
    decode 0b0100111010101010 = .ok (.jsr (.disp 2)) ∧
    decode 0b0100111011111010 = .ok (.jmp .pcDisp) := by decide +kernel

theorem test_decode_quick_and_condition_rows :
    decode 0b0101000001001110 = .ok (.addq 8 .w (.an 6)) ∧
    decode 0b0101011100000101 = .ok (.subq 3 .b (.dn 5)) ∧
    decode 0b0101110111011010 = .ok (.scc .lt (.postinc 2)) ∧
    decode 0b0101011011001011 = .ok (.dbcc .ne 3) := by decide +kernel

theorem test_decode_branch_and_moveq_rows :
    decode 0b0110000010000001 = .ok (.bra 0x81) ∧
    decode 0b0110000100000000 = .ok (.bsr 0) ∧
    decode 0b0110111011111110 = .ok (.bcc .gt 0xFE) ∧
    decode 0b0111110001000011 = .ok (.moveq 6 0x43) := by decide +kernel

theorem test_decode_line_1000_and_1001_rows :
    decode 0b1000101010111011 = .ok (.orToDn .l 5 .pcIndex) ∧
    decode 0b1000011101101110 = .ok (.orToEa .w 3 (.disp 6)) ∧
    decode 0b1000110011000011 = .ok (.divu 6 (.dn 3)) ∧
    decode 0b1000011111111100 = .ok (.divs 3 .imm) ∧
    decode 0b1000110100001011 = .ok (.sbcd .mem 6 3) ∧
    decode 0b1001001001001110 = .ok (.subToDn .w 1 (.an 6)) ∧
    decode 0b1001100100010011 = .ok (.subToEa .b 4 (.ind 3)) ∧
    decode 0b1001110111011001 = .ok (.suba .l 6 (.postinc 1)) ∧
    decode 0b1001011110000110 = .ok (.subx .reg .l 3 6) := by decide +kernel

theorem test_decode_lines_1010_and_1011_rows :
    decode 0b1010000100100011 = .ok (.lineA 0x123) ∧
    decode 0b1011110000111100 = .ok (.cmp .b 6 .imm) ∧
    decode 0b1011011011000110 = .ok (.cmpa .w 3 (.dn 6)) ∧
    decode 0b1011110110000011 = .ok (.eor .l 6 (.dn 3)) ∧
    decode 0b1011110101001011 = .ok (.cmpm .w 6 3) := by decide +kernel

theorem test_decode_line_1100_rows :
    decode 0b1100011000111000 = .ok (.andToDn .b 3 .absW) ∧
    decode 0b1100110110100011 = .ok (.andToEa .l 6 (.predec 3)) ∧
    decode 0b1100011011110001 = .ok (.mulu 3 (.index 1)) ∧
    decode 0b1100110111111010 = .ok (.muls 6 .pcDisp) ∧
    decode 0b1100011100000110 = .ok (.abcd .reg 3 6) ∧
    decode 0b1100011101000110 = .ok (.exgDxDy 3 6) ∧
    decode 0b1100110101001011 = .ok (.exgAxAy 6 3) ∧
    decode 0b1100001110001100 = .ok (.exgDxAy 1 4) := by decide +kernel

theorem test_decode_line_1101_rows :
    decode 0b1101011010001110 = .ok (.addToDn .l 3 (.an 6)) ∧
    decode 0b1101110101111001 = .ok (.addToEa .w 6 .absL) ∧
    decode 0b1101011011111010 = .ok (.adda .w 3 .pcDisp) ∧
    decode 0b1101110100001011 = .ok (.addx .mem .b 6 3) := by decide +kernel

theorem test_decode_shift_rows :
    decode 0b1110000001000000 = .ok (.asrReg (.imm 8) .w 0) ∧
    decode 0b1110001110100010 = .ok (.aslReg (.reg 1) .l 2) ∧
    decode 0b1110000001001010 = .ok (.lsrReg (.imm 8) .w 2) ∧
    decode 0b1110011110101010 = .ok (.lslReg (.reg 3) .l 2) ∧
    decode 0b1110000001010100 = .ok (.roxrReg (.imm 8) .w 4) ∧
    decode 0b1110101110110010 = .ok (.roxlReg (.reg 5) .l 2) ∧
    decode 0b1110000001011110 = .ok (.rorReg (.imm 8) .w 6) ∧
    decode 0b1110111110111010 = .ok (.rolReg (.reg 7) .l 2) ∧
    decode 0b1110000011010111 = .ok (.asrMem (.ind 7)) ∧
    decode 0b1110000111101110 = .ok (.aslMem (.disp 6)) ∧
    decode 0b1110001011010101 = .ok (.lsrMem (.ind 5)) ∧
    decode 0b1110001111101100 = .ok (.lslMem (.disp 4)) ∧
    decode 0b1110010011010011 = .ok (.roxrMem (.ind 3)) ∧
    decode 0b1110010111101010 = .ok (.roxlMem (.disp 2)) ∧
    decode 0b1110011011010001 = .ok (.rorMem (.ind 1)) ∧
    decode 0b1110011111101000 = .ok (.rolMem (.disp 0)) := by decide +kernel

theorem test_decode_line_1111_row :
    decode 0b1111111111111110 = .ok (.lineF 0xFFE) := by decide +kernel

theorem test_decode_rejects : decode 0x4AFB = .error (.illegal 0x4AFB) ∧ decode 0x4E7B = .error (.illegal 0x4E7B) ∧
    decode 0x00C0 = .error (.illegal 0x00C0) ∧ decode 0x1008 = .error (.illegal 0x1008) := by decide +kernel

/-! ## One step -/

/-- Words at rising addresses, as cells. -/
def put : Nat → List Word → Memory → Memory
  | _, [], m => m
  | a, w :: rest, m => put (a + 2) rest (Memory.writeBytes m a [w.extractLsb' 8 8, w.extractLsb' 0 8])

/-- The reset state with code at 0x1000 and registers, SR and further words set. -/
def start (code : List Word) (f : RegFile → RegFile) (sr : Word := 0x2700) (m : Memory → Memory := id) : State :=
  let s := State.reset
  { s with
    mem := m (put 0x1000 code s.mem)
    regs := f { s.regs with sr := Sr.ofWord true sr } }

/-- One step from `s` answers a next state, of which `p` holds. -/
def check (s : State) (p : State → Bool) : Bool :=
  match step s with
  | .next t => p t
  | _ => false

/-- Sets D[n]. -/
def d (n : Reg) (v : Long) (r : RegFile) : RegFile := r.setD n v

/-- Sets A[n]. -/
def a (n : Reg) (v : Long) (r : RegFile) : RegFile := r.setA n v

/-- D[n] is `v` and SR reads `sr`. -/
def dIs (n : Reg) (v : Long) (sr : Word) (t : State) : Bool := t.regs.getD n == v && t.regs.sr.toWord == sr

/-- A[n] is `v` and SR reads `sr`. -/
def aIs (n : Reg) (v : Long) (sr : Word) (t : State) : Bool := t.regs.getA n == v && t.regs.sr.toWord == sr

/-- The long at `e` is `v`. -/
def longIs (e : Long) (v : Long) (t : State) : Bool := t.memValue .l e == v

/-- Sources: the examples of rules R250-R261 and section 2.4 of 95_test_vectors.md. -/
theorem test_move : check (start [0x303C, 0x1234] (d 0 0xFFFFFFFF)) (dIs 0 0xFFFF1234 0x2700) = true := by
  decide +kernel
theorem test_move_store : check (start [0x20BC, 0x1234, 0x5678] (a 0 0x2000)) (longIs 0x2000 0x12345678) = true := by
  decide +kernel
theorem test_movea : check (start [0x307C, 0x8000] id 0x271F) (aIs 0 0xFFFF8000 0x271F) = true := by decide +kernel
theorem test_moveq : check (start [0x70FF] id 0x2713) (dIs 0 0xFFFFFFFF 0x2718) = true := by decide +kernel
theorem test_movem_store : check (start [0x48E7, 0x8080] (fun r => a 7 0x1800 (d 0 0x11111111 (a 0 0x22222222 r))))
    (fun t => longIs 0x17F8 0x11111111 t && longIs 0x17FC 0x22222222 t && aIs 7 0x17F8 0x2700 t) = true := by decide +kernel
theorem test_movem_store_base : check (start [0x48D0, 0x0101] (fun r => d 0 7 (a 0 0x2000 r)))
    (fun t => longIs 0x2000 7 t && longIs 0x2004 0x2000 t && aIs 0 0x2000 0x2700 t) = true := by decide +kernel
theorem test_movem_load : check (start [0x4C98, 0x0003] (a 0 0x2000) 0x2700 (put 0x2000 [0xFFFE, 0x0003]))
    (fun t => dIs 0 0xFFFFFFFE 0x2700 t && dIs 1 3 0x2700 t && aIs 0 0x2004 0x2700 t) = true := by decide +kernel
theorem test_lea : check (start [0x43E8, 0x0008] (a 0 0x1000)) (aIs 1 0x1008 0x2700) = true := by decide +kernel
theorem test_pea : check (start [0x4850] (fun r => a 0 0x3000 (a 7 0x1800 r)))
    (fun t => longIs 0x17FC 0x3000 t && aIs 7 0x17FC 0x2700 t) = true := by decide +kernel
theorem test_exg_data : check (start [0xC141] (fun r => d 0 1 (d 1 2 r)))
    (fun t => dIs 0 2 0x2700 t && dIs 1 1 0x2700 t) = true := by decide +kernel
theorem test_exg_address : check (start [0xC149] (fun r => a 0 1 (a 1 2 r)))
    (fun t => aIs 0 2 0x2700 t && aIs 1 1 0x2700 t) = true := by decide +kernel
theorem test_exg_mixed : check (start [0xC188] (fun r => d 0 3 (a 0 4 r)))
    (fun t => dIs 0 4 0x2700 t && aIs 0 3 0x2700 t) = true := by decide +kernel
theorem test_movep_store : check (start [0x0188, 0x0000] (fun r => a 0 0xFF8800 (d 0 0x80F r)))
    (fun t => t.ym.sel == 8 && t.ym.regs[8] == 0x0F) = true := by decide +kernel
theorem test_movep_load : check (start [0x0148, 0x0002] (a 0 0x1FFE) 0x2700
    (put 0x2000 [0x1100, 0x2200, 0x3300, 0x4400])) (dIs 0 0x11223344 0x2700) = true := by decide +kernel
theorem test_swap : check (start [0x4840] (d 0 0x12345678)) (dIs 0 0x56781234 0x2700) = true := by decide +kernel
theorem test_link : check (start [0x4E56, 0xFFF8] (fun r => a 6 0x2000 (a 7 0x1800 r)))
    (fun t => longIs 0x17FC 0x2000 t && aIs 6 0x17FC 0x2700 t && aIs 7 0x17F4 0x2700 t) = true := by decide +kernel
theorem test_unlk : check (start [0x4E5E] (fun r => a 6 0x17FC (a 7 0x17F4 r)) 0x2700 (put 0x17FC [0, 0x2000]))
    (fun t => aIs 6 0x2000 0x2700 t && aIs 7 0x1800 0x2700 t) = true := by decide +kernel

/-! Sources: section 2.3 of 95_test_vectors.md. -/
theorem test_predecrement_byte_of_a7 : check (start [0x1F00] (a 7 0x8000)) (aIs 7 0x7FFE 0x2704) = true := by
  decide +kernel
theorem test_index_word : check (start [0x3030, 0x1004] (fun r => a 0 0x2000 (d 1 0x1FFFE r)) 0x2700
    (put 0x2002 [0x1234])) (dIs 0 0x1234 0x2700) = true := by decide +kernel

/-! Sources: the examples of rules R300-R322 and section 2.5 of 95_test_vectors.md. -/
theorem test_add : check (start [0xD041] (fun r => d 0 0x7FFF (d 1 1 r))) (dIs 0 0x8000 0x270A) = true := by
  decide +kernel
theorem test_add_byte_carry_and_overflow : check (start [0xD001] (fun r => d 0 0x80 (d 1 0x80 r)))
    (dIs 0 0 0x2717) = true := by decide +kernel
theorem test_add_to_memory : check (start [0xD150] (fun r => a 0 0x2000 (d 0 1 r)) 0x2700 (put 0x2000 [0xFFFF, 0xABCD]))
    (fun t => longIs 0x2000 0x0000ABCD t && dIs 0 1 0x2715 t) = true := by decide +kernel
theorem test_adda : check (start [0xD0FC, 0xFFFF] id 0x271F) (aIs 0 0xFFFFFFFF 0x271F) = true := by decide +kernel
theorem test_addi : check (start [0x0600, 0x00FF] (d 0 1)) (dIs 0 0 0x2715) = true := by decide +kernel
theorem test_addq : check (start [0x5080] (d 0 0xFFFFFFF8)) (dIs 0 0 0x2715) = true := by decide +kernel
theorem test_addq_address : check (start [0x5248] (a 0 0xFFFF)) (aIs 0 0x10000 0x2700) = true := by decide +kernel
theorem test_addx : check (start [0xD181] (d 1 0xFFFFFFFF) 0x2714) (dIs 0 0 0x2715) = true := by decide +kernel
theorem test_addx_keeps_z_clear : check (start [0xD141] id 0x2700) (dIs 0 0 0x2700) = true := by decide +kernel
theorem test_sub : check (start [0x9041] (d 1 1)) (dIs 0 0xFFFF 0x2719) = true := by decide +kernel
theorem test_sub_overflow : check (start [0x9001] (fun r => d 0 0x80 (d 1 1 r))) (dIs 0 0x7F 0x2702) = true := by
  decide +kernel
theorem test_sub_from_memory : check (start [0x9150] (fun r => a 0 0x2000 (d 0 1 r)) 0x2700 (put 0x2000 [0x0003]))
    (fun t => t.memValue .w 0x2000 == 2 && dIs 0 1 0x2700 t) = true := by decide +kernel
theorem test_suba : check (start [0x90FC, 0x0001] id 0x271F) (aIs 0 0xFFFFFFFF 0x271F) = true := by decide +kernel
theorem test_subi : check (start [0x0440, 0x0001] (d 0 0x8000)) (dIs 0 0x7FFF 0x2702) = true := by decide +kernel
theorem test_subq : check (start [0x5300] id) (dIs 0 0xFF 0x2719) = true := by decide +kernel
theorem test_subx : check (start [0x9181] id 0x2714) (dIs 0 0xFFFFFFFF 0x2719) = true := by decide +kernel
theorem test_cmp : check (start [0xB041] (fun r => d 0 1 (d 1 2 r)) 0x2710) (dIs 0 1 0x2719) = true := by decide +kernel
theorem test_cmpa : check (start [0xB0FC, 0xFFFF] (a 0 0xFFFFFFFF)) (aIs 0 0xFFFFFFFF 0x2704) = true := by
  decide +kernel
theorem test_cmpi : check (start [0x0C00, 0x0080] (d 0 0x7F)) (dIs 0 0x7F 0x270B) = true := by decide +kernel
theorem test_cmpm : check (start [0xB348] (fun r => a 0 0x2000 (a 1 0x3000 r)) 0x2700
    (fun m => put 0x3000 [5] (put 0x2000 [5] m)))
    (fun t => aIs 0 0x2002 0x2704 t && aIs 1 0x3002 0x2704 t) = true := by decide +kernel
theorem test_mulu : check (start [0xC0FC, 0xFFFF] (d 0 0x1234FFFF)) (dIs 0 0xFFFE0001 0x2708) = true := by
  decide +kernel
theorem test_muls : check (start [0xC1FC, 0xFFFF] (d 0 2)) (dIs 0 0xFFFFFFFE 0x2708) = true := by decide +kernel
theorem test_divu : check (start [0x80FC, 0x0007] (d 0 100)) (dIs 0 0x0002000E 0x2700) = true := by decide +kernel
theorem test_divu_overflow : check (start [0x80FC, 0x0001] (d 0 0x10000) 0x2711)
    (fun t => t.regs.getD 0 == 0x10000 && t.regs.sr.v && !t.regs.sr.c && t.regs.sr.x) = true := by decide +kernel
theorem test_divs : check (start [0x81FC, 0xFFFE] (d 0 7)) (dIs 0 0x0001FFFD 0x2708) = true := by decide +kernel
theorem test_divs_remainder_sign : check (start [0x81FC, 0x0002] (d 0 0xFFFFFFF9)) (dIs 0 0xFFFFFFFD 0x2708) = true := by
  decide +kernel
theorem test_neg : check (start [0x4440] (d 0 0x8000)) (dIs 0 0x8000 0x271B) = true := by decide +kernel
theorem test_negx : check (start [0x4080] id 0x2710) (dIs 0 0xFFFFFFFF 0x2719) = true := by decide +kernel
theorem test_clr : check (start [0x4200] (d 0 0xFFFFFFFF) 0x271B) (dIs 0 0xFFFFFF00 0x2714) = true := by decide +kernel
theorem test_ext_word : check (start [0x4880] (d 0 0xFF)) (dIs 0 0xFFFF 0x2708) = true := by decide +kernel
theorem test_ext_long : check (start [0x48C0] (d 0 0xFF80)) (dIs 0 0xFFFFFF80 0x2708) = true := by decide +kernel
theorem test_tst : check (start [0x4A00] (d 0 0x80)) (dIs 0 0x80 0x2708) = true := by decide +kernel

/-! Sources: the examples of rules R370-R376 and section 2.6 of 95_test_vectors.md. -/
theorem test_and : check (start [0xC07C, 0x0F0F] (d 0 0x12345678)) (dIs 0 0x12340608 0x2700) = true := by decide +kernel
theorem test_and_to_memory : check (start [0xC150] (fun r => a 0 0x2000 (d 0 0xF0F0 r)) 0x2703 (put 0x2000 [0x8421]))
    (fun t => t.memValue .w 0x2000 == 0x8020 && dIs 0 0xF0F0 0x2708 t) = true := by decide +kernel
theorem test_andi : check (start [0x0200, 0x000F] (d 0 0xF0)) (dIs 0 0 0x2704) = true := by decide +kernel
theorem test_or : check (start [0x8081] (d 1 0x80000000)) (dIs 0 0x80000000 0x2708) = true := by decide +kernel
theorem test_or_to_memory : check (start [0x8150] (fun r => a 0 0x2000 (d 0 0x0F r)) 0x2700 (put 0x2000 [0x80]))
    (fun t => t.memValue .w 0x2000 == 0x8F && dIs 0 0x0F 0x2700 t) = true := by decide +kernel
theorem test_ori : check (start [0x0040, 0x8000] (d 0 1)) (dIs 0 0x8001 0x2708) = true := by decide +kernel
theorem test_eor : check (start [0xB140] (d 0 0xFFFF)) (dIs 0 0 0x2704) = true := by decide +kernel
theorem test_eori : check (start [0x0A00, 0x00FF] (d 0 0xAA)) (dIs 0 0x55 0x2700) = true := by decide +kernel
theorem test_not : check (start [0x4600] (d 0 0x12345678)) (dIs 0 0x12345687 0x2708) = true := by decide +kernel

/-! Sources: the examples of rules R401-R408 and section 2.7 of 95_test_vectors.md; a memory form is the word shifted once. -/
theorem test_asl : check (start [0xE300] (d 0 0x40)) (dIs 0 0x80 0x270A) = true := by decide +kernel
theorem test_asl_zero_count : check (start [0xE360] (d 0 1) 0x2710) (dIs 0 1 0x2710) = true := by decide +kernel
theorem test_asr : check (start [0xE440] (d 0 0x8003)) (dIs 0 0xE000 0x2719) = true := by decide +kernel
theorem test_lsl : check (start [0xE3A8] (fun r => d 0 1 (d 1 32 r))) (dIs 0 0 0x2715) = true := by decide +kernel
theorem test_lsr : check (start [0xE048] (d 0 0x1234) 0x2710) (dIs 0 0x12 0x2700) = true := by decide +kernel
theorem test_rol : check (start [0xE318] (d 0 0x81) 0x2710) (dIs 0 3 0x2711) = true := by decide +kernel
theorem test_ror : check (start [0xE898] (d 0 0x12345678)) (dIs 0 0x81234567 0x2709) = true := by decide +kernel
theorem test_roxl : check (start [0xE350] (d 0 0x8000) 0x2710) (dIs 0 1 0x2711) = true := by decide +kernel
theorem test_roxr_zero_count : check (start [0xE230] (d 0 0x55) 0x2710) (dIs 0 0x55 0x2711) = true := by decide +kernel

/-- A word of memory shifted once: the word after, and SR after. -/
def shifts (op : Word) (v : Word) (sr : Word) (v' : Word) (sr' : Word) : Bool :=
  check (start [op] (a 0 0x2000) sr (put 0x2000 [v]))
    (fun t => t.memValue .w 0x2000 == v' && t.regs.sr.toWord == sr' && t.pc == 0x1002)

theorem test_asl_memory : shifts 0xE1D0 0x4000 0x2700 0x8000 0x270A = true := by decide +kernel
theorem test_asr_memory : shifts 0xE0D0 0x8001 0x2700 0xC000 0x2719 = true := by decide +kernel
theorem test_lsl_memory : shifts 0xE3D0 0x8001 0x2700 0x0002 0x2711 = true := by decide +kernel
theorem test_lsr_memory : shifts 0xE2D0 0x8001 0x2700 0x4000 0x2711 = true := by decide +kernel
theorem test_rol_memory : shifts 0xE7D0 0x8000 0x2710 0x0001 0x2711 = true := by decide +kernel
theorem test_ror_memory : shifts 0xE6D0 0x0001 0x2700 0x8000 0x2709 = true := by decide +kernel
theorem test_roxl_memory : shifts 0xE5D0 0x8000 0x2710 0x0001 0x2711 = true := by decide +kernel
theorem test_roxr_memory : shifts 0xE4D0 0x0001 0x2700 0x0000 0x2715 = true := by decide +kernel

/-! Sources: the examples of rules R431-R434 and section 2.8 of 95_test_vectors.md. -/
theorem test_btst : check (start [0x0800, 0x003F] (d 0 0x80000000) 0x271F) (dIs 0 0x80000000 0x271B) = true := by
  decide +kernel
theorem test_btst_memory : check (start [0x0810, 0x0008] (a 0 0x2000) 0x2704 (put 0x2000 [0x0100]))
    (fun t => t.regs.sr.toWord == 0x2700) = true := by decide +kernel
theorem test_bchg : check (start [0x0840, 0x0004] (d 0 0x10) 0x2704) (dIs 0 0 0x2700) = true := by decide +kernel
theorem test_bchg_register : check (start [0x0340] (d 1 33)) (dIs 0 2 0x2704) = true := by decide +kernel
theorem test_bclr : check (start [0x0890, 0x0007] (a 0 0x2000) 0x2704 (put 0x2000 [0x8100]))
    (fun t => t.memValue .b 0x2000 == 1 && t.regs.sr.toWord == 0x2700) = true := by decide +kernel
theorem test_bclr_register : check (start [0x0380] (fun r => d 0 0xFFFFFFFF (d 1 32 r)) 0x2704)
    (dIs 0 0xFFFFFFFE 0x2700) = true := by decide +kernel
theorem test_bset : check (start [0x08C0, 0x001F] id) (dIs 0 0x80000000 0x2704) = true := by decide +kernel
theorem test_bset_register : check (start [0x03D0] (fun r => a 0 0x2000 (d 1 12 r)))
    (fun t => t.memValue .b 0x2000 == 0x10 && t.regs.sr.toWord == 0x2704) = true := by decide +kernel
theorem test_btst_register : check (start [0x0300] (fun r => d 0 8 (d 1 35 r)) 0x2704) (dIs 0 8 0x2700) = true := by
  decide +kernel

/-- The flags that rules R450-R452 define: X, Z, C. -/
def xzc (t : State) (x z c : Bool) : Bool := t.regs.sr.x == x && t.regs.sr.z == z && t.regs.sr.c == c

/-! Sources: section 2.9 of 95_test_vectors.md. -/
theorem test_abcd : check (start [0xC101] (fun r => d 0 0x99 (d 1 1 r)) 0x2704)
    (fun t => t.regs.getD 0 == 0 && xzc t true true true) = true := by decide +kernel
theorem test_abcd_memory : check (start [0xC109] (fun r => a 0 0x2001 (a 1 0x3001 r)) 0x2710
    (fun m => put 0x3000 [0x0900] (put 0x2000 [0x0900] m)))
    (fun t => t.memValue .b 0x2000 == 0x19 && t.regs.getA 0 == 0x2000 && xzc t false false false) = true := by
  decide +kernel
theorem test_sbcd : check (start [0x8101] (fun r => d 1 1 r) 0x2704)
    (fun t => t.regs.getD 0 == 0x99 && xzc t true false true) = true := by decide +kernel
theorem test_nbcd : check (start [0x4800] (d 0 0x50) 0x2710)
    (fun t => t.regs.getD 0 == 0x49 && xzc t true false true) = true := by decide +kernel

/-! Sources: the examples of rules R462-R471 and section 2.10 of 95_test_vectors.md. -/
theorem test_bcc_taken : check (start [0x6D06] id 0x2708) (fun t => t.pc == 0x1008) = true := by decide +kernel
theorem test_bcc_not_taken : check (start [0x6206] id 0x2701) (fun t => t.pc == 0x1002) = true := by decide +kernel
theorem test_bra : check (start [0x60FE] id) (fun t => t.pc == 0x1000) = true := by decide +kernel
theorem test_bra_word : check (start [0x6000, 0x00FE] id) (fun t => t.pc == 0x1100) = true := by decide +kernel
theorem test_bsr : check (start [0x6100, 0x0010] (a 7 0x8000))
    (fun t => longIs 0x7FFC 0x1004 t && aIs 7 0x7FFC 0x2700 t && t.pc == 0x1012) = true := by decide +kernel
theorem test_dbcc : check (start [0x51C8, 0xFFFE] (d 0 0x12340000))
    (fun t => dIs 0 0x1234FFFF 0x2700 t && t.pc == 0x1004) = true := by decide +kernel
theorem test_dbcc_branches : check (start [0x51C8, 0xFFFE] (d 0 2))
    (fun t => dIs 0 1 0x2700 t && t.pc == 0x1000) = true := by decide +kernel
theorem test_scc : check (start [0x57C0] (d 0 0x12345600) 0x2704) (dIs 0 0x123456FF 0x2704) = true := by decide +kernel
theorem test_jmp : check (start [0x4EE8, 0x0008] (a 0 0x3000)) (fun t => t.pc == 0x3008) = true := by decide +kernel
theorem test_jsr : check (start [0x4EB8, 0x2000] (a 7 0x8000))
    (fun t => longIs 0x7FFC 0x1004 t && aIs 7 0x7FFC 0x2700 t && t.pc == 0x2000) = true := by decide +kernel
theorem test_rts : check (start [0x4E75] (a 7 0x7FFC) 0x2700 (put 0x7FFC [0, 0x1001]))
    (fun t => aIs 7 0x8000 0x2700 t && t.pc == 0x1001) = true := by decide +kernel
theorem test_rtr : check (start [0x4E77] (a 7 0x7FFA) 0x2700 (put 0x7FFA [0x1F, 0, 0x1234]))
    (fun t => aIs 7 0x8000 0x271F t && t.pc == 0x1234) = true := by decide +kernel
theorem test_nop : check (start [0x4E71] (d 0 5) 0x271F) (fun t => dIs 0 5 0x271F t && t.pc == 0x1002) = true := by
  decide +kernel

/-! Sources: the examples of rules R501-R520, E5 and section 2.11 of 95_test_vectors.md. -/
theorem test_andi_to_ccr : check (start [0x023C, 0x00FE] id 0x0705) (fun t => t.regs.sr.toWord == 0x0704) = true := by
  decide +kernel
theorem test_andi_to_sr : check (start [0x027C, 0xF8FF] id) (fun t => t.regs.sr.toWord == 0x2000) = true := by
  decide +kernel
theorem test_eori_to_ccr : check (start [0x0A3C, 0x001F] id) (fun t => t.regs.sr.toWord == 0x271F) = true := by
  decide +kernel
theorem test_eori_to_sr : check (start [0x0A7C, 0x2000] id) (fun t => t.regs.sr.toWord == 0x0700) = true := by
  decide +kernel
theorem test_ori_to_ccr : check (start [0x003C, 0x0010] id) (fun t => t.regs.sr.toWord == 0x2710) = true := by
  decide +kernel
theorem test_ori_to_sr : check (start [0x007C, 0x0700] id 0x2000) (fun t => t.regs.sr.toWord == 0x2700) = true := by
  decide +kernel
theorem test_move_to_ccr : check (start [0x44FC, 0x00FF] id) (fun t => t.regs.sr.toWord == 0x271F) = true := by
  decide +kernel
theorem test_move_to_sr : check (start [0x46FC, 0xFFFF] id) (fun t => t.regs.sr.toWord == 0xE71F) = true := by
  decide +kernel
theorem test_move_to_sr_switches_a7 : check (start [0x46FC, 0x0000] (fun r => { r with usp := 0x7000 }))
    (fun t => aIs 7 0x7000 0 t && t.regs.ssp == 0x10000) = true := by decide +kernel
theorem test_move_from_sr : check (start [0x40C0] (d 0 0xFFFFFFFF) 0x2704) (dIs 0 0xFFFF2704 0x2704) = true := by
  decide +kernel
theorem test_move_to_usp : check (start [0x4E60] (a 0 0x70000)) (fun t => t.regs.usp == 0x70000) = true := by
  decide +kernel
theorem test_move_from_usp : check (start [0x4E69] (fun r => { r with usp := 0x70000 })) (aIs 1 0x70000 0x2700) = true := by
  decide +kernel
theorem test_rte : check (start [0x4E73] (a 7 0x7FFA) 0x2700 (put 0x7FFA [0, 0, 0x2000]))
    (fun t => t.regs.sr.toWord == 0 && t.pc == 0x2000 && t.regs.ssp == 0x8000) = true := by decide +kernel
theorem test_stop : check (start [0x4E72, 0x2300] id)
    (fun t => t.run == .stopped && t.regs.sr.toWord == 0x2300 && t.pc == 0x1004) = true := by decide +kernel

/-- Sets the exception vector `n` to a handler. -/
def vector (n : Nat) (h : Word) : Memory → Memory := put (4 * n) [0, h]

/-- E4: a traced STOP takes its trace and stays Normal. -/
theorem test_stop_traced : check (start [0x4E72, 0x2700] id 0xA700 (vector 9 0x1300))
    (fun t => t.run == .normal && t.pc == 0x1300 && longIs 0xFFFA 0x27000000 t && longIs 0xFFFC 0x1004 t) = true := by
  decide +kernel
/-- E3: STOP in user mode. -/
theorem test_stop_in_user_mode : check (start [0x4E72, 0x2700] id 0 (vector 8 0x1200))
    (fun t => t.run == .normal && t.pc == 0x1200 && longIs 0xFFFA 0 t && longIs 0xFFFC 0x1000 t) = true := by
  decide +kernel
theorem test_reset : check (start [0x4E70] id) (fun t => t.run == .halted && t.pc == 0x1002 && t.out.ended) = true := by
  decide +kernel
theorem test_reset_in_user_mode : check (start [0x4E70] id 0 (vector 8 0x1200))
    (fun t => t.run == .normal && t.pc == 0x1200 && t.regs.sr.toWord == 0x2000) = true := by decide +kernel
theorem test_trap_traced : check (start [0x4E40] id 0xA700 (fun m => vector 9 0x1300 (vector 32 0x1200 m)))
    (fun t => t.pc == 0x1300 && t.regs.ssp == 0xFFF4 && t.memValue .w 0xFFFA == 0xA700 && longIs 0xFFFC 0x1002 t &&
      t.memValue .w 0xFFF4 == 0x2700 && longIs 0xFFF6 0x1200 t) = true := by decide +kernel
theorem test_trapv : check (start [0x4E76] id) (fun t => t.pc == 0x1002 && t.regs.ssp == 0x10000) = true := by
  decide +kernel
theorem test_trapv_taken : check (start [0x4E76] id 0x2702 (vector 7 0x1200))
    (fun t => t.pc == 0x1200 && longIs 0xFFFC 0x1002 t) = true := by decide +kernel
theorem test_chk_at_bound : check (start [0x41BC, 0x000A] (d 0 10) 0x2710 (vector 6 0x1200))
    (fun t => t.pc == 0x1004 && t.regs.sr.x && t.regs.getD 0 == 10 && t.regs.ssp == 0x10000) = true := by decide +kernel
theorem test_chk_zero : check (start [0x41BC, 0x000A] id 0x2700 (vector 6 0x1200))
    (fun t => t.pc == 0x1004 && !t.regs.sr.x && t.regs.ssp == 0x10000) = true := by decide +kernel
theorem test_illegal : check (start [0x4AFC] id) (fun t => t.run == .halted && longIs 0xFFFC 0x1000 t) = true := by
  decide +kernel
theorem test_tas : check (start [0x4AC0] (d 0 0xFF)) (dIs 0 0xFF 0x2708) = true := by decide +kernel
theorem test_line_a : check (start [0xA123] id 0x2700 (vector 10 0x1200))
    (fun t => t.pc == 0x1200 && longIs 0xFFFC 0x1000 t) = true := by decide +kernel
theorem test_line_f : check (start [0xFFFF] id 0x2700 (vector 11 0x1200))
    (fun t => t.pc == 0x1200 && longIs 0xFFFC 0x1000 t) = true := by decide +kernel

/-! Sources: sections 2.2 and 2.12 of 95_test_vectors.md: the 14-byte frames and a halt. -/
theorem test_address_error_frame : check (start [0x3010] (fun r => a 0 0x2001 (d 0 7 r)) 0x2700 (vector 3 0x1400))
    (fun t => t.pc == 0x1400 && t.memValue .w 0xFFF2 == 0x0015 && longIs 0xFFF4 0x2001 t && t.memValue .w 0xFFF8 == 0x3010 &&
      t.memValue .w 0xFFFA == 0x2700 && longIs 0xFFFC 0x1002 t && dIs 0 7 0x2700 t) = true := by decide +kernel
theorem test_bus_error_frame : check (start [0x33C0, 0x00F0, 0x0000] (d 0 0x1234) 0x2700 (vector 2 0x1400))
    (fun t => t.pc == 0x1400 && t.memValue .w 0xFFF2 == 0x0005 && longIs 0xFFF4 0xF00000 t &&
      longIs 0xFFFC 0x1002 t) = true := by decide +kernel
theorem test_fault_while_stacking : check (start [0x4E40] (a 7 0x00F00006)) (fun t => t.run == .halted) = true := by
  decide +kernel

/-! Sources: rules R561 and R580 (an interrupt that answers vector 9 keeps T1), R571 (a fetch elsewhere keeps `in_group0`). -/
theorem test_interrupt_vector_nine :
    let s := start [0x4E71] id 0xA000 (vector 9 0x1300)
    check { s with run := .stopped, cfg := { s.cfg with irqLevels := [(0, 1)], irqVectors := ⟨[], .vector 9⟩ } }
      (fun t => t.run == .normal && t.pc == 0x1300 && t.regs.sr.toWord == 0xA100) = true := by decide +kernel
theorem test_in_group0_waits_for_its_handler :
    let s : State := { start [0x4E71] id with inGroup0 := true, group0Handler := 0x1400 }
    check s (fun t => t.inGroup0) = true ∧ check { s with group0Handler := 0x1000 } (fun t => !t.inGroup0) = true := by
  decide +kernel

/-! Source: rule R742, decision D48 and conflict C18: a rise to 7 is taken below the mask, a level 7 that is only held is not. -/
theorem test_level_seven_on_an_edge :
    let s := start [0x4E71, 0x4E71] id 0x2600 (vector 31 0x1300)
    check { s with cfg := { s.cfg with irqLevels := [(2, 7)] } } (fun t => t.pc == 0x1300 && t.regs.sr.i == 7) = true ∧
    check { s with cfg := { s.cfg with irqLevels := [(0, 7)] } } (fun t => t.pc == 0x1002 && t.regs.sr.i == 6) = true := by
  decide +kernel

/-! Source: rules R760, R761, R763: two slices run, then one rendering; with a clock of 8 and a rate of 2 samples a second the
eight cycles are two samples more than the one at time 0. -/
theorem test_run_slice_twice_render_once :
    let s := start [0x4E71, 0x4E71] id
    let t := ({ s with cfg := { s.cfg with sliceCycles := 4, cpuClock := 8, outRate := 2, hw := .amiga } } : State).runSlice.runSlice
    t.out.slice = 2 ∧ t.cycles = 8 ∧ t.pc = 0x1004 ∧ t.out.fifo = [] ∧ t.renderSlice.out.fifo.length = 3 := by decide +kernel

/-! Sources: rules R740 and R766 (a session with malformed flags makes no frame), R632 (R13 = 0xA: a triangle), R700. -/
theorem test_malformed_flags_make_no_frame :
    (State.resetWith { Params.standard with hw := .malformed } Launch.standard).renderSlice.out.fifo = [] := by
  decide +kernel
theorem test_envelope_triangle :
    let regs : Vector Byte 16 := ((Vector.replicate 16 0).set 11 1).set 13 0x0A
    let after := fun n : Nat => ((YmEnvelope.tick regs)^[n] ((Ym.atReset 16).sound.env.restart regs)).level
    after 0 = 31 ∧ after 31 = 0 ∧ after 32 = 0 ∧ after 63 = 31 ∧ after 64 = 31 := by decide +kernel
theorem test_paula_irq_level :
    let q : Paula := { Paula.atReset with intena := 0x4080, intreq := 0x80 }
    q.irqLevel true = 4 ∧ q.irqLevel false = 0 ∧ { q with intena := 0x4100 }.irqLevel true = 0 := by decide +kernel

/-! Sources: sections 2.13 and 2.14 of 95_test_vectors.md. -/
theorem test_ym_long_write : check (start [0x23FC, 0x0800, 0x0F00, 0x00FF, 0x8800] id)
    (fun t => t.ym.sel == 8 && t.ym.regs[8] == 0x0F && t.ym.writes.length == 1) = true := by decide +kernel
theorem test_tau : tauOfTick Params.standard 28 = 323695 ∧ blepPhase Params.standard 323695 = 15 ∧
    tauOfTick Params.standard 56 = 647390 ∧ blepPhase Params.standard 647390 = 14 := by decide +kernel
theorem test_set_clear : setClear 0 0x8201 = 0x201 ∧ setClear 0x201 1 = 0x200 ∧ setClear 0x200 0x8282 = 0x282 ∧
    setClear 0x7FFF 0x7FFF = 0 := by decide +kernel

/-! ## The fixed interface -/

theorem test_decode_table_word : decodeTableWord 16 0x4E71 = some .nop ∧ decodeTableWord 16 0x33C0 =
    some (.move .w (.dn 0) .absL) := by decide +kernel
theorem test_with_fetch_word : check (State.reset.withFetchWord 16 0x7204) (dIs 1 4 0x2700) = true := by decide +kernel
theorem test_with_fetch_word_pads : check (State.reset.withFetchWord 16 0x203C) (fun t => dIs 0 0 0x2704 t && t.pc == 0x1006) = true := by
  decide +kernel

/-! ## Witnesses: for every obligation with hypotheses, states and operands that meet all of them, one per clause -/

/-- A body answers. -/
def okB {α : Type} (x : Exec α) (s : State) : Bool :=
  match x s with
  | .ok _ _ => true
  | .error _ _ => false

theorem ok_of {α : Type} {x : Exec α} {s : State} (h : okB x s = true) : ∃ v t, x s = .ok v t := by
  unfold okB at h
  split at h
  · exact ⟨_, _, ‹_›⟩
  · cases h

/-- An operand is located, and `p` holds of its location. -/
def locatesB (ea : Ea) (sz : Size) (s : State) (p : Loc → Bool) : Bool :=
  match resolve ea sz s with
  | .ok loc _ => loc.accessible s sz && p loc
  | .error _ _ => false

theorem locates_of {ea : Ea} {sz : Size} {s : State} {p : Loc → Bool} (h : locatesB ea sz s p = true) :
    ∃ loc t, Locates ea sz s loc t ∧ p loc = true := by
  unfold locatesB at h
  split at h
  · exact ⟨_, _, ⟨‹_›, (Bool.and_eq_true _ _ ▸ h).1⟩, (Bool.and_eq_true _ _ ▸ h).2⟩
  · cases h

/-- A mode gives an address. -/
def addrB (ea : Ea) (sz : Size) (s : State) (p : Long → Bool) : Bool :=
  match resolve ea sz s with
  | .ok (.mem a) _ => p a
  | _ => false

theorem addr_of {ea : Ea} {sz : Size} {s : State} {p : Long → Bool} (h : addrB ea sz s p = true) :
    ∃ a t, resolve ea sz s = .ok (.mem a) t ∧ p a = true := by
  unfold addrB at h
  split at h
  · exact ⟨_, _, ‹_›, h⟩
  · cases h

/-- A body answers, and `p` holds of its value and state. -/
def thenB {α : Type} (x : Exec α) (s : State) (p : α → State → Bool) : Bool :=
  match x s with
  | .ok v t => p v t
  | .error _ _ => false

theorem then_of {α : Type} {x : Exec α} {s : State} {p : α → State → Bool} (h : thenB x s p = true) :
    ∃ v t, x s = .ok v t ∧ p v t = true := by
  unfold thenB at h
  split at h
  · exact ⟨_, _, ‹_›, h⟩
  · cases h

/-- The state of the witnesses: an extension word 0x0010 at pc = 0x1000, A0 = 0x2000, A1 = 0x3000, A7 = 0x8000, D0 = 7. -/
def base : State := start [0x0010, 0x0020] (fun r => d 0 7 (a 0 0x2000 (a 1 0x3000 (a 7 0x8000 r)))) 0x2700
  (put 0x2000 [0x0003, 0x0004])

/-- The same in user mode. -/
def user : State := { base with regs := { base.regs with sr := Sr.ofWord true 0 } }

/-- A NOP at the reset entry point. -/
def nopState : State := State.reset.withFetchWord 16 0x4E71

theorem witness_DecodeEncode : (Instr.addq 8 .w (.an 6)).wellFormed = true := by decide
theorem witness_EncodeDecode : decode 0xFFFF = .ok (.lineF 0xFFF) := by decide +kernel
theorem witness_StepRunsDecodedInstruction : nopState.out.ended = false ∧ nopState.run = .normal ∧
    isOdd nopState.pc = false ∧ nopState.busWord nopState.pc = some 0x4E71 ∧ decode 0x4E71 = .ok .nop := by decide +kernel

/-- An unused word at the reset entry point. -/
def unusedState : State := State.reset.withFetchWord 16 0x4E7A

theorem witness_IllegalWordTakesVectorFour : unusedState.out.ended = false ∧ unusedState.run = .normal ∧
    isOdd unusedState.pc = false ∧ unusedState.busWord unusedState.pc = some 0x4E7A ∧
    decode 0x4E7A = .error (.illegal 0x4E7A) := by decide +kernel
theorem witness_OpcodeFetchFaults_odd : ({ base with pc := 0x1001 } : State).out.ended = false ∧
    ({ base with pc := 0x1001 } : State).run = .normal ∧
    ({ base with pc := 0x1001 } : State).canAccess .w 0x1001 = false := by decide +kernel
theorem witness_OpcodeFetchFaults_unmapped : ({ base with pc := 0x10000 } : State).out.ended = false ∧
    ({ base with pc := 0x10000 } : State).run = .normal ∧
    ({ base with pc := 0x10000 } : State).canAccess .w 0x10000 = false := by decide +kernel
theorem witness_StoppedHaltedEndedSteps :
    (base.out.ended = false ∧ ({ base with run := .stopped } : State).run = .stopped) ∧
    (base.out.ended = false ∧ ({ base with run := .halted } : State).run = .halted) ∧
    ({ base with out := { base.out with ended := true } } : State).out.ended = true := by decide +kernel

/-- A machine with an external request of level `l`, the mask `i`, SSP at `ssp` and every handler at 0x1200. -/
def requested (l i : BitVec 3) (ssp : Long) : State :=
  let s := start [0x4E71] id 0x2700 (fun m => vector 2 0x1200 (vector 3 0x1200 (vector 9 0x1200 (vector 25 0x1200
    (vector 31 0x1200 (vector 32 0x1200 m))))))
  { s with
    cfg := { s.cfg with irqLevels := [(0, l)] }
    regs := { s.regs with ssp := ssp, sr := { s.regs.sr with i := i } } }

theorem witness_InterruptsAreTakenByLevel_taken :
    (requested 1 0 0x406).run ≠ .halted ∧ (requested 1 0 0x406).cfg.memoryOk = true ∧ (requested 1 0 0x406).stackRoom 6 ∧
    (requested 1 0 0x406).ipl ≠ 7 ∧ (requested 1 0 0x406).regs.sr.i.toNat < (requested 1 0 0x406).ipl.toNat ∧
    (requested 1 0 0x406).handlerOk 25 :=
  ⟨by decide +kernel, by decide +kernel, ⟨by decide +kernel, by decide +kernel, by decide +kernel⟩, by decide +kernel,
    by decide +kernel, by decide +kernel, by decide +kernel⟩

/-- A level-7 edge has been seen under the mask `i`, and the source answers vector 9. -/
def edged (i : BitVec 3) : State :=
  let s := requested 7 i 0x10000
  { s with irq := { s.irq with edge7 := true }, cfg := { s.cfg with irqVectors := ⟨[], .vector 9⟩ } }

theorem witness_InterruptsAreTakenByLevel_edge :
    (edged 7).run ≠ .halted ∧ (edged 7).cfg.memoryOk = true ∧ (edged 7).stackRoom 6 ∧
    ((edged 7).ipl = 7 ∧ (edged 7).lookAtIrq.irq.edge7 = true) ∧
    IrqAnswer.vectorOf (edged 7).ipl ((edged 7).cfg.irqVectors.get (edged 7).ipl) = 9 ∧ (edged 7).handlerOk 9 :=
  ⟨by decide +kernel, by decide +kernel, ⟨by decide +kernel, by decide +kernel, by decide +kernel⟩, by decide +kernel,
    by decide +kernel, by decide +kernel, by decide +kernel⟩
theorem witness_InterruptsAreTakenByLevel_edge_below :
    (edged 6).run ≠ .halted ∧ (edged 6).cfg.memoryOk = true ∧ (edged 6).stackRoom 6 ∧
    ((edged 6).ipl = 7 ∧ (edged 6).lookAtIrq.irq.edge7 = true) ∧ (edged 6).handlerOk 9 :=
  ⟨by decide +kernel, by decide +kernel, ⟨by decide +kernel, by decide +kernel, by decide +kernel⟩, by decide +kernel,
    by decide +kernel, by decide +kernel⟩
theorem witness_InterruptsAreTakenByLevel_held :
    (requested 7 6 0x10000).run ≠ .halted ∧ (requested 7 6 0x10000).cfg.memoryOk = true ∧
    (requested 7 6 0x10000).stackRoom 6 ∧ (requested 7 6 0x10000).ipl = 7 ∧
    (requested 7 6 0x10000).lookAtIrq.irq.edge7 = false :=
  ⟨by decide +kernel, by decide +kernel, ⟨by decide +kernel, by decide +kernel, by decide +kernel⟩, by decide +kernel,
    by decide +kernel⟩
theorem witness_InterruptsAreTakenByLevel_masked :
    ((requested 5 5 0x8000).ipl.toNat ≤ (requested 5 5 0x8000).regs.sr.i.toNat ∧ (requested 5 5 0x8000).ipl ≠ 7) ∧
    ((requested 7 7 0x8000).ipl.toNat ≤ (requested 7 7 0x8000).regs.sr.i.toNat ∧
      (requested 7 7 0x8000).lookAtIrq.irq.edge7 = false) ∧ (requested 7 7 0x8000).run ≠ .halted ∧
    (requested 7 7 0x8000).cfg.memoryOk = true := by decide +kernel
theorem witness_TraceAfterExceptions : Event.group .trace ≠ .two ∧ Event.group .trapV = .two := by decide
theorem witness_TraceAfterExceptions_boundary :
    (({ base with hid := { base.hid with tracePending := true } } : State).hid.tracePending = true ∧ base.run ≠ .halted) ∧
    base.hid.tracePending = false ∧ ({ base with run := .halted } : State).run = .halted := by decide +kernel
theorem witness_ResetLeaves : Params.standard.blepTaps = 16 ∧ Launch.standard.load ≤ 0xFFFF := by decide

theorem witness_StepKeepsInvariant : nopState.Inv ∧ ∃ t, step nopState = .next t :=
  ⟨⟨by decide +kernel, by decide +kernel, by decide +kernel, by decide +kernel, by decide +kernel, by decide +kernel,
    fun h => absurd h (by decide +kernel), fun h => absurd h (by decide +kernel)⟩,
   by
    have h : check nopState (fun _ => true) = true := by decide +kernel
    unfold check at h
    split at h
    · exact ⟨_, ‹_›⟩
    · cases h⟩
theorem witness_StepAlwaysAnswers : base.out.ended = false ∧ base.run ≠ .halted := by decide +kernel
theorem witness_UserModeIsolation : ∃ t, exec .nop user = .next t ∧ user.regs.sr.s = false ∧ t.regs.sr.s = false :=
  ⟨_, rfl, by decide +kernel, by decide +kernel⟩

theorem witness_ActiveStackPointer : (6 : Reg) ≠ 7 := by decide

theorem witness_ShortFrameEntry : Event.faultRec (.trap 0) = none ∧ (requested 0 7 0x406).cfg.memoryOk = true ∧
    (requested 0 7 0x406).stackRoom 6 ∧ (requested 0 7 0x406).handlerOk (Event.vector (.trap 0)) :=
  ⟨rfl, by decide +kernel, ⟨by decide +kernel, by decide +kernel, by decide +kernel⟩, by decide +kernel, by decide +kernel⟩
theorem witness_ShortFrameEntry_trace : Event.faultRec .trace = none ∧ (requested 0 7 0x10000).cfg.memoryOk = true ∧
    (requested 0 7 0x10000).stackRoom 6 ∧ (requested 0 7 0x10000).handlerOk (Event.vector .trace) :=
  ⟨rfl, by decide +kernel, ⟨by decide +kernel, by decide +kernel, by decide +kernel⟩, by decide +kernel, by decide +kernel⟩
theorem witness_GroupZeroFrameEntry : Event.faultRec (.busError ⟨1, true, 5, false⟩) = some ⟨1, true, 5, false⟩ ∧
    (requested 0 7 0x40E).cfg.memoryOk = true ∧ (requested 0 7 0x40E).stackRoom 14 ∧ (requested 0 7 0x40E).handlerOk 2 :=
  ⟨rfl, by decide +kernel, ⟨by decide +kernel, by decide +kernel, by decide +kernel⟩, by decide +kernel, by decide +kernel⟩
theorem witness_ShortFrameEntry_vector_nine : Event.faultRec (.interrupt 7 9) = none ∧ (edged 7).cfg.memoryOk = true ∧
    (edged 7).stackRoom 6 ∧ (edged 7).handlerOk (Event.vector (.interrupt 7 9)) :=
  ⟨rfl, by decide +kernel, ⟨by decide +kernel, by decide +kernel, by decide +kernel⟩, by decide +kernel, by decide +kernel⟩

/-- A bus error has been entered, and pc has left the handler without a fetch there. -/
def elsewhere : State := { enter (.busError ⟨1, true, 5, false⟩) 0x1000 (requested 0 7 0x40E) with pc := 0x1300 }

theorem witness_GroupZeroFrameEntry_elsewhere : elsewhere.inGroup0 = true ∧
    elsewhere.group0Handler = (enter (.busError ⟨1, true, 5, false⟩) 0x1000 (requested 0 7 0x40E)).group0Handler ∧
    elsewhere.pc ≠ (requested 0 7 0x40E).handlerOf 2 := by decide +kernel
theorem witness_ExceptionsThatHalt_unmapped :
    (requested 0 7 0x10002).canAccess .l ((requested 0 7 0x10002).regs.ssp - 4) = false ∧
    (requested 0 7 0x10004).canAccess .l ((requested 0 7 0x10004).regs.ssp - 4) = false ∧
    (requested 0 7 0xDFF004).canAccess .w ((requested 0 7 0xDFF004).regs.ssp - 6) = false ∧
    (Event.faultRec (.busError ⟨1, true, 5, false⟩)).isSome = true ∧
    (requested 0 7 0xDFF006).canAccess .w ((requested 0 7 0xDFF006).regs.ssp - 8) = false ∧
    (requested 0 7 0xDFF00A).canAccess .l ((requested 0 7 0xDFF00A).regs.ssp - 12) = false ∧
    (requested 0 7 0xDFF00C).canAccess .w ((requested 0 7 0xDFF00C).regs.ssp - 14) = false := by decide +kernel
theorem witness_ExceptionsThatHalt :
    ({ base with inGroup0 := true } : State).inGroup0 = true ∧ isOdd (requested 0 7 0x8001).regs.ssp = true := by
  decide +kernel
theorem witness_ExceptionsThatHalt_zero_handler : (requested 0 7 0x40E).cfg.memoryOk = true ∧
    (requested 0 7 0x40E).stackRoom 14 ∧ (requested 0 7 0x40E).handlerOf 4 = 0 :=
  ⟨by decide +kernel, ⟨by decide +kernel, by decide +kernel, by decide +kernel⟩, by decide +kernel⟩

/-- The handler of vector 4 is the first address past RAM. -/
def farHandler : State := start [0x4AFC] id 0x2700 (put 16 [1, 0])

theorem witness_ExceptionsThatHalt_far_handler : farHandler.cfg.memoryOk = true ∧ farHandler.stackRoom 14 ∧
    farHandler.cfg.memSize ≤ farHandler.extAddr (farHandler.handlerOf 4) :=
  ⟨by decide +kernel, ⟨by decide +kernel, by decide +kernel, by decide +kernel⟩, by decide +kernel⟩

/-- A0 is odd. -/
def oddA0 : State := start [0x3010] (fun r => a 0 0x2001 (d 0 7 r))

theorem witness_MisalignedMoveRollsBack_source : oddA0.inGroup0 = false ∧
    (∃ a t, resolve (.ind 0) .w oddA0.start = .ok (.mem a) t ∧ isOdd a = true) ∧
    ∃ a t, resolve (.postinc 0) .l oddA0.start = .ok (.mem a) t ∧ isOdd a = true :=
  ⟨by decide +kernel, addr_of (p := isOdd) (by decide +kernel), addr_of (p := isOdd) (by decide +kernel)⟩
theorem witness_MisalignedMoveRollsBack_destination : oddA0.inGroup0 = false ∧
    ∃ v s1, readEa (.dn 0) .w oddA0.start = .ok v s1 ∧ addrB (.ind 0) .w s1 isOdd = true :=
  ⟨by decide +kernel, then_of (p := fun _ s1 => addrB (.ind 0) .w s1 isOdd) (by decide +kernel)⟩
theorem witness_RteUndoesEntry : Event.faultRec (.trap 0) = none ∧ (requested 0 0 0x406).cfg.memoryOk = true ∧
    (requested 0 0 0x406).stackRoom 6 ∧ (requested 0 0 0x406).handlerOk (Event.vector (.trap 0)) ∧
    (requested 0 0 0x406).regs.sr.legal (requested 0 0 0x406).cfg.srT0Stored = true :=
  ⟨rfl, by decide +kernel, ⟨by decide +kernel, by decide +kernel, by decide +kernel⟩,
    ⟨by decide +kernel, by decide +kernel⟩, by decide +kernel⟩

theorem witness_BigEndianStores : base.cfg.memoryOk = true ∧ isOdd 0xFFFE = false ∧ isOdd 0xFFFC = false ∧
    (0xFFFE : Long).toNat + 2 ≤ base.cfg.memSize ∧ (0xFFFC : Long).toNat + 4 ≤ base.cfg.memSize ∧ isOdd 0 = false ∧
    (0 : Long).toNat + 4 ≤ base.cfg.memSize := by decide +kernel

/-- A body raises a bus error. -/
def busErrorB {α : Type} (x : Exec α) (s : State) : Bool :=
  match x s with
  | .error (.busError _) _ => true
  | _ => false

theorem busError_of {α : Type} {x : Exec α} {s : State} (h : busErrorB x s = true) : ∃ e t, x s = .error e t := by
  unfold busErrorB at h
  split at h
  · exact ⟨_, _, ‹_›⟩
  · cases h
theorem witness_Alignment : isOdd 0x2001 = true ∧ (isOdd 0x10000 = false ∧ ∃ e t, readMem .w 0x10000 base = .error e t) ∧
    ∃ e t, writeMem .b 0x10001 5 base = .error e t :=
  ⟨by decide, ⟨by decide, busError_of (by decide +kernel)⟩, busError_of (by decide +kernel)⟩

theorem witness_Alignment_movep : ∃ w t, fetch16 base.start = .ok w t := ok_of (by decide +kernel)

/-- The other unmapped policy. -/
def mirrored : State := { base with cfg := { base.cfg with unmapped := .mirror } }

theorem witness_AddressMap :
    (0x2000 : Long).toNat % 2 ^ base.cfg.addrBits = (0xFF002000 : Long).toNat % 2 ^ base.cfg.addrBits ∧
    base.isDevice 0x10000 = false ∧ base.cfg.memSize ≤ (0x10000 : Long).toNat % 2 ^ base.cfg.addrBits ∧
    base.cfg.unmapped = .busError ∧ mirrored.isDevice 0x10000 = false ∧ mirrored.cfg.unmapped = .mirror ∧
    mirrored.cfg.memSize ≤ (0x10000 : Long).toNat % 2 ^ mirrored.cfg.addrBits := by decide +kernel
theorem witness_EaLocations : ({ base with pc := 0xFFFC } : State).canAccess .w 0xFFFC = true ∧
    ({ base with pc := 0xFFFC } : State).canAccess .w (0xFFFC + 2) = true := by decide +kernel
theorem witness_ShiftsAreArithmetic : (0 : Nat) < 1 := by decide
theorem witness_BcdIsDecimal : Claims.isDecimal 0x99 ∧ Claims.isDecimal 0x00 :=
  ⟨⟨by decide, by decide⟩, by decide, by decide⟩

theorem witness_DyadicToDataRegister_bits : 31 < 32 ∧ 7 < Size.bits .b ∧ ¬ 8 < Size.bits .b ∧ (7 : Reg) ≠ 0 := by decide
theorem witness_DyadicToDataRegister : ∃ loc t, Locates (.postinc 7) .b base.start loc t ∧ true = true :=
  locates_of (p := fun _ => true) (by decide +kernel)
theorem witness_DyadicToOperand : ∃ loc t, Locates (.predec 0) .l base.start loc t ∧ true = true :=
  locates_of (p := fun _ => true) (by decide +kernel)
theorem witness_ImmediateToOperand : ∃ v s1, fetchImm .b base.start = .ok v s1 ∧
    locatesB (.disp 0) .b s1 (fun _ => true) = true :=
  then_of (p := fun _ s1 => locatesB (.disp 0) .b s1 (fun _ => true)) (by decide +kernel)
theorem witness_ImmediateToOperand_fetch : base.canAccess .w base.pc = true ∧ base.canAccess .w (base.pc + 2) = true := by
  decide +kernel
theorem witness_ComparesWriteFlagsOnly : (∃ loc t, Locates (.index 0) .b base.start loc t ∧ true = true) ∧
    (∃ loc t, Locates (.an 0) AddrSize.w.toSize base.start loc t ∧ true = true) :=
  ⟨locates_of (p := fun _ => true) (by decide +kernel), locates_of (p := fun _ => true) (by decide +kernel)⟩
theorem witness_ComparesWriteFlagsOnly_cmpm : base.canAccess .w (base.regs.getA 0) = true ∧
    base.canAccess .w ((base.regs.bump (.postinc 0) .w).getA 0) = true := by decide +kernel
theorem witness_AddressRegisterResults : (∃ loc t, Locates .imm AddrSize.l.toSize base.start loc t ∧ true = true) ∧
    ∃ a t, resolve (.disp 0) .l base.start = .ok (.mem a) t ∧ true = true :=
  ⟨locates_of (p := fun _ => true) (by decide +kernel), addr_of (p := fun _ => true) (by decide +kernel)⟩
theorem witness_QuickOperations : (∀ r, (Ea.ind 0) ≠ .an r) ∧
    ∃ loc t, Locates (.ind 0) .w base.start loc t ∧ true = true :=
  ⟨fun _ h => (by cases h), locates_of (p := fun _ => true) (by decide +kernel)⟩
theorem witness_ExtendedArithmetic :
    base.canAccess .b ((base.regs.bump (.predec 7) .b).getA 7) = true ∧
    base.canAccess .b (((base.regs.bump (.predec 7) .b).bump (.predec 7) .b).getA 7) = true := by decide +kernel
theorem witness_Multiplication : ∃ loc t, Locates (.ind 0) .w base.start loc t ∧ true = true :=
  locates_of (p := fun _ => true) (by decide +kernel)

/-- D0 is the largest dividend of a divisor of 3 whose quotient fits, and D1 the smallest of one that does not. -/
def divides : State := start [0x0003] (fun r => d 0 196607 (d 1 196608 (d 2 98303 (d 3 98304 r))))

theorem witness_Division_unsigned : ∃ loc t, Locates .imm .w divides.start loc t ∧
    (decide (loc.value divides .w ≠ 0) && decide ((divides.regs.getD 0).toNat / (loc.value divides .w).toNat < 2 ^ 16) &&
      decide (2 ^ 16 ≤ (divides.regs.getD 1).toNat / (loc.value divides .w).toNat)) = true :=
  locates_of (p := fun loc => decide (loc.value divides .w ≠ 0) &&
    decide ((divides.regs.getD 0).toNat / (loc.value divides .w).toNat < 2 ^ 16) &&
    decide (2 ^ 16 ≤ (divides.regs.getD 1).toNat / (loc.value divides .w).toNat)) (by decide +kernel)
theorem witness_Division_signed : ∃ loc t, Locates .imm .w divides.start loc t ∧
    (!Claims.signedOut 16 ((divides.regs.getD 2).toInt.tdiv (BitVec.toInt (n := 16) (loc.value divides .w))) &&
      Claims.signedOut 16 ((divides.regs.getD 3).toInt.tdiv (BitVec.toInt (n := 16) (loc.value divides .w)))) = true :=
  locates_of (p := fun loc =>
    !Claims.signedOut 16 ((divides.regs.getD 2).toInt.tdiv (BitVec.toInt (n := 16) (loc.value divides .w))) &&
    Claims.signedOut 16 ((divides.regs.getD 3).toInt.tdiv (BitVec.toInt (n := 16) (loc.value divides .w))))
    (by decide +kernel)
theorem witness_DivisionByZeroTraps : ∃ loc t, Locates (.dn 1) .w base.start loc t ∧
    decide (loc.value base .w = 0) = true :=
  locates_of (p := fun loc => decide (loc.value base .w = 0)) (by decide +kernel)
theorem witness_UnaryOperand : (∃ loc t, Locates (.predec 7) .b base.start loc t ∧ true = true) ∧
    ∃ loc t, Locates (.postinc 0) .w base.start loc t ∧ true = true :=
  ⟨locates_of (p := fun _ => true) (by decide +kernel), locates_of (p := fun _ => true) (by decide +kernel)⟩
theorem witness_MoveData : ∃ v s1, readEa (.postinc 0) .w base.start = .ok v s1 ∧
    locatesB (.predec 0) .w s1 (fun _ => true) = true :=
  then_of (p := fun _ s1 => locatesB (.predec 0) .w s1 (fun _ => true)) (by decide +kernel)

/-- The last long of RAM for a mask of one register: A0 is 4 bytes below the end, and A1 at it. -/
def movems : State := start [0x0010] (fun r => a 0 0xFFFC (a 1 0x10000 r))

theorem witness_MovemStores : (∃ mask s1, fetch16 movems.start = .ok mask s1 ∧
      (addrB (.ind 0) .l s1 (fun x => decide (x.toNat + 1 * 4 ≤ movems.cfg.memSize)) && decide (mask = 0x0010)) = true) ∧
    ((List.finRange 16).filter (fun i => (0x0010 : Word).getLsbD i.val)).length = 1 ∧
    (∀ r, (Ea.ind 0) ≠ .predec r) ∧ movems.cfg.memoryOk = true ∧ movems.canAccess .l (0xFFFC + BitVec.ofNat 32 0 * 4) = true :=
  ⟨then_of (p := fun mask s1 => addrB (.ind 0) .l s1 (fun x => decide (x.toNat + 1 * 4 ≤ movems.cfg.memSize)) &&
      decide (mask = 0x0010)) (by decide +kernel), by decide +kernel, fun _ h => (by cases h), by decide +kernel,
    by decide +kernel⟩
theorem witness_MovemStores_predecrement : (∃ mask s1, fetch16 movems.start = .ok mask s1 ∧ decide (mask = 0x0010) = true) ∧
    ((List.finRange 16).filter (fun i => (0x0010 : Word).getLsbD (15 - i.val))).length = 1 ∧
    movems.canAccess .l (movems.regs.getA 1 - BitVec.ofNat 32 1 * 4 + BitVec.ofNat 32 0 * 4) = true ∧
    (movems.regs.getA 1 - BitVec.ofNat 32 1 * 4).toNat + 1 * 4 = movems.cfg.memSize ∧
    (movems.regs.getA 1).toNat = movems.cfg.memSize :=
  ⟨then_of (p := fun mask _ => decide (mask = 0x0010)) (by decide +kernel), by decide +kernel, by decide +kernel,
    by decide +kernel, by decide +kernel⟩
theorem witness_MovemStores_listed : 7 < 8 ∧ 6 < 7 ∧ (14 : Fin 16) ≠ 15 := by decide
theorem witness_MovemLoads : (∃ mask s1, fetch16 movems.start = .ok mask s1 ∧
      (addrB (.ind 0) .l s1 (fun _ => true) && decide (mask = 0x0010)) = true) ∧ (∀ r, (Ea.ind 0) ≠ .postinc r) ∧
    ((List.finRange 16).filter (fun i => (0x0010 : Word).getLsbD i.val)).length = 1 ∧
    movems.canAccess .w (movems.regs.getA 0 + BitVec.ofNat 32 0 * 2) = true :=
  ⟨then_of (p := fun mask s1 => addrB (.ind 0) .l s1 (fun _ => true) && decide (mask = 0x0010)) (by decide +kernel),
    fun _ h => (by cases h), by decide +kernel, by decide +kernel⟩

/-- d16(A0) is the last address from which MOVEP's four bytes lie in RAM, and d16(A1) that for its two. -/
def peripheral : State := start [0x0010] (fun r => a 0 0xFFE9 (a 1 0xFFED r))

theorem witness_MovePeripheral : (∃ w s1, fetch16 peripheral.start = .ok w s1 ∧ decide (w = 0x0010) = true) ∧
    peripheral.regs.getA 0 + 0x10 = 0xFFF9 ∧ peripheral.canAccess .b (0xFFF9 + 0) = true ∧
    peripheral.canAccess .b (0xFFF9 + 2) = true ∧ peripheral.canAccess .b (0xFFF9 + 4) = true ∧
    peripheral.canAccess .b (0xFFF9 + 6) = true ∧ peripheral.cfg.memoryOk = true ∧
    (0xFFF9 : Long).toNat + 7 = peripheral.cfg.memSize ∧ peripheral.regs.getA 1 + 0x10 = 0xFFFD ∧
    peripheral.canAccess .b (0xFFFD + 0) = true ∧ peripheral.canAccess .b (0xFFFD + 2) = true ∧
    (0xFFFD : Long).toNat + 3 = peripheral.cfg.memSize :=
  ⟨then_of (p := fun w _ => decide (w = 0x0010)) (by decide +kernel), by decide +kernel⟩
theorem witness_StackFrames : (∃ a t, resolve (.disp 7) .l base.start = .ok (.mem a) t ∧ true = true) ∧
    base.canAccess .l ((base.regs.bump (.disp 7) .l).getA 7 - 4) = true ∧ (∃ w s1, fetch16 base.start = .ok w s1) ∧
    base.canAccess .l (base.regs.getA 0) = true :=
  ⟨addr_of (p := fun _ => true) (by decide +kernel), by decide +kernel, ok_of (by decide +kernel), by decide +kernel⟩
theorem witness_ShiftMemory : ∃ loc t, Locates (.ind 0) .w base.start loc t ∧ true = true :=
  locates_of (p := fun _ => true) (by decide +kernel)
theorem witness_BitOperations : (∃ w s1, fetch16 base.start = .ok w s1 ∧
      locatesB (.postinc 7) .b s1 (fun _ => true) = true) ∧ (∀ r, (Ea.postinc 7) ≠ .dn r) ∧
    ∃ loc t, Locates (.postinc 7) .b base.start loc t ∧ true = true :=
  ⟨then_of (p := fun _ s1 => locatesB (.postinc 7) .b s1 (fun _ => true)) (by decide +kernel), fun _ h => (by cases h),
    locates_of (p := fun _ => true) (by decide +kernel)⟩
theorem witness_DecimalInstructions : (base.canAccess .b ((base.regs.bump (.predec 0) .b).getA 0) = true ∧
      base.canAccess .b (((base.regs.bump (.predec 0) .b).bump (.predec 1) .b).getA 1) = true) ∧
    ∃ loc t, Locates (.dn 0) .b base.start loc t ∧ true = true :=
  ⟨by decide +kernel, locates_of (p := fun _ => true) (by decide +kernel)⟩
theorem witness_BranchesAndJumps : (∃ v t, branchDisp 0 base.start = .ok v t) ∧
    (∃ v t, branchDisp 0x80 base.start = .ok v t) ∧ (∃ w t, fetch16 base.start = .ok w t) ∧ (0x80 : Byte) ≠ 0 ∧
    ∃ a t, resolve .absW .l base.start = .ok (.mem a) t ∧ true = true :=
  ⟨ok_of (by decide +kernel), ok_of (by decide +kernel), ok_of (by decide +kernel), by decide,
    addr_of (p := fun _ => true) (by decide +kernel)⟩
theorem witness_CallsAndReturns : (∃ v t, branchDisp 0 base.start = .ok v t) ∧
    base.canAccess .l (base.regs.getA 7 - 4) = true ∧
    (∃ a t, resolve (.ind 0) .l base.start = .ok (.mem a) t ∧ true = true) ∧
    base.canAccess .l (base.regs.getA 7) = true ∧ base.canAccess .w (base.regs.getA 7) = true ∧
    base.canAccess .l (base.regs.getA 7 + 2) = true :=
  ⟨ok_of (by decide +kernel), by decide +kernel, addr_of (p := fun _ => true) (by decide +kernel), by decide +kernel⟩
theorem witness_StatusRegisterWrites_legal : base.regs.sr.legal true = true ∧ base.regs.sr.legal false = true := by
  decide +kernel
theorem witness_StatusRegisterWrites : (∃ w t, fetch16 base.start = .ok w t) ∧ base.regs.sr.s = true ∧
    ∃ loc t, Locates (.postinc 0) .w base.start loc t ∧ true = true :=
  ⟨ok_of (by decide +kernel), by decide +kernel, locates_of (p := fun _ => true) (by decide +kernel)⟩
theorem witness_SupervisorInstructions : base.regs.sr.s = true ∧ (∃ w t, fetch16 base.start = .ok w t) ∧
    base.canAccess .w base.regs.ssp = true ∧ base.canAccess .l (base.regs.ssp + 2) = true :=
  ⟨by decide +kernel, ok_of (by decide +kernel), by decide +kernel⟩
theorem witness_TrapInstructions : (start [0x4E76] id 0x2702).regs.sr.v = true ∧
    (start [0x4E76] id 0x2700).regs.sr.v = false := by decide +kernel

/-- The bound 10 as an immediate, with the index in D0 at and past each end. -/
def bounded (index : Long) : State := start [0x000A] (d 0 index)

/-- The bound of `bounded`. -/
def boundIsTen (index : Long) : Bool :=
  locatesB .imm .w (bounded index).start (fun loc => decide (BitVec.toInt (n := 16) (loc.value (bounded index) .w) = 10))

theorem witness_CheckBounds {index : Long} (h : boundIsTen index = true) :
    ∃ loc t, Locates .imm .w (bounded index).start loc t ∧
      decide (BitVec.toInt (n := 16) (loc.value (bounded index) .w) = 10) = true := locates_of h
theorem witness_CheckBounds_bound : boundIsTen 0 = true ∧ boundIsTen 10 = true ∧ boundIsTen 0xFFFF = true ∧
    boundIsTen 11 = true := by decide +kernel
theorem witness_CheckBounds_indices :
    BitVec.toInt (((bounded 0).regs.getD 0).setWidth 16) = 0 ∧ BitVec.toInt (((bounded 10).regs.getD 0).setWidth 16) = 10 ∧
    BitVec.toInt (((bounded 0xFFFF).regs.getD 0).setWidth 16) = -1 ∧
    BitVec.toInt (((bounded 11).regs.getD 0).setWidth 16) = 11 := by decide +kernel
theorem witness_PrivilegeViolations : user.regs.sr.s = false ∧ (∃ w t, fetch16 user.start = .ok w t) ∧
    ∃ loc t, Locates (.postinc 0) .w user.start loc t ∧ true = true :=
  ⟨by decide +kernel, ok_of (by decide +kernel), locates_of (p := fun _ => true) (by decide +kernel)⟩

theorem witness_YmBus : base.cfg.hw.hasYm = true ∧ 0xFF8800 ≤ base.extAddr 0xFF8800 ∧ base.extAddr 0xFFFF88FF ≤ 0xFF88FF ∧
    base.extAddr 0xFF8800 % 4 = 0 ∧ base.extAddr 0xFF88FE % 4 = 2 ∧ base.extAddr 0xFF88FF % 2 = 1 := by decide +kernel

/-- The registers with an envelope period of 1 and the shape `r13`. -/
def shape (r13 : Byte) : Vector Byte 16 := ((Vector.replicate 16 0).set 11 1).set 13 r13

theorem witness_YmGenerators : ymEnvPeriod (shape 0x0F) = 1 ∧ (shape 0x07)[13].getLsbD 3 = false ∧
    ((shape 0x0F)[13].getLsbD 3 = true ∧ (shape 0x0F)[13].getLsbD 0 = true) ∧
    ((shape 0x0E)[13].getLsbD 3 = true ∧ (shape 0x0E)[13].getLsbD 0 = false) ∧ ymEnvPeriod (shape 0x0E) = 1 ∧
    (1 : BitVec 17) ≠ 0 := by decide +kernel
theorem witness_YmGenerators_envelope : 1 ≤ ymEnvPeriod (shape 0x0F) ∧ 31 / ymEnvPeriod (shape 0x0F) ≤ 31 ∧
    32 ≤ 32 / ymEnvPeriod (shape 0x0F) ∧ 32 ≤ 32 / ymEnvPeriod (shape 0x07) := by decide +kernel
theorem witness_YmGenerators_noise : (1 ≤ 1 ∧ 1 ≤ 31 ∧ 31 ≤ 31 ∧ 1 ≤ 4095 ∧ 4095 ≤ 4095) ∧
    ymEnvPeriod (Vector.replicate 16 0) = 0 := by decide +kernel

/-- A playing channel of period `per` at phase 0. -/
def playing (per : Word) : PaulaChannel := ⟨⟨0x2000, 1, per, 64, 0⟩, ⟨.playing, 0x2000, 1, 0x1234, false, 0, false⟩⟩

/-- The phase of `playing per` after one sample. -/
def movedPhase (per : Word) : Nat :=
  0 + Params.standard.paulaClock * 2 ^ Params.standard.paulaFracBits / (per.toNat * Params.standard.outRate)

theorem witness_PaulaRegistersAndChannels : 0xDFF0A0 % 2 = 0 ∧ (Paula.atReset.latches[0]).len = 0 ∧
    (playing 0).latch.per = 0 ∧ (playing 81).latch.per ≠ 0 ∧ (playing 1).latch.len ≠ 0 ∧ (playing 81).play.state = .playing ∧
    movedPhase 81 < 2 ^ Params.standard.paulaFracBits ∧ 2 ^ Params.standard.paulaFracBits ≤ movedPhase 80 ∧
    movedPhase 41 < 2 * 2 ^ Params.standard.paulaFracBits ∧ Params.standard.paulaInterp = .none ∧
    (Paula.atReset.channels[0]).play.state ≠ .playing ∧ base.cfg.hw.hasPaula = true ∧
    base.extAddr 0xDFF000 = 0xDFF000 ∧ base.extAddr 0xFFDFF1FF = 0xDFF1FF := by decide +kernel
/-- The BLEP queue has overflowed, and one of the two frames came after that. -/
def overflowed : State :=
  { base with
    ym := { base.ym with sound := { base.ym.sound with fatal := true } }
    out := { base.out with fifo := [⟨1, 2⟩, ⟨3, 4⟩], afterOverflow := 1 } }

theorem witness_RenderedFrames_overflow : overflowed.ym.sound.fatal = true ∧ overflowed.cfg.hw ≠ .malformed ∧
    overflowed.markEnd.out.fifo = [⟨1, 2⟩] := by decide +kernel
theorem witness_RenderedFrames : base.cfg.hw ≠ .malformed ∧
    ({ base with cfg := { base.cfg with hw := .malformed } } : State).cfg.hw = .malformed ∧ base.renderSlice.ym.sound.fatal = false ∧
    ((-32768 : Int) ≤ 32767 ∧ (-32768 : Int) ≤ -32768 ∧ (32767 : Int) ≤ 32767) := by decide +kernel

theorem witness_ComparesWriteFlagsOnly_cmpi : ∃ v s1, fetchImm .w base.start = .ok v s1 ∧
    locatesB (.postinc 0) .w s1 (fun _ => true) = true :=
  then_of (p := fun _ s1 => locatesB (.postinc 0) .w s1 (fun _ => true)) (by decide +kernel)

end Sys2Proof.Tests
end

section
/-! Every step answers, keeps the parameters and lets time pass (O13). The CPU's part is `stepCpu_forward`; this part says
once what the rendering of a slice can change. -/

namespace Sys2Proof.Machine

/-! ## What the end of a slice leaves alone -/

/-- Everything the YM2149's part of a sample can do. -/
theorem State.sampleYm_eq (s : State) : ∃ y, s.sampleYm.1 = { s with ym := y } := by
  unfold State.sampleYm
  split
  · exact ⟨_, rfl⟩
  · exact ⟨s.ym, rfl⟩

/-- Everything Paula's part of a sample can do. -/
theorem State.samplePaula_eq (s : State) : ∃ p, s.samplePaula.1 = { s with paula := p } := by
  unfold State.samplePaula
  split
  · exact ⟨_, rfl⟩
  · exact ⟨s.paula, rfl⟩

/-- Everything a sample can do: it changes the two engines and the output alone (rule R763). -/
theorem State.produceSample_eq (s : State) : ∃ y p o, s.produceSample = { s with ym := y, paula := p, out := o } := by
  obtain ⟨y, hy⟩ := s.sampleYm_eq
  obtain ⟨p, hp⟩ := s.sampleYm.1.samplePaula_eq
  unfold State.produceSample
  dsimp only
  rw [hp, hy]
  exact ⟨y, p, _, rfl⟩

theorem State.produceSamples_eq (m : ℕ) (s : State) :
    ∃ y p o, State.produceSamples m s = { s with ym := y, paula := p, out := o } := by
  induction m generalizing s with
  | zero => exact ⟨s.ym, s.paula, s.out, rfl⟩
  | succ m ih =>
    obtain ⟨_, _, _, hsample⟩ := s.produceSample_eq
    obtain ⟨y, p, o, hrest⟩ := ih s.produceSample
    rw [hsample] at hrest
    exact ⟨y, p, o, by rw [State.produceSamples, hsample, hrest]⟩

/-- Everything the rendering of a slice can do (rule R763). -/
theorem State.renderSlice_eq (s : State) : ∃ y p o, s.renderSlice = { s with ym := y, paula := p, out := o } :=
  State.produceSamples_eq _ s

/-- Everything the end of a slice can do (rules R761, R763, R766). -/
theorem State.closeSlice_eq (s : State) : ∃ y p o, s.closeSlice = { s with ym := y, paula := p, out := o } := by
  obtain ⟨y, p, o, h⟩ := s.renderSlice_eq
  refine ⟨y, p, s.closeSlice.out, ?_⟩
  unfold State.closeSlice
  rw [h]
  rfl

/-- Everything that ends a step can do, whether the slice is over or not. -/
theorem State.endStep_eq (s : State) : ∃ y p o, s.endStep = { s with ym := y, paula := p, out := o } := by
  unfold State.endStep
  split
  · exact s.closeSlice_eq
  · exact ⟨s.ym, s.paula, s.out, rfl⟩

@[simp] theorem State.endStep_cfg (s : State) : s.endStep.cfg = s.cfg := by
  obtain ⟨_, _, _, h⟩ := s.endStep_eq; rw [h]

@[simp] theorem State.endStep_cycles (s : State) : s.endStep.cycles = s.cycles := by
  obtain ⟨_, _, _, h⟩ := s.endStep_eq; rw [h]

/-! ## Every step answers -/

theorem stepNormal_next (s : State) : ∃ t, stepNormal s = .next t := by
  unfold stepNormal
  split
  · exact ⟨_, rfl⟩
  · split
    · exact ⟨_, rfl⟩
    · rename_i t _ _ i _
      obtain ⟨u, hu⟩ := exec_next i t
      exact ⟨u.boundary, by rw [hu]⟩

theorem stepCpu_next (s : State) : ∃ t, stepCpu s = .next t := by
  unfold stepCpu
  split
  · exact stepNormal_next s
  · exact ⟨_, rfl⟩
  · exact ⟨s, rfl⟩

theorem step_of_ended {s : State} (h : s.out.ended = true) : step s = .next s := by simp [step, h]

/-- A step of a session that lives is a CPU step and the end of the slice it reaches (rules R761, R766). -/
theorem step_of_stepCpu {s t : State} (hlive : s.out.ended = false) (h : stepCpu s = .next t) :
    step s = .next t.endStep := by simp [step, hlive, h]

/-- Settles O13: the CPU step answers and moves the counter, and the end of the slice keeps the parameters and the counter. -/
theorem stepAlwaysAnswers : Obligations.StepAlwaysAnswers := by
  intro s
  cases hended : s.out.ended with
  | true => exact ⟨s, step_of_ended hended, rfl, fun hlive => by cases hlive⟩
  | false =>
    obtain ⟨t, ht⟩ := stepCpu_next s
    obtain ⟨⟨hcfg, _, _⟩, hlt⟩ := stepCpu_forward ht
    refine ⟨t.endStep, step_of_stepCpu hended ht, ?_, fun _ hrun => ?_⟩
    · rw [State.endStep_cfg, hcfg]
    · rw [State.endStep_cycles]
      exact hlt hrun

end Sys2Proof.Machine
end

section
/-! The flag helpers of rule R14 as arithmetic (O25). A subtraction `d - s - e = r` is read as the addition `r + s + e = d`:
the two helpers of a subtraction are those of that addition, so carry and overflow are worked out once. -/

namespace Sys2Proof.Machine

open Sys2Proof.Claims

theorem Size.bits_pos (sz : Size) : 0 < sz.bits := by cases sz <;> decide

variable {n : ℕ} {s d e : BitVec n}

/-! ## Signed range -/

/-- An integer is outside the signed range exactly when wrapping it changes it. -/
theorem signedOut_eq_decide_wrap_ne (hn : 0 < n) (v : ℤ) :
    signedOut n v = decide ((BitVec.ofInt n v).toInt ≠ v) := by
  rw [signedOut, ← Bool.decide_or, decide_eq_decide]
  constructor
  · intro hout hwrap
    have hlo := BitVec.le_toInt (BitVec.ofInt n v)
    have hhi := BitVec.toInt_lt (x := BitVec.ofInt n v)
    omega
  · intro hne
    by_contra hin
    push Not at hin
    exact hne (BitVec.toInt_ofInt_eq_self hn hin.1 hin.2)

/-- The exact signed sum wraps to the sum of the words. -/
theorem ofInt_signed_sum (s d e : BitVec n) : BitVec.ofInt n (d.toInt + s.toInt + e.toNat) = d + s + e := by
  simp [BitVec.ofInt_add, BitVec.ofInt_natCast]

/-- The exact signed difference wraps to the difference of the words. -/
theorem ofInt_signed_difference (s d e : BitVec n) :
    BitVec.ofInt n (d.toInt - s.toInt - e.toNat) = d - s - e := by
  have hsum : BitVec.ofInt n (d.toInt - s.toInt - e.toNat) + s + e = d := by
    calc BitVec.ofInt n (d.toInt - s.toInt - e.toNat) + s + e
        = BitVec.ofInt n (d.toInt - s.toInt - e.toNat + s.toInt + e.toNat) := by
          simp only [BitVec.ofInt_add, BitVec.ofInt_toInt, BitVec.ofInt_natCast, BitVec.ofNat_toNat,
            BitVec.setWidth_eq]
      _ = d := by rw [show d.toInt - s.toInt - e.toNat + s.toInt + e.toNat = d.toInt by ring, BitVec.ofInt_toInt]
  exact eq_sub_of_add_eq (eq_sub_of_add_eq (by rw [add_right_comm]; exact hsum))

/-! ## Addition -/

/-- The word sum is the unbounded one, less 2^n once it reaches that. -/
theorem toNat_sum_cases (he : e.toNat ≤ 1) :
    (d.toNat + s.toNat + e.toNat < 2 ^ n ∧ (d + s + e).toNat = d.toNat + s.toNat + e.toNat) ∨
    (2 ^ n ≤ d.toNat + s.toNat + e.toNat ∧ (d + s + e).toNat + 2 ^ n = d.toNat + s.toNat + e.toNat) := by
  have hd := d.isLt
  have hs := s.isLt
  have hmod : (d + s + e).toNat = (d.toNat + s.toNat + e.toNat) % 2 ^ n := by simp
  by_cases hc : d.toNat + s.toNat + e.toNat < 2 ^ n
  · exact .inl ⟨hc, by rw [hmod, Nat.mod_eq_of_lt hc]⟩
  · rw [Nat.mod_eq_sub_mod (by omega), Nat.mod_eq_of_lt (by omega)] at hmod
    omega

/-- The most significant bit as the upper half of the range, in the terms `omega` reads. -/
theorem msb_iff_half_le (x : BitVec (n + 1)) : x.msb = true ↔ 2 ^ n ≤ x.toNat := by
  simp [BitVec.msb_eq_decide]

/-- C of an addition is the carry of the unbounded sum (rule R14). -/
theorem addC_eq_carry (hn : 0 < n) (he : e.toNat ≤ 1) :
    addC s d (d + s + e) = decide (2 ^ n ≤ d.toNat + s.toNat + e.toNat) := by
  obtain ⟨m, rfl⟩ := Nat.exists_eq_add_one.2 hn
  have hsum := toNat_sum_cases (s := s) (d := d) he
  have hd := d.isLt
  have hs := s.isLt
  have hr := (d + s + e).isLt
  rw [Bool.eq_iff_iff]
  simp only [addC, Bool.or_eq_true, Bool.and_eq_true, Bool.not_eq_true', ← Bool.not_eq_true, msb_iff_half_le,
    decide_eq_true_eq]
  omega

/-- V of an addition says that the wrapped signed sum is not the exact one. -/
theorem addV_eq_decide_toInt_ne (hn : 0 < n) (he : e.toNat ≤ 1) :
    addV s d (d + s + e) = decide ((d + s + e).toInt ≠ d.toInt + s.toInt + e.toNat) := by
  obtain ⟨m, rfl⟩ := Nat.exists_eq_add_one.2 hn
  have hsum := toNat_sum_cases (s := s) (d := d) he
  have hd := d.isLt
  have hs := s.isLt
  have hr := (d + s + e).isLt
  rw [Bool.eq_iff_iff]
  simp only [addV, Bool.or_eq_true, Bool.and_eq_true, Bool.not_eq_true', ← Bool.not_eq_true, msb_iff_half_le,
    decide_eq_true_eq, BitVec.toInt_eq_msb_cond]
  split_ifs <;> omega

/-- V of an addition is the signed overflow of the exact sum (rule R14). -/
theorem addV_eq_signedOut (hn : 0 < n) (he : e.toNat ≤ 1) :
    addV s d (d + s + e) = signedOut n (d.toInt + s.toInt + e.toNat) := by
  rw [signedOut_eq_decide_wrap_ne hn, ofInt_signed_sum, addV_eq_decide_toInt_ne hn he]

/-! ## Subtraction -/

theorem difference_add_back (s d e : BitVec n) : d - s - e + s + e = d := by abel

theorem subC_eq_addC (s d r : BitVec n) : subC s d r = addC s r d := by
  unfold subC addC
  cases s.msb <;> cases d.msb <;> cases r.msb <;> rfl

theorem subV_eq_addV (s d r : BitVec n) : subV s d r = addV s r d := by
  unfold subV addV
  cases s.msb <;> cases d.msb <;> cases r.msb <;> rfl

/-- The word difference is the unbounded one, plus 2^n when it borrows. -/
theorem toNat_difference_cases (he : e.toNat ≤ 1) :
    (s.toNat + e.toNat ≤ d.toNat ∧ (d - s - e).toNat + s.toNat + e.toNat = d.toNat ∧
      (d - s - e).toNat + s.toNat + e.toNat < 2 ^ n) ∨
    (d.toNat < s.toNat + e.toNat ∧ (d - s - e).toNat + s.toNat + e.toNat = d.toNat + 2 ^ n) := by
  have hsum := toNat_sum_cases (s := s) (d := d - s - e) he
  rw [difference_add_back] at hsum
  have hb := (d - s - e).isLt
  omega

/-- C of a subtraction is the borrow (rule R14). -/
theorem subC_eq_borrow (hn : 0 < n) (he : e.toNat ≤ 1) :
    subC s d (d - s - e) = decide (d.toNat < s.toNat + e.toNat) := by
  have hcarry := addC_eq_carry (s := s) (d := d - s - e) hn he
  rw [difference_add_back] at hcarry
  rw [subC_eq_addC, hcarry, decide_eq_decide]
  have hdiff := toNat_difference_cases (s := s) (d := d) he
  omega

/-- V of a subtraction is the signed overflow of the exact difference (rule R14). -/
theorem subV_eq_signedOut (hn : 0 < n) (he : e.toNat ≤ 1) :
    subV s d (d - s - e) = signedOut n (d.toInt - s.toInt - e.toNat) := by
  have hover := addV_eq_decide_toInt_ne (s := s) (d := d - s - e) hn he
  rw [difference_add_back] at hover
  rw [subV_eq_addV, hover, signedOut_eq_decide_wrap_ne hn, ofInt_signed_difference, decide_eq_decide]
  omega

/-- The word difference is the exact one modulo 2^n. -/
theorem toNat_difference (he : e.toNat ≤ 1) :
    ((d - s - e).toNat : ℤ) = ((d.toNat : ℤ) - s.toNat - e.toNat) % (2 ^ n : ℕ) := by
  have hb := (d - s - e).isLt
  rcases toNat_difference_cases (s := s) (d := d) he with ⟨_, hexact, _⟩ | ⟨_, hborrow⟩
  · rw [Int.emod_eq_of_lt] <;> omega
  · rw [← Int.add_emod_right, Int.emod_eq_of_lt] <;> omega

/-! ## The helpers -/

theorem toNat_extendBit (hn : 0 < n) (x : Bool) : ((BitVec.ofBool x).setWidth n).toNat = if x then 1 else 0 := by
  have hpow : 1 < 2 ^ n := Nat.one_lt_two_pow (by omega)
  cases x <;> simp [Nat.mod_eq_of_lt hpow]

end Sys2Proof.Machine
end

section
namespace Sys2Proof.Machine

/-- Settles O25: the helpers are their bit expressions by definition, and those are the carry, the borrow and the signed
overflow of the exact result. -/
theorem flagHelpersAreArithmetic : Obligations.FlagHelpersAreArithmetic := by
  intro sz f s d x e k a b av ac bv bc
  have hn : 0 < sz.bits := Size.bits_pos sz
  have hk : e.toNat = k := toNat_extendBit hn x
  have he : e.toNat ≤ 1 := by rw [hk]; cases x <;> decide
  refine ⟨rfl, rfl, rfl, rfl, rfl, rfl, ?_, ?_, ?_, ?_, ?_, ?_⟩
  · exact hk ▸ addC_eq_carry hn he
  · exact hk ▸ addV_eq_signedOut hn he
  · rw [← hk]; simp [a]
  · exact hk ▸ subC_eq_borrow hn he
  · exact hk ▸ subV_eq_signedOut hn he
  · exact hk ▸ toNat_difference he

end Sys2Proof.Machine
end

section
/-! User mode is isolated from the system state (O14): no operation of an unprivileged rule reaches the system byte or
SSP, and an exception of any kind either leaves supervisor mode set or, as a double fault, leaves the registers alone. -/

namespace Sys2Proof.Machine

open Sys2Proof.Config

/-! ## Entering an exception, after SR is set -/

/-- What an entry does once SR is set: everything of `entryBody` from `in_group0` on, with the SR word that is stacked
given (rule R561). -/
def entryRest (e : Event) (p : Long) (old : Word) : Exec Unit := do
  updating (fun s => { s with inGroup0 := s.inGroup0 || decide (e.group = .zero) })
  pushFrameLong p
  pushFrameWord old
  pushFaultInfo e
  let h ← readLongAt .exception (e.vector.setWidth 32 * 4)
  enterHandler e h

/-- The state in which an entry begins to stack: SR as the entry sets it. -/
def State.entrySr (s : State) (e : Event) : State :=
  { s with regs := s.regs.withSr (s.regs.sr.onEntry e s.cfg.traceKeepsT) }

theorem entryBody_eq_entryRest (e : Event) (p : Long) (s : State) :
    entryBody e p s = entryRest e p s.regs.sr.toWord (s.entrySr e) := rfl

theorem EntryTolerant.rest {R : State → State → Prop} (h : EntryTolerant R) (e : Event) (p : Long) (old : Word) :
    Exec.Always R (entryRest e p old) :=
  .seq h.trans (.updating fun s => h.inGroup0 s _) fun _ => .seq h.trans (h.pushLong p) fun _ =>
    .seq h.trans (h.pushWord _) fun _ => .seq h.trans (h.pushInfo e) fun _ =>
      .seq h.trans (.look h.refl (readLongAt_look _ _)) fun _ => .updating fun s => by
        split
        · exact h.halted s
        · exact h.handler s _ _ _

/-- From `s` to `t` supervisor mode has not been left. -/
def KeepsSupervisor (s t : State) : Prop := s.regs.sr.s = true → t.regs.sr.s = true

/-- A word write touches memory and the engines alone. -/
theorem State.storeWord_regs {s t : State} {a : Long} {v : Word} {ts : Nat} (h : s.storeWord a v ts = some t) :
    t.regs = s.regs := by
  unfold State.storeWord at h
  split at h <;> cases h <;> rfl

theorem State.storeByte_regs {s t : State} {a : Long} {v : Byte} {ts : Nat} (h : s.storeByte a v ts = some t) :
    t.regs = s.regs := by
  unfold State.storeByte at h
  split at h <;> cases h <;> rfl

theorem KeepsSupervisor.entryTolerant : EntryTolerant KeepsSupervisor where
  trans _ _ _ h k hs := k (h hs)
  refl _ hs := hs
  ssp _ _ hs := hs
  sr _ _ _ := rfl
  inGroup0 _ _ hs := hs
  storeWord _ h hs := by rw [State.storeWord_regs h]; exact hs
  handler _ _ _ _ hs := hs
  halted _ hs := hs

/-- Every exception leaves the CPU in supervisor mode, also one whose entry halts (rule R561). -/
theorem enter_supervisor (e : Event) (p : Long) (s : State) : (enter e p s).regs.sr.s = true := by
  have hrest := KeepsSupervisor.entryTolerant.rest e p s.regs.sr.toWord (s.entrySr e)
  unfold enter
  rw [entryBody_eq_entryRest]
  cases hrun : entryRest e p s.regs.sr.toWord (s.entrySr e) with
  | ok _ t => exact hrest.1 _ t hrun rfl
  | error _ t => exact hrest.2 _ t hrun rfl

/-! ## The body of a rule in user mode -/

theorem SameSystem.system_eq {f g : Sr} (h : SameSystem f g) : f.system = g.system := by
  obtain ⟨ht1, ht0, hs, hi⟩ := h
  simp [Sr.system, ht1, ht0, hs, hi]

/-- Started in user mode, a piece of pseudocode has changed neither the system byte nor SSP. -/
def UserIsolated (s t : State) : Prop :=
  s.regs.sr.s = false → SameSystem t.regs.sr s.regs.sr ∧ t.regs.ssp = s.regs.ssp

theorem UserIsolated.of_regs_eq {s t : State} (h : t.regs = s.regs) : UserIsolated s t := fun _ => by
  rw [h]; exact ⟨⟨rfl, rfl, rfl, rfl⟩, rfl⟩

theorem UserIsolated.tolerant : Tolerant UserIsolated where
  trans := by
    intro s t u h k hs
    obtain ⟨⟨ht1, ht0, hss, hi⟩, hssp⟩ := h hs
    obtain ⟨⟨kt1, kt0, ks, ki⟩, kssp⟩ := k (hss.trans hs)
    exact ⟨⟨kt1.trans ht1, kt0.trans ht0, ks.trans hss, ki.trans hi⟩, kssp.trans hssp⟩
  measured h := .of_regs_eq h.regs
  setD _ _ _ _ := ⟨⟨rfl, rfl, rfl, rfl⟩, rfl⟩
  setA s n v hs := by
    refine ⟨by simp [SameSystem], ?_⟩
    have hssp := (s.regs.setA_otherSp n v).2
    simpa [hs] using hssp
  flags _ _ hf _ := ⟨hf, rfl⟩
  draw _ := .of_regs_eq rfl
  storeByte h := .of_regs_eq (State.storeByte_regs h)
  storeWord _ h := .of_regs_eq (State.storeWord_regs h)

/-! ## The end of an instruction -/

/-- An instruction that raised an event ends in supervisor mode, or is a double fault that kept its registers (rules R561,
R571, R585). -/
theorem State.afterEvent_supervisor (s s0 : State) (e : Event) :
    (s.afterEvent s0 e).regs.sr.s = true ∨ (s.afterEvent s0 e).regs = s0.hid.snapshot := by
  unfold State.afterEvent
  cases e.group with
  | zero =>
    dsimp only
    unfold takeFault
    dsimp only
    split
    · exact .inr rfl
    · exact .inl (enter_supervisor _ _ _)
  | one => exact .inl (enter_supervisor _ _ _)
  | two => exact .inl (enter_supervisor _ _ _)

theorem runRule_isolated {body : Exec Unit} (hb : Exec.Always UserIsolated body) {s : State}
    (hs : s.regs.sr.s = false) (ht : (runRule body s).regs.sr.s = false) :
    SameSystem (runRule body s).regs.sr s.regs.sr ∧ (runRule body s).regs.ssp = s.regs.ssp := by
  unfold runRule at ht ⊢
  cases hrun : body s.start with
  | ok _ t => exact (hb s.start).1 _ t hrun hs
  | error e t =>
    rw [hrun] at ht
    rcases t.afterEvent_supervisor s.start e with hsup | hregs
    · exact absurd (hsup.symm.trans ht) (by decide)
    · exact UserIsolated.of_regs_eq hregs hs

/-- A privileged instruction in user mode raises before it does anything else (rule R500). -/
theorem exec_privileged_of_user {i : Instr} (hi : isPrivileged i = true) {s : State} (hs : s.regs.sr.s = false) :
    exec i s = .next (s.start.afterEvent s.start .privilegeViolation) := by
  have raises : ∀ g : Unit → Exec Unit, (requireSupervisor >>= g) s.start = .error .privilegeViolation s.start :=
    fun _ => requireSupervisor_bind_of_user hs
  cases i with
  | andiToSr | eoriToSr | oriToSr | moveToSr _ | moveToUsp _ | moveFromUsp _ | rte | stop | reset =>
    exact complete_of_error (raises _)
  | _ => cases hi

/-- Settles O14: an unprivileged rule is built from isolated operations, a privileged one raises, and what raises ends in
supervisor mode or undone. -/
theorem userModeIsolation : Obligations.UserModeIsolation := by
  intro i s t hexec hs ht
  have hsame : SameSystem t.regs.sr s.regs.sr ∧ t.regs.ssp = s.regs.ssp := by
    cases hi : isPrivileged i with
    | false =>
      obtain ⟨body, hbody, hkeeps⟩ := UserIsolated.tolerant.hasBody i hi
      rw [hbody] at hexec
      cases hexec
      exact runRule_isolated hkeeps hs ht
    | true =>
      rw [exec_privileged_of_user hi hs] at hexec
      cases hexec
      exact absurd ((enter_supervisor _ _ _).symm.trans ht) (by decide)
  exact ⟨hsame.1.system_eq, hsame.2⟩

end Sys2Proof.Machine
end

section
/-! The invariant is kept by every step (O10): by what the CPU does, as a relation that every primitive operation keeps,
and by what the rendering of a slice does to the two engines. -/

namespace Sys2Proof.Machine

open Sys2Proof.Config

/-! ## What the registers of the engines hold -/

theorem ymRegsOk_iff (regs : Vector Byte 16) :
    ymRegsOk regs = true ↔ ∀ i : Fin 16, regs[i] &&& ymMask (BitVec.ofNat 4 i.val) = regs[i] := by
  simp [ymRegsOk]

theorem Paula.ok_iff (q : Paula) :
    q.ok = true ↔ ∀ x : Fin 4, q.latches[x].ok = true ∧ q.channels[x].latch.ok = true := by
  simp [Paula.ok]

theorem Ym.ok_iff (y : Ym) :
    y.ok = true ↔ ymRegsOk y.regs = true ∧ ymRegsOk y.sound.regs = true ∧ y.sound.noise.lfsr ≠ 0 := by
  simp [Ym.ok, and_assoc]

/-- A masked store keeps every register under its mask (rule R620). -/
theorem ymRegsOk_store {regs : Vector Byte 16} (h : ymRegsOk regs = true) (r : BitVec 4) (v : Byte) :
    ymRegsOk (ymStore regs r v) = true := by
  rw [ymRegsOk_iff] at h ⊢
  intro i
  by_cases hi : r.toNat = i.val
  · have hr : BitVec.ofNat 4 i.val = r := by rw [← hi]; simp
    simp [ymStore, ymIndex, hi, hr, BitVec.and_assoc]
  · simpa [ymStore, ymIndex, hi] using h i

/-- A write to a latch keeps the pointer even (rule R690). -/
theorem PaulaLatch.ok_write {l : PaulaLatch} (h : l.ok = true) (r : PaulaReg) (v : Word) : (l.write r v).ok = true := by
  cases r with
  | lch _ =>
    rw [PaulaLatch.ok, PaulaLatch.write, BitVec.getLsbD_append]
    simpa [PaulaLatch.ok] using h
  | lcl _ =>
    rw [PaulaLatch.ok, PaulaLatch.write, BitVec.getLsbD_append]
    simp
  | _ => exact h

/-- Replacing one channel's latches by legal ones keeps the engine legal. -/
theorem Paula.ok_setLatch {q : Paula} (h : q.ok = true) (x : Fin 4) {l : PaulaLatch} (hl : l.ok = true) :
    ({ q with latches := q.latches.set x.val l x.isLt } : Paula).ok = true := by
  rw [Paula.ok_iff] at h ⊢
  intro y
  refine ⟨?_, (h y).2⟩
  by_cases hxy : x.val = y.val
  · simpa [hxy] using hl
  · simpa [hxy] using (h y).1

theorem Paula.ok_store {q : Paula} (h : q.ok = true) (r : PaulaReg) (v : Word) : (q.store r v).ok = true := by
  have hlatch := fun x => PaulaLatch.ok_write ((Paula.ok_iff q).1 h x).1 r v
  cases r with
  | dmacon | intena | intreq => exact h
  | lch x | lcl x | len x | per x | vol x | dat x => exact Paula.ok_setLatch h x (hlatch x)

/-- A write on the bus keeps the engine legal (rules R690-R692). -/
theorem Paula.ok_writeWord {q : Paula} (h : q.ok = true) (e : Nat) (v : Word) (ts : Nat) :
    (q.writeWord e v ts).ok = true := by
  unfold Paula.writeWord
  split
  · exact Paula.ok_store h _ v
  · exact h

/-- A byte write on the bus keeps the engine legal and does not reach what sounds (rules R620-R622). -/
theorem Ym.ok_writeByte {y : Ym} (h : y.ok = true) (e : Nat) (v : Byte) (ts : Nat) :
    (y.writeByte e v ts).ok = true := by
  unfold Ym.writeByte
  split
  · exact h
  · rw [Ym.ok_iff] at h ⊢
    exact ⟨ymRegsOk_store h.1 _ _, h.2⟩
  · exact h

@[simp] theorem Ym.writeByte_sound (y : Ym) (e : Nat) (v : Byte) (ts : Nat) :
    (y.writeByte e v ts).sound = y.sound := by
  unfold Ym.writeByte
  split <;> rfl

@[simp] theorem Ym.writeWord_sound (y : Ym) (e : Nat) (v : Word) (ts : Nat) :
    (y.writeWord e v ts).sound = y.sound := by simp [Ym.writeWord]

theorem Ym.ok_writeWord {y : Ym} (h : y.ok = true) (e : Nat) (v : Word) (ts : Nat) :
    (y.writeWord e v ts).ok = true := Ym.ok_writeByte (Ym.ok_writeByte h _ _ _) _ _ _

/-! ## Where RAM answers -/

theorem Params.memoryOk_iff (p : Params) : p.memoryOk = true ↔
    0x400 < p.memSize ∧ p.memSize ≤ 0xDFF000 ∧ p.memSize % 2 = 0 ∧ 24 ≤ p.addrBits := by
  simp [Params.memoryOk, and_assoc]

/-- What RAM answers at lies inside it, and an even external address answers at an even one, so both bytes of its word lie
inside (rules R90, R91). -/
theorem State.target_ram_lt {s : State} (hp : s.cfg.memoryOk = true) {e x : Nat} (h : s.target e = .ram x) :
    x < s.cfg.memSize ∧ (e % 2 = 0 → x + 1 < s.cfg.memSize) := by
  obtain ⟨hlow, _, heven, _⟩ := (Params.memoryOk_iff _).1 hp
  unfold State.target at h
  split_ifs at h with _ _ hin
  · cases h
    exact ⟨hin, fun he => by omega⟩
  · cases h
    have hlt := Nat.mod_lt e (by omega : s.cfg.memSize > 0)
    refine ⟨hlt, fun he => ?_⟩
    have hmod : e % s.cfg.memSize % 2 = e % 2 := Nat.mod_mod_of_dvd e (Nat.dvd_of_mod_eq_zero heven)
    omega

/-- An even address is even on the bus (rule R81). -/
theorem State.extAddr_even {s : State} (hp : s.cfg.memoryOk = true) {a : Long} (ha : isOdd a = false) :
    s.extAddr a % 2 = 0 := by
  obtain ⟨_, _, _, hbits⟩ := (Params.memoryOk_iff _).1 hp
  rw [isOdd_eq, decide_eq_false_iff_not] at ha
  rw [State.extAddr, Nat.mod_mod_of_dvd _ (dvd_pow_self 2 (by omega))]
  omega

/-! ## What the CPU keeps -/

/-- The part of the invariant that holds all through a step: everything but the end of the session. -/
structure State.HardwareOk (s : State) : Prop where
  params : s.cfg.memoryOk = true
  memWf : Memory.wf s.mem = true
  memWithin : Memory.within s.cfg.memSize s.mem = true
  sr : s.regs.sr.legal s.cfg.srT0Stored = true
  ym : s.ym.ok = true
  paula : s.paula.ok = true

/-- From `s` to `t` the parameters and what sounds of the YM2149 are the same, and the hardware is legal if it was. -/
def KeepsHardware (s t : State) : Prop :=
  t.cfg = s.cfg ∧ t.ym.sound = s.ym.sound ∧ (s.HardwareOk → t.HardwareOk)

theorem KeepsHardware.trans {s t u : State} (h : KeepsHardware s t) (k : KeepsHardware t u) : KeepsHardware s u :=
  ⟨k.1.trans h.1, k.2.1.trans h.2.1, fun hs => k.2.2 (h.2.2 hs)⟩

/-- An update of registers alone keeps the hardware when it keeps SR legal. -/
theorem KeepsHardware.of_sr {s t : State} (hcfg : t.cfg = s.cfg) (hmem : t.mem = s.mem) (hym : t.ym = s.ym)
    (hpaula : t.paula = s.paula)
    (hsr : s.regs.sr.legal s.cfg.srT0Stored = true → t.regs.sr.legal s.cfg.srT0Stored = true) : KeepsHardware s t :=
  ⟨hcfg, by rw [hym], fun h => ⟨hcfg ▸ h.params, hmem ▸ h.memWf, by rw [hcfg, hmem]; exact h.memWithin,
    hcfg ▸ hsr h.sr, hym ▸ h.ym, hpaula ▸ h.paula⟩⟩

/-- An update that touches neither SR nor the hardware. -/
theorem KeepsHardware.of_eq {s t : State} (hcfg : t.cfg = s.cfg) (hmem : t.mem = s.mem) (hym : t.ym = s.ym)
    (hpaula : t.paula = s.paula) (hsr : t.regs.sr = s.regs.sr) : KeepsHardware s t :=
  .of_sr hcfg hmem hym hpaula fun h => hsr ▸ h

theorem KeepsHardware.storeByte {s t : State} {a : Long} {v : Byte} {ts : Nat} (h : s.storeByte a v ts = some t) :
    KeepsHardware s t := by
  unfold State.storeByte at h
  split at h
  · rename_i x hx
    cases h
    exact ⟨rfl, rfl, fun k => { k with
      memWf := Memory.wf_write x v k.memWf
      memWithin := Memory.within_write v (State.target_ram_lt k.params hx).1 k.memWithin }⟩
  · cases h
    exact ⟨rfl, Ym.writeByte_sound .., fun k => { k with ym := Ym.ok_writeByte k.ym _ v ts }⟩
  · cases h
    exact ⟨rfl, rfl, fun k => { k with paula := Paula.ok_writeWord k.paula _ _ ts }⟩
  · cases h

theorem KeepsHardware.storeWord {s t : State} {a : Long} {v : Word} {ts : Nat} (ha : isOdd a = false)
    (h : s.storeWord a v ts = some t) : KeepsHardware s t := by
  unfold State.storeWord at h
  split at h
  · rename_i x hx
    cases h
    refine ⟨rfl, rfl, fun k => ?_⟩
    obtain ⟨hhi, hlo⟩ := State.target_ram_lt k.params hx
    exact { k with
      memWf := Memory.wf_write _ _ (Memory.wf_write _ _ k.memWf)
      memWithin := Memory.within_write _ (hlo (State.extAddr_even k.params ha))
        (Memory.within_write _ hhi k.memWithin) }
  · cases h
    exact ⟨rfl, Ym.writeWord_sound .., fun k => { k with ym := Ym.ok_writeWord k.ym _ v ts }⟩
  · cases h
    exact ⟨rfl, rfl, fun k => { k with paula := Paula.ok_writeWord k.paula _ v ts }⟩
  · cases h

/-- An exception entry sets no T0 that was not set (rule R561). -/
theorem Sr.legal_onEntry {f : Sr} {stored : Bool} (h : f.legal stored = true) (e : Event) (keeps : Bool) :
    (f.onEntry e keeps).legal stored = true := by
  simp only [Sr.legal, Sr.onEntry, Bool.or_eq_true, Bool.not_eq_true'] at h ⊢
  rcases h with hstored | hclear
  · exact .inl hstored
  · exact .inr (by simp [hclear])

/-- A write of a word to SR is masked (rule R47). -/
theorem Sr.legal_ofWord (stored : Bool) (w : Word) : (Sr.ofWord stored w).legal stored = true := by
  cases stored <;> simp [Sr.legal, Sr.ofWord]

theorem KeepsHardware.entryTolerant : EntryTolerant KeepsHardware where
  trans _ _ _ := KeepsHardware.trans
  refl _ := .of_eq rfl rfl rfl rfl rfl
  ssp _ _ := .of_eq rfl rfl rfl rfl rfl
  sr _ e := .of_sr rfl rfl rfl rfl fun h => Sr.legal_onEntry h e _
  inGroup0 _ _ := .of_eq rfl rfl rfl rfl rfl
  storeWord := KeepsHardware.storeWord
  handler _ _ _ _ := .of_eq rfl rfl rfl rfl rfl
  halted _ := .of_eq rfl rfl rfl rfl rfl

theorem KeepsHardware.execTolerant : ExecTolerant KeepsHardware where
  trans := KeepsHardware.trans
  measured h := .of_eq h.cfg h.mem h.ym h.paula (congrArg RegFile.sr h.regs)
  setD _ _ _ := .of_eq rfl rfl rfl rfl rfl
  setA _ _ _ := .of_eq rfl rfl rfl rfl (RegFile.setA_sr ..)
  flags s f hf := .of_sr rfl rfl rfl rfl fun h => by
    obtain ⟨_, ht0, _, _⟩ := hf
    simpa [Sr.legal, ht0] using h
  draw _ := .of_eq rfl rfl rfl rfl rfl
  storeByte := KeepsHardware.storeByte
  storeWord := KeepsHardware.storeWord
  entry := KeepsHardware.entryTolerant
  srWord _ w := .of_sr rfl rfl rfl rfl fun _ => Sr.legal_ofWord _ w
  usp _ _ := .of_eq rfl rfl rfl rfl rfl
  run _ _ := .of_eq rfl rfl rfl rfl rfl
  hid _ _ := .of_eq rfl rfl rfl rfl rfl
  cycles _ _ := .of_eq rfl rfl rfl rfl rfl
  rollback s t h := .of_eq (t := t.rollback s.start) h.1 rfl rfl rfl rfl

theorem KeepsHardware.enter (e : Event) (p : Long) (s : State) : KeepsHardware s (enter e p s) :=
  KeepsHardware.entryTolerant.enter e p s

theorem KeepsHardware.takeFault (e : Event) (p : Long) (s : State) : KeepsHardware s (takeFault e p s) := by
  refine .trans (t := s.noTrace) (.of_eq rfl rfl rfl rfl rfl) ?_
  unfold Machine.takeFault
  dsimp only
  split
  · exact .of_eq rfl rfl rfl rfl rfl
  · exact KeepsHardware.enter e p s.noTrace

theorem KeepsHardware.checkIrq (s : State) : KeepsHardware s s.checkIrq := by
  unfold State.checkIrq
  dsimp only
  split
  · refine .trans ?_ (KeepsHardware.enter _ _ _)
    exact .of_eq rfl rfl rfl rfl rfl
  · exact .of_eq rfl rfl rfl rfl rfl

theorem KeepsHardware.boundary (s : State) : KeepsHardware s s.boundary := by
  refine .trans (t := s.checkTrace) ?_ (KeepsHardware.checkIrq _)
  unfold State.checkTrace
  split
  · exact .trans (t := s.noTrace) (.of_eq rfl rfl rfl rfl rfl) (KeepsHardware.enter _ _ _)
  · exact .of_eq rfl rfl rfl rfl rfl

/-- A CPU step keeps the hardware (rules R582, R583, R585). -/
theorem stepCpu_keepsHardware {s t : State} (h : stepCpu s = .next t) : KeepsHardware s t := by
  have hbegin : KeepsHardware s s.beginStep := .of_eq rfl rfl rfl rfl rfl
  unfold stepCpu at h
  split at h
  · unfold stepNormal at h
    split at h
    · rename_i e u hfetch
      cases h
      obtain rfl := fetchOpcode_error_same hfetch
      have hcharge : KeepsHardware s.beginStep s.beginStep.charge := .of_eq rfl rfl rfl rfl rfl
      exact hbegin.trans (hcharge.trans ((KeepsHardware.takeFault _ _ _).trans (KeepsHardware.boundary _)))
    · rename_i w u hfetch
      have hfetched : KeepsHardware s u := by
        obtain ⟨_, _, rfl⟩ := fetchOpcode_eq_ok hfetch
        exact .of_eq rfl rfl rfl rfl rfl
      split at h
      · cases h
        have hrule := KeepsHardware.execTolerant.runRule
          (.raise KeepsHardware.execTolerant.toTolerant .illegalInstruction) u
        exact hfetched.trans (hrule.trans (KeepsHardware.boundary _))
      · rename_i i _
        obtain ⟨v, hv⟩ := exec_next i u
        rw [hv] at h
        cases h
        exact hfetched.trans ((KeepsHardware.execTolerant.exec_keeps hv).trans (KeepsHardware.boundary v))
  · cases h
    refine .trans ?_ (KeepsHardware.checkIrq _)
    exact .of_eq rfl rfl rfl rfl rfl
  · cases h
    exact .of_eq rfl rfl rfl rfl rfl

/-! ## What rendering keeps: the YM2149 -/

/-- One shift of the noise register does not empty it: the bit that leaves it comes back at the top unless bit 3 cancels it,
and bit 3 stays (rule R631). -/
theorem noiseShift_ne_zero {l : BitVec 17} (h : l ≠ 0) : noiseShift l ≠ 0 := by
  intro hzero
  apply h
  have hbit : ∀ i < 17, (noiseShift l).getLsbD i = false := fun i _ => by simp [hzero]
  have hhigh : ∀ i < 16, l.getLsbD (i + 1) = false := fun i hi => by
    have hi16 : ¬ 16 ≤ i := by omega
    have h := hbit i (by omega)
    simp [noiseShift, hi16] at h
    rw [Nat.add_comm]
    exact h
  have hlow : l.getLsbD 0 = false := by
    have h3 := hhigh 2 (by omega)
    have h := hbit 16 (by omega)
    simp [noiseShift] at h
    simpa [h] using h3
  apply BitVec.eq_of_getLsbD_eq
  intro i hi
  cases i with
  | zero => simpa using hlow
  | succ j => simpa using hhigh j (by omega)

/-- What sounds of the YM2149 is legal: masked registers and a noise register that is not empty. -/
def YmSound.Ok (y : YmSound) : Prop := ymRegsOk y.regs = true ∧ y.noise.lfsr ≠ 0

theorem YmNoise.tick_lfsr_ne_zero {g : YmNoise} (h : g.lfsr ≠ 0) (z : ZeroPeriod) (np : ℕ) :
    (g.tick z np).lfsr ≠ 0 := by
  unfold YmNoise.tick
  split_ifs
  · exact h
  · exact noiseShift_ne_zero h
  · exact h

@[simp] theorem YmSound.tick_regs (p : Params) (y : YmSound) : (y.tick p).regs = y.regs := by
  simp [YmSound.tick]

@[simp] theorem YmSound.tick_noise (p : Params) (y : YmSound) :
    (y.tick p).noise = y.noise.tick p.ymZeroPeriod (ymNoisePeriod y.regs) := by
  simp [YmSound.tick]

@[simp] theorem YmSound.applyWrite_regs (p : Params) (y : YmSound) (w : YmWrite) :
    (y.applyWrite p w).regs = ymStore y.regs w.reg w.value := by
  simp [YmSound.applyWrite]

@[simp] theorem YmSound.applyWrite_noise (p : Params) (y : YmSound) (w : YmWrite) :
    (y.applyWrite p w).noise = y.noise := by
  simp [YmSound.applyWrite]

theorem YmSound.Ok.tick {y : YmSound} (h : y.Ok) (p : Params) : (y.tick p).Ok :=
  ⟨by rw [YmSound.tick_regs]; exact h.1, by rw [YmSound.tick_noise]; exact YmNoise.tick_lfsr_ne_zero h.2 _ _⟩

theorem YmSound.Ok.applyWrite {y : YmSound} (h : y.Ok) (p : Params) (w : YmWrite) : (y.applyWrite p w).Ok :=
  ⟨by rw [YmSound.applyWrite_regs]; exact ymRegsOk_store h.1 _ _, by rw [YmSound.applyWrite_noise]; exact h.2⟩

/-- A fold keeps what each of its rounds keeps. -/
theorem foldl_keeps {α β : Type} {P : α → Prop} {f : α → β → α} (hf : ∀ a b, P a → P (f a b)) (l : List β)
    {a : α} (h : P a) : P (l.foldl f a) := by
  induction l generalizing a with
  | nil => exact h
  | cons b l ih => exact ih (hf a b h)

theorem YmSound.Ok.applyWrites {y : YmSound} (h : y.Ok) (p : Params) (before : YmWrite → Bool) (ws : List YmWrite) :
    (y.applyWrites p before ws).1.Ok := foldl_keeps (fun _ w hy => hy.applyWrite p w) _ h

theorem YmSound.Ok.runTicks {y : YmSound} (h : y.Ok) (p : Params) (m : ℕ) (ws : List YmWrite) :
    (YmSound.runTicks p m y ws).1.Ok := by
  induction m generalizing y ws with
  | zero => exact h
  | succ m ih => exact ih ((h.applyWrites p _ ws).tick p) _

theorem YmSound.Ok.produce {y : YmSound} (h : y.Ok) (p : Params) (n : ℕ) : (y.produce p n).1.Ok :=
  foldl_keeps (P := YmSound.Ok) (f := fun y e => y.consume p n e) (fun _ _ hy => hy) y.queue h

/-- A sample keeps the YM2149 legal (rule R644). -/
theorem Ym.ok_sample {y : Ym} (h : y.ok = true) (p : Params) (n : ℕ) : (y.sample p n).1.ok = true := by
  rw [Ym.ok_iff] at h ⊢
  exact ⟨h.1, ((YmSound.Ok.runTicks h.2 p _ y.writes).applyWrites p _ _).produce p n⟩

/-! ## What rendering keeps: Paula -/

/-- Putting a channel with a legal latch back keeps the engine legal. -/
theorem Paula.ok_putChannel {q : Paula} (h : q.ok = true) (x : Fin 4) {c : PaulaChannel} (hc : c.latch.ok = true)
    (irq : Bool) : (q.putChannel x c irq).ok = true := by
  have hset : ({ q with channels := q.channels.set x.val c x.isLt } : Paula).ok = true := by
    rw [Paula.ok_iff] at h ⊢
    intro y
    refine ⟨(h y).1, ?_⟩
    by_cases hxy : x.val = y.val
    · simpa [hxy] using hc
    · simpa [hxy] using (h y).2
  cases irq <;> exact hset

theorem Paula.channel_ok {q : Paula} (h : q.ok = true) (x : Fin 4) : q.channels[x].latch.ok = true :=
  ((Paula.ok_iff q).1 h x).2

theorem Paula.ok_switchChannel {q : Paula} (h : q.ok = true) (p : Params) (mem : Memory) (old new : BitVec 15)
    (x : Fin 4) : (q.switchChannel p mem old new x).ok = true := by
  have hc := Paula.channel_ok h x
  unfold Paula.switchChannel
  extract_lets c
  split_ifs
  · exact Paula.ok_putChannel (c := { c with play := c.latch.startPlay p mem }) h x hc true
  · exact Paula.ok_putChannel (c := { c with play := { c.play with state := .off } }) h x hc false
  · exact h

/-- A write that takes effect on what sounds keeps the pointers even (rules R690, R693). -/
theorem Paula.ok_applyWrite {q : Paula} (h : q.ok = true) (p : Params) (mem : Memory) (w : PaulaWrite) :
    (q.applyWrite p mem w).ok = true := by
  obtain ⟨ts, reg, value⟩ := w
  have hlatch : ∀ x, (q.putChannel x { q.channels[x] with latch := q.channels[x].latch.write reg value } false).ok
      = true := fun x => Paula.ok_putChannel h x (PaulaLatch.ok_write (Paula.channel_ok h x) _ _) false
  cases reg with
  | dmacon =>
    exact foldl_keeps (P := fun q : Paula => q.ok = true)
      (f := fun q' x => q'.switchChannel p mem q'.soundDmacon (setClear q.soundDmacon value) x)
      (fun q' x hq => Paula.ok_switchChannel hq p mem _ _ x) (List.finRange 4) h
  | intena | intreq => exact h
  | lch x | lcl x | len x | per x | vol x | dat x => exact hlatch x

theorem Paula.ok_applyDue {q : Paula} (h : q.ok = true) (p : Params) (mem : Memory) (n : ℕ) :
    (q.applyDue p mem n).ok = true :=
  foldl_keeps (P := fun q : Paula => q.ok = true) (f := fun q w => q.applyWrite p mem w)
    (fun _ w hq => Paula.ok_applyWrite hq p mem w) _ h

theorem PaulaChannel.move_latch (p : Params) (mem : Memory) (c : PaulaChannel) : (c.move p mem).1.latch = c.latch := by
  unfold PaulaChannel.move
  split <;> rfl

theorem Paula.ok_moveChannel {q : Paula} (h : q.ok = true) (p : Params) (mem : Memory) (x : Fin 4) :
    (q.moveChannel p mem x).ok = true :=
  Paula.ok_putChannel h x (by rw [PaulaChannel.move_latch]; exact Paula.channel_ok h x) _

theorem Paula.sample_engine (p : Params) (mem : Memory) (n : ℕ) (q : Paula) :
    (q.sample p mem n).1 = (List.finRange 4).foldl (fun q x => q.moveChannel p mem x) (q.applyDue p mem n) := by
  unfold Paula.sample
  with_reducible rfl

/-- A sample keeps Paula legal (rule R701). -/
theorem Paula.ok_sample {q : Paula} (h : q.ok = true) (p : Params) (mem : Memory) (n : ℕ) :
    (q.sample p mem n).1.ok = true := by
  rw [Paula.sample_engine]
  exact foldl_keeps (P := fun q : Paula => q.ok = true) (fun _ x hq => Paula.ok_moveChannel hq p mem x) _
    (Paula.ok_applyDue h p mem n)

/-! ## What the end of a slice keeps -/

theorem State.HardwareOk.sampleYm {s : State} (h : s.HardwareOk) : s.sampleYm.1.HardwareOk := by
  unfold State.sampleYm
  split_ifs
  · exact { h with ym := Ym.ok_sample h.ym _ _ }
  · exact h

theorem State.HardwareOk.samplePaula {s : State} (h : s.HardwareOk) : s.samplePaula.1.HardwareOk := by
  have hpaula := Paula.ok_sample h.paula s.cfg s.mem s.out.next
  unfold State.samplePaula
  generalize s.paula.sample s.cfg s.mem s.out.next = r at hpaula ⊢
  split_ifs
  · exact { h with paula := hpaula }
  · exact h

theorem State.HardwareOk.produceSample {s : State} (h : s.HardwareOk) : s.produceSample.HardwareOk :=
  { h.sampleYm.samplePaula with }

theorem State.HardwareOk.produceSamples {s : State} (h : s.HardwareOk) (m : ℕ) :
    (State.produceSamples m s).HardwareOk := by
  induction m generalizing s with
  | zero => exact h
  | succ m ih => exact ih h.produceSample

theorem State.HardwareOk.closeSlice {s : State} (h : s.HardwareOk) : s.closeSlice.HardwareOk :=
  { h.produceSamples _ with }

/-- The end of a slice ends the session when the CPU has halted or the BLEP queue has overflowed (rules R765, R766). -/
theorem State.closeSlice_ended (s : State) :
    (s.closeSlice.run = .halted → s.closeSlice.out.ended = true) ∧
    (s.closeSlice.ym.sound.fatal = true → s.closeSlice.out.ended = true) := by
  have hended : s.closeSlice.out.ended =
      (s.renderSlice.out.ended || decide (s.closeSlice.run = .halted) || s.closeSlice.ym.sound.fatal) := rfl
  constructor <;> intro h <;> simp [hended, h]

theorem State.Inv.hardwareOk {s : State} (h : s.Inv) : s.HardwareOk :=
  ⟨h.params, h.memWf, h.memWithin, h.sr, h.ym, h.paula⟩

theorem State.HardwareOk.inv {s : State} (h : s.HardwareOk) (hhalted : s.run = .halted → s.out.ended = true)
    (hfatal : s.ym.sound.fatal = true → s.out.ended = true) : s.Inv :=
  ⟨h.params, h.memWf, h.memWithin, h.sr, h.ym, h.paula, hhalted, hfatal⟩

/-- The end of a step restores the invariant: a slice that is not over leaves a CPU that is not halted, and one that is over
is marked (rules R761, R765). -/
theorem State.HardwareOk.endStep_inv {s : State} (h : s.HardwareOk) (hfatal : s.ym.sound.fatal = false) :
    s.endStep.Inv := by
  unfold State.endStep
  split_ifs with hover
  · exact h.closeSlice.inv s.closeSlice_ended.1 s.closeSlice_ended.2
  · have hrun : s.run ≠ .halted := fun k => hover (by simp [State.sliceOver, k])
    exact h.inv (fun k => absurd k hrun) (fun k => absurd (hfatal.symm.trans k) (by decide))

/-- Settles O10: the CPU step keeps the hardware and what sounds, and the end of the step restores the rest. -/
theorem stepKeepsInvariant : Obligations.StepKeepsInvariant := by
  intro s t hinv hstep
  cases hended : s.out.ended with
  | true =>
    rw [step_of_ended hended] at hstep
    cases hstep
    exact hinv
  | false =>
    obtain ⟨u, hu⟩ := stepCpu_next s
    rw [step_of_stepCpu hended hu] at hstep
    cases hstep
    obtain ⟨_, hsound, hkeeps⟩ := stepCpu_keepsHardware hu
    refine (hkeeps hinv.hardwareOk).endStep_inv ?_
    rw [hsound]
    cases hfatal : s.ym.sound.fatal with
    | false => rfl
    | true => exact absurd (hended.symm.trans (hinv.fatal hfatal)) (by decide)

end Sys2Proof.Machine
end

section
/-! What reset leaves (O12) and which stack pointer A7 names (O15). -/

namespace Sys2Proof.Machine

open Sys2Proof.Config

/-- A register below A7 is the address file's, whatever SR holds (rule R32). -/
theorem RegFile.getA_withSr_of_ne (r : RegFile) (f : Sr) {n : Reg} (h : n ≠ 7) : (r.withSr f).getA n = r.getA n := by
  have hne : n.val ≠ 7 := fun e => h (Fin.ext e)
  have hn : n.val < 7 := by omega
  simp [RegFile.getA, hn]

/-- Settles O15: A7 is the two stack pointers by definition, and the other address registers are neither. -/
theorem activeStackPointer : Obligations.ActiveStackPointer := by
  intro r v f
  refine ⟨rfl, rfl, rfl, rfl, rfl, fun n hn => ⟨r.getA_withSr_of_ne f hn, ?_⟩⟩
  have hval : n.val ≠ 7 := fun h => hn (Fin.ext h)
  obtain ⟨husp, hssp⟩ := r.setA_otherSp n v
  simp only [hval, false_and, if_false] at husp hssp
  exact ⟨hssp, husp⟩

/-- The image over zeroed RAM (rule R741). -/
theorem State.resetWith_read (p : Params) (l : Launch) (e : ℕ) :
    Memory.read (State.resetWith p l).mem e = if l.load ≤ e then (l.bytes[e - l.load]?).getD 0 else 0 := by
  simp only [State.resetWith, Memory.read_writeBytes]
  rfl

/-- The residual ring is silent (rule R660). -/
theorem Ym.atReset_res (taps : ℕ) : (Ym.atReset taps).sound.res.length = taps ∧
    ∀ v ∈ (Ym.atReset taps).sound.res, v = 0 := by
  simp [Ym.atReset]

theorem Ym.atReset_generator (taps : ℕ) (c : Fin 3) : (Ym.atReset taps).sound.tones[c] = ⟨0, false⟩ ∧
    (Ym.atReset taps).sound.amps[c] = 0 := by
  simp [Ym.atReset]

/-- Both copies of a channel's latches are 0 and the channel is off (rule R705). -/
theorem Paula.atReset_channel (x : Fin 4) : Paula.atReset.latches[x] = ⟨0, 0, 0, 0, 0⟩ ∧
    Paula.atReset.channels[x] = ⟨⟨0, 0, 0, 0, 0⟩, ⟨.off, 0, 0, 0, false, 0, false⟩⟩ := by
  simp [Paula.atReset]

/-- Settles O12: field by field as `resetWith` is written; the vectors, the ring and RAM by their lemmas. -/
theorem resetLeaves : Obligations.ResetLeaves := by
  intro p l s
  have hgen : ∀ c : Fin 3, s.ym.sound.tones[c].count = 0 ∧ s.ym.sound.tones[c].out = false ∧
      s.ym.sound.amps[c] = 0 := fun c => by
    obtain ⟨htone, hamp⟩ := Ym.atReset_generator p.blepTaps c
    have htone' : s.ym.sound.tones[c] = ⟨0, false⟩ := htone
    rw [htone']
    exact ⟨rfl, rfl, hamp⟩
  have hchannel : ∀ x : Fin 4, s.paula.latches[x] = ⟨0, 0, 0, 0, 0⟩ ∧
      s.paula.channels[x].latch = ⟨0, 0, 0, 0, 0⟩ ∧
      s.paula.channels[x].play.state = .off ∧ s.paula.channels[x].play.ptr = 0 ∧
      s.paula.channels[x].play.left = 0 ∧ s.paula.channels[x].play.word = 0 ∧
      s.paula.channels[x].play.low = false ∧ s.paula.channels[x].play.phase = 0 ∧
      s.paula.channels[x].play.oneshot = false := fun x => by
    obtain ⟨hlatch, hplay⟩ := Paula.atReset_channel x
    have hplay' : s.paula.channels[x] = ⟨⟨0, 0, 0, 0, 0⟩, ⟨.off, 0, 0, 0, false, 0, false⟩⟩ := hplay
    rw [hplay']
    exact ⟨hlatch, rfl, rfl, rfl, rfl, rfl, rfl, rfl, rfl⟩
  obtain ⟨hlen, hzero⟩ := Ym.atReset_res p.blepTaps
  exact ⟨(by decide : Sr.atReset.toWord = 0x2700), rfl, rfl, rfl, rfl, rfl, rfl, rfl, rfl, rfl, rfl, rfl, rfl,
    rfl, hgen, rfl, rfl, rfl, rfl, rfl, rfl,
    rfl, rfl, rfl, rfl, rfl, hlen, hzero, rfl, hchannel, rfl, rfl, rfl, rfl, rfl, rfl, rfl, rfl, rfl, rfl, rfl,
    State.resetWith_read p l⟩

end Sys2Proof.Machine
end

section
/-! How the shared bodies of the instructions complete: one lemma per shape of operand (a source that is read, a location
that is read and written, a location that is written), then one per shared body. -/

namespace Sys2Proof.Machine

open Sys2Proof.Config

/-! ## What reading can do -/

theorem Loc.read_eq_ok {loc : Loc} {sz : Size} {s t : State} {v : BitVec sz.bits} (h : loc.read sz s = .ok v t) :
    Measured s t := by
  cases loc with
  | dreg n => cases h; exact .refl s
  | areg n => cases h; exact .refl s
  | mem a => exact (readMem_eq_ok h).2.2
  | imm x => cases h; exact .refl s

theorem readEa_eq_ok {ea : Ea} {sz : Size} {s t : State} {v : BitVec sz.bits} (h : readEa ea sz s = .ok v t) :
    Measured { s with regs := s.regs.bump ea sz } t := by
  obtain ⟨loc, u, hloc, hread⟩ := Exec.bind_eq_ok.1 h
  exact (resolve_eq_ok hloc).trans (Loc.read_eq_ok hread)

/-- An update of registers and draws before measuring is one after it. -/
theorem Measured.withRegsDraws {s t : State} (h : Measured s t) (r : RegFile) (d : ℕ) :
    Measured { s with regs := r, draws := d } { t with regs := r, draws := d } := by
  obtain ⟨pc, ext, ops, dev, rfl⟩ := h
  exact ⟨pc, ext, ops, dev, rfl⟩

/-! ## Shapes of operand -/

section Shapes

variable {sz : Size} {ea : Ea} {loc : Loc} {s s1 t : State} {body : Exec Unit}

/-- A rule that reads a located source and then changes registers and draws alone, whatever was fetched before. -/
theorem complete_source {k : BitVec sz.bits → Exec Unit} {r : RegFile} {d : ℕ}
    (hbody : body s.start = (readEa ea sz >>= k) s1) (hm : Measured s.start s1) (h : Locates ea sz s1 loc t)
    (hk : ∀ w : State, w.cfg = s.cfg → w.regs = s.regs.bump ea sz → w.draws = s.draws →
      k (loc.value s sz) w = .ok () { w with regs := r, draws := d }) :
    ∃ u, complete body s = .next u ∧ ChangesRegs s u t.pc r := by
  obtain ⟨w, hread, hw, hpc⟩ := h.readEa
  have hregs1 : s1.regs = s.regs := hm.regs
  have hregs : w.regs = s.regs.bump ea sz := by rw [hw.regs, ← hregs1]
  have hvalue : loc.value s1 sz = loc.value s sz := by rw [hm.value, Loc.value_start]
  rw [hvalue] at hread
  have hrun : body s.start = .ok () { w with regs := r, draws := d } := by
    rw [hbody, Exec.bind_of_ok hread, hk w (hw.cfg.trans hm.cfg) hregs (hw.draws.trans hm.draws)]
  have hmeas := (hm.withRegsDraws r d).trans (hw.withRegsDraws r d)
  obtain ⟨u, hu, hchanges⟩ := complete_changesRegs hrun hmeas
  exact ⟨u, hu, hpc ▸ hchanges⟩

/-- A rule that reads a located operand, writes it back and sets SR, whatever was fetched before. -/
theorem complete_modify {k : Loc → BitVec sz.bits → Exec Unit} {v : BitVec sz.bits} {f : Sr}
    (hbody : body s.start = (resolve ea sz >>= fun loc => loc.read sz >>= k loc) s1) (hm : Measured s.start s1)
    (h : Locates ea sz s1 loc t)
    (hk : ∀ w x : State, w.regs = s.regs.bump ea sz → loc.write sz v w = .ok () x → x.regs.sr = s.regs.sr →
      ∃ d, k loc (loc.value s sz) w = .ok () { x with regs := { x.regs with sr := f }, draws := d }) :
    ∃ u, complete body s = .next u ∧
      ChangesAt s u t.pc ((loc.putRegs sz v (s.regs.bump ea sz)).withSr f) sz loc v := by
  obtain ⟨w, hloc, hread, hw, hpc, hwrite⟩ := h.readModifyWrite hm
  obtain ⟨x, hx, hsr⟩ := hwrite v
  obtain ⟨d, hkx⟩ := hk w x hw.regs hx hsr
  have hrun : body s.start = .ok () { x with regs := { x.regs with sr := f }, draws := d } := by
    rw [hbody, Exec.bind_of_ok hloc, Exec.bind_of_ok hread, hkx]
  obtain ⟨u, hu, hchanges⟩ := complete_changesAt (d := s.draws) hw hx hrun
  exact ⟨u, hu, hpc ▸ hchanges⟩

/-- A rule that writes a located operand without reading it and sets SR. -/
theorem complete_store {k : Loc → Exec Unit} {v : BitVec sz.bits} {f : Sr}
    (hbody : body = resolve ea sz >>= k) (h : Locates ea sz s.start loc t)
    (hk : ∀ x : State, t.regs = s.regs.bump ea sz → loc.write sz v t = .ok () x → x.regs.sr = s.regs.sr →
      k loc t = .ok () { x with regs := { x.regs with sr := f } }) :
    ∃ u, complete body s = .next u ∧
      ChangesAt s u t.pc ((loc.putRegs sz v (s.regs.bump ea sz)).withSr f) sz loc v := by
  obtain ⟨ht, x, hx, hsr⟩ := h.store v
  have hrun : body s.start = .ok () { x with regs := { x.regs with sr := f }, draws := x.draws } := by
    rw [hbody, Exec.bind_of_ok h.1, hk x ht.regs hx hsr]
  exact complete_changesAt (d := s.draws) ht hx hrun

/-- A rule that changes registers and draws alone and reads no operand. -/
theorem complete_registers {r : RegFile} {d : ℕ}
    (hbody : body s.start = .ok () { s.start with regs := r, draws := d }) :
    ∃ u, complete body s = .next u ∧ ChangesRegs s u s.pc r :=
  complete_changesRegs (t := { s.start with regs := r, draws := d }) hbody (.refl _)

end Shapes

/-! ## Shared bodies -/

section Bodies

variable {sz : Size} {x : Reg} {ea : Ea} {loc : Loc} {s s1 t : State}

theorem aluToDn_completes (f : BitVec sz.bits → BitVec sz.bits → BitVec sz.bits)
    (g : Sr → BitVec sz.bits → BitVec sz.bits → BitVec sz.bits → Sr) (h : Locates ea sz s.start loc t) :
    let v := loc.value s sz
    let d : BitVec sz.bits := (s.regs.getD x).setWidth sz.bits
    ∃ u, complete (aluToDn sz x ea f g) s = .next u ∧ ChangesRegs s u t.pc
      (((s.regs.bump ea sz).setD x (mergeLow (s.regs.getD x) (f v d))).withSr (g s.regs.sr v d (f v d))) := by
  refine complete_source (d := s.draws) rfl (.refl _) h fun w _ hregs hdraws => ?_
  simp [hregs, ← hdraws, RegFile.withSr]

theorem aluToEa_completes (f : BitVec sz.bits → BitVec sz.bits → BitVec sz.bits)
    (g : Sr → BitVec sz.bits → BitVec sz.bits → BitVec sz.bits → Sr) (h : Locates ea sz s.start loc t) :
    let d := loc.value s sz
    let v : BitVec sz.bits := (s.regs.getD x).setWidth sz.bits
    ∃ u, complete (aluToEa sz x ea f g) s = .next u ∧ ChangesAt s u t.pc
      ((loc.putRegs sz (f v d) (s.regs.bump ea sz)).withSr (g s.regs.sr v d (f v d))) sz loc (f v d) := by
  refine complete_modify rfl (.refl _) h fun w y hregs hy hsr => ⟨y.draws, ?_⟩
  rw [readD_bind, hregs, RegFile.getD_bump, Exec.bind_of_ok hy, updateSr_apply, hsr]

theorem aluImm_completes (f : BitVec sz.bits → BitVec sz.bits → BitVec sz.bits)
    (g : Sr → BitVec sz.bits → BitVec sz.bits → BitVec sz.bits → Sr) {v : BitVec sz.bits}
    (himm : fetchImm sz s.start = .ok v s1) (h : Locates ea sz s1 loc t) :
    let d := loc.value s sz
    ∃ u, complete (aluImm sz ea f g) s = .next u ∧ ChangesAt s u t.pc
      ((loc.putRegs sz (f v d) (s.regs.bump ea sz)).withSr (g s.regs.sr v d (f v d))) sz loc (f v d) := by
  refine complete_modify (Exec.bind_of_ok himm) (fetchImm_eq_ok himm) h fun w y _ hy hsr => ⟨y.draws, ?_⟩
  rw [Exec.bind_of_ok hy, updateSr_apply, hsr]

theorem modifyEa_completes (f : Sr → BitVec sz.bits → BitVec sz.bits) (g : Sr → BitVec sz.bits → Sr)
    (h : Locates ea sz s.start loc t) :
    let d := loc.value s sz
    ∃ u, complete (modifyEa ea sz f g) s = .next u ∧ ChangesAt s u t.pc
      ((loc.putRegs sz (f s.regs.sr d) (s.regs.bump ea sz)).withSr (g s.regs.sr d)) sz loc (f s.regs.sr d) := by
  refine complete_modify rfl (.refl _) h fun w y hregs hy _ => ⟨y.draws, ?_⟩
  rw [readSr_bind, hregs, RegFile.bump_sr, Exec.bind_of_ok hy, updateSr_apply]

/-- ADDQ and SUBQ on an address register (rules R303, R308). -/
theorem quickOp_an_completes (q : ℕ) (r : Reg) (fa : Long → Long → Long)
    (f : BitVec sz.bits → BitVec sz.bits → BitVec sz.bits)
    (g : Sr → BitVec sz.bits → BitVec sz.bits → BitVec sz.bits → Sr) :
    ∃ u, complete (quickOp q sz (.an r) fa f g) s = .next u ∧
      ChangesRegs s u s.pc (s.regs.setA r (fa (BitVec.ofNat 32 q) (s.regs.getA r))) := complete_registers rfl

theorem quickOp_completes (q : ℕ) (fa : Long → Long → Long) (f : BitVec sz.bits → BitVec sz.bits → BitVec sz.bits)
    (g : Sr → BitVec sz.bits → BitVec sz.bits → BitVec sz.bits → Sr) (hea : ∀ r, ea ≠ .an r)
    (h : Locates ea sz s.start loc t) :
    let v := BitVec.ofNat sz.bits q
    let d := loc.value s sz
    ∃ u, complete (quickOp q sz ea fa f g) s = .next u ∧ ChangesAt s u t.pc
      ((loc.putRegs sz (f v d) (s.regs.bump ea sz)).withSr (g s.regs.sr v d (f v d))) sz loc (f v d) := by
  have hbody : quickOp q sz ea fa f g s.start = (resolve ea sz >>= fun loc => loc.read sz >>= fun d => do
      loc.write sz (f (BitVec.ofNat sz.bits q) d)
      updateSr fun sr => g sr (BitVec.ofNat sz.bits q) d (f (BitVec.ofNat sz.bits q) d)) s.start := by
    cases ea with
    | an r => exact absurd rfl (hea r)
    | _ => rfl
  refine complete_modify hbody (.refl _) h fun w y _ hy hsr => ⟨y.draws, ?_⟩
  rw [Exec.bind_of_ok hy, updateSr_apply, hsr]

end Bodies

/-! ## The obligations of the shared bodies -/

/-- A byte or word write keeps the upper bits (rules R12, R31). -/
theorem mergeLow_getLsbD {n : ℕ} (old : Long) (w : BitVec n) {i : ℕ} (hi : i < 32) :
    (mergeLow old w).getLsbD i = if i < n then w.getLsbD i else old.getLsbD i := by
  by_cases h : i < n
  · simp [mergeLow, h, hi]
  · have hadd : n + (i - n) = i := by omega
    have hout : w.getLsbD i = false := w.getLsbD_of_ge i (by omega)
    simp [mergeLow, h, hi, hadd, hout]

/-- Settles O29: the four operations are `aluToDn`. -/
theorem dyadicToDataRegister : Obligations.DyadicToDataRegister := by
  refine ⟨fun sz old w i hi => mergeLow_getLsbD old w hi, fun r x y v => ⟨rfl, ?_, rfl, rfl, rfl, rfl⟩, ?_⟩
  · by_cases h : y = x
    · simp [h]
    · simp [h, r.getD_setD_ne v (Ne.symm h)]
  · intro sz x ea s t loc h
    exact ⟨aluToDn_completes _ _ h, aluToDn_completes _ _ h, aluToDn_completes _ _ h, aluToDn_completes _ _ h⟩

/-- Settles O30: the five operations are `aluToEa`. -/
theorem dyadicToOperand : Obligations.DyadicToOperand := by
  intro sz x ea s t loc h
  exact ⟨aluToEa_completes _ _ h, aluToEa_completes _ _ h, aluToEa_completes _ _ h, aluToEa_completes _ _ h,
    aluToEa_completes _ _ h⟩

theorem extractLsb'_zero_eq_setWidth {m : ℕ} (n : ℕ) (w : BitVec m) : w.extractLsb' 0 n = w.setWidth n := by
  apply BitVec.eq_of_toNat_eq
  simp

/-- The fetch of an immediate where its words can be read (rules R37, R137). -/
theorem fetchImm_ok {s : State} (h : s.canAccess .w s.pc = true) :
    (∃ t, fetchImm .b s = .ok ((s.memValue .w s.pc).setWidth 8) t ∧ t.pc = s.pc + 2) ∧
    (s.canAccess .w (s.pc + 2) = true →
      ∃ t, fetchImm .l s = .ok (s.memValue .w s.pc ++ s.memValue .w (s.pc + 2)) t ∧ t.pc = s.pc + 4) := by
  let s1 : State := { s with pc := s.pc + 2, hid := { s.hid with ext := s.hid.ext ++ [s.memValue .w s.pc] } }
  have hfirst : fetch16 s = .ok (s.memValue .w s.pc) s1 := fetch16_ok h
  have hm : Measured s s1 := ⟨_, _, s.hid.operands, s.hid.devSeq, rfl⟩
  refine ⟨⟨s1, ?_, rfl⟩, fun h2 => ?_⟩
  · simp only [fetchImm]
    rw [Exec.bind_of_ok hfirst, Exec.pure_apply, extractLsb'_zero_eq_setWidth]
  · have hsecond := fetch16_ok (s := s1) ((hm.canAccess _ _).trans h2)
    rw [hm.memValue] at hsecond
    refine ⟨_, (Exec.bind_of_ok hfirst).trans (Exec.bind_of_ok hsecond), ?_⟩
    show s.pc + 2 + 2 = s.pc + 4
    rw [BitVec.add_assoc]
    rfl

/-- Settles O31: the five operations are `aluImm`. -/
theorem immediateToOperand : Obligations.ImmediateToOperand := by
  constructor
  · intro s w
    exact ⟨fun h => ⟨⟨_, fetch16_ok h, rfl⟩, ⟨_, fetch16_ok h, rfl⟩, (fetchImm_ok h).1⟩,
      fun h h2 => (fetchImm_ok h).2 h2⟩
  intro sz ea s s1 t v loc himm h
  exact ⟨aluImm_completes _ _ himm h, aluImm_completes _ _ himm h, aluImm_completes _ _ himm h,
    aluImm_completes _ _ himm h, aluImm_completes _ _ himm h⟩

end Sys2Proof.Machine
end

section
/-! The instructions that read operands and write registers or flags: compares, address registers, quick and extended
arithmetic, MOVE and the operations on one operand (O32-O35, O39, O41). -/

namespace Sys2Proof.Machine

open Sys2Proof.Config

/-! ## Address sources -/

theorem readAddrSource_bind {β : Type} (ea : Ea) (sz : AddrSize) (k : Long → Exec β) :
    (readAddrSource ea sz >>= k) = readEa ea sz.toSize >>= fun v => k (v.signExtend 32) := by
  simp [readAddrSource]

/-- A rule that reads an address source and then changes registers alone. -/
theorem complete_addrSource {sz : AddrSize} {ea : Ea} {loc : Loc} {s t : State} {k : Long → Exec Unit} {r : RegFile}
    (h : Locates ea sz.toSize s.start loc t)
    (hk : ∀ w : State, w.regs = s.regs.bump ea sz.toSize →
      k ((loc.value s sz.toSize).signExtend 32) w = .ok () { w with regs := r }) :
    ∃ u, complete (readAddrSource ea sz >>= k) s = .next u ∧ ChangesRegs s u t.pc r := by
  refine complete_source (d := s.draws) (by rw [readAddrSource_bind]) (.refl _) h fun w _ hregs hdraws => ?_
  rw [hk w hregs, ← hdraws]

/-! ## Operands whose register moves -/

section Bumping

variable {sz : Size} {ea : Ea} {s w : State} {r : RegFile} {a : Long}

/-- `EA` gives the memory location `a` when the registers are `r`, and only moves its own register. -/
def PointsAt (ea : Ea) (sz : Size) (r : RegFile) (a : Long) : Prop :=
  ∀ w : State, w.regs = r → resolve ea sz w = .ok (.mem a) { w with regs := r.bump ea sz }

theorem pointsAt_postinc (n : Reg) (sz : Size) (r : RegFile) : PointsAt (.postinc n) sz r (r.getA n) := by
  rintro w rfl
  rfl

theorem pointsAt_predec (n : Reg) (sz : Size) (r : RegFile) :
    PointsAt (.predec n) sz r ((r.bump (.predec n) sz).getA n) := by
  rintro w rfl
  simp only [RegFile.bump, RegFile.getA_setA_same]
  rfl

/-- An operand such an addressing mode points at is read; besides its register only measures change. -/
theorem PointsAt.read_ok (h : PointsAt ea sz r a) (hm : Measured { s.start with regs := r } w)
    (hacc : s.canAccess sz a = true) :
    ∃ w', resolve ea sz w = .ok (.mem a) { w with regs := r.bump ea sz } ∧
      (Loc.mem a).read sz { w with regs := r.bump ea sz } = .ok (s.memValue sz a) w' ∧
      Measured { s.start with regs := r.bump ea sz } w' ∧ w'.pc = w.pc := by
  have hres := h w hm.regs
  have hbump : Measured { s.start with regs := r.bump ea sz } { w with regs := r.bump ea sz } := hm.withRegs _
  have hacc' : (Loc.mem a).accessible { w with regs := r.bump ea sz } sz = true :=
    (hbump.canAccess sz a).trans hacc
  obtain ⟨w', hread, hw', hpc⟩ := Loc.read_ok hacc'
  refine ⟨w', hres, ?_, hbump.trans hw', hpc⟩
  rw [hread, hbump.value]
  rfl

theorem PointsAt.readEa_ok (h : PointsAt ea sz r a) (hm : Measured { s.start with regs := r } w)
    (hacc : s.canAccess sz a = true) :
    ∃ w', readEa ea sz w = .ok (s.memValue sz a) w' ∧ Measured { s.start with regs := r.bump ea sz } w' ∧
      w'.pc = w.pc := by
  obtain ⟨w', hres, hread, hw', hpc⟩ := h.read_ok hm hacc
  exact ⟨w', (Exec.bind_of_ok hres).trans hread, hw', hpc⟩

end Bumping

/-- A rule that leaves a known pc, other registers, draws and measures, and nothing else. -/
theorem complete_leaves {body : Exec Unit} {s t : State} {p : Long} {r : RegFile} {d : ℕ}
    (h : body s.start = .ok () t) (hm : Measured { s.start with regs := r, draws := d } t) (hpc : t.pc = p) :
    ∃ u, complete body s = .next u ∧ ChangesRegs s u p r := hpc ▸ complete_changesRegs h hm

/-! ## Compares -/

/-- Settles O32: each compare reads its operands and sets the flags. -/
theorem comparesWriteFlagsOnly : Obligations.ComparesWriteFlagsOnly := by
  intro s
  refine ⟨fun sz x ea t loc h => ⟨?_, ?_⟩, fun sz x ea t loc h => ?_, fun sz ea s1 t v loc himm h => ?_,
    ?_⟩
  · refine complete_source (d := s.draws) rfl (.refl _) h fun w _ hregs hdraws => ?_
    simp [hregs, ← hdraws, RegFile.withSr]
  · refine complete_source (d := s.draws) rfl (.refl _) h fun w _ hregs hdraws => ?_
    simp [hregs, ← hdraws, RegFile.withSr]
  · refine complete_addrSource h fun w hregs => ?_
    simp [hregs, RegFile.withSr]
  · refine complete_source (d := s.draws) (Exec.bind_of_ok himm) (fetchImm_eq_ok himm) h fun w _ hregs hdraws => ?_
    simp [hregs, ← hdraws, RegFile.withSr]
  · intro sz x y r ha hb v d
    obtain ⟨w1, hread1, hw1, hpc1⟩ := (pointsAt_postinc y sz s.regs).readEa_ok (.refl s.start) ha
    obtain ⟨w2, hread2, hw2, hpc2⟩ := (pointsAt_postinc x sz r).readEa_ok hw1 hb
    have hsr : w2.regs.sr = s.regs.sr := by simp [hw2.regs, r]
    refine complete_leaves (d := s.draws) ?_ (hw2.withRegs _) (hpc2.trans hpc1)
    rw [Exec.bind_of_ok hread1, Exec.bind_of_ok hread2, updateSr_apply, hsr, hw2.regs]
    rfl

/-! ## Address registers -/

theorem addressOf_eq_ok {ea : Ea} {s t : State} {a : Long} (h : resolve ea .l s = .ok (.mem a) t) :
    addressOf ea s = .ok a t := (Exec.bind_of_ok h).trans rfl

/-- Settles O33. -/
theorem addressRegisterResults : Obligations.AddressRegisterResults := by
  intro s x ea
  refine ⟨fun sz t loc h => ⟨?_, ?_, ?_⟩, fun t a h => ?_⟩
  · exact complete_addrSource h fun w hregs => by simp [hregs]
  · exact complete_addrSource h fun w hregs => by simp [hregs]
  · exact complete_addrSource h fun w hregs => by simp [hregs]
  · have hm := resolve_eq_ok h
    refine complete_leaves (d := s.draws) ((Exec.bind_of_ok (addressOf_eq_ok h)).trans (writeA_apply _ _ _)) ?_ rfl
    rw [hm.regs]
    exact hm.withRegs _

/-- Settles O34: ADDQ and SUBQ are `quickOp`. -/
theorem quickOperations : Obligations.QuickOperations := by
  intro s q sz
  refine ⟨fun r => ⟨quickOp_an_completes q r _ _ _, quickOp_an_completes q r _ _ _⟩, fun ea t loc hea h => ?_⟩
  exact ⟨quickOp_completes q _ _ _ hea h, quickOp_completes q _ _ _ hea h⟩

/-! ## Extended arithmetic -/

/-- A rule that, from a measured state with registers `r`, writes an accessible location and then sets SR and draws. -/
theorem complete_writeback {body : Exec Unit} {s w : State} {r : RegFile} {sz : Size} {loc : Loc} {v : BitVec sz.bits}
    {f : Sr} (hm : Measured { s.start with regs := r } w) (hacc : loc.accessible s sz = true)
    (hk : ∀ y : State, loc.write sz v w = .ok () y → y.regs.sr = r.sr → y.draws = s.draws →
      ∃ d, body s.start = .ok () { y with regs := { y.regs with sr := f }, draws := d }) :
    ∃ u, complete body s = .next u ∧ ChangesAt s u w.pc ((loc.putRegs sz v r).withSr f) sz loc v := by
  have hacc' : loc.accessible w sz = true := (Loc.accessible_congr (s := s) hm.cfg loc sz).trans hacc
  obtain ⟨m, y, p, dev, hwrite, _⟩ := Loc.write_ok hacc' v
  obtain ⟨d, hrun⟩ := hk _ hwrite (by simp [hm.regs]) hm.draws
  exact complete_changesAt (d := s.draws) hm hwrite hrun

/-- The operands of the memory forms: Ay is predecremented and read, then Ax (rules R304, R309, R450). -/
theorem extendedOperands_mem_ok {sz : Size} {x y : Reg} {s : State} :
    let r1 := s.regs.bump (.predec y) sz
    let r2 := r1.bump (.predec x) sz
    s.canAccess sz (r1.getA y) = true → s.canAccess sz (r2.getA x) = true →
    ∃ w, extendedOperands .mem sz x y s.start =
        .ok (s.memValue sz (r1.getA y), .mem (r2.getA x), s.memValue sz (r2.getA x)) w ∧
      Measured { s.start with regs := r2 } w ∧ w.pc = s.pc := by
  intro r1 r2 ha hb
  obtain ⟨w1, hread1, hw1, hpc1⟩ := (pointsAt_predec y sz s.regs).readEa_ok (.refl s.start) ha
  obtain ⟨w2, hres2, hread2, hw2, hpc2⟩ := (pointsAt_predec x sz r1).read_ok hw1 hb
  exact ⟨w2, (Exec.bind_of_ok hread1).trans ((Exec.bind_of_ok hres2).trans (Exec.bind_of_ok hread2)), hw2,
    hpc2.trans hpc1⟩

section Extended

variable {sz : Size} {x y : Reg} {s : State}

theorem extendedOp_reg_completes (f : Bool → BitVec sz.bits → BitVec sz.bits → BitVec sz.bits)
    (g : Sr → BitVec sz.bits → BitVec sz.bits → BitVec sz.bits → Sr) :
    let v : BitVec sz.bits := (s.regs.getD y).setWidth sz.bits
    let d : BitVec sz.bits := (s.regs.getD x).setWidth sz.bits
    let q := f s.regs.sr.x v d
    ∃ u, complete (extendedOp .reg sz x y f g) s = .next u ∧ ChangesRegs s u s.pc
      ((s.regs.setD x (mergeLow (s.regs.getD x) q)).withSr (g s.regs.sr v d q)) := complete_registers rfl

theorem extendedOp_mem_completes (f : Bool → BitVec sz.bits → BitVec sz.bits → BitVec sz.bits)
    (g : Sr → BitVec sz.bits → BitVec sz.bits → BitVec sz.bits → Sr) :
    let r1 := s.regs.bump (.predec y) sz
    let r2 := r1.bump (.predec x) sz
    s.canAccess sz (r1.getA y) = true → s.canAccess sz (r2.getA x) = true →
    let v := s.memValue sz (r1.getA y)
    let d := s.memValue sz (r2.getA x)
    let q := f s.regs.sr.x v d
    ∃ u, complete (extendedOp .mem sz x y f g) s = .next u ∧
      ChangesAt s u s.pc (r2.withSr (g s.regs.sr v d q)) sz (.mem (r2.getA x)) q := by
  intro r1 r2 ha hb v d q
  obtain ⟨w, hoperands, hw, hpc⟩ := extendedOperands_mem_ok ha hb
  have hsr : w.regs.sr = s.regs.sr := by simp [hw.regs]
  rw [← hpc]
  refine complete_writeback (loc := .mem (r2.getA x)) hw hb fun z hz hzsr _ => ⟨z.draws, ?_⟩
  have hzsr' : z.regs.sr = s.regs.sr := by rw [hzsr]; simp [r1]
  rw [extendedOp, Exec.bind_of_ok hoperands]
  simp only [readSr_bind, hsr]
  rw [Exec.bind_of_ok hz, updateSr_apply, hzsr']

end Extended

/-- Settles O35: ADDX and SUBX are `extendedOp`. -/
theorem extendedArithmetic : Obligations.ExtendedArithmetic := by
  intro s sz x y e
  exact ⟨⟨extendedOp_reg_completes _ _, extendedOp_reg_completes _ _⟩, fun ha hb =>
    ⟨extendedOp_mem_completes _ _ ha hb, extendedOp_mem_completes _ _ ha hb⟩⟩

/-! ## One operand -/

/-- Settles O39: NEG, NEGX, NOT and TAS are `modifyEa`; CLR, Scc and MOVE from SR write without reading. -/
theorem unaryOperand : Obligations.UnaryOperand := by
  intro ea s t loc f
  refine ⟨fun sz h => ⟨modifyEa_completes _ _ h, modifyEa_completes _ _ h, modifyEa_completes _ _ h, ?_⟩,
    fun h => ⟨modifyEa_completes _ _ h, fun c => ?_⟩, fun h => ?_⟩
  · refine complete_store rfl h fun x _ hx hsr => ?_
    rw [Exec.bind_of_ok hx, updateSr_apply, hsr]
  · refine complete_store rfl h fun x hregs hx hsr => ?_
    rw [readSr_bind, hregs, RegFile.bump_sr, hx, show f = x.regs.sr from hsr.symm]
  · refine complete_store rfl h fun x hregs hx hsr => ?_
    rw [readSr_bind, hregs, RegFile.bump_sr, hx, show f = x.regs.sr from hsr.symm]

/-- Settles O41: the source's state is measured, so the destination is written from it. -/
theorem moveData : Obligations.MoveData := by
  intro sz src dst s s1 t v loc hsource h
  have hm1 := readEa_eq_ok hsource
  have hm2 := resolve_eq_ok h.1
  have hm : Measured { s.start with regs := (s.regs.bump src sz).bump dst sz } t := by
    rw [hm1.regs] at hm2
    exact (hm1.withRegs _).trans hm2
  have hacc : loc.accessible s sz = true := (Loc.accessible_congr (s := s) hm1.cfg loc sz).symm.trans h.2
  refine complete_writeback hm hacc fun y hy hsr _ => ⟨y.draws, ?_⟩
  rw [Exec.bind_of_ok hsource, Exec.bind_of_ok h.1, Exec.bind_of_ok hy, updateSr_apply, hsr]
  simp

end Sys2Proof.Machine
end

section
/-! Multiplication and division (O36-O38): what fits is written exactly, what does not leaves the register. -/

namespace Sys2Proof.Machine

open Sys2Proof.Config Sys2Proof.Claims

/-! ## Products -/

theorem toNat_ofNat_product (d v : Word) : (BitVec.ofNat 32 (d.toNat * v.toNat)).toNat = d.toNat * v.toNat := by
  have hlt : d.toNat * v.toNat < 2 ^ 16 * 2 ^ 16 := Nat.mul_lt_mul'' d.isLt v.isLt
  rw [BitVec.toNat_ofNat]
  exact Nat.mod_eq_of_lt hlt

theorem toInt_ofInt_product (d v : Word) : (BitVec.ofInt 32 (d.toInt * v.toInt)).toInt = d.toInt * v.toInt := by
  have hlow := BitVec.le_toInt_mul_toInt (x := d) (y := v)
  have hhigh := BitVec.toInt_mul_toInt_le (x := d) (y := v)
  norm_num at hlow hhigh
  exact BitVec.toInt_ofInt_eq_self (by decide) (by norm_num; omega) (by norm_num; omega)

/-- A write of the whole of D[x] and of SR, as a rule's last two steps leave them. -/
theorem writeD_long_updateSr (x : Reg) (r : Long) (f : Sr → Sr) (w : State) :
    (do writeD x .l r; updateSr f : Exec Unit) w = .ok () { w with regs := (w.regs.setD x r).withSr (f w.regs.sr) } := by
  simp [RegFile.withSr]

/-- Settles O36: the words written are the wrapped products, and a product of words fits in a long. -/
theorem multiplication : Obligations.Multiplication := by
  intro x ea s t loc h v d
  have hunsigned : ∃ u, exec (.mulu x ea) s = .next u ∧ ChangesRegs s u t.pc
      (((s.regs.bump ea .w).setD x (BitVec.ofNat 32 (d.toNat * v.toNat))).withSr
        (s.regs.sr.logicFlags (BitVec.ofNat 32 (d.toNat * v.toNat)))) := by
    refine complete_source (d := s.draws) rfl (.refl _) h fun w _ hregs hdraws => ?_
    rw [readD_bind, writeD_long_updateSr, hregs, RegFile.getD_bump, RegFile.bump_sr, ← hdraws]
  have hsigned : ∃ u, exec (.muls x ea) s = .next u ∧ ChangesRegs s u t.pc
      (((s.regs.bump ea .w).setD x (BitVec.ofInt 32 (d.toInt * v.toInt))).withSr
        (s.regs.sr.logicFlags (BitVec.ofInt 32 (d.toInt * v.toInt)))) := by
    refine complete_source (d := s.draws) rfl (.refl _) h fun w _ hregs hdraws => ?_
    rw [readD_bind, writeD_long_updateSr, hregs, RegFile.getD_bump, RegFile.bump_sr, ← hdraws]
  obtain ⟨u, hu⟩ := hunsigned
  obtain ⟨u', hu'⟩ := hsigned
  exact ⟨⟨_, u, toNat_ofNat_product d v, hu⟩, ⟨_, u', toInt_ofInt_product d v, hu'⟩⟩

/-! ## Quotients -/

/-- A quotient of 16 bits and its remainder are the words the rule writes (rule R316). -/
theorem toNat_unsigned_quotient {d : Long} {v : Word} (hv : v ≠ 0) (hfits : d.toNat / v.toNat < 2 ^ 16) :
    (BitVec.ofNat 16 (d.toNat / v.toNat)).toNat = d.toNat / v.toNat ∧
    (BitVec.ofNat 16 (d.toNat % v.toNat)).toNat = d.toNat % v.toNat := by
  have hpos : 0 < v.toNat := Nat.pos_of_ne_zero fun h => hv (BitVec.eq_of_toNat_eq h)
  have hrem : d.toNat % v.toNat < 2 ^ 16 := (Nat.mod_lt _ hpos).trans v.isLt
  simp only [BitVec.toNat_ofNat, Nat.mod_eq_of_lt hfits, Nat.mod_eq_of_lt hrem, and_self]

theorem signedOut_sixteen_iff (q : ℤ) : signedOut 16 q = true ↔ q < -32768 ∨ q > 32767 := by
  simp only [signedOut, Bool.or_eq_true, decide_eq_true_eq]
  omega

/-- The remainder of a signed division by a word is smaller than the word, so it fits too (rule R317). -/
theorem toInt_signed_quotient {d : Long} {v : Word} (hv : v ≠ 0) (hfits : signedOut 16 (d.toInt.tdiv v.toInt) = false) :
    (BitVec.ofInt 16 (d.toInt.tdiv v.toInt)).toInt = d.toInt.tdiv v.toInt ∧
    (BitVec.ofInt 16 (d.toInt - d.toInt.tdiv v.toInt * v.toInt)).toInt = d.toInt.tmod v.toInt := by
  have hq : ¬ (d.toInt.tdiv v.toInt < -32768 ∨ d.toInt.tdiv v.toInt > 32767) := fun h => by
    rw [(signedOut_sixteen_iff _).2 h] at hfits
    cases hfits
  have hv0 : v.toInt ≠ 0 := fun h => hv (BitVec.eq_of_toInt_eq h)
  have hlow := BitVec.le_toInt v
  have hhigh := BitVec.toInt_lt (x := v)
  have hrem : d.toInt - d.toInt.tdiv v.toInt * v.toInt = d.toInt.tmod v.toInt := by rw [Int.tmod_def, mul_comm]
  have habs : (d.toInt.tmod v.toInt).natAbs < v.toInt.natAbs := by
    rw [Int.natAbs_tmod]
    exact Nat.mod_lt _ (Int.natAbs_pos.2 hv0)
  norm_num at hlow hhigh
  rw [hrem]
  exact ⟨BitVec.toInt_ofInt_eq_self (by decide) (by norm_num; omega) (by norm_num; omega),
    BitVec.toInt_ofInt_eq_self (by decide) (by norm_num; omega) (by norm_num; omega)⟩

theorem divideResult_apply (x : Reg) (q rem : Word) (w : State) :
    divideResult x q rem w = .ok () { w with
      regs := (w.regs.setD x (rem ++ q)).withSr { w.regs.sr with
        n := q.msb, z := decide (q = 0), v := false, c := false } } :=
  writeD_long_updateSr x _ _ w

theorem divideOverflow_apply (w : State) :
    divideOverflow w = .ok () { w with
      regs := w.regs.withSr { w.regs.sr with
        n := freeBit w.draws, z := freeBit (w.draws + 1), v := true, c := false }
      draws := w.draws + 2 } := rfl

theorem divideByZero_apply (w : State) :
    divideByZero w = .error .zeroDivide { w with
      regs := w.regs.withSr { w.regs.sr with
        n := freeBit w.draws, z := freeBit (w.draws + 1), v := freeBit (w.draws + 2), c := false }
      draws := w.draws + 3 } := rfl

/-- The dividend is the whole of D[x], which reading the divisor does not change. -/
theorem readD_long_of_bump {ea : Ea} {sz : Size} {s w : State} (h : w.regs = s.regs.bump ea sz) (x : Reg)
    {β : Type} (k : Long → Exec β) : (readD x .l >>= k) w = k (s.regs.getD x) w := by
  rw [readD_bind, h, RegFile.getD_bump]
  exact congrArg (fun v => k v w) (BitVec.setWidth_eq _)

/-- Settles O37: the tests of the two rules are the four cases, and what fits is written exactly. -/
theorem division : Obligations.Division := by
  intro x ea s t loc h v d fits tooBig hv
  refine ⟨fun hq => ?_, fun hq => ?_, fun hq => ?_, fun hq => ?_⟩
  · have hsmall : ¬ d.toNat / v.toNat > 0xFFFF := by omega
    have hrun : ∃ u, exec (.divu x ea) s = .next u ∧ ChangesRegs s u t.pc
        (fits (BitVec.ofNat 16 (d.toNat / v.toNat)) (BitVec.ofNat 16 (d.toNat % v.toNat))) := by
      refine complete_source (d := s.draws) rfl (.refl _) h fun w _ hregs hdraws => ?_
      rw [readD_long_of_bump hregs, if_neg hv, if_neg hsmall, divideResult_apply, hregs, RegFile.bump_sr, ← hdraws]
    obtain ⟨u, hu⟩ := hrun
    obtain ⟨hquot, hrem⟩ := toNat_unsigned_quotient hv hq
    exact ⟨_, _, u, hquot, hrem, hu⟩
  · have hbig : d.toNat / v.toNat > 0xFFFF := by omega
    refine ⟨freeBit s.draws, freeBit (s.draws + 1), ?_⟩
    refine complete_source (d := s.draws + 2) rfl (.refl _) h fun w _ hregs hdraws => ?_
    rw [readD_long_of_bump hregs, if_neg hv, if_pos hbig, divideOverflow_apply, hregs, RegFile.bump_sr, hdraws]
  · have hsmall := fun k => Bool.false_ne_true (hq.symm.trans ((signedOut_sixteen_iff _).2 k))
    have hrun : ∃ u, exec (.divs x ea) s = .next u ∧ ChangesRegs s u t.pc
        (fits (BitVec.ofInt 16 (d.toInt.tdiv v.toInt))
          (BitVec.ofInt 16 (d.toInt - d.toInt.tdiv v.toInt * v.toInt))) := by
      refine complete_source (d := s.draws) rfl (.refl _) h fun w _ hregs hdraws => ?_
      rw [readD_long_of_bump hregs, if_neg hv, if_neg hsmall, divideResult_apply, hregs, RegFile.bump_sr, ← hdraws]
    obtain ⟨u, hu⟩ := hrun
    obtain ⟨hquot, hrem⟩ := toInt_signed_quotient hv hq
    exact ⟨_, _, u, hquot, hrem, hu⟩
  · have hbig := (signedOut_sixteen_iff _).1 hq
    refine ⟨freeBit s.draws, freeBit (s.draws + 1), ?_⟩
    refine complete_source (d := s.draws + 2) rfl (.refl _) h fun w _ hregs hdraws => ?_
    rw [readD_long_of_bump hregs, if_neg hv, if_pos hbig, divideOverflow_apply, hregs, RegFile.bump_sr, hdraws]

/-! ## A zero divisor -/

/-- Charging a state that differs in pc, registers, draws and measures alone. -/
theorem ChangesRegs.of_measured {s t : State} {r : RegFile} {d : ℕ}
    (hm : Measured { s.start with regs := r, draws := d } t) : ChangesRegs s t.charge t.pc r := by
  obtain ⟨u, hu, h⟩ := complete_changesRegs (body := fun _ => .ok () t) rfl hm
  cases hu
  exact h

/-- A rule that reads a located source, changes registers and draws, and then raises a group-2 event: the changes stand and
the next address is stacked (rule R585). -/
theorem complete_source_raise {sz : Size} {ea : Ea} {loc : Loc} {s t : State} {k : BitVec sz.bits → Exec Unit}
    {e : Event} {r : RegFile} {d : ℕ} (he : e.group = .two) (h : Locates ea sz s.start loc t)
    (hk : ∀ w : State, w.regs = s.regs.bump ea sz → w.draws = s.draws →
      k (loc.value s sz) w = .error e { w with regs := r, draws := d }) :
    ∃ w, complete (readEa ea sz >>= k) s = .next (enter e t.pc w) ∧ ChangesRegs s w t.pc r := by
  obtain ⟨w, hread, hw, hregs, hpc⟩ := h.source
  have hrun := (Exec.bind_of_ok (f := k) hread).trans (hk w hregs hw.draws)
  refine ⟨_, ?_, hpc ▸ ChangesRegs.of_measured (s := s) (hw.withRegsDraws r d)⟩
  rw [complete_of_error hrun, State.afterEvent, he, ← hpc]
  rfl

/-- Settles O38: both rules find the zero before they divide. -/
theorem divisionByZeroTraps : Obligations.DivisionByZeroTraps := by
  intro x ea s t loc h hzero
  refine ⟨rfl, ⟨freeBit s.draws, freeBit (s.draws + 1), freeBit (s.draws + 2), ?_⟩,
    ⟨freeBit s.draws, freeBit (s.draws + 1), freeBit (s.draws + 2), ?_⟩⟩
  all_goals
    refine complete_source_raise (d := s.draws + 3) rfl h fun w hregs hdraws => ?_
    rw [readD_long_of_bump hregs, if_pos hzero, divideByZero_apply, hregs, RegFile.bump_sr, hdraws]

end Sys2Proof.Machine
end

section
/-! Shifts and rotates (O46, O47), bit operations (O48) and decimal arithmetic (O49). -/

namespace Sys2Proof.Machine

open Sys2Proof.Config Sys2Proof.Claims

/-! ## Shifts -/

/-- Only ASL notes a change of the sign (rule R401). -/
theorem ShiftAcc.iterate_signChanged {n : ℕ} {k : ShiftKind} (hk : k ≠ .asl) (c : ℕ) (acc : ShiftAcc n) :
    (ShiftAcc.iterate k c acc).signChanged = acc.signChanged := by
  induction c generalizing acc with
  | zero => rfl
  | succ c ih => rw [ShiftAcc.iterate, ih]; simp [ShiftAcc.next, hk]

theorem shiftLoop_signChanged {n : ℕ} (k : ShiftKind) (c : ℕ) (v : BitVec n) (x : Bool) :
    (shiftLoop k c v x).signChanged = (decide (k = .asl) && (shiftLoop k c v x).signChanged) := by
  by_cases hk : k = .asl
  · simp [hk]
  · simp [hk, shiftLoop, ShiftAcc.iterate_signChanged hk]

/-- The flags of rule R400, kind by kind. -/
theorem Sr.shiftFlags_shiftLoop {n : ℕ} (f : Sr) (k : ShiftKind) (c : ℕ) (v : BitVec n) :
    let acc := shiftLoop k c v f.x
    f.shiftFlags k c acc = { f with
      x := if c = 0 ∨ k = .rol ∨ k = .ror then f.x else acc.out
      n := acc.value.msb
      z := decide (acc.value = 0)
      v := decide (k = .asl) && acc.signChanged
      c := if c = 0 then decide (k = .roxl ∨ k = .roxr) && f.x else acc.out } := by
  intro acc
  have hv : acc.signChanged = (decide (k = .asl) && acc.signChanged) := shiftLoop_signChanged k c v f.x
  have hx : (if c = 0 then f.x else if k.isRo then f.x else acc.out) =
      if c = 0 ∨ k = .rol ∨ k = .ror then f.x else acc.out := by
    by_cases hc : c = 0
    · simp [hc]
    · cases k <;> simp [hc, ShiftKind.isRo]
  have hc : (if k.isRox then f.x else false) = (decide (k = .roxl ∨ k = .roxr) && f.x) := by
    cases k <;> simp [ShiftKind.isRox]
  rw [Sr.shiftFlags, hx, hc, ← hv]

theorem shiftCount_apply (c : ShiftCount) (s : State) : shiftCount c s = .ok (countOf c s.regs) s := by
  cases c with
  | imm n => rfl
  | reg r => simp [shiftCount, countOf, Exec.bind_apply]

theorem exec_regShift (k : ShiftKind) (c : ShiftCount) (sz : Size) (y : Reg) (s : State) :
    exec (regShift k c sz y) s = complete (shiftReg k c sz y) s := by
  cases k <;> rfl

theorem exec_memShift (k : ShiftKind) (ea : Ea) (s : State) :
    exec (memShift k ea) s = complete (shiftMem k ea) s := by
  cases k <;> rfl

/-- Settles O46: the rule reads its count and operand, runs the loop and writes. -/
theorem shiftRegister : Obligations.ShiftRegister := by
  intro k c sz y s n v acc
  rw [exec_regShift, ← Sr.shiftFlags_shiftLoop]
  refine complete_registers (d := s.draws) ?_
  rw [shiftReg, Exec.bind_of_ok (shiftCount_apply c s.start)]
  rfl

/-- Settles O47: the rule is `modifyEa` with one round of the loop. -/
theorem shiftMemory : Obligations.ShiftMemory := by
  intro k ea s t loc h v acc
  have hflags := Sr.shiftFlags_shiftLoop s.regs.sr k 1 v
  simp only [one_ne_zero, false_or, if_false] at hflags
  rw [exec_memShift, ← hflags]
  exact modifyEa_completes _ _ h

/-! ## Bit operations -/

/-- A flag other than S does not change which register a location names (rules R34, R43). -/
theorem Loc.putRegs_withSr {loc : Loc} {sz : Size} (v : BitVec sz.bits) (r : RegFile) {f : Sr} (hf : f.s = r.sr.s) :
    loc.putRegs sz v (r.withSr f) = (loc.putRegs sz v r).withSr f := by
  cases loc with
  | areg n =>
    simp only [Loc.putRegs, RegFile.setA, RegFile.setSp, RegFile.withSr, hf]
    split_ifs <;> rfl
  | _ => rfl

/-- What `bitOpAt` does to an operand that is located, whatever was fetched before (rule R430). -/
theorem bitOpAt_completes {op : BitOp} {body : Exec Unit} {ea : Ea} {sz : Size} {b : ℕ} {s s1 t : State} {loc : Loc}
    (hbody : body s.start = bitOpAt op ea sz b s1) (hm : Measured s.start s1) (h : Locates ea sz s1 loc t) :
    ∃ u, complete body s = .next u ∧
      BitResult op s u t.pc (s.regs.bump ea sz) sz loc (loc.value s sz) b := by
  obtain ⟨w, hloc, hread, hw, hpc, _⟩ := h.readModifyWrite hm
  let f : Sr := { s.regs.sr with z := !(loc.value s sz).getLsbD b }
  let wz : State := { w with regs := (s.regs.bump ea sz).withSr f }
  have hwz : Measured { s.start with regs := (s.regs.bump ea sz).withSr f } wz := hw.withRegs _
  have hflag : updateSr (fun g => { g with z := !(loc.value s sz).getLsbD b }) w = .ok () wz := by
    rw [updateSr_apply, hw.regs, RegFile.bump_sr]
    rfl
  have hacc : loc.accessible s sz = true := (Loc.accessible_congr (s := s) hm.cfg loc sz).symm.trans h.2
  have hbits : body s.start = (bitOpAt op ea sz b) s1 := hbody
  rw [bitOpAt, Exec.bind_of_ok hloc, Exec.bind_of_ok hread, Exec.bind_of_ok hflag] at hbits
  have hwrites : ∀ v : BitVec sz.bits, body s.start = loc.write sz v wz → ∃ u, complete body s = .next u ∧
      ChangesAt s u t.pc ((loc.putRegs sz v (s.regs.bump ea sz)).withSr f) sz loc v := fun v hv => by
    have hdone := complete_writeback (body := body) (v := v) (f := f) hwz hacc fun y hy hsr _ => ⟨y.draws, by
      have hf : f = y.regs.sr := hsr.symm
      rw [hv, hy, hf]⟩
    rw [Loc.putRegs_withSr v _ (by simp [f])] at hdone
    exact hpc ▸ hdone
  cases op with
  | test => exact complete_leaves (d := s.draws) hbits hwz hpc
  | change | clear | set => exact hwrites _ hbits

theorem exec_staticBit (op : BitOp) (ea : Ea) (s : State) :
    exec (staticBit op ea) s = complete (bitStatic op ea) s := by
  cases op <;> rfl

theorem exec_dynamicBit (op : BitOp) (x : Reg) (ea : Ea) (s : State) :
    exec (dynamicBit op x ea) s = complete (bitDynamic op x ea) s := by
  cases op <;> rfl

/-- Elsewhere than on a data register the operand is a byte (rule R430). -/
theorem bitOp_of_ne_dn {ea : Ea} (h : ∀ r, ea ≠ .dn r) (op : BitOp) (n : ℕ) :
    bitOp op ea n = bitOpAt op ea .b (n % 8) := by
  cases ea with
  | dn r => exact absurd rfl (h r)
  | _ => rfl

theorem bitStatic_of_fetch {op : BitOp} {ea : Ea} {s s1 : State} {w : Word} (h : fetch16 s = .ok w s1) :
    bitStatic op ea s = bitOp op ea (w.toNat % 256) s1 := by
  rw [bitStatic, Exec.bind_of_ok h]
  simp

theorem locates_dn (r : Reg) (sz : Size) (s : State) : Locates (.dn r) sz s (.dreg r) s := ⟨rfl, rfl⟩

theorem bitDynamic_apply (op : BitOp) (x : Reg) (ea : Ea) (s : State) :
    bitDynamic op x ea s = bitOp op ea (s.regs.getD x).toNat s := by
  rw [bitDynamic, readD_bind]
  simp

/-- What a bit operation leaves on a data register, with the operand as the whole register. -/
theorem bitOpAt_dn_completes {op : BitOp} {body : Exec Unit} {r : Reg} {b : ℕ} {s s1 : State}
    (hbody : body s.start = bitOpAt op (.dn r) .l b s1) (hm : Measured s.start s1) :
    ∃ u, complete body s = .next u ∧ BitResult op s u s1.pc s.regs .l (.dreg r) (s.regs.getD r) b := by
  have h := bitOpAt_completes hbody hm (locates_dn r .l s1)
  have hvalue : (Loc.dreg r).value s .l = s.regs.getD r := BitVec.setWidth_eq _
  rwa [hvalue] at h

/-- Settles O48: both forms are `bitOpAt`, with the number fetched or read first. -/
theorem bitOperations : Obligations.BitOperations := by
  intro op s
  refine ⟨fun s1 w r hw => ?_, fun s1 t w ea loc hw hea h => ?_, fun x r => ?_, fun x t ea loc hea h => ?_⟩
  · rw [exec_staticBit]
    exact bitOpAt_dn_completes (bitStatic_of_fetch hw) (fetch16_eq_ok hw).2.2.2
  · rw [exec_staticBit]
    exact bitOpAt_completes ((bitStatic_of_fetch hw).trans (by rw [bitOp_of_ne_dn hea])) (fetch16_eq_ok hw).2.2.2 h
  · rw [exec_dynamicBit]
    exact bitOpAt_dn_completes (s1 := s.start) (bitDynamic_apply op x _ s.start) (.refl _)
  · rw [exec_dynamicBit]
    exact bitOpAt_completes ((bitDynamic_apply op x ea s.start).trans (by rw [bitOp_of_ne_dn hea]; rfl)) (.refl _) h

/-! ## Decimal arithmetic -/

/-- The end of the decimal rules where the result can be written (rules R450-R452). -/
theorem bcdFinish_completes {body : Exec Unit} {s w : State} {r : RegFile} {loc : Loc} {p : Byte × Bool}
    (hbody : body s.start = bcdFinish loc p w) (hm : Measured { s.start with regs := r } w)
    (hsr : r.sr = s.regs.sr) (hacc : loc.accessible s .b = true) :
    ∃ (n v : Bool) (u : State), complete body s = .next u ∧ ChangesAt s u w.pc
      ((loc.putRegs .b p.1 r).withSr (s.regs.sr.bcdFlags p.1 p.2 n v)) .b loc p.1 := by
  refine ⟨freeBit s.draws, freeBit (s.draws + 1), complete_writeback hm hacc fun y hy hysr hdraws =>
    ⟨s.draws + 2, ?_⟩⟩
  rw [hbody, bcdFinish, Exec.bind_of_ok hy, drawBit_bind, drawBit_bind, updateSr_apply]
  simp [hdraws, hysr, hsr]

/-- Settles O49: the register forms by evaluation, the others by `bcdFinish` at the operand. -/
theorem decimalInstructions : Obligations.DecimalInstructions := by
  intro s x y f g
  refine ⟨⟨⟨freeBit s.draws, freeBit (s.draws + 1), complete_registers (d := s.draws + 2) rfl⟩,
    ⟨freeBit s.draws, freeBit (s.draws + 1), complete_registers (d := s.draws + 2) rfl⟩⟩, ?_, fun ea t loc h => ?_⟩
  · intro r1 r2 a b ha hb src dst
    obtain ⟨w, hoperands, hw, hpc⟩ := extendedOperands_mem_ok ha hb
    have hsr : w.regs.sr = s.regs.sr := by simp [hw.regs]
    have hr2 : r2.sr = s.regs.sr := by simp [r2, r1]
    rw [← hpc]
    constructor
    · refine bcdFinish_completes (loc := .mem b) ?_ hw hr2 hb
      rw [Exec.bind_of_ok hoperands]
      simp only [readSr_bind, hsr]
      rfl
    · refine bcdFinish_completes (loc := .mem b) ?_ hw hr2 hb
      rw [Exec.bind_of_ok hoperands]
      simp only [readSr_bind, hsr]
      rfl
  · intro p
    obtain ⟨w, hloc, hread, hw, hpc, _⟩ := h.readModifyWrite (.refl _)
    rw [← hpc]
    refine bcdFinish_completes ?_ hw (by simp) h.2
    rw [Exec.bind_of_ok hloc, Exec.bind_of_ok hread, readSr_bind, hw.regs, RegFile.bump_sr]

end Sys2Proof.Machine
end

section
/-! Stack frames (O45) and the instructions that write CCR, SR, USP and the run state (O52, O53). -/

namespace Sys2Proof.Machine

open Sys2Proof.Config

/-! ## Reads and writes after measured steps -/

section Accesses

variable {s w : State} {r : RegFile} {sz : Size} {a : Long}

/-- A data read after steps that changed registers and measures alone answers what memory held at the start. -/
theorem readMem_of_measured (hm : Measured { s.start with regs := r } w) (hacc : s.canAccess sz a = true) :
    ∃ w', readMem sz a w = .ok (s.memValue sz a) w' ∧ Measured { s.start with regs := r } w' ∧ w'.pc = w.pc := by
  have hread := readMem_ok ((hm.canAccess sz a).trans hacc)
  rw [hm.memValue] at hread
  exact ⟨_, hread, hm.trans (readMem_eq_ok hread).2.2, rfl⟩

/-- A rule that, from a measured state with registers `r`, stores to memory and leaves the registers `r'`. -/
theorem complete_stores {body : Exec Unit} {v : BitVec sz.bits} {r' : RegFile} {p : Long}
    (hm : Measured { s.start with regs := r } w) (hacc : s.canAccess sz a = true) (hpc : w.pc = p)
    (hk : ∀ y : State, writeMem sz a v w = .ok () y → y.regs = r → body s.start = .ok () { y with regs := r' }) :
    ∃ u, complete body s = .next u ∧ ChangesAt s u p r' sz (.mem a) v := by
  obtain ⟨m, y, q, dev, hwrite, hstores⟩ := writeMem_ok ((hm.canAccess sz a).trans hacc) v
  refine ⟨_, complete_of_ok (hk _ hwrite hm.regs), ⟨hpc, rfl, hm.run, ?_, ?_⟩⟩
  · refine ⟨hm.cfg, hm.inGroup0, hm.group0Handler, hm.irq, hm.out, hm.pc0, hm.ir, hm.tracePending, ?_⟩
    have hcycles : w.cycles = s.cycles := hm.cycles
    exact hcycles ▸ State.charge_cycles_lt _
  · exact WritesAt.congr (loc := .mem a) hstores hm.cfg.symm hm.mem.symm hm.ym.symm hm.paula.symm rfl rfl rfl rfl

end Accesses

/-! ## Stack frames -/

theorem push_apply (sz : Size) (v : BitVec sz.bits) (s : State) :
    push sz v s = writeMem sz (s.regs.getA 7 - BitVec.ofNat 32 sz.bytes) v
      { s with regs := s.regs.setA 7 (s.regs.getA 7 - BitVec.ofNat 32 sz.bytes) } := rfl

/-- A7 read after An and A7 were both set to one address is that address (rule R260). -/
theorem RegFile.getA_seven_setA_setA (r : RegFile) (y : Reg) (sp : Long) :
    ((r.setA 7 sp).setA y sp).getA 7 = sp := by
  by_cases h : y = 7
  · subst h
    exact RegFile.getA_setA_same ..
  · rw [RegFile.getA_setA_ne _ _ h, RegFile.getA_setA_same]

/-- Settles O45: PEA and LINK store once; UNLK reads once. -/
theorem stackFrames : Obligations.StackFrames := by
  intro s
  refine ⟨fun ea t a h => ?_, fun y s1 w hw => ?_, fun y => ?_⟩
  · intro r sp hacc
    have hm := resolve_eq_ok h
    refine complete_stores (hm.withRegs (r.setA 7 sp)) hacc rfl fun y hy hregs => ?_
    have hsp : t.regs = r := hm.regs
    rw [Exec.bind_of_ok (addressOf_eq_ok h), push_apply, hsp, ← hregs]
    exact hy
  · intro sp r hacc
    obtain ⟨_, _, _, hm⟩ := fetch16_eq_ok hw
    have hregs1 : s1.regs = s.regs := hm.regs
    refine complete_stores (hm.withRegs (s.regs.setA 7 sp)) hacc rfl fun z hz hregs => ?_
    rw [Exec.bind_of_ok hw]
    simp only [readA_bind, writeA_bind, hregs1]
    rw [Exec.bind_of_ok hz]
    simp only [hregs, writeA_bind, readA_bind, writeA_apply]
    rw [RegFile.getA_seven_setA_setA]
  · intro a hacc
    obtain ⟨w, hread, hw, hpc⟩ := readMem_of_measured (r := s.regs.setA 7 a) (.refl _) hacc
    refine complete_leaves (d := s.draws) ?_ (hw.withRegs _) hpc
    have hrun : (do
        let v ← readMem .l a
        writeA 7 (a + 4)
        writeA y v : Exec Unit) { s.start with regs := s.regs.setA 7 a } =
          .ok () { w with regs := (s.regs.setA 7 (a + 4)).setA y (s.memValue .l a) } := by
      rw [Exec.bind_of_ok hread, writeA_bind, writeA_apply, hw.regs, RegFile.setA_setA]
    exact hrun

/-! ## The bits of SR -/

/-- The bits of SR that are stored (rules R42, R47). -/
def srMask (t0Stored : Bool) : Word := if t0Stored then 0xE71F else 0xA71F

/-- Where each field of SR stands in the word (rule R40). -/
def Sr.bit (f : Sr) : ℕ → Bool
  | 0 => f.c
  | 1 => f.v
  | 2 => f.z
  | 3 => f.n
  | 4 => f.x
  | 8 => f.i.getLsbD 0
  | 9 => f.i.getLsbD 1
  | 10 => f.i.getLsbD 2
  | 13 => f.s
  | 14 => f.t0
  | 15 => f.t1
  | _ => false

theorem Sr.getLsbD_ccr (f : Sr) {i : ℕ} (hi : i < 8) : f.ccr.getLsbD i = f.bit i := by
  unfold Sr.ccr
  repeat rw [BitVec.getLsbD_append]
  interval_cases i <;> simp [Sr.bit]

theorem Sr.getLsbD_system (f : Sr) {i : ℕ} (hi : i < 8) : f.system.getLsbD i = f.bit (8 + i) := by
  unfold Sr.system
  repeat rw [BitVec.getLsbD_append]
  interval_cases i <;> simp [Sr.bit]

theorem Sr.getElem_toWord (f : Sr) (i : ℕ) (hi : i < 16) : f.toWord[i] = f.bit i := by
  rw [← BitVec.getLsbD_eq_getElem, Sr.toWord, BitVec.getLsbD_append]
  split_ifs with hlow
  · exact f.getLsbD_ccr hlow
  · rw [f.getLsbD_system (by omega)]
    congr 1
    omega

/-- A write of a word stores it under the mask (rule R47). -/
theorem Sr.toWord_ofWord (t0Stored : Bool) (w : Word) : (Sr.ofWord t0Stored w).toWord = w &&& srMask t0Stored := by
  apply BitVec.eq_of_getElem_eq
  intro i hi
  rw [Sr.getElem_toWord]
  cases t0Stored <;> interval_cases i <;> simp [Sr.bit, Sr.ofWord, srMask]

/-- A write to CCR stores five bits and leaves the others (rule R47). -/
theorem Sr.toWord_setCcr (f : Sr) (b : Byte) :
    (f.setCcr b).toWord = (f.toWord &&& 0xFF00) ||| (0#8 ++ (b &&& 0x1F)) := by
  apply BitVec.eq_of_getElem_eq
  intro i hi
  simp only [BitVec.getElem_or, BitVec.getElem_and, Sr.getElem_toWord]
  rw [← BitVec.getLsbD_eq_getElem (x := 0#8 ++ (b &&& 0x1F)), BitVec.getLsbD_append]
  interval_cases i <;> simp [Sr.bit, Sr.setCcr]

theorem Sr.ccr_eq_low_byte (f : Sr) : f.ccr = f.toWord.extractLsb' 0 8 := by
  apply BitVec.eq_of_getLsbD_eq
  intro i hi
  rw [BitVec.getLsbD_extractLsb', Sr.toWord, BitVec.getLsbD_append]
  simp [hi]

/-- The hardwired bits read 0 (rule R47). -/
theorem Sr.toWord_hardwired (f : Sr) : f.toWord &&& 0x18E0 = 0 := by
  apply BitVec.eq_of_getElem_eq
  intro i hi
  rw [BitVec.getElem_and, Sr.getElem_toWord]
  interval_cases i <;> simp [Sr.bit]

/-- A legal SR holds no bit outside the mask (rules R42, R47). -/
theorem Sr.toWord_of_legal {f : Sr} {t0Stored : Bool} (h : f.legal t0Stored = true) :
    f.toWord &&& ~~~srMask t0Stored = 0 := by
  apply BitVec.eq_of_getElem_eq
  intro i hi
  rw [BitVec.getElem_and, Sr.getElem_toWord]
  cases t0Stored <;> interval_cases i <;> simp_all [Sr.bit, srMask, Sr.legal]

/-! ## Writes to CCR and SR -/

section StatusWrites

variable {s t : State} {w : Word}

theorem fetchImm_byte_of_fetch16 (h : fetch16 s = .ok w t) : fetchImm .b s = .ok (w.setWidth 8) t := by
  rw [← extractLsb'_zero_eq_setWidth]
  exact Exec.bind_of_ok h

/-- ANDI, EORI and ORI to CCR (rules R501, R503, R505). -/
theorem ccrImm_completes (op : Byte → Byte → Byte) (h : fetch16 s.start = .ok w t) :
    ∃ u, complete (ccrImm op) s = .next u ∧
      ChangesRegs s u t.pc (s.regs.withSr (s.regs.sr.setCcr (op s.regs.sr.ccr (w.setWidth 8)))) := by
  obtain ⟨_, _, _, hm⟩ := fetch16_eq_ok h
  have hregs : t.regs = s.regs := hm.regs
  refine complete_leaves (d := s.draws) ?_ (hm.withRegs _) rfl
  rw [ccrImm, Exec.bind_of_ok (fetchImm_byte_of_fetch16 h), readSr_bind, writeCcr_apply, hregs]
  rfl

/-- ANDI, EORI and ORI to SR in supervisor mode (rules R502, R504, R506). -/
theorem srImm_completes (op : Word → Word → Word) (hs : s.regs.sr.s = true) (h : fetch16 s.start = .ok w t) :
    ∃ g u, complete (srImm op) s = .next u ∧ ChangesRegs s u t.pc (s.regs.withSr g) ∧
      g.toWord = op s.regs.sr.toWord w &&& srMask s.cfg.srT0Stored := by
  obtain ⟨_, _, _, hm⟩ := fetch16_eq_ok h
  have hregs : t.regs = s.regs := hm.regs
  have hcfg : t.cfg = s.cfg := hm.cfg
  let g := Sr.ofWord s.cfg.srT0Stored (op s.regs.sr.toWord w)
  have hrun : srImm op s.start = .ok () { t with regs := s.regs.withSr g } := by
    rw [srImm, requireSupervisor_bind_of_supervisor (s := s.start) hs, Exec.bind_of_ok h, readSr_bind,
      writeSrWord_apply, hregs, hcfg]
    rfl
  obtain ⟨u, hu, hchanges⟩ := complete_leaves (d := s.draws) hrun (hm.withRegs _) rfl
  exact ⟨g, u, hu, hchanges, Sr.toWord_ofWord _ _⟩

end StatusWrites

/-- Settles O52: the bits by `Sr.bit`, the instructions by what they write. -/
theorem statusRegisterWrites : Obligations.StatusRegisterWrites := by
  intro s f mask
  refine ⟨fun g b w => ⟨Sr.toWord_ofWord _ w, g.toWord_setCcr b, g.ccr_eq_low_byte, g.toWord_hardwired,
    Sr.toWord_of_legal⟩, fun w t hw => ⟨ccrImm_completes _ hw, ccrImm_completes _ hw, ccrImm_completes _ hw,
    fun hs => ⟨srImm_completes _ hs hw, srImm_completes _ hs hw, srImm_completes _ hs hw⟩⟩,
    fun ea t loc h => ⟨?_, fun hs => ?_⟩⟩
  · refine complete_source (d := s.draws) rfl (.refl _) h fun w _ hregs hdraws => ?_
    rw [writeCcr_apply, hregs, RegFile.bump_sr, extractLsb'_zero_eq_setWidth, ← hdraws]
    rfl
  · have hrun : ∃ u, exec (.moveToSr ea) s = .next u ∧ ChangesRegs s u t.pc
        ((s.regs.bump ea .w).withSr (Sr.ofWord s.cfg.srT0Stored (loc.value s .w))) := by
      refine complete_source (d := s.draws) (requireSupervisor_bind_of_supervisor (s := s.start) hs) (.refl _) h
        fun w hcfg hregs hdraws => ?_
      rw [writeSrWord_apply, hregs, hcfg, ← hdraws]
      rfl
    obtain ⟨u, hu, hchanges⟩ := hrun
    exact ⟨_, u, hu, hchanges, Sr.toWord_ofWord _ _⟩

/-! ## Supervisor instructions -/

/-- A rule that leaves a measured state with another SR and run state changes nothing else (rules R512, R513). -/
theorem charge_same {s t : State} (hm : Measured s.start t) (r : RegFile) (q : Run) :
    SameControl s ({ t with regs := r, run := q } : State).charge ∧
      SameMemory s ({ t with regs := r, run := q } : State).charge := by
  have hcycles : t.cycles = s.cycles := hm.cycles
  refine ⟨⟨hm.cfg, hm.inGroup0, hm.group0Handler, hm.irq, hm.out, hm.pc0, hm.ir, hm.tracePending, ?_⟩,
    ⟨fun e => congrArg (Memory.read · e) hm.mem, hm.mem, hm.ym, hm.paula⟩⟩
  rw [← hcycles]
  exact State.charge_cycles_lt _

theorem exec_stop_of_fetch {s t : State} {w : Word} (hs : s.regs.sr.s = true) (h : fetch16 s.start = .ok w t) :
    exec .stop s = .next ({ t with
      regs := s.regs.withSr (Sr.ofWord s.cfg.srT0Stored w)
      run := if s.hid.tracePending then s.run else .stopped } : State).charge := by
  obtain ⟨_, _, _, hm⟩ := fetch16_eq_ok h
  have hregs : t.regs = s.regs := hm.regs
  have hcfg : t.cfg = s.cfg := hm.cfg
  have htrace : t.hid.tracePending = s.hid.tracePending := hm.tracePending
  have hrunState : t.run = s.run := hm.run
  refine complete_of_ok ?_
  rw [requireSupervisor_bind_of_supervisor (s := s.start) hs, Exec.bind_of_ok h, writeSrWord_bind, updating_apply,
    hregs, hcfg]
  dsimp only
  rw [htrace]
  split_ifs
  · rw [← hrunState]
    rfl
  · rfl

/-- Settles O53. -/
theorem supervisorInstructions : Obligations.SupervisorInstructions := by
  intro s hs mask
  have hsup : ∀ k : Unit → Exec Unit, (requireSupervisor >>= k) s.start = k () s.start := fun _ =>
    requireSupervisor_bind_of_supervisor hs
  refine ⟨fun y => ⟨complete_registers (d := s.draws) (hsup _), complete_registers (d := s.draws) (hsup _)⟩,
    fun w t hw => ?_, ?_, fun hword hlong => ?_⟩
  · obtain ⟨_, _, _, hm⟩ := fetch16_eq_ok hw
    obtain ⟨hcontrol, hmemory⟩ := charge_same hm (s.regs.withSr (Sr.ofWord s.cfg.srT0Stored w))
      (if s.hid.tracePending then s.run else .stopped)
    exact ⟨_, _, exec_stop_of_fetch hs hw, Sr.toWord_ofWord _ _, rfl, rfl, rfl, hcontrol, hmemory⟩
  · obtain ⟨hcontrol, hmemory⟩ := charge_same (.refl s.start) s.regs .halted
    exact ⟨_, complete_of_ok (hsup _), rfl, rfl, rfl, hcontrol, hmemory⟩
  · obtain ⟨w1, hread1, hw1, _⟩ := readMem_of_measured (r := s.regs) (.refl s.start) hword
    obtain ⟨w2, hread2, hw2, _⟩ := readMem_of_measured hw1 hlong
    let g := Sr.ofWord s.cfg.srT0Stored (s.memValue .w s.regs.ssp)
    have hrun : returnFromException s.start = .ok () { w2 with
        regs := { s.regs with ssp := s.regs.ssp + 6, sr := g }, pc := s.memValue .l (s.regs.ssp + 2) } := by
      have hcfg : w2.cfg = s.cfg := hw2.cfg
      simp only [returnFromException, reading_bind, State.start_regs]
      rw [Exec.bind_of_ok hread1, Exec.bind_of_ok hread2, updating_bind, writeSrWord_bind, jumpTo_apply]
      simp only [hw2.regs, hcfg]
      rfl
    have hm : Measured { s.start with regs := { s.regs with ssp := s.regs.ssp + 6, sr := g } } { w2 with
        regs := { s.regs with ssp := s.regs.ssp + 6, sr := g }, pc := s.memValue .l (s.regs.ssp + 2) } := by
      obtain ⟨_, ext, ops, dev, rfl⟩ := hw2
      exact ⟨_, ext, ops, dev, rfl⟩
    obtain ⟨u, hu, hchanges⟩ := complete_leaves (d := s.draws) ((hsup (fun _ => returnFromException)).trans hrun) hm rfl
    exact ⟨g, u, hu, Sr.toWord_ofWord _ _, hchanges⟩

end Sys2Proof.Machine
end

section
/-! Lists of registers and of bytes moved to and from memory: MOVEM (O42, O43) and MOVEP (O44). -/

namespace Sys2Proof.Machine

open Sys2Proof.Config

/-! ## The registers of a list -/

theorem RegFile.getListed_setListed (r : RegFile) (i j : Fin 16) (v : Long) :
    (r.setListed i v).getListed j = if j = i then v else r.getListed j := by
  by_cases hij : j = i
  · subst hij
    rw [if_pos rfl]
    unfold RegFile.setListed RegFile.getListed
    split
    · exact RegFile.getD_setD_same ..
    · exact RegFile.getA_setA_same ..
  · rw [if_neg hij]
    have hval : i.val ≠ j.val := fun h => hij (Fin.ext h.symm)
    unfold RegFile.setListed RegFile.getListed
    split <;> split
    · exact RegFile.getD_setD_ne _ _ fun h => hval (by injection h)
    · exact RegFile.getD_setA ..
    · exact RegFile.getA_setD ..
    · exact RegFile.getA_setA_ne _ _ fun h => by
        injection h
        omega

theorem RegFile.setListed_sr (r : RegFile) (i : Fin 16) (v : Long) : (r.setListed i v).sr = r.sr := by
  unfold RegFile.setListed
  split
  · rfl
  · exact RegFile.setA_sr ..

/-- Only register 15 of a list is a stack pointer (rule R34). -/
theorem RegFile.setListed_stacks (r : RegFile) {i : Fin 16} (v : Long) (h : i ≠ 15) :
    (r.setListed i v).ssp = r.ssp ∧ (r.setListed i v).usp = r.usp := by
  have hval : i.val ≠ 15 := fun he => h (Fin.ext he)
  unfold RegFile.setListed RegFile.setA
  split
  · exact ⟨rfl, rfl⟩
  · rw [dif_pos (by simp; omega)]
    exact ⟨rfl, rfl⟩

/-! ## Addresses in steps of the operand size -/

theorem rising_succ (a n : Long) (k : ℕ) :
    a + n + BitVec.ofNat 32 k * n = a + BitVec.ofNat 32 (k + 1) * n := by
  rw [BitVec.ofNat_add, add_mul, BitVec.one_mul, add_assoc, add_comm n]

theorem rising_zero (a n : Long) : a + BitVec.ofNat 32 0 * n = a := by simp

/-! ## Loads -/

/-- MOVEM's loads read what memory held at the start and leave memory alone (rule R254). -/
theorem loadListed_ok {s : State} {sz : Size} : ∀ (l : List (Fin 16)) (a : Long) {w : State} {r : RegFile},
    Measured { s.start with regs := r } w →
    (∀ k < l.length, s.canAccess sz (a + BitVec.ofNat 32 k * BitVec.ofNat 32 sz.bytes) = true) →
    ∃ w', loadListed sz l a w = .ok (a + BitVec.ofNat 32 l.length * BitVec.ofNat 32 sz.bytes) w' ∧
      Measured { s.start with regs := Claims.loadAll s sz l a r } w' ∧ w'.pc = w.pc
  | [], a, w, r, hm, _ => ⟨w, by rw [List.length_nil, rising_zero]; rfl, hm, rfl⟩
  | i :: rest, a, w, r, hm, hacc => by
    have hfirst : s.canAccess sz a = true := by simpa using hacc 0 (by simp)
    obtain ⟨w1, hread, hw1, hpc1⟩ := readMem_of_measured hm hfirst
    have hrest : ∀ k < rest.length, s.canAccess sz (a + BitVec.ofNat 32 sz.bytes +
        BitVec.ofNat 32 k * BitVec.ofNat 32 sz.bytes) = true := fun k hk => by
      rw [rising_succ]
      exact hacc (k + 1) (by simpa using hk)
    obtain ⟨w2, hload, hw2, hpc2⟩ := loadListed_ok (s := s) rest (a + BitVec.ofNat 32 sz.bytes)
      (hw1.withRegs (r.setListed i ((s.memValue sz a).signExtend 32))) hrest
    refine ⟨w2, ?_, hw2, hpc2.trans hpc1⟩
    rw [loadListed, Exec.bind_of_ok hread, updating_bind, hw1.regs, hload, rising_succ, List.length_cons]

/-- Settles O43. -/
theorem movemLoads : Obligations.MovemLoads := by
  refine ⟨fun r i j v => ⟨RegFile.getListed_setListed .., RegFile.setListed_sr ..,
    RegFile.setListed_stacks r v, rfl⟩, ?_⟩
  intro sz s s1 mask hmask n l
  obtain ⟨_, _, _, hm1⟩ := fetch16_eq_ok hmask
  refine ⟨fun ea t a hea h hacc => ?_, ?_⟩
  · have hm := (hm1.withRegs (s.regs.bump ea .l)).trans (hm1.regs ▸ resolve_eq_ok h)
    obtain ⟨w, hload, hw, hpc⟩ := loadListed_ok (s := s) (movemList mask) a hm hacc
    refine complete_leaves (d := s.draws) ?_ hw hpc
    rw [Exec.bind_of_ok hmask]
    have hrun : (do
        let a ← addressOf ea
        let _ ← loadListed sz.toSize (movemList mask) a
        return () : Exec Unit) s1 = .ok () w := by
      rw [Exec.bind_of_ok (addressOf_eq_ok h), Exec.bind_of_ok hload, Exec.pure_apply]
    cases ea with
    | postinc r => exact absurd rfl (hea r)
    | _ => exact hrun
  · intro r a hacc
    obtain ⟨w, hload, hw, hpc⟩ := loadListed_ok (s := s) (r := s.regs) (movemList mask) a hm1 hacc
    refine complete_leaves (d := s.draws) ?_ (hw.withRegs _) hpc
    rw [Exec.bind_of_ok hmask]
    simp only [readA_bind]
    have hregs : s1.regs = s.regs := hm1.regs
    rw [hregs, Exec.bind_of_ok hload, writeA_apply, hw.regs]
    rfl

end Sys2Proof.Machine
end

section
/-! Lists of stores: MOVEM (O42) and MOVEP (O44) to memory. -/

namespace Sys2Proof.Machine

open Sys2Proof.Config

/-! ## Accesses at the addresses of RAM -/

/-- The operand at `a` is RAM at its own address, neither mirrored nor in a device window (rules R81, R91). -/
def State.lowRam (s : State) (sz : Size) (a : Long) : Prop :=
  s.cfg.memoryOk = true ∧ a.toNat + sz.bytes ≤ s.cfg.memSize

section LowRam

variable {s t : State} {sz : Size} {a : Long}

theorem State.target_low (hp : s.cfg.memoryOk = true) (ha : a.toNat < s.cfg.memSize) :
    s.target (s.extAddr a) = .ram a.toNat ∧ s.isDevice a = false := by
  obtain ⟨_, hhigh, _, hbits⟩ := (Params.memoryOk_iff _).1 hp
  have hpow : 2 ^ 24 ≤ 2 ^ s.cfg.addrBits := Nat.pow_le_pow_right (by decide) hbits
  have hext : s.extAddr a = a.toNat := Nat.mod_eq_of_lt (by omega)
  have hym : inYmWindow a.toNat = false := by simp [inYmWindow]; omega
  have hpaula : inPaulaWindow a.toNat = false := by simp [inPaulaWindow]; omega
  rw [State.isDevice, hext, State.target, hym, hpaula]
  simp [ha]

theorem State.toNat_add_two (hp : s.cfg.memoryOk = true) (ha : a.toNat + 4 ≤ s.cfg.memSize) :
    (a + 2).toNat = a.toNat + 2 := by
  obtain ⟨_, hhigh, _, _⟩ := (Params.memoryOk_iff _).1 hp
  rw [BitVec.toNat_add]
  exact Nat.mod_eq_of_lt (by show a.toNat + 2 < 2 ^ 32; omega)

theorem State.wordCells_low (hp : s.cfg.memoryOk = true) (ha : a.toNat < s.cfg.memSize) :
    s.wordCells a = [a.toNat, a.toNat + 1] := by
  rw [State.wordCells, (State.target_low hp ha).1]

theorem State.lowRam.cellsOf (h : s.lowRam sz a) : s.cellsOf sz a = List.range' a.toNat sz.bytes := by
  obtain ⟨hp, ha⟩ := h
  cases sz with
  | b => rw [State.cellsOf, (State.target_low hp ha).1]; rfl
  | w => exact State.wordCells_low hp (Nat.lt_of_lt_of_le (by simp [Size.bytes]) ha)
  | l =>
    simp only [Size.bytes] at ha
    have h2 := State.toNat_add_two hp ha
    rw [State.cellsOf, State.wordCells_low hp (by omega), State.wordCells_low hp (by omega), h2]
    rfl

theorem State.lowRam.mem_cellsOf (h : s.lowRam sz a) (e : ℕ) :
    e ∈ s.cellsOf sz a ↔ a.toNat ≤ e ∧ e < a.toNat + sz.bytes := by
  rw [h.cellsOf, List.mem_range'_1]

theorem State.lowRam.inRam (h : s.lowRam sz a) : s.inRam sz a = true := by
  obtain ⟨hp, ha⟩ := h
  cases sz with
  | b => simp [State.inRam, (State.target_low hp ha).2]
  | w =>
    have hlt : a.toNat < s.cfg.memSize := Nat.lt_of_lt_of_le (by simp [Size.bytes]) ha
    simp [State.inRam, (State.target_low hp hlt).2]
  | l =>
    simp only [Size.bytes] at ha
    have h2 := State.toNat_add_two hp ha
    have hlow := (State.target_low (a := a) hp (by omega)).2
    have hlow2 := (State.target_low (a := a + 2) hp (by omega)).2
    rw [State.inRam, hlow, hlow2]
    rfl

/-- What RAM answers depends only on the bytes of the operand. -/
theorem State.lowRam.memValue_congr (h : s.lowRam sz a) (hc : t.cfg = s.cfg)
    (hread : ∀ e, a.toNat ≤ e → e < a.toNat + sz.bytes → Memory.read t.mem e = Memory.read s.mem e) :
    t.memValue sz a = s.memValue sz a := by
  obtain ⟨hp, ha⟩ := h
  have hword : ∀ b : Long, a.toNat ≤ b.toNat → b.toNat + 2 ≤ a.toNat + sz.bytes → t.busWord b = s.busWord b := by
    intro b hlow hhigh
    have hs := (State.target_low (s := s) (a := b) hp (by omega)).1
    have ht : t.target (t.extAddr b) = .ram b.toNat := by rw [State.extAddr_congr hc, State.target_congr hc, hs]
    rw [State.busWord_ram hs, State.busWord_ram ht, hread _ hlow (by omega), hread _ (by omega) (by omega)]
  cases sz with
  | b =>
    have hs := (State.target_low (s := s) hp ha).1
    have ht : t.target (t.extAddr a) = .ram a.toNat := by rw [State.extAddr_congr hc, State.target_congr hc, hs]
    rw [State.memValue, State.memValue, State.busByte_ram hs, State.busByte_ram ht,
      hread _ (Nat.le_refl _) (by simp [Size.bytes])]
  | w => rw [State.memValue, State.memValue, hword a (Nat.le_refl _) (Nat.le_refl _)]
  | l =>
    have h2 := State.toNat_add_two hp ha
    rw [State.memValue, State.memValue, hword a (Nat.le_refl _) (by simp [Size.bytes]),
      hword (a + 2) (by omega) (by simp [Size.bytes]; omega)]

theorem State.lowRam.congr (h : s.lowRam sz a) (hc : t.cfg = s.cfg) : t.lowRam sz a := by
  rwa [State.lowRam, hc]

end LowRam

/-- A store in RAM reads back, and leaves the engines alone. -/
theorem StoresAt.low {s t : State} {sz : Size} {a : Long} {v : BitVec sz.bits} (h : StoresAt s t sz a v)
    (hlow : s.lowRam sz a) : t.memValue sz a = v ∧ t.ym = s.ym ∧ t.paula = s.paula :=
  ⟨h.value hlow.inRam (hlow.cellsOf ▸ List.nodup_range'), h.ym hlow.inRam, h.paula hlow.inRam⟩

/-! ## A list of stores -/

/-- The stores of a list, one after the other: each value at its address. -/
inductive Stored {sz : Size} : List (Long × BitVec sz.bits) → State → State → Prop where
  | nil (s : State) : Stored [] s s
  | cons {a : Long} {v : BitVec sz.bits} {l : List (Long × BitVec sz.bits)} {s t u : State}
      (first : writeMem sz a v s = .ok () t) (rest : Stored l t u) : Stored ((a, v) :: l) s u

/-- Two operands of the list share no byte. -/
def Apart (sz : Size) (x y : Long × BitVec sz.bits) : Prop :=
  x.1.toNat + sz.bytes ≤ y.1.toNat ∨ y.1.toNat + sz.bytes ≤ x.1.toNat

section Stored

variable {sz : Size} {l : List (Long × BitVec sz.bits)} {s u : State}

/-- A list of stores changes memory, the engines and the count of device writes alone. -/
theorem Stored.eq (h : Stored l s u) :
    ∃ m y p dev, u = { s with mem := m, ym := y, paula := p, hid := { s.hid with devSeq := dev } } := by
  induction h with
  | nil s => exact ⟨s.mem, s.ym, s.paula, s.hid.devSeq, rfl⟩
  | cons first _ ih =>
    obtain ⟨_, _, _, _, _, _, rfl⟩ := writeMem_eq_ok first
    obtain ⟨m, y, p, dev, rfl⟩ := ih
    exact ⟨m, y, p, dev, rfl⟩

theorem Stored.cfg (h : Stored l s u) : u.cfg = s.cfg := by
  obtain ⟨_, _, _, _, rfl⟩ := h.eq
  rfl

theorem Stored.regs (h : Stored l s u) : u.regs = s.regs := by
  obtain ⟨_, _, _, _, rfl⟩ := h.eq
  rfl

theorem Stored.pc (h : Stored l s u) : u.pc = s.pc := by
  obtain ⟨_, _, _, _, rfl⟩ := h.eq
  rfl

theorem exists_stored (l : List (Long × BitVec sz.bits)) {s : State} (h : ∀ x ∈ l, s.canAccess sz x.1 = true) :
    ∃ u, Stored l s u := by
  induction l generalizing s with
  | nil => exact ⟨s, .nil s⟩
  | cons x l ih =>
    obtain ⟨m, ym, p, dev, hwrite, _⟩ := writeMem_ok (h x List.mem_cons_self) x.2
    obtain ⟨u, hu⟩ := ih (s := { s with mem := m, ym := ym, paula := p, hid := { s.hid with devSeq := dev } })
      fun y hy => h y (List.mem_cons_of_mem _ hy)
    exact ⟨u, .cons hwrite hu⟩

/-- Every byte outside the operands of the list is kept. -/
theorem Stored.frame (h : Stored l s u) {e : ℕ} (he : ∀ x ∈ l, e ∉ s.cellsOf sz x.1) :
    Memory.read u.mem e = Memory.read s.mem e := by
  induction h with
  | nil => rfl
  | cons first _ ih =>
    obtain ⟨_, hstores, _, _, _, _, rfl⟩ := writeMem_eq_ok first
    exact (ih fun x hx => he x (List.mem_cons_of_mem _ hx)).trans (hstores.frame e (he _ List.mem_cons_self))

/-- Stores in RAM leave the engines alone. -/
theorem Stored.engines (h : Stored l s u) (hlow : ∀ x ∈ l, s.lowRam sz x.1) : u.ym = s.ym ∧ u.paula = s.paula := by
  induction h with
  | nil => exact ⟨rfl, rfl⟩
  | cons first _ ih =>
    obtain ⟨_, hstores, _, _, _, _, rfl⟩ := writeMem_eq_ok first
    obtain ⟨_, hym, hpaula⟩ := hstores.low (hlow _ List.mem_cons_self)
    obtain ⟨hym', hpaula'⟩ := ih fun x hx => hlow x (List.mem_cons_of_mem _ hx)
    exact ⟨hym'.trans hym, hpaula'.trans hpaula⟩

/-- Stores in RAM that share no byte all read back. -/
theorem Stored.value (h : Stored l s u) (hlow : ∀ x ∈ l, s.lowRam sz x.1) (hapart : l.Pairwise (Apart sz)) :
    ∀ x ∈ l, u.memValue sz x.1 = x.2 := by
  induction h with
  | nil => exact fun x hx => absurd hx (by simp)
  | @cons a v l s t u first rest ih =>
    obtain ⟨_, hstores, hcfg⟩ := writeMem_eq_ok first
    replace hcfg : t.cfg = s.cfg := by
      obtain ⟨_, _, _, _, rfl⟩ := hcfg
      rfl
    obtain ⟨hfirst, hrest⟩ := List.pairwise_cons.1 hapart
    have hlow' : ∀ x ∈ l, t.lowRam sz x.1 := fun x hx => (hlow x (List.mem_cons_of_mem _ hx)).congr hcfg
    have hhead := hlow _ List.mem_cons_self
    refine List.forall_mem_cons.2 ⟨?_, ih hlow' hrest⟩
    refine ((hhead.congr hcfg).memValue_congr rest.cfg fun e hge hlt => rest.frame fun x hx hmem => ?_).trans
      (hstores.low hhead).1
    obtain ⟨hge', hlt'⟩ := ((hlow' x hx).mem_cellsOf e).1 hmem
    rcases hfirst x hx with hbelow | habove
    · exact absurd hlt (by omega)
    · exact absurd hlt' (by omega)

theorem stored_nil : Stored (sz := sz) [] s u ↔ u = s :=
  ⟨fun h => by cases h; rfl, fun h => by rw [h]; exact .nil s⟩

theorem stored_cons {a : Long} {v : BitVec sz.bits} :
    Stored ((a, v) :: l) s u ↔ ∃ t, writeMem sz a v s = .ok () t ∧ Stored l t u :=
  ⟨fun h => by cases h with | cons first rest => exact ⟨_, first, rest⟩,
    fun ⟨_, first, rest⟩ => .cons first rest⟩

end Stored

/-- The step from `s` to `t` leaves pc at `p` and the registers `r`, has stored the values of `l` at their addresses, and
changes nothing else but cycles and the measures of the instruction in hand. -/
structure StoresList (s t : State) (p : Long) (r : RegFile) {sz : Size} (l : List (Long × BitVec sz.bits)) : Prop where
  pc : t.pc = p
  regs : t.regs = r
  run : t.run = s.run
  control : SameControl s t
  frame : ∀ e, (∀ x ∈ l, e ∉ s.cellsOf sz x.1) → Memory.read t.mem e = Memory.read s.mem e
  engines : (∀ x ∈ l, s.lowRam sz x.1) → t.ym = s.ym ∧ t.paula = s.paula
  value : (∀ x ∈ l, s.lowRam sz x.1) → l.Pairwise (Apart sz) → ∀ x ∈ l, t.memValue sz x.1 = x.2

/-- A rule that, from a measured state with registers `r`, stores a list to memory and leaves the registers `r'`. -/
theorem complete_storesList {body : Exec Unit} {s w : State} {r r' : RegFile} {p : Long} {sz : Size}
    {l : List (Long × BitVec sz.bits)} (hm : Measured { s.start with regs := r } w)
    (hacc : ∀ x ∈ l, s.canAccess sz x.1 = true) (hpc : w.pc = p)
    (hk : ∀ y : State, Stored l w y → y.regs = r → body s.start = .ok () { y with regs := r' }) :
    ∃ u, complete body s = .next u ∧ StoresList s u p r' l := by
  obtain ⟨y, hy⟩ := exists_stored l (s := w) fun x hx => (hm.canAccess sz x.1).trans (hacc x hx)
  have hcfg : w.cfg = s.cfg := hm.cfg
  have hmem : w.mem = s.mem := hm.mem
  have hcells : ∀ a, w.cellsOf sz a = s.cellsOf sz a := State.cellsOf_congr hcfg sz
  have hlow : (∀ x ∈ l, s.lowRam sz x.1) → ∀ x ∈ l, w.lowRam sz x.1 := fun h x hx =>
    (h x hx).congr hcfg
  refine ⟨_, complete_of_ok (hk y hy (hy.regs.trans hm.regs)), ⟨hy.pc.trans hpc, rfl, ?_, ?_, ?_, fun h => ?_, ?_⟩⟩
  · obtain ⟨_, _, _, _, rfl⟩ := hy.eq
    exact hm.run
  · obtain ⟨_, _, _, _, rfl⟩ := hy.eq
    refine ⟨hm.cfg, hm.inGroup0, hm.group0Handler, hm.irq, hm.out, hm.pc0, hm.ir, hm.tracePending, ?_⟩
    have hcycles : w.cycles = s.cycles := hm.cycles
    exact hcycles ▸ State.charge_cycles_lt _
  · intro e he
    exact (hy.frame fun x hx => by rw [hcells]; exact he x hx).trans (congrArg (Memory.read · e) hmem)
  · exact (hy.engines (hlow h)).imp (·.trans hm.ym) (·.trans hm.paula)
  · exact fun h hapart x hx => (State.memValue_congr (s := y) rfl rfl rfl rfl sz x.1).trans (hy.value (hlow h) hapart x hx)

end Sys2Proof.Machine
end

section
/-! MOVEM to memory (O42) and MOVEP (O44). -/

namespace Sys2Proof.Machine

open Sys2Proof.Config

/-! ## Stores at rising and at falling addresses -/

/-- The values at rising addresses from `a` on (rule R253). -/
def risingStores (sz : Size) : List (BitVec sz.bits) → Long → List (Long × BitVec sz.bits)
  | [], _ => []
  | v :: vs, a => (a, v) :: risingStores sz vs (a + BitVec.ofNat 32 sz.bytes)

/-- The values at falling addresses below `a` (rule R253, the -(An) form). -/
def fallingStores (sz : Size) : List (BitVec sz.bits) → Long → List (Long × BitVec sz.bits)
  | [], _ => []
  | v :: vs, a => (a - BitVec.ofNat 32 sz.bytes, v) :: fallingStores sz vs (a - BitVec.ofNat 32 sz.bytes)

section Orders

variable {sz : Size} {s : State} {p : Long} {r : RegFile}

theorem length_risingStores (vs : List (BitVec sz.bits)) (a : Long) : (risingStores sz vs a).length = vs.length := by
  induction vs generalizing a with
  | nil => rfl
  | cons v vs ih => simp [risingStores, ih]

theorem getElem_risingStores (vs : List (BitVec sz.bits)) (a : Long) (k : ℕ) (h : k < (risingStores sz vs a).length) :
    (risingStores sz vs a)[k] =
      (a + BitVec.ofNat 32 k * BitVec.ofNat 32 sz.bytes, vs[k]'(length_risingStores vs a ▸ h)) := by
  induction vs generalizing a k with
  | nil => exact absurd h (by simp [risingStores])
  | cons v vs ih =>
    cases k with
    | zero => rw [rising_zero]; rfl
    | succ k =>
      simp only [risingStores, List.getElem_cons_succ]
      rw [ih, rising_succ]

theorem forall_risingStores {P : Long → Prop} {vs : List (BitVec sz.bits)} {a : Long}
    (h : ∀ k < vs.length, P (a + BitVec.ofNat 32 k * BitVec.ofNat 32 sz.bytes)) :
    ∀ x ∈ risingStores sz vs a, P x.1 := by
  intro x hx
  obtain ⟨k, hk, rfl⟩ := List.mem_iff_getElem.1 hx
  rw [getElem_risingStores]
  exact h k (length_risingStores vs a ▸ hk)

theorem risingStores_append (vs : List (BitVec sz.bits)) (v : BitVec sz.bits) (a : Long) :
    risingStores sz (vs ++ [v]) a =
      risingStores sz vs a ++ [(a + BitVec.ofNat 32 vs.length * BitVec.ofNat 32 sz.bytes, v)] := by
  induction vs generalizing a with
  | nil => simp [risingStores]
  | cons w vs ih => simp only [risingStores, List.cons_append, ih, rising_succ, List.length_cons]

theorem falling_succ (a n : Long) (k : ℕ) :
    a - n - BitVec.ofNat 32 k * n = a - BitVec.ofNat 32 (k + 1) * n := by
  rw [BitVec.ofNat_add, add_mul, BitVec.one_mul, sub_sub, add_comm n]

/-- The stores below `a` are the stores from the lowest address on, in the opposite order. -/
theorem fallingStores_eq (vs : List (BitVec sz.bits)) (a : Long) :
    fallingStores sz vs a =
      (risingStores sz vs.reverse (a - BitVec.ofNat 32 vs.length * BitVec.ofNat 32 sz.bytes)).reverse := by
  induction vs generalizing a with
  | nil => rfl
  | cons v vs ih =>
    have hbase : a - BitVec.ofNat 32 (vs.length + 1) * BitVec.ofNat 32 sz.bytes =
        a - BitVec.ofNat 32 sz.bytes - BitVec.ofNat 32 vs.length * BitVec.ofNat 32 sz.bytes := (falling_succ ..).symm
    rw [fallingStores, ih, List.reverse_cons, List.length_cons, hbase, risingStores_append, List.reverse_append,
      List.length_reverse, BitVec.sub_add_cancel]
    rfl

/-- Where the operands from `a` on do not pass the end of RAM, each lies at its own address. -/
theorem toNat_rising {a : Long} {k count : ℕ} (hp : s.cfg.memoryOk = true) (hk : k < count)
    (hroom : a.toNat + count * sz.bytes ≤ s.cfg.memSize) :
    (a + BitVec.ofNat 32 k * BitVec.ofNat 32 sz.bytes).toNat = a.toNat + k * sz.bytes ∧
      k * sz.bytes + sz.bytes ≤ count * sz.bytes := by
  obtain ⟨_, hhigh, _, _⟩ := (Params.memoryOk_iff _).1 hp
  have hstep : k * sz.bytes + sz.bytes ≤ count * sz.bytes := by
    rw [← Nat.succ_mul]
    exact Nat.mul_le_mul_right _ hk
  refine ⟨?_, hstep⟩
  rw [← BitVec.ofNat_mul, BitVec.toNat_add, BitVec.toNat_ofNat, Nat.mod_eq_of_lt (a := k * _) (by omega)]
  exact Nat.mod_eq_of_lt (by omega)

theorem risingStores_lowRam {vs : List (BitVec sz.bits)} {a : Long} (hp : s.cfg.memoryOk = true)
    (hroom : a.toNat + vs.length * sz.bytes ≤ s.cfg.memSize) : ∀ x ∈ risingStores sz vs a, s.lowRam sz x.1 := by
  refine forall_risingStores fun k hk => ?_
  obtain ⟨haddr, hstep⟩ := toNat_rising hp hk hroom
  exact ⟨hp, by rw [haddr]; omega⟩

theorem risingStores_apart {vs : List (BitVec sz.bits)} {a : Long} (hp : s.cfg.memoryOk = true)
    (hroom : a.toNat + vs.length * sz.bytes ≤ s.cfg.memSize) : (risingStores sz vs a).Pairwise (Apart sz) := by
  refine List.pairwise_iff_getElem.2 fun i j hi hj hij => .inl ?_
  rw [length_risingStores] at hi hj
  obtain ⟨hj', _⟩ := toNat_rising hp hj hroom
  obtain ⟨hi', _⟩ := toNat_rising hp hi hroom
  obtain ⟨_, hstep⟩ := toNat_rising (sz := sz) (count := j) (a := a) hp hij (by omega)
  rw [getElem_risingStores, getElem_risingStores, hi', hj']
  omega

/-- A rule that, from a measured state with registers `r`, stores the registers of a list from `a` on, in either order, and
leaves the registers `r'`. -/
theorem complete_listed {body : Exec Unit} {w : State} {r' q : RegFile} {a : Long}
    {stores : List (Long × BitVec sz.bits)} (l : List (Fin 16)) (hm : Measured { s.start with regs := r } w)
    (hperm : stores.Perm (risingStores sz (l.map fun i => (q.getListed i).setWidth sz.bits) a))
    (hacc : ∀ k < l.length, s.canAccess sz (a + BitVec.ofNat 32 k * BitVec.ofNat 32 sz.bytes) = true) (hpc : w.pc = p)
    (hk : ∀ y : State, Stored stores w y → y.regs = r → body s.start = .ok () { y with regs := r' }) :
    ∃ u, complete body s = .next u ∧ u.pc = p ∧ u.regs = r' ∧ u.run = s.run ∧ SameControl s u ∧
      (∀ e, (∀ k < l.length, e ∉ s.cellsOf sz (a + BitVec.ofNat 32 k * BitVec.ofNat 32 sz.bytes)) →
        Memory.read u.mem e = Memory.read s.mem e) ∧
      (s.cfg.memoryOk = true → a.toNat + l.length * sz.bytes ≤ s.cfg.memSize → u.ym = s.ym ∧ u.paula = s.paula ∧
        ∀ (k : ℕ) (hk : k < l.length), u.memValue sz (a + BitVec.ofNat 32 k * BitVec.ofNat 32 sz.bytes) =
          (q.getListed l[k]).setWidth sz.bits) := by
  have hacc' : ∀ x ∈ stores, s.canAccess sz x.1 = true := fun x hx =>
    forall_risingStores (P := fun b => s.canAccess sz b = true) (fun k hk => hacc k (by simpa using hk)) x
      (hperm.mem_iff.1 hx)
  obtain ⟨u, hu, h⟩ := complete_storesList hm hacc' hpc hk
  have hlen := length_risingStores (sz := sz) (l.map fun i => (q.getListed i).setWidth sz.bits) a
  rw [List.length_map] at hlen
  refine ⟨u, hu, h.pc, h.regs, h.run, h.control, fun e he => h.frame e fun x hx => ?_, fun hp hroom => ?_⟩
  · exact forall_risingStores (P := (e ∉ s.cellsOf sz ·)) (fun k hk => he k (by simpa using hk)) x (hperm.mem_iff.1 hx)
  · have hroom' : a.toNat + (l.map fun i => (q.getListed i).setWidth sz.bits).length * sz.bytes ≤ s.cfg.memSize := by
      rwa [List.length_map]
    have hlow : ∀ x ∈ stores, s.lowRam sz x.1 := fun x hx => risingStores_lowRam hp hroom' x (hperm.mem_iff.1 hx)
    have hapart : stores.Pairwise (Apart sz) :=
      (hperm.pairwise_iff fun {x y} (hxy : Apart sz x y) => hxy.symm).2 (risingStores_apart hp hroom')
    obtain ⟨hym, hpaula⟩ := h.engines hlow
    refine ⟨hym, hpaula, fun k hk => ?_⟩
    have hmem := hperm.mem_iff.2 (List.getElem_mem (hlen ▸ hk))
    have := h.value hlow hapart _ hmem
    simpa only [getElem_risingStores, List.getElem_map] using this

end Orders

/-! ## MOVEM to memory -/

section Listed

variable {sz : Size} {r : RegFile}

theorem storeListed_ok : ∀ (l : List (Fin 16)) (a : Long) {s t : State}, s.regs = r →
    Stored (risingStores sz (l.map fun i => (r.getListed i).setWidth sz.bits) a) s t → storeListed sz l a s = .ok () t
  | [], _, _, _, _, h => by cases stored_nil.1 h; rfl
  | i :: rest, a, s, t, hregs, h => by
    obtain ⟨w, hwrite, hrest⟩ := stored_cons.1 h
    have hw : w.regs = s.regs := (Stored.cons hwrite (.nil w)).regs
    rw [storeListed, reading_bind, hregs, Exec.bind_of_ok hwrite]
    exact storeListed_ok rest _ (hw.trans hregs) hrest

theorem storeListedDown_ok : ∀ (l : List (Fin 16)) (a : Long) {s t : State}, s.regs = r →
    Stored (fallingStores sz (l.map fun i => (r.getListed i).setWidth sz.bits) a) s t →
    storeListedDown sz l a s = .ok (a - BitVec.ofNat 32 l.length * BitVec.ofNat 32 sz.bytes) t
  | [], a, _, _, _, h => by
    cases stored_nil.1 h
    simp [storeListedDown]
  | i :: rest, a, s, t, hregs, h => by
    obtain ⟨w, hwrite, hrest⟩ := stored_cons.1 h
    have hw : w.regs = s.regs := (Stored.cons hwrite (.nil w)).regs
    rw [storeListedDown, reading_bind, hregs, Exec.bind_of_ok hwrite, storeListedDown_ok rest _ (hw.trans hregs) hrest,
      List.length_cons, falling_succ]

end Listed

/-- The mask of the -(An) form lists the registers from A7 down (rule R144). -/
theorem movemListPredec_eq (mask : Word) :
    movemListPredec mask = ((List.finRange 16).filter fun i => mask.getLsbD (15 - i.val)).reverse := by
  have hmap : (List.finRange 16).reverse = (List.finRange 16).map fun i => ⟨15 - i.val, by omega⟩ := by decide
  rw [← List.filter_reverse, hmap, List.filter_map, movemListPredec]
  refine congrArg _ (List.filter_congr fun i _ => ?_)
  have hi : 15 - (15 - i.val) = i.val := by omega
  simp only [Function.comp_apply, hi]

/-- Settles O42. -/
theorem movemStores : Obligations.MovemStores := by
  refine ⟨fun r n => ⟨fun h => ?_, fun h => ?_, rfl⟩, ?_⟩
  · rw [RegFile.getListed, dif_pos h]
    rfl
  · have hsub : 8 + n - 8 = n := by omega
    rw [RegFile.getListed, dif_neg (by simp), RegFile.getA]
    simp [hsub, h]
  intro sz s s1 mask hmask n
  obtain ⟨_, _, _, hm1⟩ := fetch16_eq_ok hmask
  have hregs1 : s1.regs = s.regs := hm1.regs
  refine ⟨?_, ?_⟩
  · intro ea t a hea h l at_ hacc
    have hm := (hm1.withRegs (s.regs.bump ea .l)).trans (hm1.regs ▸ resolve_eq_ok h)
    refine complete_listed l hm (.refl _) hacc rfl fun y hy hregs => ?_
    rw [Exec.bind_of_ok hmask]
    have hrun : (do
        let a ← addressOf ea
        storeListed sz.toSize (movemList mask) a : Exec Unit) s1 = .ok () y := by
      rw [Exec.bind_of_ok (addressOf_eq_ok h)]
      exact storeListed_ok l a hm.regs hy
    cases ea with
    | predec r => exact absurd rfl (hea r)
    | _ => exact hregs ▸ hrun
  · intro r l a at_ hacc
    let values := l.map fun i => (s.regs.getListed i).setWidth sz.toSize.bits
    have horder : fallingStores sz.toSize values.reverse (s.regs.getA r) =
        (risingStores sz.toSize values a).reverse := by
      rw [fallingStores_eq, List.reverse_reverse, List.length_reverse, List.length_map]
    refine complete_listed (r := s.regs) l hm1 (List.reverse_perm _) hacc rfl fun y hy hregs => ?_
    rw [← horder, ← List.map_reverse] at hy
    rw [Exec.bind_of_ok hmask]
    simp only [readA_bind, movemListPredec_eq]
    rw [hregs1, Exec.bind_of_ok (storeListedDown_ok (r := s.regs) l.reverse _ hregs1 hy), writeA_apply,
      List.length_reverse, hregs]

/-! ## MOVEP -/

/-- A read at `a + k` after measured steps that changed no register. -/
theorem readByte_of_measured {s w : State} {a : Long} (hm : Measured s.start w) (hacc : s.canAccess .b a = true) :
    ∃ w', readMem .b a w = .ok (s.memValue .b a) w' ∧ Measured s.start w' ∧ w'.pc = w.pc :=
  readMem_of_measured (r := s.regs) hm hacc

theorem toNat_offset {s : State} {a : Long} {n : ℕ} (hp : s.cfg.memoryOk = true) (hroom : a.toNat + n ≤ s.cfg.memSize)
    (k : Long) (hk : k.toNat < n) : (a + k).toNat = a.toNat + k.toNat := by
  obtain ⟨_, hhigh, _, _⟩ := (Params.memoryOk_iff _).1 hp
  rw [BitVec.toNat_add]
  exact Nat.mod_eq_of_lt (by omega)

/-- The bytes MOVEP stores from `a` on: every second byte, from the offsets `ks` (rule R258). -/
def movepStores (a : Long) (ks : List (Long × Byte)) : List (Long × BitVec Size.b.bits) :=
  ks.map fun x => (a + x.1, x.2)

/-- Bytes stored at different offsets in RAM all read back. -/
theorem StoresList.movep {s u : State} {p a : Long} {r : RegFile} {n : ℕ} {ks : List (Long × Byte)}
    (h : StoresList s u p r (movepStores a ks)) (hp : s.cfg.memoryOk = true) (hroom : a.toNat + n ≤ s.cfg.memSize)
    (hlt : ∀ x ∈ ks, x.1.toNat < n) (hne : ks.Pairwise fun x y => x.1.toNat ≠ y.1.toNat) :
    u.ym = s.ym ∧ u.paula = s.paula ∧ ∀ x ∈ ks, u.memValue .b (a + x.1) = x.2 := by
  have haddr : ∀ x ∈ ks, (a + x.1).toNat = a.toNat + x.1.toNat := fun x hx => toNat_offset hp hroom _ (hlt x hx)
  have hlow : ∀ x ∈ movepStores a ks, s.lowRam .b x.1 := by
    refine List.forall_mem_map.2 fun x hx => ⟨hp, ?_⟩
    have := hlt x hx
    rw [haddr x hx, Size.bytes]
    omega
  have hapart : (movepStores a ks).Pairwise (Apart .b) := by
    refine List.pairwise_map.2 (hne.imp_of_mem fun {x y} hx hy hxy => ?_)
    simp only [Apart, haddr x hx, haddr y hy, Size.bytes]
    omega
  obtain ⟨hym, hpaula⟩ := h.engines hlow
  exact ⟨hym, hpaula, List.forall_mem_map.1 (h.value hlow hapart)⟩

/-- Settles O44: two or four loads, or a list of two or four stores. -/
theorem movePeripheral : Obligations.MovePeripheral := by
  intro x y s s1 w hw a d m ok inRam
  obtain ⟨_, _, _, hm1⟩ := fetch16_eq_ok hw
  have hregs1 : s1.regs = s.regs := hm1.regs
  have ha0 : a + 0 = a := BitVec.add_zero a
  have hd : (s.regs.getD x).setWidth Size.l.bits = d := BitVec.setWidth_eq _
  refine ⟨fun h0 h2 => ?_, fun h0 h2 h4 h6 => ?_⟩
  · obtain ⟨w1, hr1, hw1, hpc1⟩ := readByte_of_measured hm1 h0
    obtain ⟨w2, hr2, hw2, hpc2⟩ := readByte_of_measured hw1 h2
    refine ⟨complete_leaves (d := s.draws) ?_ (hw2.withRegs _) (hpc2.trans hpc1), ?_⟩
    · rw [ha0] at hr1
      rw [Exec.bind_of_ok hw]
      simp only [readA_bind, hregs1]
      rw [Exec.bind_of_ok hr1, Exec.bind_of_ok hr2, writeD_apply, hw2.regs]
      simp only [m, ha0]
      rfl
    · have hstores : ∃ u, exec (.movep .wordToMem x y) s = .next u ∧
          StoresList s u s1.pc s.regs (movepStores a [(0, d.extractLsb' 8 8), (2, d.extractLsb' 0 8)]) := by
        refine complete_storesList (r := s.regs) hm1 ?_ rfl fun z hz hregs => ?_
        · exact List.forall_mem_map.2 (by simpa [ok] using And.intro h0 h2)
        · obtain ⟨z1, hz1, hrest⟩ := stored_cons.1 hz
          obtain ⟨z2, hz2, hnil⟩ := stored_cons.1 hrest
          cases stored_nil.1 hnil
          rw [ha0] at hz1
          rw [Exec.bind_of_ok hw]
          simp only [readA_bind, hregs1]
          rw [readD_bind, hregs1, hd]
          refine ((Exec.bind_of_ok hz1).trans hz2).trans ?_
          rw [← hregs]
      obtain ⟨u, hu, h⟩ := hstores
      refine ⟨u, hu, h.pc, h.regs, h.run, h.control, fun e he0 he2 => h.frame e ?_, fun ⟨hp, hroom⟩ => ?_⟩
      · exact List.forall_mem_map.2 (by simpa using And.intro he0 he2)
      · obtain ⟨hym, hpaula, hvalue⟩ := h.movep hp hroom (by simp) (by simp)
        exact ⟨hym, hpaula, by simpa using hvalue⟩
  · obtain ⟨w1, hr1, hw1, hpc1⟩ := readByte_of_measured hm1 h0
    obtain ⟨w2, hr2, hw2, hpc2⟩ := readByte_of_measured hw1 h2
    obtain ⟨w3, hr3, hw3, hpc3⟩ := readByte_of_measured hw2 h4
    obtain ⟨w4, hr4, hw4, hpc4⟩ := readByte_of_measured hw3 h6
    refine ⟨complete_leaves (d := s.draws) ?_ (hw4.withRegs _) (hpc4.trans (hpc3.trans (hpc2.trans hpc1))), ?_⟩
    · rw [ha0] at hr1
      rw [Exec.bind_of_ok hw]
      simp only [readA_bind, hregs1]
      rw [Exec.bind_of_ok hr1, Exec.bind_of_ok hr2, Exec.bind_of_ok hr3, Exec.bind_of_ok hr4, writeD_apply, hw4.regs]
      simp only [m, ha0]
      rw [mergeLow_long]
      rfl
    · have hstores : ∃ u, exec (.movep .longToMem x y) s = .next u ∧
          StoresList s u s1.pc s.regs (movepStores a [(0, d.extractLsb' 24 8), (2, d.extractLsb' 16 8),
            (4, d.extractLsb' 8 8), (6, d.extractLsb' 0 8)]) := by
        refine complete_storesList (r := s.regs) hm1 ?_ rfl fun z hz hregs => ?_
        · exact List.forall_mem_map.2 (by simpa [ok] using And.intro h0 (And.intro h2 (And.intro h4 h6)))
        · obtain ⟨z1, hz1, hrest⟩ := stored_cons.1 hz
          obtain ⟨z2, hz2, hrest⟩ := stored_cons.1 hrest
          obtain ⟨z3, hz3, hrest⟩ := stored_cons.1 hrest
          obtain ⟨z4, hz4, hnil⟩ := stored_cons.1 hrest
          cases stored_nil.1 hnil
          rw [ha0] at hz1
          rw [Exec.bind_of_ok hw]
          simp only [readA_bind, hregs1]
          rw [readD_bind, hregs1, hd]
          refine ((Exec.bind_of_ok hz1).trans ((Exec.bind_of_ok hz2).trans ((Exec.bind_of_ok hz3).trans hz4))).trans ?_
          rw [← hregs]
      obtain ⟨u, hu, h⟩ := hstores
      refine ⟨u, hu, h.pc, h.regs, h.run, h.control, fun e he0 he2 he4 he6 => h.frame e ?_, fun ⟨hp, hroom⟩ => ?_⟩
      · exact List.forall_mem_map.2 (by simpa using And.intro he0 (And.intro he2 (And.intro he4 he6)))
      · obtain ⟨hym, hpaula, hvalue⟩ := h.movep hp hroom (by simp) (by simp)
        exact ⟨hym, hpaula, by simpa using hvalue⟩

end Sys2Proof.Machine
end

section
/-! Interrupts (O8): the request, the edge of level 7, and the entry of an exception with a short frame. -/

namespace Sys2Proof.Machine

open Sys2Proof.Config

/-! ## The request -/

theorem irqLevelAt_append (levels : List (ℕ × BitVec 3)) (b c : ℕ) (l : BitVec 3) :
    irqLevelAt (levels ++ [(b, l)]) c = if b ≤ c then l else irqLevelAt levels c := by
  rw [irqLevelAt, List.foldl_append]
  rfl

/-- The level changes only at a breakpoint (rule R581). -/
theorem irqLevelAt_pred {levels : List (ℕ × BitVec 3)} {c : ℕ} (hpos : 0 < c) (h : ∀ e ∈ levels, e.1 ≠ c) :
    irqLevelAt levels c = irqLevelAt levels (c - 1) := by
  refine List.foldl_ext _ _ _ fun l e he => ?_
  have hne := h e he
  have hiff : e.1 ≤ c ↔ e.1 ≤ c - 1 := by omega
  simp only [hiff]

theorem irqRises_iff (levels : List (ℕ × BitVec 3)) (a b : ℕ) : irqRises levels a b = true ↔
    ∃ c, a < c ∧ c ≤ b ∧ irqLevelAt levels c = 7 ∧ irqLevelAt levels (c - 1) ≠ 7 := by
  simp only [irqRises, List.any_eq_true, Bool.and_eq_true, decide_eq_true_eq]
  constructor
  · rintro ⟨e, _, ⟨⟨hlow, hhigh⟩, hseven⟩, hbefore⟩
    exact ⟨e.1, hlow, hhigh, hseven, hbefore⟩
  · rintro ⟨c, hlow, hhigh, hseven, hbefore⟩
    have hpoint : ∃ e ∈ levels, e.1 = c := by
      by_contra hnone
      have hsame := irqLevelAt_pred (levels := levels) (c := c) (by omega) fun e he hc => hnone ⟨e, he, hc⟩
      exact hbefore (hsame ▸ hseven)
    obtain ⟨e, he, rfl⟩ := hpoint
    exact ⟨e, he, ⟨⟨hlow, hhigh⟩, hseven⟩, hbefore⟩

/-- A bit of two fields is set in both when their conjunction is not zero. -/
theorem extract_and_ne_zero (u v : BitVec 15) : u.extractLsb' 7 4 &&& v.extractLsb' 7 4 ≠ 0 ↔
    ∃ x : Fin 4, u.getLsbD (7 + x.val) = true ∧ v.getLsbD (7 + x.val) = true := by
  constructor
  · intro hne
    by_contra hnone
    refine hne (BitVec.eq_of_getLsbD_eq fun i hi => ?_)
    have hbit : ¬ (u.getLsbD (7 + i) = true ∧ v.getLsbD (7 + i) = true) := fun h => hnone ⟨⟨i, hi⟩, h⟩
    simpa [BitVec.getLsbD_and, BitVec.getLsbD_extractLsb', hi] using hbit
  · rintro ⟨x, hu, hv⟩ hzero
    have hbit := congrArg (BitVec.getLsbD · x.val) hzero
    simp [hu, hv] at hbit

theorem Paula.irqLevel_eq (q : Paula) (on : Bool) : q.irqLevel on =
    if on = true ∧ q.intena.getLsbD 14 = true ∧
      ∃ x : Fin 4, q.intena.getLsbD (7 + x.val) = true ∧ q.intreq.getLsbD (7 + x.val) = true then 4 else 0 := by
  simp only [Paula.irqLevel, Bool.and_eq_true, decide_eq_true_eq, extract_and_ne_zero, and_assoc]

theorem State.toNat_ipl (s : State) : s.ipl.toNat =
    max (irqLevelAt s.cfg.irqLevels s.cycles).toNat (s.paula.irqLevel s.cfg.paulaIrq).toNat := by
  unfold State.ipl
  simp only [BitVec.ult, decide_eq_true_eq]
  split <;> omega

theorem IrqAnswer.toNat_vectorOf_autovector (l : BitVec 3) :
    (IrqAnswer.vectorOf l .autovector).toNat = 24 + l.toNat := by
  have hl := l.isLt
  have h24 : (24 : Byte).toNat = 24 := rfl
  rw [IrqAnswer.vectorOf, BitVec.toNat_add, BitVec.toNat_setWidth, h24]
  omega

/-! ## An entry with a short frame -/

/-- Even RAM at its own address can be read and written. -/
theorem State.lowRam.canAccess {s : State} {sz : Size} {a : Long} (h : s.lowRam sz a) (heven : isOdd a = false) :
    s.canAccess sz a = true := by
  obtain ⟨hp, ha⟩ := h
  have hmapped : ∀ b : Long, b.toNat < s.cfg.memSize → s.target (s.extAddr b) ≠ .unmapped := fun b hb => by
    rw [(State.target_low hp hb).1]
    exact fun h => by cases h
  cases sz with
  | b => simpa [State.canAccess] using hmapped a ha
  | w =>
    have := hmapped a (Nat.lt_of_lt_of_le (by simp [Size.bytes]) ha)
    simpa [State.canAccess, heven] using this
  | l =>
    simp only [Size.bytes] at ha
    have h2 := State.toNat_add_two hp ha
    have hfirst := hmapped a (by omega)
    have hsecond := hmapped (a + 2) (by omega)
    simpa [State.canAccess, heven] using And.intro hfirst hsecond

/-- `v` stands at `a` in the memory `m`, which agrees with that of `s` everywhere else. -/
structure FrameStored (s : State) (m : Memory) (sz : Size) (a : Long) (v : BitVec sz.bits) : Prop where
  value : State.memValue { s with mem := m } sz a = v
  frame : ∀ e, e < a.toNat ∨ a.toNat + sz.bytes ≤ e → Memory.read m e = Memory.read s.mem e

theorem StoresAt.frameStored {s : State} {m : Memory} {y : Ym} {p : Paula} {sz : Size} {a : Long} {v : BitVec sz.bits}
    (h : StoresAt s { s with mem := m, ym := y, paula := p } sz a v) (hlow : s.lowRam sz a) :
    y = s.ym ∧ p = s.paula ∧ FrameStored s m sz a v := by
  obtain ⟨hvalue, hym, hpaula⟩ := h.low hlow
  refine ⟨hym, hpaula, ?_, fun e he => h.frame e fun hmem => ?_⟩
  · cases hym
    cases hpaula
    exact hvalue
  · obtain ⟨hge, hlt⟩ := (hlow.mem_cellsOf e).1 hmem
    omega

theorem pushFrameLong_ok {s : State} (v : Long) (hlow : s.lowRam .l (s.regs.ssp - 4))
    (heven : isOdd (s.regs.ssp - 4) = false) :
    ∃ m, pushFrameLong v s = .ok () { s with regs := { s.regs with ssp := s.regs.ssp - 4 }, mem := m } ∧
      FrameStored s m .l (s.regs.ssp - 4) v := by
  obtain ⟨m, y, p, hwrite, hstores⟩ := writeLongAt_ok (k := .exception)
    (s := { s with regs := { s.regs with ssp := s.regs.ssp - 4 } }) (hlow.canAccess heven) v s.cycles
  obtain ⟨rfl, rfl, hframe⟩ := hstores.frameStored hlow
  exact ⟨m, hwrite, hframe.value, hframe.frame⟩

theorem pushFrameWord_ok {s : State} (v : Word) (hlow : s.lowRam .w (s.regs.ssp - 2))
    (heven : isOdd (s.regs.ssp - 2) = false) :
    ∃ m, pushFrameWord v s = .ok () { s with regs := { s.regs with ssp := s.regs.ssp - 2 }, mem := m } ∧
      FrameStored s m .w (s.regs.ssp - 2) v := by
  obtain ⟨m, y, p, hwrite, hstores⟩ := writeWordAt_ok (k := .exception)
    (s := { s with regs := { s.regs with ssp := s.regs.ssp - 2 } }) (hlow.canAccess heven) v s.cycles
  obtain ⟨rfl, rfl, hframe⟩ := hstores.frameStored hlow
  exact ⟨m, hwrite, hframe.value, hframe.frame⟩

/-- The words below the stack pointer of a state with room on its stack. -/
theorem State.stackRoom.below {s : State} {n : ℕ} (h : s.stackRoom n) {k : Long} (hk : k.toNat ≤ n)
    (heven : k.toNat % 2 = 0) :
    (s.regs.ssp - k).toNat = s.regs.ssp.toNat - k.toNat ∧ isOdd (s.regs.ssp - k) = false := by
  obtain ⟨hodd, hlow, _⟩ := h
  have hsub : (s.regs.ssp - k).toNat = s.regs.ssp.toNat - k.toNat :=
    BitVec.toNat_sub_of_le (BitVec.le_def.2 (by omega))
  refine ⟨hsub, ?_⟩
  rw [isOdd_eq, decide_eq_false_iff_not] at hodd ⊢
  omega

/-- A long of the vector table (rule R550). -/
theorem vectorAddress (v : Byte) :
    ((v.setWidth 32 * 4 : Long)).toNat = v.toNat * 4 ∧ isOdd (v.setWidth 32 * 4) = false := by
  have hv := v.isLt
  have h4 : (4 : Long).toNat = 4 := rfl
  have haddr : ((v.setWidth 32 * 4 : Long)).toNat = v.toNat * 4 := by
    rw [BitVec.toNat_mul, BitVec.toNat_setWidth, h4]
    omega
  refine ⟨haddr, ?_⟩
  rw [isOdd_eq, haddr, decide_eq_false_iff_not]
  omega

theorem Event.group_ne_zero {e : Event} (h : e.faultRec = none) : e.group ≠ .zero := by
  cases e with
  | busError f => cases h
  | addressError f => cases h
  | _ => exact Group.noConfusion

/-- An exception with a short frame, with room on the stack and a handler that does not halt, stacks SR and PC, sets SR and
jumps to its handler (rule R561). -/
theorem enter_short {e : Event} {s : State} (p : Long) (hp : s.cfg.memoryOk = true) (hroom : s.stackRoom 6)
    (hshort : e.faultRec = none) (hok : s.handlerOk e.vector) :
    ∃ m, enter e p s = { s with
        regs := { s.regs.withSr (s.regs.sr.onEntry e s.cfg.traceKeepsT) with ssp := s.regs.ssp - 6 }
        mem := m
        pc := s.handlerOf e.vector
        cycles := s.cycles + s.excCost e.vector } ∧
      State.shortFrameAt { s with mem := m } (s.regs.ssp - 6) s.regs.sr.toWord p := by
  obtain ⟨h400, _, _, _⟩ := (Params.memoryOk_iff _).1 hp
  have hssp : s.regs.ssp - 4 - 2 = s.regs.ssp - 6 := by bv_omega
  have hpc : s.regs.ssp - 6 + 2 = s.regs.ssp - 4 := by bv_omega
  obtain ⟨hat4, heven4⟩ := hroom.below (k := 4) (by decide) rfl
  obtain ⟨hat6, heven6⟩ := hroom.below (k := 6) (by decide) rfl
  obtain ⟨hvec, hvecEven⟩ := vectorAddress e.vector
  have hv := e.vector.isLt
  obtain ⟨_, hbottom, htop⟩ := hroom
  have h4 : (4 : Long).toNat = 4 := rfl
  have h6 : (6 : Long).toNat = 6 := rfl
  rw [h4] at hat4
  rw [h6] at hat6
  have hlow4 : s.lowRam .l (s.regs.ssp - 4) := ⟨hp, by rw [hat4, Size.bytes]; omega⟩
  have hlow6 : s.lowRam .w (s.regs.ssp - 6) := ⟨hp, by rw [hat6, Size.bytes]; omega⟩
  have hlowVec : s.lowRam .l (e.vector.setWidth 32 * 4) := ⟨hp, by rw [hvec, Size.bytes]; omega⟩
  let s0 : State := { s.entrySr e with inGroup0 := s.inGroup0 || decide (e.group = .zero) }
  obtain ⟨m1, hpush1, hstored1⟩ := pushFrameLong_ok (s := s0) p hlow4 heven4
  let s1 : State := { s0 with regs := { s0.regs with ssp := s.regs.ssp - 4 }, mem := m1 }
  have hssp1 : s1.regs.ssp - 2 = s.regs.ssp - 6 := hssp
  obtain ⟨m2, hpush2, hstored2⟩ := pushFrameWord_ok (s := s1) s.regs.sr.toWord (hssp1 ▸ hlow6) (hssp1 ▸ heven6)
  rw [hssp1] at hpush2 hstored2
  let s2 : State := { s1 with regs := { s1.regs with ssp := s.regs.ssp - 6 }, mem := m2 }
  have hinfo : pushFaultInfo e s2 = .ok () s2 := by rw [pushFaultInfo, hshort]; rfl
  have hhandler : s2.memValue .l (e.vector.setWidth 32 * 4) = s.handlerOf e.vector := by
    refine hlowVec.memValue_congr rfl fun x _ hx => (hstored2.frame x (.inl ?_)).trans (hstored1.frame x (.inl ?_))
    · rw [Size.bytes, hvec] at hx
      omega
    · rw [Size.bytes, hvec] at hx
      show x < (s.regs.ssp - 4).toNat
      omega
  have hread := readLongAt_ok (k := .exception) (s := s2) (hlowVec.canAccess hvecEven)
  rw [hhandler] at hread
  refine ⟨m2, ?_, ?_, ?_⟩
  · have hgroup := Event.group_ne_zero hshort
    have hrun : entryBody e p s = .ok () { s2 with
        pc := s.handlerOf e.vector
        cycles := s.cycles + s.excCost e.vector
        inGroup0 := s.inGroup0 } := by
      rw [entryBody_eq_entryRest, entryRest, updating_bind]
      refine (Exec.bind_of_ok hpush1).trans ((Exec.bind_of_ok hpush2).trans ((Exec.bind_of_ok hinfo).trans
        ((Exec.bind_of_ok hread).trans ?_)))
      have hjump : ¬ (s.handlerOf e.vector = 0 ∨ s2.cfg.memSize ≤ s2.extAddr (s.handlerOf e.vector)) := by
        rintro (hzero | hhigh)
        · exact hok.1 hzero
        · exact absurd hok.2 (Nat.not_lt.2 hhigh)
      have hin : s2.inGroup0 = s.inGroup0 := by
        show (s.inGroup0 || decide (e.group = .zero)) = s.inGroup0
        simp [hgroup]
      rw [enterHandler, updating_apply, if_neg hjump, if_neg hgroup, ← hin]
      rfl
    rw [enter, hrun]
    rfl
  · exact hstored2.value
  · rw [hpc]
    refine (hlow4.memValue_congr (s := { s with mem := m1 }) (t := { s with mem := m2 }) rfl fun x hx _ =>
      hstored2.frame x (.inr ?_)).trans hstored1.value
    rw [hat4] at hx
    rw [hat6, Size.bytes]
    omega

/-! ## The interrupt check -/

/-- The state in which an accepted interrupt is entered (rules R580, R582). -/
def State.irqTaken (s : State) : State :=
  { s.lookAtIrq with
    run := .normal
    irq := { s.lookAtIrq.irq with edge7 := s.lookAtIrq.irq.edge7 && decide (s.ipl ≠ 7) } }

theorem State.irqAcceptable_iff (s : State) : s.irqAcceptable = true ↔
    (s.ipl ≠ 7 ∧ s.regs.sr.i.toNat < s.ipl.toNat) ∨ (s.ipl = 7 ∧ s.irq.edge7 = true) := by
  unfold State.irqAcceptable
  by_cases h7 : s.ipl = 7
  · rw [if_pos h7]
    exact ⟨fun h => .inr ⟨h7, h⟩, fun h => h.elim (fun h => absurd h7 h.1) And.right⟩
  · rw [if_neg h7, BitVec.ult, decide_eq_true_eq]
    exact ⟨fun h => .inl ⟨h7, h⟩, fun h => h.elim And.right fun h => absurd h.1 h7⟩

theorem State.checkIrq_of_acceptable {s : State} (hrun : s.run ≠ .halted) (h : s.lookAtIrq.irqAcceptable = true) :
    s.checkIrq = enter (.interrupt s.ipl (IrqAnswer.vectorOf s.ipl (s.cfg.irqVectors.get s.ipl))) s.pc s.irqTaken :=
  if_pos ⟨hrun, h⟩

theorem State.checkIrq_of_not_acceptable {s : State} (h : s.lookAtIrq.irqAcceptable ≠ true) :
    s.checkIrq = s.lookAtIrq := if_neg fun hc => h hc.2

/-- Settles O8: the request is computed, and an acceptable one is an entry with a short frame. -/
theorem interruptsAreTakenByLevel : Obligations.InterruptsAreTakenByLevel := by
  refine ⟨fun l n => ⟨IrqAnswer.toNat_vectorOf_autovector l, rfl, rfl, rfl⟩,
    fun levels a b c l => ⟨rfl, irqLevelAt_append .., irqRises_iff ..⟩, Paula.irqLevel_eq,
    fun s => ⟨s.toNat_ipl, rfl⟩, fun s hrun hp hroom => ⟨?_, ?_⟩⟩
  · intro htaken v keep hok
    obtain ⟨m, hentry, hframe⟩ := enter_short (e := .interrupt s.ipl v) (s := s.irqTaken) s.pc hp hroom rfl hok
    rw [State.checkIrq_of_acceptable hrun (s.lookAtIrq.irqAcceptable_iff.2 htaken), hentry]
    exact ⟨rfl, rfl, rfl, hframe, rfl⟩
  · intro hkept
    have hnot : s.lookAtIrq.irqAcceptable ≠ true := by
      rw [Ne, s.lookAtIrq.irqAcceptable_iff]
      have hipl : s.lookAtIrq.ipl = s.ipl := rfl
      rw [hipl, State.lookAtIrq_regs]
      rintro (⟨hne, hlt⟩ | ⟨h7, hedge⟩)
      · rcases hkept with ⟨_, hle⟩ | ⟨h7, _⟩
        · omega
        · exact hne h7
      · rcases hkept with ⟨hne, _⟩ | ⟨_, hno⟩
        · exact hne h7
        · exact absurd (hedge.symm.trans hno) (by decide)
    rw [State.checkIrq_of_not_acceptable hnot]
    exact ⟨rfl, rfl, rfl, rfl, rfl⟩

end Sys2Proof.Machine
end

section
/-! Data accesses and opcode fetches that fault (O6, O19, O22): which event an access raises, and what it leaves. -/

namespace Sys2Proof.Machine

open Sys2Proof.Config

/-! ## Opcode fetches -/

/-- Settles O6: a fetch that cannot access its word changes nothing, and its fault is entered from `pc`. -/
theorem opcodeFetchFaults : Obligations.OpcodeFetchFaults := by
  intro s hlive hrun hacc f e
  have hfetch : fetchOpcode s.beginStep = .error e s.beginStep := fetchOpcode_error (s := s.beginStep) hacc
  have hcpu : stepCpu s = .next (takeFault e s.pc s.beginStep.charge).boundary := by
    rw [stepCpu, hrun]
    dsimp only
    rw [stepNormal, hfetch]
    rfl
  exact ⟨step_of_stepCpu hlive hcpu, rfl⟩

/-! ## Odd addresses (rule R84) -/

section Odd

variable {sz : AddrSize} {a : Long} {s : State}

theorem readWordAt_odd (k : AccessKind) (h : isOdd a = true) :
    readWordAt k a s = .error (.addressError (s.faultRec k a true)) s := if_pos h

theorem writeWordAt_odd (k : AccessKind) (h : isOdd a = true) (v : Word) (ts : ℕ) :
    writeWordAt k a v ts s = .error (.addressError (s.faultRec k a false)) s := if_pos h

/-- A word or long read at an odd address raises its address error in the state it started from. -/
theorem readMem_odd (h : isOdd a = true) :
    readMem sz.toSize a s = .error (.addressError (s.faultRec .data a true)) s := by
  cases sz with
  | w => exact Exec.bind_of_error (readWordAt_odd .data h)
  | l => exact Exec.bind_of_error (Exec.bind_of_error (readWordAt_odd .data h))

/-- The same for a write. -/
theorem writeMem_odd (h : isOdd a = true) (v : BitVec sz.toSize.bits) :
    writeMem sz.toSize a v s = .error (.addressError (s.faultRec .data a false)) s := by
  cases sz with
  | w =>
    simp only [writeMem, reading_bind]
    exact Exec.bind_of_error (writeWordAt_odd .data h v _)
  | l =>
    simp only [writeMem, reading_bind]
    exact Exec.bind_of_error (Exec.bind_of_error (writeWordAt_odd .data h _ _))

end Odd

/-! ## Accesses that raise bus errors only -/

/-- What an instruction in hand leaves alone before its cycles are charged, whatever it moves between registers and
memory. -/
structure Steady (s t : State) : Prop where
  cfg : t.cfg = s.cfg
  inGroup0 : t.inGroup0 = s.inGroup0
  group0Handler : t.group0Handler = s.group0Handler
  irq : t.irq = s.irq
  out : t.out = s.out
  pc0 : t.hid.pc0 = s.hid.pc0
  ir : t.hid.ir = s.hid.ir
  tracePending : t.hid.tracePending = s.hid.tracePending
  cycles : t.cycles = s.cycles

theorem Steady.trans {s t u : State} (h : Steady s t) (k : Steady t u) : Steady s u where
  cfg := k.cfg.trans h.cfg
  inGroup0 := k.inGroup0.trans h.inGroup0
  group0Handler := k.group0Handler.trans h.group0Handler
  irq := k.irq.trans h.irq
  out := k.out.trans h.out
  pc0 := k.pc0.trans h.pc0
  ir := k.ir.trans h.ir
  tracePending := k.tracePending.trans h.tracePending
  cycles := k.cycles.trans h.cycles

theorem Steady.measured {s t : State} (h : Measured s t) : Steady s t :=
  ⟨h.cfg, h.inGroup0, h.group0Handler, h.irq, h.out, h.pc0, h.ir, h.tracePending, h.cycles⟩

/-- Registers, memory, engines and draws are no part of the control state. -/
theorem Steady.update (s : State) (r : RegFile) (m : Memory) (y : Ym) (p : Paula) (d : ℕ) :
    Steady s { s with regs := r, mem := m, ym := y, paula := p, draws := d } :=
  ⟨rfl, rfl, rfl, rfl, rfl, rfl, rfl, rfl, rfl⟩

theorem Steady.storeByte {s t : State} {a : Long} {v : Byte} {ts : ℕ} (h : s.storeByte a v ts = some t) :
    Steady s t := by
  unfold State.storeByte at h
  split at h <;> cases h <;> exact .update ..

theorem Steady.storeWord {s t : State} {a : Long} {v : Word} {ts : ℕ} (h : s.storeWord a v ts = some t) :
    Steady s t := by
  unfold State.storeWord at h
  split at h <;> cases h <;> exact .update ..

theorem Steady.tolerant : Tolerant Steady where
  trans := .trans
  measured := .measured
  setD _ _ _ := .update ..
  setA _ _ _ := .update ..
  flags _ _ _ := .update ..
  draw _ := .update ..
  storeByte := .storeByte
  storeWord _ := .storeWord

/-- Charging the cycles of an instruction that kept the control state. -/
theorem Steady.sameControl_charge {s t : State} (h : Steady s.start t) : SameControl s t.charge :=
  ⟨h.cfg, h.inGroup0, h.group0Handler, h.irq, h.out, h.pc0, h.ir, h.tracePending,
    lt_of_eq_of_lt h.cycles.symm t.charge_cycles_lt⟩

/-- A piece of pseudocode raises no event but a bus error. -/
def Exec.OnlyBusErrors {α : Type} (x : Exec α) : Prop := ∀ s e t, x s = .error e t → ∃ f, e = .busError f

section OnlyBusErrors

variable {α β : Type} {x : Exec α} {sz : Size} {a : Long}

theorem Exec.OnlyBusErrors.of_ok (h : ∀ s, ∃ v t, x s = .ok v t) : x.OnlyBusErrors := by
  intro s e t he
  obtain ⟨v, u, hok⟩ := h s
  rw [hok] at he
  cases he

theorem Exec.OnlyBusErrors.bind {f : α → Exec β} (hx : x.OnlyBusErrors) (hf : ∀ v, (f v).OnlyBusErrors) :
    (x >>= f).OnlyBusErrors := by
  intro s e t he
  rcases Exec.bind_eq_error.1 he with hfirst | ⟨v, u, _, hrest⟩
  · exact hx s e t hfirst
  · exact hf v u e t hrest

theorem Exec.OnlyBusErrors.readByteAt (k : AccessKind) : (readByteAt k a).OnlyBusErrors := by
  intro s e t he
  unfold Machine.readByteAt at he
  split at he <;> cases he
  exact ⟨_, rfl⟩

theorem Exec.OnlyBusErrors.writeByteAt (k : AccessKind) (v : Byte) (ts : ℕ) :
    (writeByteAt k a v ts).OnlyBusErrors := by
  intro s e t he
  unfold Machine.writeByteAt at he
  split at he <;> cases he
  exact ⟨_, rfl⟩

theorem Exec.OnlyBusErrors.readWordAt (k : AccessKind) (h : isOdd a = false) : (readWordAt k a).OnlyBusErrors := by
  intro s e t he
  rw [Machine.readWordAt, h, if_neg Bool.false_ne_true] at he
  split at he <;> cases he
  exact ⟨_, rfl⟩

theorem Exec.OnlyBusErrors.writeWordAt (k : AccessKind) (h : isOdd a = false) (v : Word) (ts : ℕ) :
    (writeWordAt k a v ts).OnlyBusErrors := by
  intro s e t he
  rw [Machine.writeWordAt, h, if_neg Bool.false_ne_true] at he
  split at he <;> cases he
  exact ⟨_, rfl⟩

/-- A data read of a byte, or at an even address, raises no address error (rule R84). -/
theorem Exec.OnlyBusErrors.readMem (h : isOdd a = false ∨ sz = .b) : (readMem sz a).OnlyBusErrors := by
  have heven : sz ≠ .b → isOdd a = false := h.resolve_right
  cases sz with
  | b => exact .bind (.readByteAt _) fun _ => .of_ok fun _ => ⟨_, _, rfl⟩
  | w => exact .bind (.readWordAt _ (heven (by decide))) fun _ => .of_ok fun _ => ⟨_, _, rfl⟩
  | l =>
    have ha := heven (by decide)
    have ha2 : isOdd (a + 2) = false := (isOdd_add_two a).trans ha
    exact .bind (.bind (.readWordAt _ ha) fun _ => .bind (.readWordAt _ ha2) fun _ => .of_ok fun _ => ⟨_, _, rfl⟩)
      fun _ => .of_ok fun _ => ⟨_, _, rfl⟩

/-- The same for a write. -/
theorem Exec.OnlyBusErrors.writeMem (h : isOdd a = false ∨ sz = .b) (v : BitVec sz.bits) :
    (writeMem sz a v).OnlyBusErrors := by
  have hlook : ∀ {γ : Type} (f : State → γ), (reading f).OnlyBusErrors := fun _ => .of_ok fun _ => ⟨_, _, rfl⟩
  have hnote : ∀ d, (noteDeviceWrite d).OnlyBusErrors := fun _ => .of_ok fun _ => ⟨_, _, rfl⟩
  have heven : sz ≠ .b → isOdd a = false := h.resolve_right
  refine .bind (hlook _) fun ts => .bind (hlook _) fun device => ?_
  cases sz with
  | b => exact .bind (.writeByteAt _ v ts) fun _ => hnote device
  | w => exact .bind (.writeWordAt _ (heven (by decide)) v ts) fun _ => hnote device
  | l =>
    have ha := heven (by decide)
    have ha2 : isOdd (a + 2) = false := (isOdd_add_two a).trans ha
    exact .bind (.bind (.writeWordAt _ ha _ ts) fun _ => .writeWordAt _ ha2 _ ts) fun _ => hnote device

end OnlyBusErrors

/-! ## MOVEP -/

/-- Pseudocode made of register moves and byte accesses: it keeps the control state and raises no event but a bus error. -/
structure Exec.BytesOnly {α : Type} (x : Exec α) : Prop where
  keeps : Exec.Always Steady x
  bus : x.OnlyBusErrors

section BytesOnly

variable {α β : Type}

theorem Exec.BytesOnly.bind {x : Exec α} {f : α → Exec β} (hx : x.BytesOnly) (hf : ∀ v, (f v).BytesOnly) :
    (x >>= f).BytesOnly :=
  ⟨.bind Steady.tolerant hx.keeps fun v => (hf v).keeps, .bind hx.bus fun v => (hf v).bus⟩

theorem Exec.BytesOnly.readA (n : Reg) : (readA n).BytesOnly :=
  ⟨.readA Steady.tolerant n, .of_ok fun _ => ⟨_, _, rfl⟩⟩

theorem Exec.BytesOnly.readD (n : Reg) (sz : Size) : (readD n sz).BytesOnly :=
  ⟨.readD Steady.tolerant n sz, .of_ok fun _ => ⟨_, _, rfl⟩⟩

theorem Exec.BytesOnly.writeD (n : Reg) (sz : Size) (v : BitVec sz.bits) : (writeD n sz v).BytesOnly :=
  ⟨.writeD Steady.tolerant n sz v, .of_ok fun _ => ⟨_, _, rfl⟩⟩

theorem Exec.BytesOnly.load (a : Long) : (readMem .b a).BytesOnly :=
  ⟨.readMem Steady.tolerant .b a, .readMem (.inr rfl)⟩

theorem Exec.BytesOnly.store (a : Long) (v : Byte) : (writeMem .b a v).BytesOnly :=
  ⟨.writeMem Steady.tolerant .b a v, .writeMem (.inr rfl) v⟩

/-- A rule that, after its extension word, is made of byte accesses either completes or takes a bus error with `pc0 + 2`
stacked (rules R562, R585). -/
theorem Exec.BytesOnly.complete {k : Word → Exec Unit} {s t : State} {w : Word} (hk : (k w).BytesOnly)
    (hw : fetch16 s.start = .ok w t) :
    ∃ u, Machine.complete (fetch16 >>= k) s = .next u ∧
      (SameControl s u ∨ ∃ f v, u = takeFault (.busError f) (s.hid.pc0 + 2) v) := by
  obtain ⟨_, _, _, hm⟩ := fetch16_eq_ok hw
  have hfetched := Steady.measured hm
  have hbody : (fetch16 >>= k) s.start = k w t := Exec.bind_of_ok hw
  cases hrun : k w t with
  | ok _ u =>
    have hsteady := hfetched.trans ((hk.keeps t).1 _ u hrun)
    exact ⟨_, complete_of_ok (hbody.trans hrun), .inl hsteady.sameControl_charge⟩
  | error e u =>
    have hpc0 : u.hid.pc0 = s.hid.pc0 := (hfetched.trans ((hk.keeps t).2 e u hrun)).pc0
    obtain ⟨f, rfl⟩ := hk.bus t e u hrun
    refine ⟨_, complete_of_error (hbody.trans hrun), .inr ⟨f, (u.rollback s.start).charge, ?_⟩⟩
    rw [← hpc0]
    rfl

end BytesOnly

/-- MOVEP makes byte accesses only (rule R258), so it raises no address error. -/
theorem movep_completes_or_bus_error (m : MovepMode) (x y : Reg) {s t : State} {w : Word}
    (hw : fetch16 s.start = .ok w t) :
    ∃ u, exec (.movep m x y) s = .next u ∧
      (SameControl s u ∨ ∃ f v, u = takeFault (.busError f) (s.hid.pc0 + 2) v) := by
  refine Exec.BytesOnly.complete (.bind (.readA y) fun _ => ?_) hw
  cases m with
  | wordFromMem => exact .bind (.load _) fun _ => .bind (.load _) fun _ => .writeD x .w _
  | longFromMem =>
    exact .bind (.load _) fun _ => .bind (.load _) fun _ => .bind (.load _) fun _ => .bind (.load _) fun _ =>
      .writeD x .l _
  | wordToMem => exact .bind (.readD x .l) fun _ => .bind (.store _ _) fun _ => .store _ _
  | longToMem =>
    exact .bind (.readD x .l) fun _ => .bind (.store _ _) fun _ => .bind (.store _ _) fun _ =>
      .bind (.store _ _) fun _ => .store _ _

/-- Settles O22: an odd word or long by its first word, the others by the accesses that raise bus errors only. -/
theorem alignment : Obligations.Alignment := by
  intro s a fc
  refine ⟨fun hodd => ⟨readMem_odd (sz := .w) hodd, readMem_odd (sz := .l) hodd, writeMem_odd (sz := .w) hodd,
    writeMem_odd (sz := .l) hodd⟩, ?_, fun m x y w t hw => movep_completes_or_bus_error m x y hw⟩
  rintro sz e t heven (hread | ⟨v, hwrite⟩)
  · exact Exec.OnlyBusErrors.readMem heven s e t hread
  · exact Exec.OnlyBusErrors.writeMem heven v s e t hwrite

/-! ## Misaligned MOVE -/

/-- A rule that raises an address error after measured steps and changes of registers alone: the error is entered with every
effect undone (rules R562, R563). -/
theorem complete_addressError {body : Exec Unit} {s t : State} {r : RegFile} {f : FaultRec} (hin : s.inGroup0 = false)
    (hm : Measured { s.start with regs := r } t) (hrun : body s.start = .error (.addressError f) t) :
    ∃ w, complete body s = .next (enter (.addressError f) (s.hid.pc0 + 2) w) ∧
      w.regs = s.regs ∧ SameMemory s w ∧ w.hid.ir = s.hid.ir ∧ s.cycles < w.cycles := by
  have hpc0 : t.hid.pc0 = s.hid.pc0 := hm.pc0
  have hcycles : t.cycles = s.cycles := hm.cycles
  have hnested : t.inGroup0 = false := hm.inGroup0.trans hin
  refine ⟨(t.rollback s.start).charge.noTrace, ?_, rfl, ⟨fun _ => rfl, rfl, rfl, rfl⟩, hm.ir, ?_⟩
  · have htake : takeFault (.addressError f) (t.hid.pc0 + 2) (t.rollback s.start).charge =
        enter (.addressError f) (t.hid.pc0 + 2) (t.rollback s.start).charge.noTrace :=
      if_neg (Bool.eq_false_iff.1 hnested)
    rw [complete_of_error hrun, ← hpc0, ← htake]
    rfl
  · exact lt_of_eq_of_lt hcycles.symm (t.rollback s.start).charge_cycles_lt

/-- Settles O19: the access raises in a measured state, whose registers and memory are rolled back. -/
theorem misalignedMoveRollsBack : Obligations.MisalignedMoveRollsBack := by
  refine ⟨?_, ?_⟩
  · intro sz src dst s s1 a hin hsrc hodd
    have hm := resolve_eq_ok hsrc
    have hmode : s1.regs.sr.s = s.regs.sr.s := by rw [hm.regs, RegFile.bump_sr]; rfl
    rw [← hmode]
    exact complete_addressError hin hm (Exec.bind_of_error ((Exec.bind_of_ok hsrc).trans (readMem_odd hodd)))
  · intro sz src dst s s1 s2 v b hin hsrc hdst hodd
    have hm1 := readEa_eq_ok hsrc
    have hm2 := resolve_eq_ok hdst
    have hmode : s2.regs.sr.s = s.regs.sr.s := by rw [hm2.regs, RegFile.bump_sr, hm1.regs, RegFile.bump_sr]; rfl
    rw [← hmode]
    refine complete_addressError hin ((hm1.withRegs _).trans hm2) ?_
    exact (Exec.bind_of_ok hsrc).trans ((Exec.bind_of_ok hdst).trans (Exec.bind_of_error (writeMem_odd hodd v)))

end Sys2Proof.Machine
end

section
/-! Words and longs in RAM (O21), and the address map (O23). -/

namespace Sys2Proof.Machine

open Sys2Proof.Config

/-! ## Bytes of a stored value -/

theorem extractLsb'_extractLsb'_of_le {w : ℕ} (x : BitVec w) {lo start len len' : ℕ} (h : start + len ≤ len') :
    (x.extractLsb' lo len').extractLsb' start len = x.extractLsb' (lo + start) len := by
  refine BitVec.eq_of_getLsbD_eq fun i hi => ?_
  have hin : start + i < len' := by omega
  simp [hi, hin, Nat.add_assoc]

section LowRam

variable {s : State} {a : Long}

/-- A word in RAM is its two bytes, the most significant one first (rules R82, R83). -/
theorem State.lowRam.busBytes (h : s.lowRam .w a) {v : Word} (hv : s.memValue .w a = v) :
    s.busByte a = some (v.extractLsb' 8 8) ∧ s.busByte (a + 1) = some (v.extractLsb' 0 8) := by
  obtain ⟨hp, hroom⟩ := h
  simp only [Size.bytes] at hroom
  have hnext : (a + 1).toNat = a.toNat + 1 := toNat_offset hp hroom 1 (by decide)
  obtain ⟨hfirst, _⟩ := State.target_low (s := s) (a := a) hp (by omega)
  obtain ⟨hsecond, _⟩ := State.target_low (s := s) (a := a + 1) hp (by omega)
  rw [hnext] at hsecond
  have hword : Memory.read s.mem a.toNat ++ Memory.read s.mem (a.toNat + 1) = v := by
    rw [← hv, State.memValue, State.busWord_ram hfirst]
    rfl
  rw [State.busByte_ram hfirst, State.busByte_ram hsecond, ← hword, BitVec.extractLsb'_append_eq_left,
    BitVec.extractLsb'_append_eq_right]
  exact ⟨rfl, rfl⟩

/-- The two words of a long in RAM. -/
theorem State.lowRam.words (h : s.lowRam .l a) : s.lowRam .w a ∧ s.lowRam .w (a + 2) := by
  obtain ⟨hp, hroom⟩ := h
  simp only [Size.bytes] at hroom
  have hnext := State.toNat_add_two hp hroom
  exact ⟨⟨hp, by simp only [Size.bytes]; omega⟩, ⟨hp, by simp only [Size.bytes]; omega⟩⟩

/-- An even store in RAM at its own address completes, reads back, and leaves every byte outside it alone. -/
theorem State.lowRam.writeMem_ok {sz : Size} (h : s.lowRam sz a) (heven : isOdd a = false) (v : BitVec sz.bits) :
    ∃ t, writeMem sz a v s = .ok () t ∧ t.lowRam sz a ∧ t.memValue sz a = v ∧
      ∀ b, b < a.toNat ∨ a.toNat + sz.bytes ≤ b → Memory.read t.mem b = Memory.read s.mem b := by
  obtain ⟨_, _, _, _, hwrite, hstores⟩ := Machine.writeMem_ok (h.canAccess heven) v
  refine ⟨_, hwrite, h.congr rfl, (hstores.low h).1, fun b hb => hstores.frame b fun hmem => ?_⟩
  have hinside := (h.mem_cellsOf b).1 hmem
  omega

end LowRam

/-- Settles O21: the value stored reads back as a whole, and its bytes are those of its words. -/
theorem bigEndianStores : Obligations.BigEndianStores := by
  intro s a hp heven
  refine ⟨fun v hroom => ?_, fun v hroom => ?_⟩
  · have hlow : s.lowRam .w a := ⟨hp, hroom⟩
    obtain ⟨t, hwrite, htlow, hvalue, hframe⟩ := hlow.writeMem_ok heven v
    obtain ⟨hfirst, hsecond⟩ := htlow.busBytes hvalue
    refine ⟨t, hwrite, hfirst, hsecond, fun b h0 h1 => hframe b ?_⟩
    simp only [Size.bytes]
    omega
  · have hlow : s.lowRam .l a := ⟨hp, hroom⟩
    obtain ⟨t, hwrite, htlow, hvalue, hframe⟩ := hlow.writeMem_ok heven v
    have hwords : t.memValue .w a ++ t.memValue .w (a + 2) = v := hvalue
    have hhigh : t.memValue .w a = v.extractLsb' 16 16 := by rw [← hwords, BitVec.extractLsb'_append_eq_left]
    have hlowWord : t.memValue .w (a + 2) = v.extractLsb' 0 16 := by rw [← hwords, BitVec.extractLsb'_append_eq_right]
    obtain ⟨h0, h1⟩ := htlow.words.1.busBytes hhigh
    obtain ⟨h2, h3⟩ := htlow.words.2.busBytes hlowWord
    rw [extractLsb'_extractLsb'_of_le v (by decide)] at h0 h1 h2 h3
    rw [BitVec.add_assoc] at h3
    exact ⟨t, hwrite, h0, h1, h2, h3, hframe⟩

/-! ## The address map -/

section AddressMap

variable {s : State} {a b : Long}

/-- What an access does depends on the external address only (rule R81). -/
theorem State.bus_eq_of_extAddr_eq (h : s.extAddr a = s.extAddr b) :
    s.busByte a = s.busByte b ∧ s.busWord a = s.busWord b ∧ ∀ v ts, s.storeByte a v ts = s.storeByte b v ts := by
  refine ⟨?_, ?_, fun v ts => ?_⟩
  · rw [State.busByte, State.busByte, h]
  · rw [State.busWord, State.busWord, h]
  · rw [State.storeByte, State.storeByte, h]

/-- Above RAM and outside the device windows the unmapped policy answers (rules R90, R91). -/
theorem State.target_of_unmapped (hdev : s.isDevice a = false) (hhigh : s.cfg.memSize ≤ s.extAddr a) :
    s.target (s.extAddr a) =
      if s.cfg.unmapped = .mirror then .ram (s.extAddr a % s.cfg.memSize) else .unmapped := by
  obtain ⟨hym, hpaula⟩ := Bool.or_eq_false_iff.1 hdev
  rw [State.target, hym, hpaula, if_neg Bool.false_ne_true, if_neg Bool.false_ne_true, if_neg (Nat.not_lt.2 hhigh)]

end AddressMap

/-- Settles O23: what answers is decided by the external address. -/
theorem addressMap : Obligations.AddressMap := by
  refine ⟨fun s a b hext => State.bus_eq_of_extAddr_eq hext, ?_⟩
  intro s a hdev hhigh fc
  refine ⟨fun hpolicy => ?_, fun hpolicy => ?_⟩
  · have htarget : s.target (s.extAddr a) = .unmapped := by
      rw [State.target_of_unmapped hdev hhigh, hpolicy]
      rfl
    have hacc : s.canAccess .b a = false := by rw [State.canAccess, htarget]; rfl
    refine ⟨Exec.bind_of_error (readByteAt_error hacc), fun v => ?_⟩
    simp only [writeMem, reading_bind]
    exact Exec.bind_of_error (writeByteAt_error hacc v _)
  · refine State.busByte_ram ?_
    rw [State.target_of_unmapped hdev hhigh, if_pos hpolicy]
    rfl

end Sys2Proof.Machine
end

section
/-! The YM2149 on the bus (O57). -/

namespace Sys2Proof.Machine

open Sys2Proof.Config

/-! ## Bytes and words of the window (rules R620-R622) -/

theorem ymMask_eq (r : BitVec 4) : ymMask r =
    if r.toNat = 1 ∨ r.toNat = 3 ∨ r.toNat = 5 ∨ r.toNat = 13 then 0x0F
    else if r.toNat = 6 ∨ r.toNat = 8 ∨ r.toNat = 9 ∨ r.toNat = 10 then 0x1F else 0xFF := by
  revert r
  decide

section Registers

variable {e : ℕ}

theorem Ym.readByte_even (y : Ym) (odd : Byte) (h : e % 2 = 0) : y.readByte odd e = y.regs[ymIndex y.sel] := if_pos h

theorem Ym.readByte_odd (y : Ym) (odd : Byte) (h : e % 2 = 1) : y.readByte odd e = odd := if_neg (by omega)

theorem Ym.readWord_even (y : Ym) (odd : Byte) (h : e % 2 = 0) :
    y.readWord odd e = y.regs[ymIndex y.sel] ++ odd := by
  rw [Ym.readWord, y.readByte_even odd h, y.readByte_odd odd (by omega)]

theorem Ym.writeByte_select (y : Ym) (h : e % 4 = 0) (v : Byte) (ts : ℕ) :
    y.writeByte e v ts = { y with sel := v.extractLsb' 0 4 } := by simp only [Ym.writeByte, h]

theorem Ym.writeByte_data (y : Ym) (h : e % 4 = 2) (v : Byte) (ts : ℕ) :
    y.writeByte e v ts = { y with regs := ymStore y.regs y.sel v, writes := y.writes ++ [⟨ts, y.sel, v⟩] } := by
  simp only [Ym.writeByte, h]

theorem Ym.writeByte_odd (y : Ym) (h : e % 2 = 1) (v : Byte) (ts : ℕ) : y.writeByte e v ts = y := by
  unfold Ym.writeByte
  split
  · omega
  · omega
  · rfl

/-- The low byte of a word write is not connected. -/
theorem Ym.writeWord_even (y : Ym) (h : e % 2 = 0) (v : Word) (ts : ℕ) :
    y.writeWord e v ts = y.writeByte e (v.extractLsb' 8 8) ts := Ym.writeByte_odd _ (by omega) _ _

end Registers

/-! ## Accesses to the window -/

section Window

variable {s : State} {a : Long} {e : ℕ}

theorem State.target_ym (hym : s.cfg.hw.hasYm = true) (hlow : 0xFF8800 ≤ e) (hhigh : e ≤ 0xFF88FF) :
    s.target e = .ym e := by simp [State.target, inYmWindow, hym, hlow, hhigh]

theorem State.busByte_ym (h : s.target (s.extAddr a) = .ym e) :
    s.busByte a = some (s.ym.readByte s.cfg.ymOddRead e) := by simp [State.busByte, h]

theorem State.busWord_ym (h : s.target (s.extAddr a) = .ym e) :
    s.busWord a = some (s.ym.readWord s.cfg.ymOddRead e) := by simp [State.busWord, h]

theorem State.storeByte_ym (h : s.target (s.extAddr a) = .ym e) (v : Byte) (ts : ℕ) :
    s.storeByte a v ts = some { s with ym := s.ym.writeByte e v ts } := by simp [State.storeByte, h]

theorem State.storeWord_ym (h : s.target (s.extAddr a) = .ym e) (v : Word) (ts : ℕ) :
    s.storeWord a v ts = some { s with ym := s.ym.writeWord e v ts } := by simp [State.storeWord, h]

/-- A word of the window can be accessed at an even address. -/
theorem State.canAccess_word_ym (h : s.target (s.extAddr a) = .ym e) (heven : isOdd a = false) :
    s.canAccess .w a = true := by simp [State.canAccess, h, heven]

theorem writeWordAt_of_storeWord {t : State} {v : Word} {ts : ℕ} (k : AccessKind) (heven : isOdd a = false)
    (h : s.storeWord a v ts = some t) : writeWordAt k a v ts s = .ok () t := by
  rw [writeWordAt, heven, h]
  rfl

/-- An address as high as the window takes an external address of at least 24 bits. -/
theorem State.addrBits_of_le_extAddr (h : 0xFF8800 ≤ s.extAddr a) : 24 ≤ s.cfg.addrBits := by
  have hlt : s.extAddr a < 2 ^ s.cfg.addrBits := Nat.mod_lt _ (Nat.two_pow_pos _)
  exact (Nat.pow_lt_pow_iff_right (a := 2) (by decide)).1 (by omega : 2 ^ 23 < 2 ^ s.cfg.addrBits)

theorem State.isOdd_of_extAddr_even (hbits : 24 ≤ s.cfg.addrBits) (h : s.extAddr a % 2 = 0) : isOdd a = false := by
  rw [State.extAddr, Nat.mod_mod_of_dvd _ (dvd_pow_self 2 (by omega))] at h
  rw [isOdd_eq, decide_eq_false_iff_not]
  omega

/-- The external address of the second word of a long that does not wrap. -/
theorem State.extAddr_add_two (hbits : 24 ≤ s.cfg.addrBits) (h : s.extAddr a + 2 < 2 ^ 24) :
    s.extAddr (a + 2) = s.extAddr a + 2 := by
  have hpow : 2 ^ 24 ≤ 2 ^ s.cfg.addrBits := Nat.pow_le_pow_right (by decide) hbits
  have htwo : (2 : Long).toNat = 2 := rfl
  have hsum : (a.toNat + 2) % 2 ^ s.cfg.addrBits = a.toNat % 2 ^ s.cfg.addrBits + 2 := by
    rw [← Nat.mod_add_mod]
    exact Nat.mod_eq_of_lt (Nat.lt_of_lt_of_le h hpow)
  rw [State.extAddr, State.extAddr, ← hsum, BitVec.toNat_add, htwo]
  rcases Nat.le_total s.cfg.addrBits 32 with hle | hge
  · exact Nat.mod_mod_of_dvd _ (Nat.pow_dvd_pow 2 hle)
  · have hwide : 2 ^ 32 ≤ 2 ^ s.cfg.addrBits := Nat.pow_le_pow_right (by decide) hge
    have ha := a.isLt
    have hext : a.toNat % 2 ^ s.cfg.addrBits = a.toNat := Nat.mod_eq_of_lt (by omega)
    have hsmall : a.toNat + 2 < 2 ^ 24 := by rwa [State.extAddr, hext] at h
    rw [Nat.mod_eq_of_lt (by omega : a.toNat + 2 < 2 ^ 32)]

/-- A long read at offset 0 mod 4 is the selected register twice, each time with an unconnected byte (rules R89, R621). -/
theorem readMem_long_ym (heven : isOdd a = false) (h : s.target (s.extAddr a) = .ym e)
    (h2 : s.target (s.extAddr (a + 2)) = .ym (e + 2)) (he : e % 2 = 0) :
    ∃ t, readMem .l a s = .ok ((s.ym.regs[ymIndex s.ym.sel] ++ s.cfg.ymOddRead) ++
      (s.ym.regs[ymIndex s.ym.sel] ++ s.cfg.ymOddRead)) t ∧ t.ym = s.ym := by
  have hacc : s.canAccess .l a = true := by
    rw [State.canAccess_long, State.canAccess_word_ym h heven,
      State.canAccess_word_ym h2 ((isOdd_add_two a).trans heven)]
    rfl
  have hvalue : s.memValue .l a = (s.ym.regs[ymIndex s.ym.sel] ++ s.cfg.ymOddRead) ++
      (s.ym.regs[ymIndex s.ym.sel] ++ s.cfg.ymOddRead) := by
    rw [State.memValue, State.busWord_ym h, State.busWord_ym h2, s.ym.readWord_even _ he,
      s.ym.readWord_even _ (by omega)]
    rfl
  have hload := readMem_ok hacc
  rw [hvalue] at hload
  exact ⟨_, hload, rfl⟩

/-- A long write to the window is its two word writes with one timestamp (rule R89). -/
theorem writeMem_long_ym (heven : isOdd a = false) (h : s.target (s.extAddr a) = .ym e)
    (h2 : s.target (s.extAddr (a + 2)) = .ym (e + 2)) (v : Long) :
    ∃ t, writeMem .l a v s = .ok () t ∧ t.mem = s.mem ∧ t.paula = s.paula ∧ t.regs = s.regs ∧
      t.ym = (s.ym.writeWord e (v.extractLsb' 16 16) s.writeStamp).writeWord (e + 2) (v.extractLsb' 0 16)
        s.writeStamp := by
  let s1 : State := { s with ym := s.ym.writeWord e (v.extractLsb' 16 16) s.writeStamp }
  have hfirst := writeWordAt_of_storeWord .data heven (State.storeWord_ym h (v.extractLsb' 16 16) s.writeStamp)
  have hsecond := writeWordAt_of_storeWord .data ((isOdd_add_two a).trans heven)
    (State.storeWord_ym (s := s1) h2 (v.extractLsb' 0 16) s.writeStamp)
  have hlong : writeLongAt .data a v s.writeStamp s = _ := (Exec.bind_of_ok hfirst).trans hsecond
  simp only [writeMem, reading_bind]
  rw [Exec.bind_of_ok hlong]
  exact ⟨_, rfl, rfl, rfl, rfl, rfl⟩

end Window

/-- The two word writes of a long at offset 0 mod 4 select a register and write it. -/
theorem Ym.writeWord_select_data (y : Ym) {e : ℕ} (h : e % 4 = 0) (v : Long) (ts : ℕ) :
    (y.writeWord e (v.extractLsb' 16 16) ts).writeWord (e + 2) (v.extractLsb' 0 16) ts =
      { y with
        sel := v.extractLsb' 24 4
        regs := ymStore y.regs (v.extractLsb' 24 4) (v.extractLsb' 8 8)
        writes := y.writes ++ [⟨ts, v.extractLsb' 24 4, v.extractLsb' 8 8⟩] } := by
  rw [y.writeWord_even (by omega), y.writeByte_select h, Ym.writeWord_even _ (by omega), Ym.writeByte_data _ (by omega),
    extractLsb'_extractLsb'_of_le v (by decide), extractLsb'_extractLsb'_of_le v (by decide),
    extractLsb'_extractLsb'_of_le v (by decide)]

/-- Settles O57: bytes and words by the registers they reach, a long by its two words. -/
theorem ymBus : Obligations.YmBus := by
  intro s a v w l ts hym hlow hhigh reg mask value
  have htarget := State.target_ym (s := s) hym hlow hhigh
  have hstore : ∀ r b, ymStore s.ym.regs r b = s.ym.regs.set r.toNat (b &&& mask r.toNat) r.isLt := fun r b => by
    rw [ymStore, ymMask_eq]
    rfl
  have hread : s.extAddr a % 2 = 0 → s.busByte a = some value := fun heven =>
    (State.busByte_ym htarget).trans (congrArg some (s.ym.readByte_even _ heven))
  refine ⟨fun h0 => ⟨?_, hread (by omega)⟩, fun h2 => ⟨?_, hread (by omega)⟩, fun h1 => ⟨?_, ?_⟩, fun heven => ⟨?_, ?_⟩,
    fun h0 => ?_⟩
  · rw [State.storeByte_ym htarget, s.ym.writeByte_select h0, extractLsb'_zero_eq_setWidth]
  · rw [State.storeByte_ym htarget, s.ym.writeByte_data h2, hstore]
  · rw [State.storeByte_ym htarget, s.ym.writeByte_odd h1]
  · rw [State.busByte_ym htarget, s.ym.readByte_odd _ h1]
  · rw [State.storeWord_ym htarget, State.storeByte_ym htarget, s.ym.writeWord_even heven]
  · rw [State.busWord_ym htarget, s.ym.readWord_even _ heven]
    rfl
  · intro sel b
    have hbits := State.addrBits_of_le_extAddr hlow
    have heven := State.isOdd_of_extAddr_even hbits (by omega : s.extAddr a % 2 = 0)
    have htarget2 : s.target (s.extAddr (a + 2)) = .ym (s.extAddr a + 2) := by
      rw [State.extAddr_add_two hbits (by omega)]
      exact State.target_ym hym (by omega) (by omega)
    obtain ⟨t, hload, htym⟩ := readMem_long_ym heven htarget htarget2 (by omega)
    obtain ⟨u, hwrite, hmem, hpaula, hregs, huym⟩ := writeMem_long_ym heven htarget htarget2 l
    refine ⟨⟨t, ?_, htym⟩, u, hwrite, hmem, hpaula, hregs, ?_⟩
    · have hassoc : value ++ s.cfg.ymOddRead ++ value ++ s.cfg.ymOddRead =
          value ++ s.cfg.ymOddRead ++ (value ++ s.cfg.ymOddRead) := BitVec.append_assoc.trans (BitVec.cast_eq _ _)
      rw [hassoc]
      exact hload
    · rw [huym, s.ym.writeWord_select_data h0, hstore]

end Sys2Proof.Machine
end

section
/-! The fields of the opcode word (rules R131 to R143): what the decoder reads in a field's bits is what the encoder writes
there. Fields with disjoint bits make a field of pairs, so one law, `BitField`, serves every format. -/

namespace Sys2Proof

/-! ## Bit fields of a word -/

/-- The `n` bits of a word from bit `lo` on. -/
def fieldMask (n lo : ℕ) : Word := place lo (BitVec.allOnes n)

theorem getElem_place {n : ℕ} (lo : ℕ) (v : BitVec n) (i : ℕ) (hi : i < 16) :
    (place lo v)[i] = (decide (lo ≤ i) && v.getLsbD (i - lo)) := by
  simp only [place, BitVec.getElem_shiftLeft, BitVec.getElem_setWidth]
  by_cases h : i < lo
  · simp [h, Nat.not_le.2 h]
  · simp [h, Nat.not_lt.1 h]

theorem getElem_fieldMask (n lo i : ℕ) (hi : i < 16) :
    (fieldMask n lo)[i] = (decide (lo ≤ i) && decide (i - lo < n)) := by
  simp [fieldMask, getElem_place]

theorem place_and_fieldMask {n : ℕ} (lo : ℕ) (v : BitVec n) : place lo v &&& fieldMask n lo = place lo v := by
  ext i hi
  rw [BitVec.getElem_and, getElem_fieldMask, getElem_place]
  by_cases hlo : lo ≤ i
  · by_cases h : i - lo < n
    · simp [h, hlo]
    · simp [h, BitVec.getLsbD_of_ge v (i - lo) (Nat.not_lt.1 h)]
  · simp [hlo]

theorem place_extractLsb' (n lo : ℕ) (w : Word) : place lo (w.extractLsb' lo n) = w &&& fieldMask n lo := by
  ext i hi
  rw [BitVec.getElem_and, getElem_fieldMask, getElem_place, BitVec.getLsbD_extractLsb']
  by_cases h : lo ≤ i
  · simp [h, Nat.add_sub_cancel' h, BitVec.getLsbD_eq_getElem hi, Bool.and_comm]
  · simp [h]

theorem extractLsb'_place {n lo : ℕ} (h : lo + n ≤ 16) (v : BitVec n) : (place lo v).extractLsb' lo n = v := by
  ext i hi
  rw [BitVec.getElem_extractLsb', BitVec.getLsbD_eq_getElem (by omega), getElem_place]
  simp [BitVec.getLsbD_eq_getElem hi]

theorem extractLsb'_and_fieldMask {n lo : ℕ} (h : lo + n ≤ 16) (w : Word) :
    (w &&& fieldMask n lo).extractLsb' lo n = w.extractLsb' lo n := by
  rw [← place_extractLsb', extractLsb'_place h]

theorem eq_extractLsb'_of_place {n lo : ℕ} {w : Word} {v : BitVec n} (h : lo + n ≤ 16)
    (hplace : place lo v = w &&& fieldMask n lo) : v = w.extractLsb' lo n := by
  rw [← extractLsb'_and_fieldMask h, ← hplace, extractLsb'_place h]

theorem and_not_of_and_eq_zero {x m : Word} (h : x &&& m = 0) : x &&& ~~~m = x := by
  have hsplit : x &&& (m ||| ~~~m) = x := by rw [BitVec.or_not_self, BitVec.and_allOnes]
  rw [BitVec.and_or_distrib_left, h] at hsplit
  exact BitVec.zero_or.symm.trans hsplit

/-- Two disjoint parts of a word, each under its own bits. -/
theorem or_and_of_disjoint {x y m n : Word} (hx : x &&& m = x) (hy : y &&& n = y) (h : m &&& n = 0) :
    (x ||| y) &&& m = x ∧ (x ||| y) &&& n = y := by
  have hym : y &&& m = 0 := by rw [← hy, BitVec.and_assoc, BitVec.and_comm n, h]; exact BitVec.and_zero
  have hxn : x &&& n = 0 := by rw [← hx, BitVec.and_assoc, h]; exact BitVec.and_zero
  rw [BitVec.and_or_distrib_right, BitVec.and_or_distrib_right, hx, hym, hxn, hy]
  exact ⟨BitVec.or_zero, BitVec.zero_or⟩

/-! ## Fields with a meaning -/

/-- A field of the opcode word: the bits it takes, how the decoder reads it, and how the encoder writes it. `read` is `get`
with what is done with the value: written so, the rows of the model are rows of fields by computation. `ok` are the values a
well-formed instruction has there, `never` are bit patterns that no word with such a value shows. -/
structure BitField (α : Type) where
  mask : Word
  get : Word → Option α
  read : (α → Option Instr) → Word → Option Instr
  put : α → Word
  ok : α → Bool
  never : List FixedBits
  read_eq : ∀ k w, read k w = (get w).bind k
  put_and_mask : ∀ a, put a &&& mask = put a
  put_of_get : ∀ {w a}, get w = some a → put a = w &&& mask
  get_of_put : ∀ {w a}, ok a = true → w &&& mask = put a → get w = some a
  ne_of_never : ∀ {w a}, get w = some a → ok a = true → ∀ b ∈ never, w &&& b.mask ≠ b.pattern

namespace BitField

/-- A code shows none of the listed bit patterns. -/
def avoids {n : ℕ} (never : List (BitVec n × BitVec n)) (x : BitVec n) : Bool := never.all fun b => decide (x &&& b.1 ≠ b.2)

/-- A field that is a code of `n` bits: the decoder looks at these bits alone, and it answers the value whose code they are. -/
def ofCode {α : Type} (n lo : ℕ) (get : Word → Option α) (code : α → BitVec n) (ok : α → Bool)
    (never : List (BitVec n × BitVec n)) (hlo : lo + n ≤ 16)
    (hget : ∀ w w' : Word, w.extractLsb' lo n = w'.extractLsb' lo n → get w = get w')
    (hcode : ∀ x, ∀ a ∈ get (place lo x), code a = x)
    (hok : ∀ a, ok a = true → get (place lo (code a)) = some a)
    (hnever : ∀ a, ok a = true → avoids never (code a) = true) : BitField α where
  mask := fieldMask n lo
  get := get
  read k w := (get w).bind k
  put a := place lo (code a)
  ok := ok
  never := never.map fun b => ⟨place lo b.1, place lo b.2⟩
  read_eq _ _ := rfl
  put_and_mask _ := place_and_fieldMask _ _
  put_of_get {w a} h := by
    rw [hcode (w.extractLsb' lo n) a ((hget _ _ (extractLsb'_place hlo _)).trans h), place_extractLsb']
  get_of_put {w a} ha h := by
    rw [← hok a ha, ← h]
    exact hget _ _ (extractLsb'_and_fieldMask hlo w).symm
  ne_of_never {w a} h ha b hb hbad := by
    obtain ⟨c, hc, rfl⟩ := List.mem_map.1 hb
    have hread := hcode (w.extractLsb' lo n) a ((hget _ _ (extractLsb'_place hlo _)).trans h)
    refine of_decide_eq_true (List.all_eq_true.1 (hnever a ha) c hc) (hread ▸ ?_)
    have hx := congrArg (BitVec.extractLsb' lo n) hbad
    rwa [BitVec.extractLsb'_and, extractLsb'_place hlo, extractLsb'_place hlo] at hx

/-- The field of a row that has none. -/
def none : BitField Unit where
  mask := 0
  get _ := some ()
  read k _ := k ()
  put _ := 0
  ok _ := true
  never := []
  read_eq _ _ := rfl
  put_and_mask _ := rfl
  put_of_get _ := BitVec.and_zero.symm
  get_of_put _ _ := rfl
  ne_of_never _ _ _ h := by cases h

/-- Two fields that take different bits. -/
def prod {α β : Type} (F : BitField α) (G : BitField β) (h : F.mask &&& G.mask = 0 := by decide) : BitField (α × β) where
  mask := F.mask ||| G.mask
  get w := (F.get w).bind fun a => (G.get w).bind fun b => some (a, b)
  read k w := F.read (fun a => G.read (fun b => k (a, b)) w) w
  put p := F.put p.1 ||| G.put p.2
  ok p := F.ok p.1 && G.ok p.2
  never := F.never ++ G.never
  read_eq k w := by simp only [F.read_eq, G.read_eq, Option.bind_assoc, Option.bind_some]
  put_and_mask p := by
    obtain ⟨hF, hG⟩ := or_and_of_disjoint (F.put_and_mask p.1) (G.put_and_mask p.2) h
    rw [BitVec.and_or_distrib_left, hF, hG]
  put_of_get {w p} hp := by
    simp only [Option.bind_eq_some_iff, Option.some.injEq] at hp
    obtain ⟨a, ha, b, hb, rfl⟩ := hp
    rw [F.put_of_get ha, G.put_of_get hb, BitVec.and_or_distrib_left]
  get_of_put {w p} hok hp := by
    obtain ⟨hokF, hokG⟩ := Bool.and_eq_true_iff.1 hok
    obtain ⟨hF, hG⟩ := or_and_of_disjoint (F.put_and_mask p.1) (G.put_and_mask p.2) h
    obtain ⟨hmF, hmG⟩ := or_and_of_disjoint BitVec.and_self BitVec.and_self h
    rw [← hp, BitVec.and_assoc] at hF hG
    rw [hmF] at hF
    rw [hmG] at hG
    rw [F.get_of_put hokF hF, G.get_of_put hokG hG]
    rfl
  ne_of_never {w p} hp hok b hb := by
    simp only [Option.bind_eq_some_iff, Option.some.injEq] at hp
    obtain ⟨a, hgetF, c, hgetG, rfl⟩ := hp
    obtain ⟨hokF, hokG⟩ := Bool.and_eq_true_iff.1 hok
    exact (List.mem_append.1 hb).elim (F.ne_of_never hgetF hokF b) (G.ne_of_never hgetG hokG b)

theorem prod_ok {α β : Type} {F : BitField α} {G : BitField β} {h : F.mask &&& G.mask = 0} {p : α × β}
    (hF : F.ok p.1 = true) (hG : G.ok p.2 = true) : (F.prod G h).ok p = true := Bool.and_eq_true_iff.2 ⟨hF, hG⟩

end BitField

/-! ## The fields of rules R131 to R143 -/

theorem regAt_eq (w : Word) (lo : ℕ) : regAt w lo = ⟨(w.extractLsb' lo 3).toNat, BitVec.isLt _⟩ :=
  Fin.ext (by simp [regAt])

theorem regAt_place {lo : ℕ} (h : lo + 3 ≤ 16) (v : BitVec 3) : regAt (place lo v) lo = ⟨v.toNat, v.isLt⟩ := by
  rw [regAt_eq]
  simp only [extractLsb'_place h]

theorem toNat_regCode (r : Reg) : (regCode r).toNat = r.val := Nat.mod_eq_of_lt r.isLt

theorem Ea.ofFields_code (ea : Ea) : Ea.ofFields ea.modeCode.toNat ea.regField.toNat = some ea := by
  cases ea <;> simp [Ea.modeCode, Ea.regField, Ea.ofFields, toNat_regCode, Nat.mod_eq_of_lt]

theorem Ea.codes_of_ofFields : ∀ m r : BitVec 3, ∀ ea ∈ Ea.ofFields m.toNat r.toNat, ea.modeCode = m ∧ ea.regField = r := by
  decide

/-- A six-bit field is its two halves. -/
theorem halves_append (x : BitVec 6) : x.extractLsb' 3 3 ++ x.extractLsb' 0 3 = x := by
  revert x
  decide

theorem halves_of_append (x y : BitVec 3) : (x ++ y).extractLsb' 3 3 = x ∧ (x ++ y).extractLsb' 0 3 = y :=
  ⟨BitVec.extractLsb'_append_eq_left, BitVec.extractLsb'_append_eq_right⟩

/-- A statement about every addressing mode, mode by mode. -/
theorem Ea.forall_of {P : Ea → Prop}
    (h : (∀ r, P (.dn r)) ∧ (∀ r, P (.an r)) ∧ (∀ r, P (.ind r)) ∧ (∀ r, P (.postinc r)) ∧ (∀ r, P (.predec r)) ∧
      (∀ r, P (.disp r)) ∧ (∀ r, P (.index r)) ∧ P .absW ∧ P .absL ∧ P .pcDisp ∧ P .pcIndex ∧ P .imm) (ea : Ea) : P ea := by
  obtain ⟨hdn, han, hind, hpostinc, hpredec, hdisp, hindex, habsW, habsL, hpcDisp, hpcIndex, himm⟩ := h
  cases ea with
  | dn r => exact hdn r
  | an r => exact han r
  | ind r => exact hind r
  | postinc r => exact hpostinc r
  | predec r => exact hpredec r
  | disp r => exact hdisp r
  | index r => exact hindex r
  | absW => exact habsW
  | absL => exact habsL
  | pcDisp => exact hpcDisp
  | pcIndex => exact hpcIndex
  | imm => exact himm

/-- A half of a six-bit field as bits of the word. -/
theorem extractLsb'_half (w : Word) (lo k : ℕ) (hk : k + 3 ≤ 6) :
    w.extractLsb' (lo + k) 3 = (w.extractLsb' lo 6).extractLsb' k 3 :=
  (Machine.extractLsb'_extractLsb'_of_le w hk).symm

theorem eaAt_eq (w : Word) : eaAt w =
    Ea.ofFields ((w.extractLsb' 0 6).extractLsb' 3 3).toNat ((w.extractLsb' 0 6).extractLsb' 0 3).toNat := by
  rw [← extractLsb'_half w 0 3 (by decide), ← extractLsb'_half w 0 0 (by decide)]
  simp [eaAt]

theorem destEaAt_eq (w : Word) : destEaAt w =
    Ea.ofFields ((w.extractLsb' 6 6).extractLsb' 0 3).toNat ((w.extractLsb' 6 6).extractLsb' 3 3).toNat := by
  rw [← extractLsb'_half w 6 3 (by decide), ← extractLsb'_half w 6 0 (by decide)]
  simp [destEaAt]

theorem addrSizeAt_eq (w : Word) (lo : ℕ) :
    addrSizeAt w lo = if (w.extractLsb' lo 1).getLsbD 0 then .l else .w := by
  simp [addrSizeAt]

theorem xModeAt_eq (w : Word) : xModeAt w = if (w.extractLsb' 3 1).getLsbD 0 then .mem else .reg := by
  simp [xModeAt]

namespace BitField

/-- A register number (rule R131). -/
def reg (lo : ℕ) (hlo : lo + 3 ≤ 16 := by decide) : BitField Reg :=
  ofCode 3 lo (fun w => some (regAt w lo)) regCode (fun _ => true) [] hlo
    (fun w w' h => by simp only [regAt_eq, h])
    (fun x a h => by
      obtain rfl := Option.some.inj h
      rw [regAt_place hlo]
      exact BitVec.ofNat_toNat ..)
    (fun a _ => by simp only [regAt_place hlo, toNat_regCode])
    (fun _ _ => rfl)

/-- `n` bits as they stand. -/
def bits (n lo : ℕ) (hlo : lo + n ≤ 16 := by decide) : BitField (BitVec n) :=
  ofCode n lo (fun w => some (w.extractLsb' lo n)) id (fun _ => true) [] hlo
    (fun _ _ h => congrArg some h)
    (fun _ _ h => (Option.some.inj h).symm.trans (extractLsb'_place hlo _))
    (fun _ _ => congrArg some (extractLsb'_place hlo _))
    (fun _ _ => rfl)

/-- The standard size (rule R135). -/
def size : BitField Size :=
  ofCode 2 6 sizeAt Size.code (fun _ => true) [(3, 3)] (by decide) (fun w w' h => by simp only [sizeAt, h])
    (by decide) (fun sz _ => by cases sz <;> rfl) (fun sz _ => by cases sz <;> rfl)

/-- MOVE's size (rule R135). -/
def moveSize : BitField Size :=
  ofCode 2 12 moveSizeAt Size.moveCode (fun _ => true) [(3, 0)] (by decide) (fun w w' h => by simp only [moveSizeAt, h])
    (by decide) (fun sz _ => by cases sz <;> rfl) (fun sz _ => by cases sz <;> rfl)

/-- MOVEA's size (rule R147). -/
def moveAddrSize : BitField AddrSize :=
  ofCode 2 12 moveAddrSizeAt (fun sz => sz.toSize.moveCode) (fun _ => true) [(3, 0)] (by decide)
    (fun w w' h => by simp only [moveAddrSizeAt, h]) (by decide) (fun sz _ => by cases sz <;> rfl)
    (fun sz _ => by cases sz <;> rfl)

/-- A one-bit size at bit `lo` (rule R135). -/
def addrSize (lo : ℕ) (hlo : lo + 1 ≤ 16 := by decide) : BitField AddrSize :=
  ofCode 1 lo (fun w => some (addrSizeAt w lo)) AddrSize.code (fun _ => true) [] hlo
    (fun w w' h => by simp only [addrSizeAt_eq, h])
    (by
      simp only [addrSizeAt_eq, extractLsb'_place hlo]
      decide)
    (fun sz _ => by
      rw [addrSizeAt_eq, extractLsb'_place hlo]
      cases sz <;> rfl)
    (fun _ _ => rfl)

/-- Bit 3 of format F_X (rule R131). -/
def xMode : BitField XMode :=
  ofCode 1 3 (fun w => some (xModeAt w)) XMode.code (fun _ => true) [] (by decide)
    (fun w w' h => by simp only [xModeAt_eq, h])
    (by decide) (fun m _ => by cases m <;> rfl) (fun _ _ => rfl)

/-- MOVEP's opmode (rule R258). -/
def movepMode : BitField MovepMode :=
  ofCode 2 6 (fun w => some (movepModeAt w)) MovepMode.code (fun _ => true) [] (by decide)
    (fun w w' h => by simp only [movepModeAt, h]) (by decide) (fun m _ => by cases m <;> rfl) (fun _ _ => rfl)

/-- A condition among those of a row (rule R143). -/
def cond (ok : Cond → Bool) (never : List (BitVec 4 × BitVec 4))
    (hnever : ∀ c, ok c = true → avoids never c.code = true := by exact fun c => by cases c <;> decide) : BitField Cond :=
  ofCode 4 8 (fun w => some (condAt w)) Cond.code ok never (by decide)
    (fun w w' h => by
      have hcode := congrArg BitVec.toNat h
      simp only [BitVec.extractLsb'_toNat] at hcode
      exact congrArg (fun n => some (Cond.ofCode n)) hcode)
    (by decide) (fun c _ => by cases c <;> rfl) hnever

/-- Quick data (rule R141). -/
def quick : BitField ℕ :=
  ofCode 3 9 (fun w => some (quickAt w)) quickCode quickOk [] (by decide)
    (fun w w' h => by
      have hcode := congrArg BitVec.toNat h
      simp only [BitVec.extractLsb'_toNat] at hcode
      exact congrArg (fun n => some (if n = 0 then 8 else n)) hcode)
    (by decide)
    (fun q h => by
      obtain ⟨hlow, hhigh⟩ := Bool.and_eq_true_iff.1 h
      have hl := of_decide_eq_true hlow
      have hh := of_decide_eq_true hhigh
      interval_cases q <;> rfl)
    (fun _ _ => rfl)

/-- An addressing mode among those of a row (rules R132 to R134). -/
def ea (ok : Ea → Bool) (never : List (BitVec 6 × BitVec 6))
    (hnever : ∀ a, ok a = true → avoids never a.code = true := by exact Ea.forall_of (by decide)) : BitField Ea :=
  ofCode 6 0 eaAt Ea.code ok never (by decide)
    (fun w w' h => by rw [eaAt_eq, eaAt_eq, h])
    (fun x a h => by
      rw [eaAt_eq, extractLsb'_place (by decide)] at h
      obtain ⟨hmode, hreg⟩ := Ea.codes_of_ofFields _ _ a h
      rw [Ea.code, hmode, hreg, halves_append])
    (fun a _ => by
      obtain ⟨hmode, hreg⟩ := halves_of_append a.modeCode a.regField
      rw [eaAt_eq, extractLsb'_place (by decide), Ea.code, hmode, hreg, Ea.ofFields_code])
    hnever

/-- MOVE's destination: its fields stand the other way round (rule R132). -/
def destEa : BitField Ea :=
  ofCode 6 6 destEaAt Ea.destCode Ea.isDataAlterable [(0b000111, 0b000001)] (by decide)
    (fun w w' h => by rw [destEaAt_eq, destEaAt_eq, h])
    (fun x a h => by
      rw [destEaAt_eq, extractLsb'_place (by decide)] at h
      obtain ⟨hmode, hreg⟩ := Ea.codes_of_ofFields _ _ a h
      rw [Ea.destCode, hmode, hreg, halves_append])
    (fun a _ => by
      obtain ⟨hreg, hmode⟩ := halves_of_append a.regField a.modeCode
      rw [destEaAt_eq, extractLsb'_place (by decide), Ea.destCode, hmode, hreg, Ea.ofFields_code])
    (Ea.forall_of (by decide))

/-- The count field of a register shift and bit 5 as they stand (rule R142). -/
def shiftBits : BitField (BitVec 3 × BitVec 1) := (bits 3 9).prod (bits 1 5)

end BitField

/-- The number a shift count is written with. -/
def ShiftCount.number : ShiftCount → BitVec 3
  | .imm n => quickCode n
  | .reg r => regCode r

/-- Bit 5 of a register shift. -/
def ShiftCount.flag : ShiftCount → BitVec 1
  | .imm _ => 0
  | .reg _ => 1

theorem ShiftCount.code_eq (c : ShiftCount) : c.code = BitField.shiftBits.put (c.number, c.flag) := by
  cases c with
  | imm n => exact BitVec.or_zero.symm
  | reg r => rfl

theorem flag_eq (w : Word) : w.extractLsb' 5 1 = BitVec.ofBool (w.getLsbD 5) := by
  ext i hi
  obtain rfl : i = 0 := by omega
  simp

theorem ShiftCount.bits_of_shiftCountAt (w : Word) :
    BitField.shiftBits.get w = some ((shiftCountAt w).number, (shiftCountAt w).flag) := by
  have hreg : regCode (regAt w 9) = w.extractLsb' 9 3 :=
    eq_extractLsb'_of_place (by decide) ((BitField.reg 9).put_of_get rfl)
  have hquick : quickCode (quickAt w) = w.extractLsb' 9 3 :=
    eq_extractLsb'_of_place (by decide) (BitField.quick.put_of_get rfl)
  have hbits : BitField.shiftBits.get w = some (w.extractLsb' 9 3, w.extractLsb' 5 1) := rfl
  rw [hbits, flag_eq, shiftCountAt]
  cases w.getLsbD 5 with
  | true => rw [if_pos rfl, number, hreg]; rfl
  | false => rw [if_neg Bool.false_ne_true, number, hquick]; rfl

theorem ShiftCount.shiftCountAt_of_bits {w : Word} {c : ShiftCount} (hok : c.ok = true)
    (hnumber : w.extractLsb' 9 3 = c.number) (hflag : w.extractLsb' 5 1 = c.flag) : shiftCountAt w = c := by
  have hput := (place_extractLsb' 3 9 w).symm.trans (congrArg (place 9) hnumber)
  have hbit : w.getLsbD 5 = c.flag.getLsbD 0 := by rw [← hflag]; simp
  cases c with
  | imm n => rw [shiftCountAt, if_neg (by rw [hbit]; simp [flag]), Option.some.inj (BitField.quick.get_of_put hok hput)]
  | reg r => rw [shiftCountAt, if_pos (by rw [hbit]; simp [flag]), Option.some.inj ((BitField.reg 9).get_of_put rfl hput)]

namespace BitField

/-- The count of a register shift (rule R142). -/
def shiftCount : BitField ShiftCount where
  mask := shiftBits.mask
  get w := some (shiftCountAt w)
  read k w := k (shiftCountAt w)
  put := ShiftCount.code
  ok := ShiftCount.ok
  never := []
  read_eq _ _ := rfl
  put_and_mask c := by rw [c.code_eq, shiftBits.put_and_mask]
  put_of_get {w c} h := by
    obtain rfl := Option.some.inj h
    rw [ShiftCount.code_eq, shiftBits.put_of_get (ShiftCount.bits_of_shiftCountAt w)]
  get_of_put {w c} hok h := by
    have hbits := Option.some.inj (shiftBits.get_of_put (a := (c.number, c.flag)) rfl (h.trans c.code_eq))
    obtain ⟨hnumber, hflag⟩ := Prod.mk.inj hbits
    exact congrArg some (ShiftCount.shiftCountAt_of_bits hok hnumber hflag)
  ne_of_never _ _ _ h := by cases h

/-! Addressing modes of the rows. The patterns are those that tell two rows of a line apart: mode 000, mode 001, both of them,
and `#<data>`. -/

/-- The modes of a row that needs no pattern. -/
def eaAny : BitField Ea := ea (fun _ => true) []

/-- Category "data" (rule R134). -/
def eaData : BitField Ea := ea Ea.isData [(0b111000, 0b001000)]

/-- Category "data alterable" (rule R134). -/
def eaDataAlterable : BitField Ea := ea Ea.isDataAlterable [(0b111000, 0b001000), (0b111111, 0b111100)]

/-- Category "memory alterable" (rule R134). -/
def eaMemoryAlterable : BitField Ea := ea Ea.isMemoryAlterable [(0b110000, 0b000000)]

/-- Category "control" (rule R134). -/
def eaControl : BitField Ea := ea Ea.isControl [(0b111000, 0b000000)]

/-- The set "control alterable or -(An)" (rule R134). -/
def eaMovemStore : BitField Ea := ea Ea.isMovemStore [(0b111000, 0b000000)]

/-- Every condition. -/
def condAny : BitField Cond := cond (fun _ => true) []

/-- The conditions of Bcc: the codes of T and F stand for BRA and BSR (rule R150). -/
def condBranch : BitField Cond := cond (fun c => decide (c ≠ .t) && decide (c ≠ .f)) [(0b1110, 0b0000)]

end BitField

end Sys2Proof
end

section
/-! The opcode map of the decoder as fields (rules R146 to R159): each row is the row of a `Form`, and no word is read by two
rows of a line. -/

namespace Sys2Proof

/-! ## The rows -/

/-- A row as its fields: the fixed bits, the fields and the instruction they make. The encoder writes the same fixed bits and
fields, and a well-formed instruction has `ok` values in them. -/
structure Form where
  {α : Type}
  field : BitField α
  pattern : Word
  make : α → Instr
  pattern_and_mask : pattern &&& field.mask = 0 := by decide
  fixedBits_make : ∀ a, (make a).fixedBits = ⟨~~~field.mask, pattern⟩ := by exact fun _ => rfl
  operandBits_make : ∀ a, (make a).operandBits = field.put a := by exact fun _ => rfl
  ok_of_wellFormed : ∀ a, (make a).wellFormed = true → field.ok a = true := by exact fun _ h => h

namespace Form

/-- The row of the opcode map that a form describes. -/
def row (F : Form) : Row := ⟨~~~F.field.mask, F.pattern, F.field.read fun a => some (F.make a)⟩

end Form

/-! The forms of each line, in the order of its rows. -/

section Lines

open BitField

/-- The fields of ADDQ and SUBQ (rule R149). -/
def quickFields : BitField ((ℕ × Size) × Ea) := (quick.prod size).prod eaAny

/-- The fields of a register shift (rule R158). -/
def shiftFields : BitField ((ShiftCount × Size) × Reg) := (shiftCount.prod size).prod (reg 0)

theorem quick_ok {p : (ℕ × Size) × Ea} (h : (quickOk p.1.1 && p.2.isAlterable && p.2.sizeOk p.1.2) = true) :
    quickFields.ok p = true := by
  obtain ⟨hquick, _⟩ := Bool.and_eq_true_iff.1 h
  obtain ⟨hquick, _⟩ := Bool.and_eq_true_iff.1 hquick
  exact prod_ok (prod_ok hquick rfl) rfl

theorem shift_ok {p : (ShiftCount × Size) × Reg} (h : p.1.1.ok = true) :
    shiftFields.ok p = true := prod_ok (prod_ok h rfl) rfl

def line0Forms : List Form := [
  .mk .none 0x003C fun _ => .oriToCcr,
  .mk .none 0x007C fun _ => .oriToSr,
  .mk (size.prod eaDataAlterable) 0x0000 fun (sz, ea) => .ori sz ea,
  .mk .none 0x023C fun _ => .andiToCcr,
  .mk .none 0x027C fun _ => .andiToSr,
  .mk (size.prod eaDataAlterable) 0x0200 fun (sz, ea) => .andi sz ea,
  .mk .none 0x0A3C fun _ => .eoriToCcr,
  .mk .none 0x0A7C fun _ => .eoriToSr,
  .mk (size.prod eaDataAlterable) 0x0A00 fun (sz, ea) => .eori sz ea,
  .mk (size.prod eaDataAlterable) 0x0400 fun (sz, ea) => .subi sz ea,
  .mk (size.prod eaDataAlterable) 0x0600 fun (sz, ea) => .addi sz ea,
  .mk (size.prod eaDataAlterable) 0x0C00 fun (sz, ea) => .cmpi sz ea,
  .mk eaAny 0x0800 (fun ea => .btst ea) (ok_of_wellFormed := fun _ _ => rfl),
  .mk eaDataAlterable 0x0840 fun ea => .bchg ea,
  .mk eaDataAlterable 0x0880 fun ea => .bclr ea,
  .mk eaDataAlterable 0x08C0 fun ea => .bset ea,
  .mk ((reg 9).prod eaData) 0x0100 fun (x, ea) => .btstDn x ea,
  .mk ((reg 9).prod eaDataAlterable) 0x0140 fun (x, ea) => .bchgDn x ea,
  .mk ((reg 9).prod eaDataAlterable) 0x0180 fun (x, ea) => .bclrDn x ea,
  .mk ((reg 9).prod eaDataAlterable) 0x01C0 fun (x, ea) => .bsetDn x ea,
  .mk ((movepMode.prod (reg 9)).prod (reg 0)) 0x0108 fun ((m, x), y) => .movep m x y]

def line1Forms : List Form := [
  .mk ((moveSize.prod eaAny).prod destEa) 0x0000 (fun ((sz, src), dst) => .move sz src dst)
    (ok_of_wellFormed := fun _ h => (Bool.and_eq_true_iff.1 h).2),
  .mk ((moveAddrSize.prod eaAny).prod (reg 9)) 0x0040 fun ((sz, src), r) => .movea sz src r]

def line4Forms : List Form := [
  .mk (size.prod eaDataAlterable) 0x4000 fun (sz, ea) => .negx sz ea,
  .mk eaDataAlterable 0x40C0 fun ea => .moveFromSr ea,
  .mk ((reg 9).prod eaData) 0x4180 fun (x, ea) => .chk x ea,
  .mk ((reg 9).prod eaControl) 0x41C0 fun (x, ea) => .lea x ea,
  .mk (size.prod eaDataAlterable) 0x4200 fun (sz, ea) => .clr sz ea,
  .mk (size.prod eaDataAlterable) 0x4400 fun (sz, ea) => .neg sz ea,
  .mk eaData 0x44C0 fun ea => .moveToCcr ea,
  .mk (size.prod eaDataAlterable) 0x4600 fun (sz, ea) => .notEa sz ea,
  .mk eaData 0x46C0 fun ea => .moveToSr ea,
  .mk eaDataAlterable 0x4800 fun ea => .nbcd ea,
  .mk (reg 0) 0x4840 fun y => .swap y,
  .mk eaControl 0x4840 fun ea => .pea ea,
  .mk ((addrSize 6).prod (reg 0)) 0x4880 fun (sz, y) => .extDn sz y,
  .mk ((addrSize 6).prod eaMovemStore) 0x4880 fun (sz, ea) => .movemToMem sz ea,
  .mk (size.prod eaDataAlterable) 0x4A00 fun (sz, ea) => .tst sz ea,
  .mk eaDataAlterable 0x4AC0 fun ea => .tas ea,
  .mk .none 0x4AFC fun _ => .illegal,
  .mk ((addrSize 6).prod eaAny) 0x4C80 (fun (sz, ea) => .movemToReg sz ea) (ok_of_wellFormed := fun _ _ => rfl),
  .mk (bits 4 0) 0x4E40 fun v => .trap v,
  .mk (reg 0) 0x4E50 fun y => .link y,
  .mk (reg 0) 0x4E58 fun y => .unlk y,
  .mk (reg 0) 0x4E60 fun y => .moveToUsp y,
  .mk (reg 0) 0x4E68 fun y => .moveFromUsp y,
  .mk .none 0x4E70 fun _ => .reset,
  .mk .none 0x4E71 fun _ => .nop,
  .mk .none 0x4E72 fun _ => .stop,
  .mk .none 0x4E73 fun _ => .rte,
  .mk .none 0x4E75 fun _ => .rts,
  .mk .none 0x4E76 fun _ => .trapv,
  .mk .none 0x4E77 fun _ => .rtr,
  .mk eaControl 0x4E80 fun ea => .jsr ea,
  .mk eaControl 0x4EC0 fun ea => .jmp ea]

def line5Forms : List Form := [
  .mk quickFields 0x5000 (fun ((q, sz), ea) => .addq q sz ea) (ok_of_wellFormed := fun _ => quick_ok),
  .mk quickFields 0x5100 (fun ((q, sz), ea) => .subq q sz ea) (ok_of_wellFormed := fun _ => quick_ok),
  .mk (condAny.prod eaDataAlterable) 0x50C0 fun (c, ea) => .scc c ea,
  .mk (condAny.prod (reg 0)) 0x50C8 fun (c, y) => .dbcc c y]

def line6Forms : List Form := [
  .mk (bits 8 0) 0x6000 fun k => .bra k,
  .mk (bits 8 0) 0x6100 fun k => .bsr k,
  .mk (condBranch.prod (bits 8 0)) 0x6000 (fun (c, k) => .bcc c k) (ok_of_wellFormed := fun _ h => prod_ok h rfl)]

def line7Forms : List Form := [
  .mk ((reg 9).prod (bits 8 0)) 0x7000 fun (x, k) => .moveq x k]

def line8Forms : List Form := [
  .mk ((size.prod (reg 9)).prod eaData) 0x8000 fun ((sz, x), ea) => .orToDn sz x ea,
  .mk ((size.prod (reg 9)).prod eaMemoryAlterable) 0x8100 fun ((sz, x), ea) => .orToEa sz x ea,
  .mk ((reg 9).prod eaData) 0x80C0 fun (x, ea) => .divu x ea,
  .mk ((reg 9).prod eaData) 0x81C0 fun (x, ea) => .divs x ea,
  .mk ((xMode.prod (reg 9)).prod (reg 0)) 0x8100 fun ((m, x), y) => .sbcd m x y]

def line9Forms : List Form := [
  .mk ((size.prod (reg 9)).prod eaAny) 0x9000 (fun ((sz, x), ea) => .subToDn sz x ea) (ok_of_wellFormed := fun _ _ => rfl),
  .mk ((size.prod (reg 9)).prod eaMemoryAlterable) 0x9100 fun ((sz, x), ea) => .subToEa sz x ea,
  .mk (((addrSize 8).prod (reg 9)).prod eaAny) 0x90C0 fun ((sz, x), ea) => .suba sz x ea,
  .mk (((xMode.prod size).prod (reg 9)).prod (reg 0)) 0x9100 fun (((m, sz), x), y) => .subx m sz x y]

def line10Forms : List Form := [
  .mk (bits 12 0) 0xA000 fun d => .lineA d]

def line11Forms : List Form := [
  .mk ((size.prod (reg 9)).prod eaAny) 0xB000 (fun ((sz, x), ea) => .cmp sz x ea) (ok_of_wellFormed := fun _ _ => rfl),
  .mk (((addrSize 8).prod (reg 9)).prod eaAny) 0xB0C0 fun ((sz, x), ea) => .cmpa sz x ea,
  .mk ((size.prod (reg 9)).prod eaDataAlterable) 0xB100 fun ((sz, x), ea) => .eor sz x ea,
  .mk ((size.prod (reg 9)).prod (reg 0)) 0xB108 fun ((sz, x), y) => .cmpm sz x y]

def line12Forms : List Form := [
  .mk ((size.prod (reg 9)).prod eaData) 0xC000 fun ((sz, x), ea) => .andToDn sz x ea,
  .mk ((size.prod (reg 9)).prod eaMemoryAlterable) 0xC100 fun ((sz, x), ea) => .andToEa sz x ea,
  .mk ((reg 9).prod eaData) 0xC0C0 fun (x, ea) => .mulu x ea,
  .mk ((reg 9).prod eaData) 0xC1C0 fun (x, ea) => .muls x ea,
  .mk ((xMode.prod (reg 9)).prod (reg 0)) 0xC100 fun ((m, x), y) => .abcd m x y,
  .mk ((reg 9).prod (reg 0)) 0xC140 fun (x, y) => .exgDxDy x y,
  .mk ((reg 9).prod (reg 0)) 0xC148 fun (x, y) => .exgAxAy x y,
  .mk ((reg 9).prod (reg 0)) 0xC188 fun (x, y) => .exgDxAy x y]

def line13Forms : List Form := [
  .mk ((size.prod (reg 9)).prod eaAny) 0xD000 (fun ((sz, x), ea) => .addToDn sz x ea) (ok_of_wellFormed := fun _ _ => rfl),
  .mk ((size.prod (reg 9)).prod eaMemoryAlterable) 0xD100 fun ((sz, x), ea) => .addToEa sz x ea,
  .mk (((addrSize 8).prod (reg 9)).prod eaAny) 0xD0C0 fun ((sz, x), ea) => .adda sz x ea,
  .mk (((xMode.prod size).prod (reg 9)).prod (reg 0)) 0xD100 fun (((m, sz), x), y) => .addx m sz x y]

def line14Forms : List Form := [
  .mk shiftFields 0xE000 (fun ((c, sz), y) => .asrReg c sz y) (ok_of_wellFormed := fun _ => shift_ok),
  .mk shiftFields 0xE100 (fun ((c, sz), y) => .aslReg c sz y) (ok_of_wellFormed := fun _ => shift_ok),
  .mk shiftFields 0xE008 (fun ((c, sz), y) => .lsrReg c sz y) (ok_of_wellFormed := fun _ => shift_ok),
  .mk shiftFields 0xE108 (fun ((c, sz), y) => .lslReg c sz y) (ok_of_wellFormed := fun _ => shift_ok),
  .mk shiftFields 0xE010 (fun ((c, sz), y) => .roxrReg c sz y) (ok_of_wellFormed := fun _ => shift_ok),
  .mk shiftFields 0xE110 (fun ((c, sz), y) => .roxlReg c sz y) (ok_of_wellFormed := fun _ => shift_ok),
  .mk shiftFields 0xE018 (fun ((c, sz), y) => .rorReg c sz y) (ok_of_wellFormed := fun _ => shift_ok),
  .mk shiftFields 0xE118 (fun ((c, sz), y) => .rolReg c sz y) (ok_of_wellFormed := fun _ => shift_ok),
  .mk eaMemoryAlterable 0xE0C0 fun ea => .asrMem ea,
  .mk eaMemoryAlterable 0xE1C0 fun ea => .aslMem ea,
  .mk eaMemoryAlterable 0xE2C0 fun ea => .lsrMem ea,
  .mk eaMemoryAlterable 0xE3C0 fun ea => .lslMem ea,
  .mk eaMemoryAlterable 0xE4C0 fun ea => .roxrMem ea,
  .mk eaMemoryAlterable 0xE5C0 fun ea => .roxlMem ea,
  .mk eaMemoryAlterable 0xE6C0 fun ea => .rorMem ea,
  .mk eaMemoryAlterable 0xE7C0 fun ea => .rolMem ea]

def line15Forms : List Form := [
  .mk (bits 12 0) 0xF000 fun d => .lineF d]

end Lines

/-- The forms of a line, as `lineRows` lists its rows. -/
def lineForms : ℕ → List Form
  | 0 => line0Forms
  | 1 => line1Forms
  | 2 => line1Forms
  | 3 => line1Forms
  | 4 => line4Forms
  | 5 => line5Forms
  | 6 => line6Forms
  | 7 => line7Forms
  | 8 => line8Forms
  | 9 => line9Forms
  | 10 => line10Forms
  | 11 => line11Forms
  | 12 => line12Forms
  | 13 => line13Forms
  | 14 => line14Forms
  | _ => line15Forms

/-- The opcode map of the decoder is the list of the forms' rows. -/
theorem lineRows_eq (l : ℕ) : lineRows l = (lineForms l).map Form.row := by
  match l with
  | 0 => rfl
  | 1 | 2 | 3 => rfl
  | 4 => rfl
  | 5 => rfl
  | 6 => rfl
  | 7 => rfl
  | 8 => rfl
  | 9 => rfl
  | 10 => rfl
  | 11 => rfl
  | 12 => rfl
  | 13 => rfl
  | 14 => rfl
  | n + 15 => rfl

theorem Row.read_eq_filter (r : Row) (w : Word) :
    r.read w = if w &&& r.mask = r.pattern then (r.build w).filter Instr.wellFormed else none := by
  unfold Row.read
  cases r.build w <;> rfl

theorem Row.read_eq_some_iff {r : Row} {w : Word} {i : Instr} :
    r.read w = some i ↔ w &&& r.mask = r.pattern ∧ r.build w = some i ∧ i.wellFormed = true := by
  simp only [Row.read_eq_filter, Option.ite_none_right_eq_some, Option.filter_eq_some_iff]

namespace Form

variable {F G : Form} {w : Word} {i : Instr}

theorem build_eq_some_iff (F : Form) (w : Word) (i : Instr) :
    F.row.build w = some i ↔ ∃ a, F.field.get w = some a ∧ F.make a = i := by
  simp only [row, F.field.read_eq, Option.bind_eq_some_iff, Option.some.injEq]

theorem encode_make (F : Form) (a : F.α) : encode (F.make a) = F.pattern ||| F.field.put a := by
  rw [encode, F.fixedBits_make, F.operandBits_make]

/-- What a row reads: its fixed bits stand in the word, and its fields make a well-formed instruction. -/
theorem of_read (h : F.row.read w = some i) :
    w &&& ~~~F.field.mask = F.pattern ∧ i.wellFormed = true ∧ ∃ a, F.field.get w = some a ∧ F.make a = i := by
  obtain ⟨hmatch, hbuild, hwf⟩ := Row.read_eq_some_iff.1 h
  exact ⟨hmatch, hwf, (F.build_eq_some_iff w i).1 hbuild⟩

/-- The encoder writes back the fields that a row reads, beside its fixed bits (rules R170, R173). -/
theorem encode_of_read (h : F.row.read w = some i) : encode i = w := by
  obtain ⟨hmatch, -, a, hget, rfl⟩ := of_read h
  rw [encode_make, F.field.put_of_get hget, ← hmatch, ← BitVec.and_or_distrib_left, BitVec.or_comm, BitVec.or_not_self,
    BitVec.and_allOnes]

/-- A row reads the encoding of every well-formed instruction it makes. -/
theorem read_encode (F : Form) (a : F.α) (h : (F.make a).wellFormed = true) :
    F.row.read (encode (F.make a)) = some (F.make a) := by
  have hpattern := and_not_of_and_eq_zero F.pattern_and_mask
  have hdisjoint : ~~~F.field.mask &&& F.field.mask = 0 := (BitVec.and_comm _ _).trans (BitVec.and_not_self _)
  obtain ⟨hfixed, hfields⟩ := or_and_of_disjoint hpattern (F.field.put_and_mask a) hdisjoint
  have hget := F.field.get_of_put (F.ok_of_wellFormed a h) hfields
  have hbuild := (F.build_eq_some_iff _ (F.make a)).2 ⟨a, hget, rfl⟩
  rw [encode_make]
  exact Row.read_eq_some_iff.2 ⟨hfixed, hbuild, h⟩

/-- Every word of the row shows the bits of `b`. -/
def shows (F : Form) (b : FixedBits) : Bool :=
  decide (b.mask &&& F.field.mask = 0) && decide (F.pattern &&& b.mask = b.pattern)

theorem and_mask_of_shows {b : FixedBits} (hb : F.shows b = true) (h : F.row.read w = some i) :
    w &&& b.mask = b.pattern := by
  obtain ⟨hfree, hshown⟩ := Bool.and_eq_true_iff.1 hb
  obtain ⟨hmatch, -⟩ := of_read h
  have hfixed := and_not_of_and_eq_zero (of_decide_eq_true hfree)
  rw [← of_decide_eq_true hshown, ← hmatch, BitVec.and_assoc, BitVec.and_comm (~~~_), hfixed]

theorem ne_of_never {b : FixedBits} (hb : b ∈ F.field.never) (h : F.row.read w = some i) :
    w &&& b.mask ≠ b.pattern := by
  obtain ⟨-, hwf, a, hget, rfl⟩ := of_read h
  exact F.field.ne_of_never hget (F.ok_of_wellFormed a hwf) b hb

/-- Two rows that read no word in common: their fixed bits differ, or one has fixed bits that a field of the other never
shows. -/
def separated (F G : Form) : Bool :=
  decide (F.pattern &&& ~~~G.field.mask ≠ G.pattern &&& ~~~F.field.mask) || F.field.never.any G.shows ||
    G.field.never.any F.shows

theorem not_both_of_separated {j : Instr} (h : separated F G = true) (hF : F.row.read w = some i)
    (hG : G.row.read w = some j) : False := by
  rcases Bool.or_eq_true_iff.1 h with h | h
  · rcases Bool.or_eq_true_iff.1 h with h | h
    · obtain ⟨hmF, -⟩ := of_read hF
      obtain ⟨hmG, -⟩ := of_read hG
      refine of_decide_eq_true h ?_
      rw [← hmF, ← hmG, BitVec.and_assoc, BitVec.and_assoc, BitVec.and_comm (~~~_)]
    · obtain ⟨b, hb, hshows⟩ := List.any_eq_true.1 h
      exact ne_of_never hb hF (and_mask_of_shows hshows hG)
  · obtain ⟨b, hb, hshows⟩ := List.any_eq_true.1 h
    exact ne_of_never hb hG (and_mask_of_shows hshows hF)

end Form

/-- No two rows of a line read a word in common. -/
theorem lineForms_separated (l : ℕ) : (lineForms l).Pairwise fun F G => F.separated G = true := by
  match l with
  | 0 => decide
  | 1 | 2 | 3 => decide
  | 4 => decide
  | 5 => decide
  | 6 => decide
  | 7 => decide
  | 8 => decide
  | 9 => decide
  | 10 => decide
  | 11 => decide
  | 12 => decide
  | 13 => decide
  | 14 => decide
  | n + 15 => exact List.pairwise_singleton _ _

end Sys2Proof
end

section
/-! Decoding and encoding (O1, O2): what a row reads encodes to the word, and an instruction's own row reads its word. -/

namespace Sys2Proof

theorem decode_eq_ok_iff (w : Word) (i : Instr) :
    decode w = .ok i ↔ (lineRows (w.toNat >>> 12)).findSome? (fun r => r.read w) = some i := by
  unfold decode
  split
  · rename_i j hj
    simp [hj]
  · rename_i hnone
    simp [hnone]

/-- In a line of separated rows the first row that reads a word is the only one. -/
theorem findSome?_read {w : Word} {i : Instr} {F : Form} : ∀ {l : List Form},
    (l.Pairwise fun F G => F.separated G = true) → F ∈ l → F.row.read w = some i →
    (l.map Form.row).findSome? (fun r => r.read w) = some i
  | G :: l, hpairwise, hmem, hread => by
    obtain ⟨hfirst, hrest⟩ := List.pairwise_cons.1 hpairwise
    rcases List.mem_cons.1 hmem with rfl | hlater
    · simp only [List.map_cons, List.findSome?_cons, hread]
    · cases hG : G.row.read w with
      | none =>
        simp only [List.map_cons, List.findSome?_cons, hG]
        exact findSome?_read hrest hlater hread
      | some j => exact (Form.not_both_of_separated (hfirst F hlater) hG hread).elim

/-- Settles O2: the row that reads the word is a form, and its fields are the word's. -/
theorem encodeDecode : Obligations.EncodeDecode := by
  intro w i h
  obtain ⟨r, hr, hread⟩ := List.exists_of_findSome?_eq_some ((decode_eq_ok_iff w i).1 h)
  rw [lineRows_eq] at hr
  obtain ⟨F, -, rfl⟩ := List.mem_map.1 hr
  exact ⟨Form.encode_of_read hread, (Form.of_read hread).2.1⟩

/-- The opcode map has a row that makes the instruction. -/
def InMap (i : Instr) : Prop := ∃ l, ∃ F ∈ lineForms l, ∃ a, F.make a = i

theorem inMap_make (l k : ℕ) (hk : k < (lineForms l).length := by decide) (a : ((lineForms l)[k]).α) :
    InMap ((lineForms l)[k].make a) := ⟨l, _, List.getElem_mem hk, a, rfl⟩

/-- Every instruction has its row: the line, the place in it and the values of its fields. -/
theorem Instr.inMap (i : Instr) : InMap i := by
  cases i with
  | oriToCcr => exact inMap_make 0 0 (a := ())
  | oriToSr => exact inMap_make 0 1 (a := ())
  | ori sz ea => exact inMap_make 0 2 (a := (sz, ea))
  | andiToCcr => exact inMap_make 0 3 (a := ())
  | andiToSr => exact inMap_make 0 4 (a := ())
  | andi sz ea => exact inMap_make 0 5 (a := (sz, ea))
  | eoriToCcr => exact inMap_make 0 6 (a := ())
  | eoriToSr => exact inMap_make 0 7 (a := ())
  | eori sz ea => exact inMap_make 0 8 (a := (sz, ea))
  | subi sz ea => exact inMap_make 0 9 (a := (sz, ea))
  | addi sz ea => exact inMap_make 0 10 (a := (sz, ea))
  | cmpi sz ea => exact inMap_make 0 11 (a := (sz, ea))
  | btst ea => exact inMap_make 0 12 (a := ea)
  | bchg ea => exact inMap_make 0 13 (a := ea)
  | bclr ea => exact inMap_make 0 14 (a := ea)
  | bset ea => exact inMap_make 0 15 (a := ea)
  | btstDn x ea => exact inMap_make 0 16 (a := (x, ea))
  | bchgDn x ea => exact inMap_make 0 17 (a := (x, ea))
  | bclrDn x ea => exact inMap_make 0 18 (a := (x, ea))
  | bsetDn x ea => exact inMap_make 0 19 (a := (x, ea))
  | movep m x y => exact inMap_make 0 20 (a := ((m, x), y))
  | move sz src dst => exact inMap_make 1 0 (a := ((sz, src), dst))
  | movea sz src r => exact inMap_make 1 1 (a := ((sz, src), r))
  | negx sz ea => exact inMap_make 4 0 (a := (sz, ea))
  | moveFromSr ea => exact inMap_make 4 1 (a := ea)
  | chk x ea => exact inMap_make 4 2 (a := (x, ea))
  | lea x ea => exact inMap_make 4 3 (a := (x, ea))
  | clr sz ea => exact inMap_make 4 4 (a := (sz, ea))
  | neg sz ea => exact inMap_make 4 5 (a := (sz, ea))
  | moveToCcr ea => exact inMap_make 4 6 (a := ea)
  | notEa sz ea => exact inMap_make 4 7 (a := (sz, ea))
  | moveToSr ea => exact inMap_make 4 8 (a := ea)
  | nbcd ea => exact inMap_make 4 9 (a := ea)
  | swap y => exact inMap_make 4 10 (a := y)
  | pea ea => exact inMap_make 4 11 (a := ea)
  | extDn sz y => exact inMap_make 4 12 (a := (sz, y))
  | movemToMem sz ea => exact inMap_make 4 13 (a := (sz, ea))
  | tst sz ea => exact inMap_make 4 14 (a := (sz, ea))
  | tas ea => exact inMap_make 4 15 (a := ea)
  | illegal => exact inMap_make 4 16 (a := ())
  | movemToReg sz ea => exact inMap_make 4 17 (a := (sz, ea))
  | trap v => exact inMap_make 4 18 (a := v)
  | link y => exact inMap_make 4 19 (a := y)
  | unlk y => exact inMap_make 4 20 (a := y)
  | moveToUsp y => exact inMap_make 4 21 (a := y)
  | moveFromUsp y => exact inMap_make 4 22 (a := y)
  | reset => exact inMap_make 4 23 (a := ())
  | nop => exact inMap_make 4 24 (a := ())
  | stop => exact inMap_make 4 25 (a := ())
  | rte => exact inMap_make 4 26 (a := ())
  | rts => exact inMap_make 4 27 (a := ())
  | trapv => exact inMap_make 4 28 (a := ())
  | rtr => exact inMap_make 4 29 (a := ())
  | jsr ea => exact inMap_make 4 30 (a := ea)
  | jmp ea => exact inMap_make 4 31 (a := ea)
  | addq q sz ea => exact inMap_make 5 0 (a := ((q, sz), ea))
  | subq q sz ea => exact inMap_make 5 1 (a := ((q, sz), ea))
  | scc c ea => exact inMap_make 5 2 (a := (c, ea))
  | dbcc c y => exact inMap_make 5 3 (a := (c, y))
  | bra k => exact inMap_make 6 0 (a := k)
  | bsr k => exact inMap_make 6 1 (a := k)
  | bcc c k => exact inMap_make 6 2 (a := (c, k))
  | moveq x k => exact inMap_make 7 0 (a := (x, k))
  | orToDn sz x ea => exact inMap_make 8 0 (a := ((sz, x), ea))
  | orToEa sz x ea => exact inMap_make 8 1 (a := ((sz, x), ea))
  | divu x ea => exact inMap_make 8 2 (a := (x, ea))
  | divs x ea => exact inMap_make 8 3 (a := (x, ea))
  | sbcd m x y => exact inMap_make 8 4 (a := ((m, x), y))
  | subToDn sz x ea => exact inMap_make 9 0 (a := ((sz, x), ea))
  | subToEa sz x ea => exact inMap_make 9 1 (a := ((sz, x), ea))
  | suba sz x ea => exact inMap_make 9 2 (a := ((sz, x), ea))
  | subx m sz x y => exact inMap_make 9 3 (a := (((m, sz), x), y))
  | lineA d => exact inMap_make 10 0 (a := d)
  | cmp sz x ea => exact inMap_make 11 0 (a := ((sz, x), ea))
  | cmpa sz x ea => exact inMap_make 11 1 (a := ((sz, x), ea))
  | eor sz x ea => exact inMap_make 11 2 (a := ((sz, x), ea))
  | cmpm sz x y => exact inMap_make 11 3 (a := ((sz, x), y))
  | andToDn sz x ea => exact inMap_make 12 0 (a := ((sz, x), ea))
  | andToEa sz x ea => exact inMap_make 12 1 (a := ((sz, x), ea))
  | mulu x ea => exact inMap_make 12 2 (a := (x, ea))
  | muls x ea => exact inMap_make 12 3 (a := (x, ea))
  | abcd m x y => exact inMap_make 12 4 (a := ((m, x), y))
  | exgDxDy x y => exact inMap_make 12 5 (a := (x, y))
  | exgAxAy x y => exact inMap_make 12 6 (a := (x, y))
  | exgDxAy x y => exact inMap_make 12 7 (a := (x, y))
  | addToDn sz x ea => exact inMap_make 13 0 (a := ((sz, x), ea))
  | addToEa sz x ea => exact inMap_make 13 1 (a := ((sz, x), ea))
  | adda sz x ea => exact inMap_make 13 2 (a := ((sz, x), ea))
  | addx m sz x y => exact inMap_make 13 3 (a := (((m, sz), x), y))
  | asrReg c sz y => exact inMap_make 14 0 (a := ((c, sz), y))
  | aslReg c sz y => exact inMap_make 14 1 (a := ((c, sz), y))
  | lsrReg c sz y => exact inMap_make 14 2 (a := ((c, sz), y))
  | lslReg c sz y => exact inMap_make 14 3 (a := ((c, sz), y))
  | roxrReg c sz y => exact inMap_make 14 4 (a := ((c, sz), y))
  | roxlReg c sz y => exact inMap_make 14 5 (a := ((c, sz), y))
  | rorReg c sz y => exact inMap_make 14 6 (a := ((c, sz), y))
  | rolReg c sz y => exact inMap_make 14 7 (a := ((c, sz), y))
  | asrMem ea => exact inMap_make 14 8 (a := ea)
  | aslMem ea => exact inMap_make 14 9 (a := ea)
  | lsrMem ea => exact inMap_make 14 10 (a := ea)
  | lslMem ea => exact inMap_make 14 11 (a := ea)
  | roxrMem ea => exact inMap_make 14 12 (a := ea)
  | roxlMem ea => exact inMap_make 14 13 (a := ea)
  | rorMem ea => exact inMap_make 14 14 (a := ea)
  | rolMem ea => exact inMap_make 14 15 (a := ea)
  | lineF d => exact inMap_make 15 0 (a := d)

/-- The line of a word, bits 15 to 12. -/
theorem toNat_line (w : Word) : (w.extractLsb' 12 4).toNat = w.toNat >>> 12 := by
  have := w.isLt
  rw [BitVec.extractLsb'_toNat, Nat.shiftRight_eq_div_pow]
  omega

/-- Outside MOVE's lines the fixed bits of a row hold the line. -/
theorem lineForms_of_shows (n : BitVec 4) (hline : ∀ F ∈ lineForms n.toNat, F.shows ⟨0xF000, place 12 n⟩ = true)
    {F : Form} {w : Word} {i : Instr} (hF : F ∈ lineForms n.toNat) (h : F.row.read w = some i) :
    lineForms (w.toNat >>> 12) = lineForms n.toNat := by
  have hplace : place 12 n = w &&& fieldMask 4 12 := (Form.and_mask_of_shows (hline F hF) h).symm
  rw [← toNat_line, ← eq_extractLsb'_of_place (by decide) hplace]

theorem moveLine_cases : ∀ n : BitVec 4, place 12 n &&& 0xC000 = 0 → place 12 n &&& 0x3000 ≠ 0 → n = 1 ∨ n = 2 ∨ n = 3 := by
  decide

/-- MOVE and MOVEA stand in three lines, which their size tells apart (rule R147). -/
theorem lineForms_of_move {F : Form} {w : Word} {i : Instr} (hF : F ∈ line1Forms) (h : F.row.read w = some i) :
    lineForms (w.toNat >>> 12) = line1Forms := by
  have hall : ∀ F ∈ line1Forms, F.shows ⟨0xC000, 0⟩ = true ∧ ⟨0x3000, 0⟩ ∈ F.field.never := by decide
  obtain ⟨hshows, hnever⟩ := hall F hF
  have hn := Form.and_mask_of_shows hshows h
  have hne := Form.ne_of_never hnever h
  have hcases := moveLine_cases (w.extractLsb' 12 4)
  rw [place_extractLsb', BitVec.and_assoc, BitVec.and_assoc] at hcases
  rw [← toNat_line]
  rcases hcases hn hne with h | h | h <;> rw [h] <;> rfl

/-- A row is in the line of the words it reads. -/
theorem lineForms_of_read {l : ℕ} {F : Form} {w : Word} {i : Instr} (hF : F ∈ lineForms l) (h : F.row.read w = some i) :
    lineForms (w.toNat >>> 12) = lineForms l := by
  match l with
  | 0 => exact lineForms_of_shows 0 (by decide) hF h
  | 1 | 2 | 3 => exact lineForms_of_move hF h
  | 4 => exact lineForms_of_shows 4 (by decide) hF h
  | 5 => exact lineForms_of_shows 5 (by decide) hF h
  | 6 => exact lineForms_of_shows 6 (by decide) hF h
  | 7 => exact lineForms_of_shows 7 (by decide) hF h
  | 8 => exact lineForms_of_shows 8 (by decide) hF h
  | 9 => exact lineForms_of_shows 9 (by decide) hF h
  | 10 => exact lineForms_of_shows 10 (by decide) hF h
  | 11 => exact lineForms_of_shows 11 (by decide) hF h
  | 12 => exact lineForms_of_shows 12 (by decide) hF h
  | 13 => exact lineForms_of_shows 13 (by decide) hF h
  | 14 => exact lineForms_of_shows 14 (by decide) hF h
  | n + 15 => exact lineForms_of_shows 15 (by decide) hF h

/-- Settles O1: the instruction's own row reads its word, in the word's line, and no other row of the line does. -/
theorem decodeEncode : Obligations.DecodeEncode := by
  intro i hwf
  obtain ⟨l, F, hF, a, rfl⟩ := i.inMap
  have hread := F.read_encode a hwf
  rw [decode_eq_ok_iff, lineRows_eq, lineForms_of_read hF hread]
  exact findSome?_read (lineForms_separated l) hF hread

end Sys2Proof
end

section
/-! Words that raise an exception of their own: the unused words (O5), and TRAP, TRAPV, ILLEGAL, line A and line F (O54). -/

namespace Sys2Proof.Machine

open Sys2Proof.Config

/-! ## Rules that only raise (rule R585) -/

/-- A rule that raises a group-1 event stacks the instruction's own address, and no trace follows. -/
theorem runRule_raise_of_group_one {e : Event} (h : e.group = .one) (s : State) :
    runRule (raise e) s = enter e s.hid.pc0 s.start.charge.noTrace := by
  rw [runRule, raise_apply]
  dsimp only
  rw [State.afterEvent, h]
  rfl

/-- A rule that raises a group-2 event without a fetch stacks the next address. -/
theorem runRule_raise_of_group_two {e : Event} (h : e.group = .two) (s : State) :
    runRule (raise e) s = enter e s.pc s.start.charge := by
  rw [runRule, raise_apply]
  dsimp only
  rw [State.afterEvent, h]
  rfl

/-- TRAPV with V set raises (rule R515). -/
theorem exec_trapv_of_set {s : State} (h : s.regs.sr.v = true) :
    exec .trapv s = .next (enter .trapV s.pc s.start.charge) := by
  have hraise : (readSr >>= fun sr => if sr.v then raise .trapV else pure ()) s.start = .error .trapV s.start := by
    rw [readSr_bind, State.start_regs, if_pos h, raise_apply]
  exact complete_of_error hraise

/-! ## Opcode fetches -/

/-- A step whose opcode word answers runs from the fetched state (rules R85, R585). -/
theorem fetchOpcode_beginStep {s : State} {w : Word} (heven : isOdd s.pc = false) (hw : s.busWord s.pc = some w) :
    fetchOpcode s.beginStep = .ok w (s.fetched w) := by
  have hread : readWordAt .program s.pc s.beginStep = .ok w s.beginStep := by
    have hbus : s.beginStep.busWord s.pc = some w := hw
    simp [readWordAt, heven, hbus]
  simp only [fetchOpcode, fetchWord, bind_assoc, reading_bind, State.beginStep_pc]
  rw [Exec.bind_of_ok hread]
  rfl

/-- Settles O5: the fetch answers, the decoder rejects, and the step raises the illegal-instruction event. -/
theorem illegalWordTakesVectorFour : Obligations.IllegalWordTakesVectorFour := by
  intro s w hlive hrun heven hw hdecode
  have hcpu : stepCpu s = .next (runRule (raise .illegalInstruction) (s.fetched w)).boundary := by
    rw [stepCpu, hrun]
    dsimp only
    rw [stepNormal, fetchOpcode_beginStep heven hw]
    dsimp only
    rw [hdecode]
  rw [runRule_raise_of_group_one rfl] at hcpu
  exact step_of_stepCpu hlive hcpu

/-! ## The words of the trap instructions -/

/-- A field in the low bits beside fixed high bits (rule R131). -/
theorem or_place_zero {m n : ℕ} (h : m + n = 16) (hi : BitVec m) (v : BitVec n) :
    (hi ++ 0#n).cast h ||| place 0 v = (hi ++ v).cast h := by
  ext i hlt
  rw [BitVec.getElem_or, getElem_place]
  simp only [BitVec.getElem_cast, BitVec.getElem_append]
  by_cases hlow : i < n
  · simp [hlow]
  · simp [hlow, BitVec.getLsbD_of_ge v i (Nat.not_lt.1 hlow)]

theorem encode_trap (v : BitVec 4) : encode (.trap v) = 0x4E4#12 ++ v := or_place_zero rfl 0x4E4#12 v

theorem encode_lineA (d : BitVec 12) : encode (.lineA d) = 0xA#4 ++ d := or_place_zero rfl 0xA#4 d

theorem encode_lineF (d : BitVec 12) : encode (.lineF d) = 0xF#4 ++ d := or_place_zero rfl 0xF#4 d

theorem toNat_trap_vector (v : BitVec 4) : (Event.trap v).vector.toNat = 32 + v.toNat := by
  simp only [Event.vector]
  bv_omega

/-- Settles O54: the words are the encodings, and the rules only raise. -/
theorem trapInstructions : Obligations.TrapInstructions := by
  intro s
  refine ⟨fun v => ⟨?_, toNat_trap_vector v, ?_⟩, decodeEncode .trapv rfl, rfl, fun hv => ?_, fun hv => ?_,
    decodeEncode .illegal rfl, rfl, ?_, fun d => ⟨?_, rfl, ?_⟩, fun d => ⟨?_, rfl, ?_⟩, fun w => ⟨rfl, rfl⟩, rfl, rfl, rfl⟩
  · exact encode_trap v ▸ decodeEncode (.trap v) rfl
  · exact congrArg Host.Outcome.next (runRule_raise_of_group_two rfl s)
  · exact exec_trapv_of_set hv
  · refine complete_changesRegs (t := s.start) (d := s.draws) ?_ (.refl s.start)
    rw [readSr_bind, State.start_regs, if_neg (by rw [hv]; exact Bool.false_ne_true)]
    rfl
  · exact congrArg Host.Outcome.next (runRule_raise_of_group_one rfl s)
  · exact encode_lineA d ▸ decodeEncode (.lineA d) rfl
  · exact congrArg Host.Outcome.next (runRule_raise_of_group_one rfl s)
  · exact encode_lineF d ▸ decodeEncode (.lineF d) rfl
  · exact congrArg Host.Outcome.next (runRule_raise_of_group_one rfl s)

end Sys2Proof.Machine
end

section
/-! What each addressing mode answers where its extension words can be read (O24). -/

namespace Sys2Proof.Machine

/-! ## The step of an address register (rule R206) -/

theorem autoStep_byte (r : Reg) : autoStep r .b = if r = 7 then 2 else 1 := by simp [autoStep, Size.bytes]

theorem autoStep_word (r : Reg) : autoStep r .w = 2 := if_neg (by simp)

theorem autoStep_long (r : Reg) : autoStep r .l = 4 := if_neg (by simp)

/-! ## The brief extension word (rule R138) -/

theorem decodeBrief_reg (w : Word) : (decodeBrief w).reg = ⟨w.toNat / 2 ^ 12 % 8, Nat.mod_lt _ (by decide)⟩ :=
  Fin.ext (congrArg (· % 8) (Nat.shiftRight_eq_div_pow w.toNat 12))

theorem decodeBrief_d8 (w : Word) : (decodeBrief w).d8 = w.setWidth 8 := extractLsb'_zero_eq_setWidth 8 w

theorem RegFile.indexValue_decodeBrief (r : RegFile) (w : Word) :
    let n : Reg := ⟨w.toNat / 2 ^ 12 % 8, Nat.mod_lt _ (by decide)⟩
    let x : Long := if w.getLsbD 15 then r.getA n else r.getD n
    r.indexValue (decodeBrief w) = if w.getLsbD 11 then x else (x.setWidth 16).signExtend 32 := by
  simp only [RegFile.indexValue, decodeBrief_reg, extractLsb'_zero_eq_setWidth]
  rfl

/-! ## Modes that fetch -/

section Fetching

variable {s : State}

theorem indexed_ok (h : s.canAccess .w s.pc = true) (base : Long) :
    ∃ t, indexed base s = .ok (base + (decodeBrief (s.memValue .w s.pc)).d8.signExtend 32 +
      s.regs.indexValue (decodeBrief (s.memValue .w s.pc))) t ∧ t.pc = s.pc + 2 :=
  ⟨_, (Exec.bind_of_ok (fetch16_ok h)).trans rfl, rfl⟩

/-- A mode whose location is a function of one fetched value leaves pc where that fetch does (rule R200). -/
theorem resolve_of_fetch {α : Type} {ea : Ea} {sz : Size} {fetch : Exec α} {v : α} {p : Long} (loc : α → Loc)
    (hea : resolve ea sz s = (fetch >>= fun a => pure (loc a)) s) (h : ∃ t, fetch s = .ok v t ∧ t.pc = p) :
    ∃ t, resolve ea sz s = .ok (loc v) t ∧ t.pc = p := by
  obtain ⟨t, hfetch, hpc⟩ := h
  exact ⟨t, hea.trans (Exec.bind_of_ok hfetch), hpc⟩

/-- An immediate location holds the immediate, extended by zeros (rule R214). -/
theorem resolve_imm_of_fetchImm {sz : Size} {v : BitVec sz.bits} {p : Long}
    (h : ∃ t, fetchImm sz s = .ok v t ∧ t.pc = p) :
    ∃ t, resolve .imm sz s = .ok (.imm (v.setWidth 32)) t ∧ t.pc = p :=
  resolve_of_fetch (fun v => .imm (v.setWidth 32)) rfl h

/-- The register is read after the fetch, which leaves it alone (rule R208). -/
theorem resolve_disp_ok (h : s.canAccess .w s.pc = true) (r : Reg) (sz : Size) :
    ∃ t, resolve (.disp r) sz s = .ok (.mem (s.regs.getA r + (s.memValue .w s.pc).signExtend 32)) t ∧
      t.pc = s.pc + 2 :=
  ⟨_, (Exec.bind_of_ok (fetch16_ok h)).trans rfl, rfl⟩

end Fetching

/-! ## All modes -/

/-- Settles O24: a mode without extension words answers by its definition, every other one by its fetch. -/
theorem eaLocations : Obligations.EaLocations := by
  intro s sz r step w w2 n x xi d8
  have hstep : autoStep r sz = step := by
    cases sz with
    | b => exact autoStep_byte r
    | w => exact autoStep_word r
    | l => exact autoStep_long r
  have hindexed (h : s.canAccess .w s.pc = true) (base : Long) :
      ∃ t, indexed base s = .ok (base + d8 + xi) t ∧ t.pc = s.pc + 2 := by
    have hbrief := indexed_ok h base
    rwa [decodeBrief_d8, s.regs.indexValue_decodeBrief] at hbrief
  refine ⟨⟨s, rfl, rfl⟩, ⟨s, rfl, rfl⟩, ⟨s, rfl, rfl⟩, ?postinc, ?predec, fun h => ?oneWord, fun h h2 => ?twoWords⟩
  case postinc => exact hstep ▸ ⟨_, rfl, rfl, rfl⟩
  case predec => exact hstep ▸ ⟨_, rfl, rfl, rfl⟩
  case oneWord =>
    have hword : ∃ t, fetch16 s = .ok w t ∧ t.pc = s.pc + 2 := ⟨_, fetch16_ok h, rfl⟩
    have hbyte : ∃ t, fetchImm .b s = .ok (w.setWidth 8) t ∧ t.pc = s.pc + 2 := (fetchImm_ok h).1
    exact ⟨resolve_disp_ok h r sz, resolve_of_fetch .mem rfl (hindexed h (s.regs.getA r)),
      resolve_of_fetch (fun d => .mem (d.signExtend 32)) rfl hword,
      resolve_of_fetch (fun d => .mem (s.pc + d.signExtend 32)) rfl hword,
      resolve_of_fetch .mem rfl (hindexed h s.pc), resolve_imm_of_fetchImm hbyte,
      resolve_imm_of_fetchImm (sz := .w) hword⟩
  case twoWords =>
    have hlong : ∃ t, fetchImm .l s = .ok (w ++ w2) t ∧ t.pc = s.pc + 4 := (fetchImm_ok h).2 h2
    have himm := resolve_imm_of_fetchImm hlong
    rw [BitVec.setWidth_eq (w ++ w2)] at himm
    exact ⟨resolve_of_fetch .mem rfl hlong, himm⟩

end Sys2Proof.Machine
end

section
/-! The instructions on registers alone (O40), and opcode words of the spec's own programs (O3). -/

namespace Sys2Proof.Machine

open Sys2Proof.Config

/-! ## Fields between fixed bits -/

/-- A field between fixed bits (rule R131). -/
theorem or_place_between {m n k : ℕ} (h : m + n + k = 16) (hi : BitVec m) (v : BitVec n) (lo : BitVec k) :
    (hi ++ 0#n ++ lo).cast h ||| place k v = (hi ++ v ++ lo).cast h := by
  ext i hlt
  rw [BitVec.getElem_or, getElem_place]
  simp only [BitVec.getElem_cast, BitVec.getElem_append]
  by_cases hlow : i < k
  · simp [hlow, Nat.not_le.2 hlow]
  · by_cases hfield : i - k < n
    · simp [hlow, hfield, Nat.not_lt.1 hlow]
    · simp [hlow, hfield, BitVec.getLsbD_of_ge v _ (Nat.not_lt.1 hfield)]

/-- Fixed bits between two fields, the second in the low bits (rule R131). -/
theorem or_place_or_place {a b c d : ℕ} (h : a + b + c + d = 16) (hi : BitVec a) (x : BitVec b) (mid : BitVec c)
    (y : BitVec d) :
    (hi ++ 0#b ++ mid ++ 0#d).cast h ||| (place (c + d) x ||| place 0 y) = (hi ++ x ++ mid ++ y).cast h := by
  have hassoc (v : BitVec b) : (hi ++ v ++ mid ++ 0#d).cast h = (hi ++ v ++ (mid ++ 0#d)).cast (by omega) := by
    rw [BitVec.append_assoc, BitVec.cast_cast]
  rw [← BitVec.or_assoc, hassoc, or_place_between, ← hassoc, or_place_zero]

/-! ## The words of the register instructions (rules R252, R257, R259, R321) -/

theorem encode_moveq (x : Reg) (k : Byte) : encode (.moveq x k) = 0b0111#4 ++ regCode x ++ 0#1 ++ k :=
  or_place_or_place rfl 0b0111#4 (regCode x) 0#1 k

/-- Only the bit after `010010001` tells the two sizes apart (rule R321). -/
theorem encode_extDn (sz : AddrSize) (y : Reg) :
    encode (.extDn sz y) = 0b010010001#9 ++ sz.code ++ 0b000#3 ++ regCode y :=
  or_place_or_place rfl 0b010010001#9 sz.code 0b000#3 (regCode y)

theorem encode_swap (y : Reg) : encode (.swap y) = 0b0100100001#10 ++ 0b000#3 ++ regCode y :=
  or_place_zero rfl (0b0100100001#10 ++ 0b000#3) (regCode y)

theorem encode_exgDxDy (x y : Reg) : encode (.exgDxDy x y) = 0b1100#4 ++ regCode x ++ 0b101000#6 ++ regCode y :=
  or_place_or_place rfl 0b1100#4 (regCode x) 0b101000#6 (regCode y)

theorem encode_exgAxAy (x y : Reg) : encode (.exgAxAy x y) = 0b1100#4 ++ regCode x ++ 0b101001#6 ++ regCode y :=
  or_place_or_place rfl 0b1100#4 (regCode x) 0b101001#6 (regCode y)

theorem encode_exgDxAy (x y : Reg) : encode (.exgDxAy x y) = 0b1100#4 ++ regCode x ++ 0b110001#6 ++ regCode y :=
  or_place_or_place rfl 0b1100#4 (regCode x) 0b110001#6 (regCode y)

/-! ## What the register instructions do -/

theorem readD_long_bind {β : Type} (n : Reg) (g : Long → Exec β) (s : State) :
    (readD n .l >>= g) s = g (s.regs.getD n) s := by
  rw [readD_bind, BitVec.setWidth_eq]

/-- A rule that reads registers and then writes the whole of D[x] and SR. -/
theorem complete_writeD_long_updateSr {body : Exec Unit} {x : Reg} {v : Long} {f : Sr → Sr} {s : State}
    (hbody : body s.start = (do writeD x .l v; updateSr f : Exec Unit) s.start) :
    ∃ u, complete body s = .next u ∧ ChangesRegs s u s.pc ((s.regs.setD x v).withSr (f s.regs.sr)) :=
  complete_registers (hbody.trans (writeD_long_updateSr x v f s.start))

/-- SWAP's value is the long rotated by half its width (rule R259). -/
theorem swapHalves_eq_rotateLeft (v : Long) : swapHalves v = v.rotateLeft 16 := by
  ext i hi
  rw [swapHalves, BitVec.getElem_rotateLeft, BitVec.getElem_append]
  by_cases h : i < 16
  · simp [h, BitVec.getLsbD_eq_getElem (x := v) (i := 16 + i) (by omega)]
  · simp [h, BitVec.getLsbD_eq_getElem (x := v) (i := i - 16) (by omega)]

theorem swap_completes (y : Reg) (s : State) :
    ∃ u, exec (.swap y) s = .next u ∧ ChangesRegs s u s.pc ((s.regs.setD y ((s.regs.getD y).rotateLeft 16)).withSr
      (s.regs.sr.logicFlags ((s.regs.getD y).rotateLeft 16))) := by
  rw [← swapHalves_eq_rotateLeft]
  exact complete_writeD_long_updateSr (f := fun g => g.logicFlags (swapHalves (s.regs.getD y)))
    (readD_long_bind y _ s.start)

theorem exgDxDy_completes (x y : Reg) (s : State) :
    ∃ u, exec (.exgDxDy x y) s = .next u ∧
      ChangesRegs s u s.pc ((s.regs.setD x (s.regs.getD y)).setD y (s.regs.getD x)) := by
  refine complete_registers (d := s.draws) ?_
  rw [readD_long_bind, readD_long_bind]
  simp

theorem exgDxAy_completes (x y : Reg) (s : State) :
    ∃ u, exec (.exgDxAy x y) s = .next u ∧
      ChangesRegs s u s.pc ((s.regs.setD x (s.regs.getA y)).setA y (s.regs.getD x)) := by
  refine complete_registers (d := s.draws) ?_
  rw [readD_long_bind]
  simp

/-! ## The obligations -/

/-- Settles O40: the words are the encodings, and each rule reads registers before it writes registers and SR. -/
theorem registerOnlyInstructions : Obligations.RegisterOnlyInstructions := by
  intro s x y k f d bx ly
  refine ⟨?_, ?_, ?_, ?_, ?_, ?_, ?_, ?moveq, ?extWord, ?extLong, ?swap, ?exgDxDy, ?exgAxAy, ?exgDxAy⟩
  · exact encode_moveq x k ▸ decodeEncode (.moveq x k) rfl
  · exact encode_extDn .w y ▸ decodeEncode (.extDn .w y) rfl
  · exact encode_extDn .l y ▸ decodeEncode (.extDn .l y) rfl
  · exact encode_swap y ▸ decodeEncode (.swap y) rfl
  · exact encode_exgDxDy x y ▸ decodeEncode (.exgDxDy x y) rfl
  · exact encode_exgAxAy x y ▸ decodeEncode (.exgAxAy x y) rfl
  · exact encode_exgDxAy x y ▸ decodeEncode (.exgDxAy x y) rfl
  case moveq => exact complete_writeD_long_updateSr rfl
  case extWord => exact complete_registers rfl
  case extLong =>
    exact complete_writeD_long_updateSr (f := fun g => g.logicFlags ((d.setWidth 16).signExtend 32))
      (readD_bind y .w _ s.start)
  case swap => exact swap_completes y s
  case exgDxDy => exact exgDxDy_completes x y s
  case exgAxAy => exact complete_registers rfl
  case exgDxAy => exact exgDxAy_completes x y s

/-- Settles O3: each word that decodes is the encoding of a well-formed instruction, and the last matches no row of the
opcode map. -/
theorem specWordsDecode : Obligations.SpecWordsDecode :=
  ⟨decodeEncode (.moveq 1 4) rfl, decodeEncode (.addToDn .w 0 (.dn 1)) rfl, decodeEncode (.dbcc .f 1) rfl,
    decodeEncode (.movemToMem .l (.predec 7)) rfl, decodeEncode (.abcd .mem 0 1) rfl,
    decodeEncode (.aslMem (.ind 0)) rfl, decodeEncode .rte rfl, by decide⟩

end Sys2Proof.Machine
end

section
/-! The loop of the shifts and rotates in closed form (O27). Rotations add up, as a right one reads bit `(c + i) mod n` for
bit `i` and a left one does so from the top; ROXL and ROXR are rotations of the operand with X above it. V of ASL is the signed
overflow of a doubling, and an integer that has left the signed range stays outside when it is doubled. -/

namespace Sys2Proof.Machine

open Sys2Proof.Claims

variable {n : ℕ}

/-! ## Rotations -/

theorem getLsbD_rotateRight_eq_mod (v : BitVec n) (c : ℕ) {i : ℕ} (hi : i < n) :
    (v.rotateRight c).getLsbD i = v.getLsbD ((c + i) % n) := by
  have hc : c % n < n := Nat.mod_lt _ (by omega)
  rw [BitVec.getLsbD_rotateRight, ← Nat.mod_add_mod]
  by_cases hlow : i < n - c % n
  · rw [Nat.mod_eq_of_lt (a := c % n + i) (by omega)]
    simp [hlow]
  · rw [Nat.mod_eq_sub_mod (a := c % n + i) (by omega), Nat.mod_eq_of_lt (a := c % n + i - n) (by omega)]
    simp [hlow, hi, show i - (n - c % n) = c % n + i - n by omega]

theorem rotateLeft_rotateLeft (v : BitVec n) (b c : ℕ) : (v.rotateLeft b).rotateLeft c = v.rotateLeft (b + c) := by
  refine BitVec.eq_of_getMsbD_eq fun i hi => ?_
  have hpos : (c + i) % n < n := Nat.mod_lt _ (by omega)
  simp only [BitVec.getMsbD_rotateLeft, hi, hpos, decide_true, Bool.true_and, Nat.add_mod_mod, Nat.add_assoc]

theorem rotateRight_rotateRight (v : BitVec n) (b c : ℕ) : (v.rotateRight b).rotateRight c = v.rotateRight (b + c) := by
  refine BitVec.eq_of_getLsbD_eq fun i hi => ?_
  have hpos : (c + i) % n < n := Nat.mod_lt _ (by omega)
  rw [getLsbD_rotateRight_eq_mod _ _ hi, getLsbD_rotateRight_eq_mod _ _ hpos, getLsbD_rotateRight_eq_mod _ _ hi,
    Nat.add_mod_mod, Nat.add_assoc]

theorem rotateLeft_zero (v : BitVec n) : v.rotateLeft 0 = v := by
  refine BitVec.eq_of_getMsbD_eq fun i hi => ?_
  simp [BitVec.getMsbD_rotateLeft, hi, Nat.mod_eq_of_lt hi]

theorem rotateRight_zero (v : BitVec n) : v.rotateRight 0 = v := by
  refine BitVec.eq_of_getLsbD_eq fun i hi => ?_
  rw [getLsbD_rotateRight_eq_mod _ _ hi, Nat.zero_add, Nat.mod_eq_of_lt hi]

/-- The next position of a rotation: the last one is followed by the first. -/
theorem next_mod_eq {i : ℕ} (hi : i < n) : (1 + i) % n = if i + 1 = n then 0 else i + 1 := by
  split_ifs with hlast
  · rw [Nat.add_comm, hlast, Nat.mod_self]
  · rw [Nat.add_comm, Nat.mod_eq_of_lt (by omega)]

theorem getMsbD_rotateLeft_one (v : BitVec n) {i : ℕ} (hi : i < n) :
    (v.rotateLeft 1).getMsbD i = if i + 1 = n then v.msb else v.getMsbD (i + 1) := by
  rw [BitVec.getMsbD_rotateLeft, next_mod_eq hi, decide_eq_true hi, Bool.true_and, apply_ite v.getMsbD, BitVec.msb]

theorem getLsbD_rotateRight_one (v : BitVec n) {i : ℕ} (hi : i < n) :
    (v.rotateRight 1).getLsbD i = if i + 1 = n then v.getLsbD 0 else v.getLsbD (i + 1) := by
  rw [getLsbD_rotateRight_eq_mod _ _ hi, next_mod_eq hi, apply_ite v.getLsbD]

/-! ## One step -/

/-- A step to the left, from the top: every bit moves up and `b` enters at the bottom. -/
theorem getMsbD_shiftLeft_one_or (v : BitVec n) (b : Bool) {i : ℕ} (hi : i < n) :
    (v <<< 1 ||| (BitVec.ofBool b).setWidth n).getMsbD i = if i + 1 = n then b else v.getMsbD (i + 1) := by
  split_ifs with hlast
  · simp [BitVec.getMsbD_eq_getLsbD, show n - 1 - i = 0 by omega, show 0 < n by omega, hi]
  · simp [BitVec.getMsbD_setWidth, show i + 1 - n = 0 by omega, show ¬n - 1 ≤ i by omega]

/-- A step to the right: every bit moves down and `b` enters at the top. -/
theorem getLsbD_shiftRight_one_or (v : BitVec n) (b : Bool) {i : ℕ} (hi : i < n) :
    (v >>> 1 ||| (BitVec.ofBool b).setWidth n <<< (n - 1)).getLsbD i =
      if i + 1 = n then b else v.getLsbD (i + 1) := by
  split_ifs with hlast
  · simp [← hlast, Nat.add_comm 1 i]
  · simp [show i < n - 1 by omega, Nat.add_comm 1 i]

/-- The step of ROL is a rotation by one position (rule R405). -/
theorem rolStep_eq_rotateLeft (v : BitVec n) (x : Bool) : (ShiftKind.rol.step v x).1 = v.rotateLeft 1 :=
  BitVec.eq_of_getMsbD_eq fun _ hi =>
    (getMsbD_shiftLeft_one_or v v.msb hi).trans (getMsbD_rotateLeft_one v hi).symm

/-- The step of ROR is a rotation by one position (rule R406). -/
theorem rorStep_eq_rotateRight (v : BitVec n) (x : Bool) : (ShiftKind.ror.step v x).1 = v.rotateRight 1 :=
  BitVec.eq_of_getLsbD_eq fun _ hi =>
    (getLsbD_shiftRight_one_or v (v.getLsbD 0) hi).trans (getLsbD_rotateRight_one v hi).symm

/-- The operand with X above it: what ROXL and ROXR rotate (rules R407, R408). -/
def ShiftAcc.extended (acc : ShiftAcc n) : BitVec (1 + n) := BitVec.ofBool acc.x ++ acc.value

theorem ShiftAcc.getLsbD_extended (acc : ShiftAcc n) {i : ℕ} (hi : i < 1 + n) :
    acc.extended.getLsbD i = if i = n then acc.x else acc.value.getLsbD i := by
  rw [ShiftAcc.extended, BitVec.getLsbD_append, BitVec.getLsbD_ofBool]
  by_cases htop : i = n
  · simp [htop]
  · rw [if_pos (by omega), if_neg htop]

theorem ShiftAcc.getMsbD_extended (acc : ShiftAcc n) (i : ℕ) :
    acc.extended.getMsbD i = if i = 0 then acc.x else acc.value.getMsbD (i - 1) := by
  rw [ShiftAcc.extended, BitVec.getMsbD_append]
  by_cases htop : i = 0
  · simp [htop]
  · rw [if_pos (by omega), if_neg htop]

theorem ShiftAcc.x_eq_extended (acc : ShiftAcc n) : acc.x = acc.extended.getLsbD n := by
  rw [acc.getLsbD_extended (by omega), if_pos rfl]

theorem ShiftAcc.value_eq_extended (acc : ShiftAcc n) : acc.value = acc.extended.setWidth n := by
  rw [ShiftAcc.extended, BitVec.setWidth_append_eq_right]

theorem ShiftAcc.getMsbD_next_roxl (acc : ShiftAcc n) {i : ℕ} (hi : i < n) :
    (acc.next .roxl).value.getMsbD i = if i + 1 = n then acc.x else acc.value.getMsbD (i + 1) :=
  getMsbD_shiftLeft_one_or acc.value acc.x hi

theorem ShiftAcc.getLsbD_next_roxr (acc : ShiftAcc n) {i : ℕ} (hi : i < n) :
    (acc.next .roxr).value.getLsbD i = if i + 1 = n then acc.x else acc.value.getLsbD (i + 1) :=
  getLsbD_shiftRight_one_or acc.value acc.x hi

/-- The step of ROXL rotates the operand with X above it by one position (rule R407). -/
theorem ShiftAcc.extended_next_roxl (hn : 0 < n) (acc : ShiftAcc n) :
    (acc.next .roxl).extended = acc.extended.rotateLeft 1 := by
  refine BitVec.eq_of_getMsbD_eq fun i hi => ?_
  rw [getMsbD_rotateLeft_one _ hi, BitVec.msb]
  simp only [ShiftAcc.getMsbD_extended, if_true, Nat.add_one_ne_zero, if_false, Nat.add_sub_cancel]
  cases i with
  | zero => rw [if_pos rfl, if_neg (by omega)]; rfl
  | succ j =>
    rw [if_neg j.add_one_ne_zero, Nat.add_sub_cancel, acc.getMsbD_next_roxl (by omega)]
    exact if_congr (by omega) rfl rfl

/-- The step of ROXR rotates the operand with X above it by one position (rule R408). -/
theorem ShiftAcc.extended_next_roxr (hn : 0 < n) (acc : ShiftAcc n) :
    (acc.next .roxr).extended = acc.extended.rotateRight 1 := by
  refine BitVec.eq_of_getLsbD_eq fun i hi => ?_
  rw [getLsbD_rotateRight_one _ hi, ShiftAcc.getLsbD_extended _ hi]
  by_cases htop : i = n
  · rw [if_pos htop, if_pos (by omega), acc.getLsbD_extended (by omega), if_neg (by omega)]; rfl
  · rw [if_neg htop, if_neg (by omega), acc.getLsbD_next_roxr (by omega), acc.getLsbD_extended (by omega)]

/-! ## The loop -/

theorem ShiftAcc.iterate_succ (k : ShiftKind) (c : ℕ) (acc : ShiftAcc n) :
    ShiftAcc.iterate k (c + 1) acc = (ShiftAcc.iterate k c acc).next k := by
  induction c generalizing acc with
  | zero => rfl
  | succ c ih => exact ih (acc.next k)

/-- The loop makes its last step last. -/
theorem shiftLoop_succ (k : ShiftKind) (c : ℕ) (v : BitVec n) (x : Bool) :
    shiftLoop k (c + 1) v x = (shiftLoop k c v x).next k := ShiftAcc.iterate_succ k c _

/-- A sequence of values that starts at the operand and follows the steps is what the loop works out. -/
theorem shiftLoop_value_eq (k : ShiftKind) {v : BitVec n} {f : ℕ → BitVec n} (hzero : f 0 = v)
    (hstep : ∀ c y, (k.step (f c) y).1 = f (c + 1)) (c : ℕ) (x : Bool) : (shiftLoop k c v x).value = f c := by
  induction c with
  | zero => exact hzero.symm
  | succ c ih => rw [shiftLoop_succ, ← hstep c (shiftLoop k c v x).x, ← ih]; rfl

theorem shiftLoop_asl_value (c : ℕ) (v : BitVec n) (x : Bool) : (shiftLoop .asl c v x).value = v <<< c :=
  shiftLoop_value_eq .asl (BitVec.shiftLeft_zero v) (fun c _ => (BitVec.shiftLeft_add v c 1).symm) c x

theorem shiftLoop_lsl_value (c : ℕ) (v : BitVec n) (x : Bool) : (shiftLoop .lsl c v x).value = v <<< c :=
  shiftLoop_value_eq .lsl (BitVec.shiftLeft_zero v) (fun c _ => (BitVec.shiftLeft_add v c 1).symm) c x

theorem shiftLoop_lsr_value (c : ℕ) (v : BitVec n) (x : Bool) : (shiftLoop .lsr c v x).value = v >>> c :=
  shiftLoop_value_eq .lsr (BitVec.ushiftRight_zero v) (fun c _ => (BitVec.shiftRight_add v c 1).symm) c x

theorem shiftLoop_asr_value (c : ℕ) (v : BitVec n) (x : Bool) : (shiftLoop .asr c v x).value = v.sshiftRight c :=
  shiftLoop_value_eq .asr BitVec.sshiftRight_zero (fun _ _ => BitVec.sshiftRight_add.symm) c x

theorem shiftLoop_rol_value (c : ℕ) (v : BitVec n) (x : Bool) : (shiftLoop .rol c v x).value = v.rotateLeft c :=
  shiftLoop_value_eq .rol (rotateLeft_zero v)
    (fun c y => (rolStep_eq_rotateLeft _ y).trans (rotateLeft_rotateLeft v c 1)) c x

theorem shiftLoop_ror_value (c : ℕ) (v : BitVec n) (x : Bool) : (shiftLoop .ror c v x).value = v.rotateRight c :=
  shiftLoop_value_eq .ror (rotateRight_zero v)
    (fun c y => (rorStep_eq_rotateRight _ y).trans (rotateRight_rotateRight v c 1)) c x

/-- ROXL rotates the operand with X above it (rule R407). -/
theorem shiftLoop_roxl_extended (hn : 0 < n) (c : ℕ) (v : BitVec n) (x : Bool) :
    (shiftLoop .roxl c v x).extended = (BitVec.ofBool x ++ v).rotateLeft c := by
  induction c with
  | zero => exact (rotateLeft_zero _).symm
  | succ c ih => rw [shiftLoop_succ, ShiftAcc.extended_next_roxl hn, ih, rotateLeft_rotateLeft]

/-- ROXR rotates the operand with X above it (rule R408). -/
theorem shiftLoop_roxr_extended (hn : 0 < n) (c : ℕ) (v : BitVec n) (x : Bool) :
    (shiftLoop .roxr c v x).extended = (BitVec.ofBool x ++ v).rotateRight c := by
  induction c with
  | zero => exact (rotateRight_zero _).symm
  | succ c ih => rw [shiftLoop_succ, ShiftAcc.extended_next_roxr hn, ih, rotateRight_rotateRight]

/-! ## The last bit out -/

theorem shiftLoop_succ_out (k : ShiftKind) (c : ℕ) (v : BitVec n) (x : Bool) :
    (shiftLoop k (c + 1) v x).out = (k.step (shiftLoop k c v x).value (shiftLoop k c v x).x).2 := by
  rw [shiftLoop_succ]; rfl

theorem msb_shiftLeft_eq (v : BitVec n) (c : ℕ) :
    (v <<< c).msb = (decide (c + 1 ≤ n) && v.getLsbD (n - (c + 1))) := by
  rw [BitVec.msb_shiftLeft, BitVec.getMsbD_eq_getLsbD, Nat.sub_add_eq, Nat.sub_right_comm]
  rfl

/-- The last bit out of a rotation to the left has come in at the bottom. -/
theorem getLsbD_zero_rotateLeft_one (hn : 0 < n) (v : BitVec n) : (v.rotateLeft 1).getLsbD 0 = v.msb := by
  have hlast := getMsbD_rotateLeft_one v (show n - 1 < n by omega)
  rwa [if_pos (by omega), BitVec.getMsbD_eq_getLsbD, Nat.sub_self, decide_eq_true (by omega), Bool.true_and] at hlast

/-- The last bit out of a rotation to the right has come in at the top. -/
theorem msb_rotateRight_one (hn : 0 < n) (v : BitVec n) : (v.rotateRight 1).msb = v.getLsbD 0 := by
  rw [BitVec.msb_eq_getLsbD_last, getLsbD_rotateRight_one v (by omega), if_pos (by omega)]

/-! ## V of ASL -/

theorem shiftLeft_one_eq_add (v : BitVec n) : v <<< 1 = v + v := by
  refine BitVec.eq_of_toNat_eq ?_
  rw [BitVec.toNat_shiftLeft, BitVec.toNat_add, Nat.shiftLeft_eq, pow_one, mul_two]

/-- A step of ASL adds the operand to itself, so a change of the sign is the signed overflow of that addition. -/
theorem msb_shiftLeft_one_ne_eq_signedOut (hn : 0 < n) (v : BitVec n) :
    ((v <<< 1).msb != v.msb) = signedOut n (v.toInt * 2) := by
  have hover := addV_eq_signedOut (s := v) (d := v) (e := 0) hn (by simp)
  rw [add_zero, show (0 : BitVec n).toNat = 0 from BitVec.toNat_zero, Nat.cast_zero, add_zero] at hover
  rw [mul_two, ← hover, shiftLeft_one_eq_add, addV]
  cases v.msb <;> cases (v + v).msb <;> rfl

/-- Doubling an integer leaves the signed range, unless it was outside already, when it changes the wrapped sign. -/
theorem signedOut_double (hn : 0 < n) (m : ℤ) :
    signedOut n (m * 2) = (signedOut n m || (((BitVec.ofInt n m) <<< 1).msb != (BitVec.ofInt n m).msb)) := by
  cases hout : signedOut n m with
  | false =>
    rw [signedOut_eq_decide_wrap_ne hn, decide_eq_false_iff_not, not_not] at hout
    rw [msb_shiftLeft_one_ne_eq_signedOut hn, hout, Bool.false_or]
  | true =>
    simp only [signedOut, Bool.or_eq_true, decide_eq_true_eq, Bool.true_or] at hout ⊢
    have hpos : (0 : ℤ) < 2 ^ (n - 1) := by positivity
    omega

/-- The exact product by a power of two wraps to the shifted operand. -/
theorem ofInt_mul_two_pow (v : BitVec n) (c : ℕ) : BitVec.ofInt n (v.toInt * 2 ^ c) = v <<< c := by
  induction c with
  | zero => simp
  | succ c ih => rw [pow_succ, ← mul_assoc, mul_two, BitVec.ofInt_add, ih, BitVec.shiftLeft_add, shiftLeft_one_eq_add]

theorem shiftLoop_asl_signChanged (hn : 0 < n) (c : ℕ) (v : BitVec n) (x : Bool) :
    (shiftLoop .asl c v x).signChanged = signedOut n (v.toInt * 2 ^ c) := by
  induction c with
  | zero =>
    have hfits : (BitVec.ofInt n (v.toInt * 2 ^ 0)).toInt = v.toInt * 2 ^ 0 := by simp
    rw [signedOut_eq_decide_wrap_ne hn, decide_eq_false (not_not.2 hfits)]
    rfl
  | succ c ih =>
    rw [pow_succ, ← mul_assoc, signedOut_double hn, ← ih, ofInt_mul_two_pow, ← shiftLoop_asl_value c v x, shiftLoop_succ]
    rfl

end Sys2Proof.Machine
end

section
namespace Sys2Proof.Machine

/-- Settles O27: the step of each kind is a shift or a rotation by one position, and those add up along the loop. -/
theorem shiftsAreArithmetic : Obligations.ShiftsAreArithmetic := by
  intro sz c v x n
  have hn : 0 < n := Size.bits_pos sz
  refine ⟨shiftLoop_asl_value c v x, shiftLoop_lsl_value c v x, shiftLoop_lsr_value c v x, shiftLoop_asr_value c v x,
    shiftLoop_rol_value c v x, shiftLoop_ror_value c v x, ?_, ?_, ?_, ?_, fun hc => ?out,
    shiftLoop_asl_signChanged hn c v x⟩
  · exact shiftLoop_roxl_extended hn c v x ▸ ShiftAcc.x_eq_extended _
  · exact shiftLoop_roxl_extended hn c v x ▸ ShiftAcc.value_eq_extended _
  · exact shiftLoop_roxr_extended hn c v x ▸ ShiftAcc.x_eq_extended _
  · exact shiftLoop_roxr_extended hn c v x ▸ ShiftAcc.value_eq_extended _
  case out =>
    obtain ⟨c, rfl⟩ := Nat.exists_eq_add_one.2 hc
    refine ⟨?asl, ?lsl, ?lsr, ?asr, ?rol, ?ror, ?_, ?_⟩
    case asl => rw [shiftLoop_succ_out, shiftLoop_asl_value]; exact msb_shiftLeft_eq v c
    case lsl => rw [shiftLoop_succ_out, shiftLoop_lsl_value]; exact msb_shiftLeft_eq v c
    case lsr => rw [shiftLoop_succ_out, shiftLoop_lsr_value]; simp [ShiftKind.step]
    case asr => rw [shiftLoop_succ_out, shiftLoop_asr_value]; rfl
    case rol =>
      rw [shiftLoop_succ_out, shiftLoop_rol_value, ← rotateLeft_rotateLeft, getLsbD_zero_rotateLeft_one hn]; rfl
    case ror =>
      rw [shiftLoop_succ_out, shiftLoop_ror_value, ← rotateRight_rotateRight, msb_rotateRight_one hn]; rfl
    · rw [shiftLoop_succ]; rfl
    · rw [shiftLoop_succ]; rfl

end Sys2Proof.Machine
end

section
/-! Decimal arithmetic on two-digit bytes (O28). The correction of a digit sum or difference writes it in positional form
`16 * tens + units` with the tens rounded down, so the high digits add on to it, and the last correction takes off one hundred
or puts it back. -/

namespace Sys2Proof.Machine

open Sys2Proof.Claims

/-- The code of an integer: sixteen times its tens, rounded down, plus its units. -/
def bcdCode (n : ℤ) : ℤ := 16 * (n / 10) + n % 10

/-! ## The code -/

/-- ABCD corrects the sum of two digits and X (rule R450). -/
theorem correctedSum_eq_bcdCode {t : ℤ} (hlo : 0 ≤ t) (hhi : t ≤ 19) : (if t > 9 then t + 6 else t) = bcdCode t := by
  unfold bcdCode
  split_ifs <;> omega

/-- SBCD corrects the difference of two digits and X (rule R451). -/
theorem correctedDifference_eq_bcdCode {t : ℤ} (hlo : -10 ≤ t) (hhi : t ≤ 9) :
    (if t < 0 ∨ t > 9 then t - 6 else t) = bcdCode t := by
  unfold bcdCode
  split_ifs <;> omega

theorem bcdCode_add_tens (n k : ℤ) : bcdCode (n + 10 * k) = bcdCode n + 16 * k := by
  unfold bcdCode
  omega

theorem bcdCode_sub_tens (n k : ℤ) : bcdCode (n - 10 * k) = bcdCode n - 16 * k := by
  unfold bcdCode
  omega

/-- Adding one hundred adds `0xA0` to the code. -/
theorem bcdCode_add_hundred (n : ℤ) : bcdCode (n + 100) = bcdCode n + 0xA0 := bcdCode_add_tens n 10

theorem bcdCode_sub_hundred (n : ℤ) : bcdCode (n - 100) = bcdCode n - 0xA0 := bcdCode_sub_tens n 10

theorem bcdCode_neg_iff (n : ℤ) : bcdCode n < 0 ↔ n < 0 := by
  unfold bcdCode
  omega

theorem bcdCode_gt_iff (n : ℤ) : bcdCode n > 0x99 ↔ 100 ≤ n := by
  unfold bcdCode
  omega

theorem toNat_ofInt_bcdCode {n : ℕ} (hn : n < 100) : (BitVec.ofInt 8 (bcdCode n)).toNat = 16 * (n / 10) + n % 10 := by
  rw [BitVec.toNat_ofInt, bcdCode]
  omega

theorem isDecimal_ofInt_bcdCode {n : ℕ} (hn : n < 100) : isDecimal (BitVec.ofInt 8 (bcdCode n)) := by
  rw [isDecimal, toNat_ofInt_bcdCode hn]
  omega

theorem decimal_ofInt_bcdCode {n : ℕ} (hn : n < 100) : decimal (BitVec.ofInt 8 (bcdCode n)) = n := by
  rw [decimal, toNat_ofInt_bcdCode hn]
  omega

/-! ## Digits -/

theorem lowDigit_bounds_of_isDecimal {b : Byte} (h : isDecimal b) : 0 ≤ lowDigit b ∧ lowDigit b ≤ 9 := by
  obtain ⟨-, hlow⟩ := h
  unfold lowDigit
  omega

theorem decimal_lt_of_isDecimal {b : Byte} (h : isDecimal b) : decimal b < 100 := by
  obtain ⟨hhigh, hlow⟩ := h
  unfold decimal
  omega

theorem decimal_eq_digits (b : Byte) : (decimal b : ℤ) = lowDigit b + 10 * highDigit b := by
  unfold decimal lowDigit highDigit
  omega

/-- X as a digit. -/
def extendDigit (x : Bool) : ℕ := if x then 1 else 0

theorem extendDigit_le_one (x : Bool) : extendDigit x ≤ 1 := by
  cases x <;> decide

theorem cast_extendDigit (x : Bool) : (extendDigit x : ℤ) = if x then 1 else 0 := by
  cases x <;> rfl

/-! ## ABCD and SBCD -/

variable {s d : Byte}

/-- ABCD on the code of the sum: only the last correction is left (rule R450). -/
theorem bcdAdd_eq_ite_bcdCode (hs : isDecimal s) (hd : isDecimal d) (x : Bool) :
    let n : ℤ := decimal d + decimal s + extendDigit x
    bcdAdd s d x = if 100 ≤ n then (BitVec.ofInt 8 (bcdCode (n - 100)), true)
      else (BitVec.ofInt 8 (bcdCode n), false) := by
  intro n
  have hslow := lowDigit_bounds_of_isDecimal hs
  have hdlow := lowDigit_bounds_of_isDecimal hd
  have hx := extendDigit_le_one x
  have hn : lowDigit s + lowDigit d + extendDigit x + 10 * highDigit s + 10 * highDigit d = n := by
    simp only [n, decimal_eq_digits]
    ring
  rw [bcdAdd, ← cast_extendDigit, correctedSum_eq_bcdCode (by omega) (by omega), ← bcdCode_add_tens, ← bcdCode_add_tens, hn]
  simp only [bcdCode_gt_iff, bcdCode_sub_hundred]

/-- SBCD on the code of the difference: only the last correction is left (rule R451). -/
theorem bcdSub_eq_ite_bcdCode (hs : isDecimal s) (hd : isDecimal d) (x : Bool) :
    let n : ℤ := decimal d - decimal s - extendDigit x
    bcdSub s d x = if n < 0 ∨ 100 ≤ n then (BitVec.ofInt 8 (bcdCode (n + 100)), true)
      else (BitVec.ofInt 8 (bcdCode n), false) := by
  intro n
  have hslow := lowDigit_bounds_of_isDecimal hs
  have hdlow := lowDigit_bounds_of_isDecimal hd
  have hx := extendDigit_le_one x
  have hn : lowDigit d - lowDigit s - extendDigit x + 10 * highDigit d - 10 * highDigit s = n := by
    simp only [n, decimal_eq_digits]
    ring
  rw [bcdSub, ← cast_extendDigit, correctedDifference_eq_bcdCode (by omega) (by omega), ← bcdCode_add_tens,
    ← bcdCode_sub_tens, hn]
  simp only [bcdCode_neg_iff, bcdCode_gt_iff, bcdCode_add_hundred]

/-- ABCD codes the sum, less one hundred on a carry (rule R450). -/
theorem bcdAdd_eq_bcdCode (hs : isDecimal s) (hd : isDecimal d) (x : Bool) :
    let n : ℕ := decimal d + decimal s + extendDigit x
    bcdAdd s d x = (BitVec.ofInt 8 (bcdCode ↑(n % 100)), decide (100 ≤ n)) := by
  intro n
  have hlt : n < 200 := by
    have := decimal_lt_of_isDecimal hs
    have := decimal_lt_of_isDecimal hd
    have := extendDigit_le_one x
    omega
  rw [bcdAdd_eq_ite_bcdCode hs hd, show (decimal d + decimal s + extendDigit x : ℤ) = n from rfl]
  by_cases hcarry : 100 ≤ n
  · have hmod : (n : ℤ) - 100 = (n % 100 : ℕ) := by omega
    rw [if_pos (by omega), decide_eq_true hcarry, hmod]
  · rw [if_neg (by omega), decide_eq_false hcarry, Nat.mod_eq_of_lt (by omega)]

/-- SBCD codes the difference, plus one hundred on a borrow (rule R451). -/
theorem bcdSub_eq_bcdCode (hs : isDecimal s) (hd : isDecimal d) (x : Bool) :
    bcdSub s d x = (BitVec.ofInt 8 (bcdCode ↑((decimal d + 100 - decimal s - extendDigit x) % 100)),
      decide (decimal d < decimal s + extendDigit x)) := by
  have hslt := decimal_lt_of_isDecimal hs
  have hdlt := decimal_lt_of_isDecimal hd
  have hx := extendDigit_le_one x
  rw [bcdSub_eq_ite_bcdCode hs hd]
  by_cases hborrow : decimal d < decimal s + extendDigit x
  · have hmod : (decimal d - decimal s - extendDigit x + 100 : ℤ) =
        ((decimal d + 100 - decimal s - extendDigit x) % 100 : ℕ) := by omega
    rw [if_pos (by omega), decide_eq_true hborrow, hmod]
  · have hmod : (decimal d - decimal s - extendDigit x : ℤ) =
        ((decimal d + 100 - decimal s - extendDigit x) % 100 : ℕ) := by omega
    rw [if_neg (by omega), decide_eq_false hborrow, hmod]

end Sys2Proof.Machine
end

section
namespace Sys2Proof.Machine

open Sys2Proof.Claims

/-- Settles O28: both results are codes of numbers below one hundred. -/
theorem bcdIsDecimal : Obligations.BcdIsDecimal := by
  intro s d x hs hd c
  have hmod (n : ℕ) : n % 100 < 100 := Nat.mod_lt n (by decide)
  rw [bcdAdd_eq_bcdCode hs hd x, bcdSub_eq_bcdCode hs hd x]
  exact ⟨isDecimal_ofInt_bcdCode (hmod _), decimal_ofInt_bcdCode (hmod _), rfl,
    isDecimal_ofInt_bcdCode (hmod _), decimal_ofInt_bcdCode (hmod _), rfl⟩

end Sys2Proof.Machine
end

section
/-! The conditions of rule R460 after a compare (O26). -/

namespace Sys2Proof.Machine

open Sys2Proof.Claims

section Compare

variable {n : ℕ} (f : Sr) (s d : BitVec n)

theorem Sr.cmpFlags_z : (f.cmpFlags s d (d - s)).z = decide (d = s) := decide_eq_decide.2 sub_eq_zero

theorem Sr.cmpFlags_c (hn : 0 < n) : (f.cmpFlags s d (d - s)).c = decide (d.toNat < s.toNat) := by
  simpa [Sr.cmpFlags] using subC_eq_borrow (s := s) (d := d) (e := 0) hn (by simp)

theorem Sr.cmpFlags_v (hn : 0 < n) : (f.cmpFlags s d (d - s)).v = signedOut n (d.toInt - s.toInt) := by
  simpa [Sr.cmpFlags] using subV_eq_signedOut (s := s) (d := d) (e := 0) hn (by simp)

/-- N differs from V exactly when the exact signed difference is negative: V says that the sign N shows is wrong. -/
theorem Sr.cmpFlags_n_ne_v (hn : 0 < n) :
    ((f.cmpFlags s d (d - s)).n != (f.cmpFlags s d (d - s)).v) = decide (d.toInt < s.toInt) := by
  obtain ⟨m, rfl⟩ := Nat.exists_eq_add_one.2 hn
  have hdiff := toNat_difference_cases (s := s) (d := d) (e := 0) (by simp)
  have hd := d.isLt
  have hs := s.isLt
  have hr := (d - s).isLt
  simp only [BitVec.ofNat_eq_ofNat, BitVec.sub_zero, BitVec.toNat_zero, add_zero] at hdiff
  rw [Bool.eq_iff_iff, bne_iff_ne, Ne, Bool.eq_iff_iff]
  simp only [Sr.cmpFlags, subV, Bool.or_eq_true, Bool.and_eq_true,
    Bool.not_eq_true', ← Bool.not_eq_true, msb_iff_half_le, decide_eq_true_eq, BitVec.toInt_eq_msb_cond]
  split_ifs <;> omega

end Compare

/-- Settles O26: C is the borrow, N against V the signed comparison, and Z the equality that HI, LS, GT and LE add. -/
theorem conditionsAfterCompare : Obligations.ConditionsAfterCompare := by
  intro sz f s d g
  have hn : 0 < sz.bits := Size.bits_pos sz
  have hz : g.z = decide (d = s) := f.cmpFlags_z s d
  have hc : g.c = decide (d.toNat < s.toNat) := f.cmpFlags_c s d hn
  have hv : g.v = signedOut sz.bits (d.toInt - s.toInt) := f.cmpFlags_v s d hn
  have hlt : g.cond .lt = decide (d.toInt < s.toInt) := f.cmpFlags_n_ne_v s d hn
  have hge : g.cond .ge = !g.cond .lt := by simp [Sr.cond, bne]
  have hgt : g.cond .gt = (!g.z && g.cond .ge) := rfl
  have hle : g.cond .le = (g.z || g.cond .lt) := rfl
  have hnat : d = s ↔ d.toNat = s.toNat := BitVec.toNat_inj.symm
  have hint : d = s ↔ d.toInt = s.toInt := BitVec.toInt_inj.symm
  refine ⟨rfl, rfl, hz, ?_, ?_, ?_, ?_, hc, ?_, hlt, ?_, ?_, rfl, rfl, hv, congrArg not hv⟩
  case refine_1 => simp [Sr.cond, hz]
  case refine_2 | refine_3 | refine_4 =>
    simp only [Sr.cond, hc, hz, hnat, ← decide_not, ← Bool.decide_and, ← Bool.decide_or, decide_eq_decide]
    omega
  case refine_5 | refine_6 | refine_7 =>
    simp only [hgt, hle, hge, hlt, hz, hint, ← decide_not, ← Bool.decide_and, ← Bool.decide_or, decide_eq_decide]
    omega

end Sys2Proof.Machine
end

section
/-! Program control: branches and jumps (O50), calls and returns (O51). -/

namespace Sys2Proof.Machine

/-! ## Displacements and jumps -/

section Displacements

variable {k : Byte} {s t : State} {w : Word} {disp : Long}

theorem branchDisp_of_ne_zero (h : k ≠ 0) (s : State) : branchDisp k s = .ok (k.signExtend 32) s := by
  rw [branchDisp, if_neg h, Exec.pure_apply]

theorem branchDisp_zero_of_fetch16 (h : fetch16 s = .ok w t) : branchDisp 0 s = .ok (w.signExtend 32) t :=
  Exec.bind_of_ok h

/-- A displacement is in the opcode, or the word after it is fetched; either way only pc and measures change (rule R462). -/
theorem branchDisp_eq_ok (h : branchDisp k s = .ok disp t) : Measured s t := by
  by_cases hk : k = 0
  · subst hk
    obtain ⟨w, u, hw, hpure⟩ := Exec.bind_eq_ok.1 h
    cases hpure
    exact (fetch16_eq_ok hw).2.2.2
  · rw [branchDisp_of_ne_zero hk] at h
    cases h
    exact .refl s

end Displacements

theorem Measured.withPc {s t : State} (h : Measured s t) (p : Long) : Measured s { t with pc := p } := by
  obtain ⟨_, ext, ops, dev, rfl⟩ := h
  exact ⟨p, ext, ops, dev, rfl⟩

/-- A rule that jumps after steps that left the registers `r` and otherwise only measured. -/
theorem complete_jumps {body : Exec Unit} {s t : State} {p : Long} {r : RegFile}
    (hm : Measured { s.start with regs := r } t) (h : body s.start = jumpTo p t) :
    ∃ u, complete body s = .next u ∧ ChangesRegs s u p r :=
  complete_leaves (d := s.draws) h (hm.withPc p) rfl

/-! ## Branches and jumps -/

/-- Bcc: the displacement is fetched whether or not the branch is taken (rule R462). -/
theorem bcc_completes (c : Cond) {k : Byte} {s t : State} {disp : Long} (h : branchDisp k s.start = .ok disp t) :
    ∃ u, exec (.bcc c k) s = .next u ∧
      ChangesRegs s u (if s.regs.sr.cond c then s.hid.pc0 + 2 + disp else t.pc) s.regs := by
  have hm := branchDisp_eq_ok h
  have hregs : t.regs = s.regs := hm.regs
  have hpc0 : t.hid.pc0 = s.hid.pc0 := hm.pc0
  by_cases hc : s.regs.sr.cond c
  · rw [if_pos hc]
    refine complete_jumps hm ?_
    rw [Exec.bind_of_ok h, branchTarget_bind, readSr_bind, hregs, if_pos hc, hpc0]
  · rw [if_neg hc]
    refine complete_leaves (d := s.draws) ?_ hm rfl
    rw [Exec.bind_of_ok h, branchTarget_bind, readSr_bind, hregs, if_neg hc, Exec.pure_apply]

/-- DBcc: the word is fetched, then the condition ends the loop, or the counter does, or the branch is taken (rule
R465). -/
theorem dbcc_completes (c : Cond) (y : Reg) {s t : State} {w : Word} (h : fetch16 s.start = .ok w t) :
    let n : Word := (s.regs.getD y).setWidth 16 - 1
    ∃ u, exec (.dbcc c y) s = .next u ∧
      ChangesRegs s u (if s.regs.sr.cond c ∨ n = 0xFFFF then t.pc else s.hid.pc0 + 2 + w.signExtend 32)
        (if s.regs.sr.cond c then s.regs else s.regs.setD y (mergeLow (s.regs.getD y) n)) := by
  intro n
  obtain ⟨_, _, _, hm⟩ := fetch16_eq_ok h
  have hregs : t.regs = s.regs := hm.regs
  have hpc0 : t.hid.pc0 = s.hid.pc0 := hm.pc0
  by_cases hc : s.regs.sr.cond c
  · rw [if_pos (.inl hc), if_pos hc]
    refine complete_leaves (d := s.draws) ?_ hm rfl
    rw [Exec.bind_of_ok h, readSr_bind, hregs, if_pos hc, Exec.pure_apply]
  · rw [if_neg hc]
    have hcount : ∀ g : Word → Exec Unit, (readD y .w >>= fun v => writeD y .w (v - 1) >>= fun _ => g v) t =
        g ((s.regs.getD y).setWidth 16) { t with regs := s.regs.setD y (mergeLow (s.regs.getD y) n) } := fun g => by
      rw [readD_bind, writeD_bind, hregs]
    by_cases hn : n = 0xFFFF
    · rw [if_pos (.inr hn)]
      refine complete_leaves (d := s.draws) ?_ (hm.withRegs _) rfl
      rw [Exec.bind_of_ok h, readSr_bind, hregs, if_neg hc, hcount, if_neg (not_not.2 hn), Exec.pure_apply]
    · rw [if_neg (not_or.2 ⟨hc, hn⟩)]
      refine complete_jumps (hm.withRegs _) ?_
      rw [Exec.bind_of_ok h, readSr_bind, hregs, if_neg hc, hcount, if_pos hn, branchTarget_bind, hpc0]

/-- Settles O50. -/
theorem branchesAndJumps : Obligations.BranchesAndJumps := by
  intro s
  refine ⟨fun k disp t h => ⟨?_, fun c => bcc_completes c h⟩, fun c y w t h => dbcc_completes c y h, fun ea a t h => ?_,
    complete_registers (d := s.draws) rfl, fun k hk => branchDisp_of_ne_zero hk _,
    fun w t h => branchDisp_zero_of_fetch16 h⟩
  · have hm := branchDisp_eq_ok h
    have hpc0 : t.hid.pc0 = s.hid.pc0 := hm.pc0
    refine complete_jumps hm ?_
    rw [Exec.bind_of_ok h, branchTarget_bind, hpc0]
  · exact complete_jumps (resolve_eq_ok h) (Exec.bind_of_ok (addressOf_eq_ok h))

/-! ## The stack -/

section Stack

variable {s w : State} {r : RegFile} {sz : Size}

/-- A pop answers what memory held at A7 when the rule started and moves A7 past it (rule R202). -/
theorem pop_of_measured (hm : Measured { s.start with regs := r } w) (hacc : s.canAccess sz (r.getA 7) = true) :
    ∃ t, pop sz w = .ok (s.memValue sz (r.getA 7)) t ∧
      Measured { s.start with regs := r.setA 7 (r.getA 7 + BitVec.ofNat 32 sz.bytes) } t := by
  obtain ⟨t, hread, ht, _⟩ := readMem_of_measured hm hacc
  refine ⟨_, ?_, ht.withRegs _⟩
  rw [pop, readA_bind, hm.regs, Exec.bind_of_ok hread, writeA_bind, Exec.pure_apply, ht.regs]

/-- A rule that pushes `v` and then jumps to `p`, after steps that left the registers `r` and otherwise only measured. -/
theorem complete_pushes {body : Exec Unit} {k : Unit → Exec Unit} {v p : Long}
    (hm : Measured { s.start with regs := r } w) (hacc : s.canAccess .l (r.getA 7 - 4) = true)
    (hbody : body s.start = (push .l v >>= k) w)
    (hk : ∀ y : State, y.hid.pc0 = s.hid.pc0 → k () y = jumpTo p y) :
    ∃ u, complete body s = .next u ∧
      ChangesAt s u p (r.setA 7 (r.getA 7 - 4)) .l (.mem (r.getA 7 - 4)) v := by
  have hregs : w.regs = r := hm.regs
  subst hregs
  have hw := hm.withRegs (w.regs.setA 7 (w.regs.getA 7 - 4))
  obtain ⟨m, y, q, dev, hwrite, hstores⟩ := writeMem_ok ((hw.canAccess .l _).trans hacc) v
  have hrun := hbody.trans ((Exec.bind_of_ok ((push_apply .l v w).trans hwrite)).trans (hk _ hm.pc0))
  refine ⟨_, complete_of_ok hrun, ⟨rfl, rfl, hm.run, ?_, ?_⟩⟩
  · refine ⟨hm.cfg, hm.inGroup0, hm.group0Handler, hm.irq, hm.out, hm.pc0, hm.ir, hm.tracePending, ?_⟩
    have hcycles : w.cycles = s.cycles := hm.cycles
    exact hcycles ▸ State.charge_cycles_lt _
  · exact WritesAt.congr (loc := .mem _) hstores hm.cfg.symm hm.mem.symm hm.ym.symm hm.paula.symm rfl rfl rfl rfl

end Stack

/-- An address register is read as before under another SR with the same S (rule R34). -/
theorem RegFile.getA_withSr (r : RegFile) {f : Sr} (hf : f.s = r.sr.s) (n : Reg) : (r.withSr f).getA n = r.getA n := by
  simp only [RegFile.getA, RegFile.sp, RegFile.withSr, hf]

theorem RegFile.setA_withSr (r : RegFile) {f : Sr} (hf : f.s = r.sr.s) (n : Reg) (v : Long) :
    (r.withSr f).setA n v = (r.setA n v).withSr f := by
  simpa [Loc.putRegs] using Loc.putRegs_withSr (loc := .areg n) (sz := .l) v r hf

/-! ## Calls and returns -/

theorem Sr.setCcr_low_byte (f : Sr) (w : Word) : f.setCcr (w.extractLsb' 0 8) =
    { f with x := w.getLsbD 4, n := w.getLsbD 3, z := w.getLsbD 2, v := w.getLsbD 1, c := w.getLsbD 0 } := by
  simp [Sr.setCcr]

/-- RTR: CCR is written between the two pops, which leaves the active stack pointer the same (rule R470). -/
theorem rtr_completes {s : State} {sp : Long} {w : Word} (hsp : s.regs.getA 7 = sp) (hw : s.memValue .w sp = w)
    (hword : s.canAccess .w sp = true) (hlong : s.canAccess .l (sp + 2) = true) :
    ∃ u, exec .rtr s = .next u ∧ ChangesRegs s u (s.memValue .l (sp + 2))
      ((s.regs.setA 7 (sp + 6)).withSr (s.regs.sr.setCcr (w.extractLsb' 0 8))) := by
  subst hsp hw
  let f := s.regs.sr.setCcr ((s.memValue .w (s.regs.getA 7)).extractLsb' 0 8)
  let r := s.regs.setA 7 (s.regs.getA 7 + 2)
  have hsr : r.sr = s.regs.sr := RegFile.setA_sr ..
  have hf : f.s = r.sr.s := by rw [hsr]; rfl
  have hsp : (r.withSr f).getA 7 = s.regs.getA 7 + 2 := by
    rw [RegFile.getA_withSr r hf, RegFile.getA_setA_same]
  have hend : (r.withSr f).setA 7 (s.regs.getA 7 + 2 + 4) = (s.regs.setA 7 (s.regs.getA 7 + 6)).withSr f := by
    rw [RegFile.setA_withSr r hf, RegFile.setA_setA, add_assoc]
    rfl
  obtain ⟨w1, hpop1, hw1⟩ := pop_of_measured (.refl s.start) hword
  obtain ⟨w2, hpop2, hw2⟩ := pop_of_measured (sz := .l) (hw1.withRegs (r.withSr f)) (hsp ▸ hlong)
  have hregs1 : w1.regs = r := hw1.regs
  rw [hsp] at hpop2 hw2
  rw [← hend]
  refine complete_jumps hw2 ?_
  rw [Exec.bind_of_ok hpop1, writeCcr_bind, hregs1, hsr]
  exact Exec.bind_of_ok hpop2

/-- Settles O51: BSR and JSR push before they jump, RTS and RTR pop. -/
theorem callsAndReturns : Obligations.CallsAndReturns := by
  intro s
  refine ⟨fun k disp t h => ?_, fun ea a t h => ?_, ?_, ?_⟩
  · intro sp hacc
    refine complete_pushes (branchDisp_eq_ok h) hacc (Exec.bind_of_ok h) fun y hy => ?_
    rw [branchTarget_bind, hy]
  · intro r sp hacc
    exact complete_pushes (resolve_eq_ok h) hacc (Exec.bind_of_ok (addressOf_eq_ok h)) fun _ _ => rfl
  · intro sp hacc
    obtain ⟨w, hpop, hw⟩ := pop_of_measured (.refl s.start) hacc
    exact complete_jumps hw (Exec.bind_of_ok hpop)
  · intro sp w hword hlong
    rw [← Sr.setCcr_low_byte]
    exact rtr_completes rfl rfl hword hlong

end Sys2Proof.Machine
end

section
/-! Privilege violations (O56), the bounds check of CHK (O55), and RTE after an entry (O20). -/

namespace Sys2Proof.Machine

open Sys2Proof.Config

/-! ## Privilege -/

/-- Settles O56: a privileged rule raises before anything else, the other rules complete in every mode. -/
theorem privilegeViolations : Obligations.PrivilegeViolations := by
  intro s hs
  refine ⟨fun i hi => exec_privileged_of_user ?_ hs, rfl, rfl, rfl, ⟨fun _ => rfl, rfl, rfl, rfl⟩, rfl,
    fun w t hw i hi => ?_, fun ea t loc h => ⟨?_, ?_⟩⟩
  · rcases hi with rfl | rfl | rfl | ⟨_, rfl⟩ | ⟨_, rfl⟩ | ⟨_, rfl⟩ | rfl | rfl | rfl <;> rfl
  · rcases hi with rfl | rfl | rfl
    · exact ⟨_, ccrImm_completes _ hw⟩
    · exact ⟨_, ccrImm_completes _ hw⟩
    · exact ⟨_, ccrImm_completes _ hw⟩
  · obtain ⟨_, _, instructions⟩ := statusRegisterWrites s
    exact ⟨_, (instructions ea t loc h).1⟩
  · obtain ⟨_, _, moveFromSr⟩ := unaryOperand ea s t loc
    exact moveFromSr h

/-! ## The bounds check -/

/-- What CHK does with the bound it has read (rule R516). -/
def checkBound (x : Reg) (bound : Word) : Exec Unit := do
  let i ← readD x .w
  let z ← drawBit
  let v ← drawBit
  let c ← drawBit
  updateSr (fun f => { f with z := z, v := v, c := c })
  if i.toInt < 0 then
    updateSr (fun f => { f with n := true })
    raise .chk
  else if bound.toInt < i.toInt then
    updateSr (fun f => { f with n := false })
    raise .chk
  else
    let n ← drawBit
    updateSr (fun f => { f with n := n })

theorem exec_chk (x : Reg) (ea : Ea) (s : State) :
    exec (.chk x ea) s = complete (readEa ea .w >>= checkBound x) s := rfl

/-- SR after CHK has drawn its free bits from number `d` on: Z, V and C are free, N is given (rule R516). -/
def Sr.afterChk (f : Sr) (d : ℕ) (n : Bool) : Sr :=
  { f with n := n, z := freeBit d, v := freeBit (d + 1), c := freeBit (d + 2) }

/-- The three outcomes of the check, by the place of the index (rule R516). -/
theorem checkBound_apply (x : Reg) (bound : Word) (w : State) :
    checkBound x bound w =
      if BitVec.toInt ((w.regs.getD x).setWidth 16) < 0 then
        .error .chk { w with regs := w.regs.withSr (w.regs.sr.afterChk w.draws true), draws := w.draws + 3 }
      else if bound.toInt < BitVec.toInt ((w.regs.getD x).setWidth 16) then
        .error .chk { w with regs := w.regs.withSr (w.regs.sr.afterChk w.draws false), draws := w.draws + 3 }
      else .ok () { w with
        regs := w.regs.withSr (w.regs.sr.afterChk w.draws (freeBit (w.draws + 3))), draws := w.draws + 4 } := by
  show (if BitVec.toInt ((w.regs.getD x).setWidth 16) < 0 then _
    else if bound.toInt < BitVec.toInt ((w.regs.getD x).setWidth 16) then _ else _ : Exec Unit) _ = _
  split_ifs <;> rfl

/-- Settles O55: the rule reads the bound, and the check has one outcome for each place of the index. -/
theorem checkBounds : Obligations.CheckBounds := by
  intro x ea s t loc h bound index r
  simp only [exec_chk]
  refine ⟨rfl, fun hlow hhigh => ⟨freeBit (s.draws + 3), freeBit s.draws, freeBit (s.draws + 1),
    freeBit (s.draws + 2), ?_⟩, fun hneg => ⟨freeBit s.draws, freeBit (s.draws + 1), freeBit (s.draws + 2), ?_⟩,
    fun hlow hhigh => ⟨freeBit s.draws, freeBit (s.draws + 1), freeBit (s.draws + 2), ?_⟩⟩
  · refine complete_source (d := s.draws + 4) rfl (.refl _) h fun w _ hregs hdraws => ?_
    rw [checkBound_apply, hregs, hdraws, RegFile.getD_bump, RegFile.bump_sr, if_neg (Int.not_lt.2 hlow),
      if_neg (Int.not_lt.2 hhigh)]
    rfl
  · refine complete_source_raise (d := s.draws + 3) rfl h fun w hregs hdraws => ?_
    rw [checkBound_apply, hregs, hdraws, RegFile.getD_bump, RegFile.bump_sr, if_pos hneg]
    rfl
  · refine complete_source_raise (d := s.draws + 3) rfl h fun w hregs hdraws => ?_
    rw [checkBound_apply, hregs, hdraws, RegFile.getD_bump, RegFile.bump_sr, if_neg (Int.not_lt.2 hlow),
      if_pos hhigh]
    rfl

/-! ## RTE after an entry -/

/-- SR is determined by the word it reads as (rule R40). -/
theorem Sr.toWord_injective {f g : Sr} (h : f.toWord = g.toWord) : f = g := by
  have hbit : ∀ i, i < 16 → f.bit i = g.bit i := fun i hi => by
    rw [← f.getElem_toWord i hi, ← g.getElem_toWord i hi, h]
  have hi : f.i = g.i := by
    apply BitVec.eq_of_getLsbD_eq
    intro k hk
    interval_cases k
    · exact hbit 8 (by decide)
    · exact hbit 9 (by decide)
    · exact hbit 10 (by decide)
  cases f
  cases g
  congr 1
  · exact hbit 15 (by decide)
  · exact hbit 14 (by decide)
  · exact hbit 13 (by decide)
  · exact hbit 4 (by decide)
  · exact hbit 3 (by decide)
  · exact hbit 2 (by decide)
  · exact hbit 1 (by decide)
  · exact hbit 0 (by decide)

/-- The mask of a write keeps the word of a legal SR (rules R42, R47). -/
theorem Sr.toWord_and_mask {f : Sr} {t0Stored : Bool} (h : f.legal t0Stored = true) :
    f.toWord &&& srMask t0Stored = f.toWord := by
  have hsplit : f.toWord &&& srMask t0Stored ||| f.toWord &&& ~~~srMask t0Stored = f.toWord := by
    rw [← BitVec.and_or_distrib_left, BitVec.or_not_self, BitVec.and_allOnes]
  rw [Sr.toWord_of_legal h] at hsplit
  exact BitVec.or_zero.symm.trans hsplit

/-- The short frame below the stack pointer can be read. -/
theorem State.stackRoom.frame_readable {s : State} (h : s.stackRoom 6) (hp : s.cfg.memoryOk = true) :
    s.canAccess .w (s.regs.ssp - 6) = true ∧ s.canAccess .l (s.regs.ssp - 4) = true := by
  obtain ⟨hat6, heven6⟩ := h.below (k := 6) (by decide) rfl
  obtain ⟨hat4, heven4⟩ := h.below (k := 4) (by decide) rfl
  have hk6 : (6 : Long).toNat = 6 := rfl
  have hk4 : (4 : Long).toNat = 4 := rfl
  obtain ⟨_, hbottom, htop⟩ := h
  have hlow6 : s.lowRam .w (s.regs.ssp - 6) := ⟨hp, by rw [hat6, hk6, Size.bytes]; omega⟩
  have hlow4 : s.lowRam .l (s.regs.ssp - 4) := ⟨hp, by rw [hat4, hk4, Size.bytes]; omega⟩
  exact ⟨hlow6.canAccess heven6, hlow4.canAccess heven4⟩

/-- RTE takes pc and SR from a readable short frame at SSP that holds a legal SR (rules R511, R573). -/
theorem rte_of_shortFrame {s : State} {f : Sr} {p : Long} (hs : s.regs.sr.s = true)
    (hword : s.canAccess .w s.regs.ssp = true) (hlong : s.canAccess .l (s.regs.ssp + 2) = true)
    (hlegal : f.legal s.cfg.srT0Stored = true) (hframe : s.shortFrameAt s.regs.ssp f.toWord p) :
    ∃ u, exec .rte s = .next u ∧ ChangesRegs s u p { s.regs with ssp := s.regs.ssp + 6, sr := f } := by
  obtain ⟨hsr, hpc⟩ := hframe
  obtain ⟨_, _, _, rte⟩ := supervisorInstructions s hs
  obtain ⟨g, u, hu, hg, hchanges⟩ := rte hword hlong
  have hgf : g = f := Sr.toWord_injective (hg.trans (by rw [hsr]; exact Sr.toWord_and_mask hlegal))
  rw [hgf, hpc] at hchanges
  exact ⟨u, hu, hchanges⟩

/-- Settles O20: the entry leaves SSP at its frame, and RTE takes back what the frame holds. -/
theorem rteUndoesEntry : Obligations.RteUndoesEntry := by
  intro e p s hshort hp hroom hok hlegal
  obtain ⟨m, henter, hframe⟩ := enter_short p hp hroom hshort hok
  have hpcAt : s.regs.ssp - 6 + 2 = s.regs.ssp - 4 := by bv_omega
  obtain ⟨hword, hlong⟩ := hroom.frame_readable hp
  rw [← hpcAt] at hlong
  obtain ⟨u, hu, hchanges⟩ := rte_of_shortFrame (s := enter e p s) (f := s.regs.sr) (p := p)
    (by rw [henter]; rfl) (by rw [henter]; exact hword) (by rw [henter]; exact hlong) (by rw [henter]; exact hlegal)
    (by rw [henter]; exact hframe)
  refine ⟨u, hu, hchanges.pc, ?_, ?_⟩
  · rw [hchanges.regs, henter]
    simp [RegFile.withSr]
  · rw [hchanges.run, henter]

end Sys2Proof.Machine
end

section
/-! What a step does (O4, O7), and the trace that follows it (O9). -/

namespace Sys2Proof.Machine

/-! ## Steps -/

/-- Settles O4: the fetch answers, the decoder accepts, and the CPU step is the instruction and the boundary. -/
theorem stepRunsDecodedInstruction : Obligations.StepRunsDecodedInstruction := by
  intro s w i hlive hrun heven hw hdecode
  obtain ⟨u, hu⟩ := exec_next i (s.fetched w)
  have hcpu : stepCpu s = .next u.boundary := by
    rw [stepCpu, hrun]
    dsimp only
    rw [stepNormal, fetchOpcode_beginStep heven hw]
    dsimp only
    rw [hdecode]
    dsimp only
    rw [hu]
  exact ⟨u, hu, step_of_stepCpu hlive hcpu⟩

theorem stepCpu_of_stopped {s : State} (h : s.run = .stopped) : stepCpu s = .next (stepStopped s) := by rw [stepCpu, h]

theorem stepCpu_of_halted {s : State} (h : s.run = .halted) : stepCpu s = .next s := by rw [stepCpu, h]

/-- A Halted CPU ends its slice at every step (rule R765). -/
theorem State.endStep_of_halted {s : State} (h : s.run = .halted) : s.endStep = s.closeSlice :=
  if_pos (by simp [State.sliceOver, h])

/-- Settles O7: one CPU step for each run state, and what the end of a slice leaves alone. -/
theorem stoppedHaltedEndedSteps : Obligations.StoppedHaltedEndedSteps := by
  refine fun s => ⟨fun hlive hrun => step_of_stepCpu hlive (stepCpu_of_stopped hrun), fun hlive hrun => ?_, step_of_ended⟩
  have hstep := step_of_stepCpu hlive (stepCpu_of_halted hrun)
  rw [State.endStep_of_halted hrun] at hstep
  have hended := s.closeSlice_ended.1
  obtain ⟨y, p, o, hclose⟩ := s.closeSlice_eq
  rw [hclose] at hended hstep ⊢
  exact ⟨hstep, hended hrun, rfl, rfl, rfl, rfl, hrun⟩

/-! ## Trace -/

/-- What is measured of the instruction in hand, its trace bit included, has not changed. -/
def KeepsHidden (s t : State) : Prop := t.hid = s.hid

theorem State.storeWord_hid {s t : State} {a : Long} {v : Word} {ts : ℕ} (h : s.storeWord a v ts = some t) :
    t.hid = s.hid := by
  unfold State.storeWord at h
  split at h <;> cases h <;> rfl

theorem KeepsHidden.entryTolerant : EntryTolerant KeepsHidden where
  trans _ _ _ h k := Eq.trans k h
  refl _ := rfl
  ssp _ _ := rfl
  sr _ _ := rfl
  inGroup0 _ _ := rfl
  storeWord _ h := State.storeWord_hid h
  handler _ _ _ _ := rfl
  halted _ := rfl

/-- No entry touches the sample of T1, also one that halts (rule R575). -/
@[simp] theorem enter_hid (e : Event) (p : Long) (s : State) : (enter e p s).hid = s.hid :=
  KeepsHidden.entryTolerant.enter e p s

theorem takeFault_tracePending (e : Event) (p : Long) (s : State) : (takeFault e p s).hid.tracePending = false := by
  unfold takeFault
  dsimp only
  split
  · rfl
  · rw [enter_hid]

theorem State.afterEvent_tracePending (s s0 : State) (e : Event) :
    (s.afterEvent s0 e).hid.tracePending = (decide (e.group = .two) && s.hid.tracePending) := by
  unfold State.afterEvent
  cases e.group with
  | zero => exact takeFault_tracePending _ _ _
  | one => exact congrArg Hidden.tracePending (enter_hid _ _ _)
  | two => exact congrArg Hidden.tracePending (enter_hid _ _ _)

theorem State.boundary_of_trace {u : State} (hpending : u.hid.tracePending = true) (hrun : u.run ≠ .halted) :
    u.boundary = (enter .trace u.pc u.noTrace).checkIrq :=
  congrArg State.checkIrq (if_pos ⟨hpending, hrun⟩)

theorem State.boundary_of_not_trace {u : State} (h : u.hid.tracePending = false ∨ u.run = .halted) :
    u.boundary = u.checkIrq := by
  refine congrArg State.checkIrq (if_neg ?_)
  rintro ⟨hpending, hrun⟩
  rcases h with hnone | hhalted
  · exact absurd (hpending.symm.trans hnone) (by decide)
  · exact hrun hhalted

/-- Settles O9: an event drops the sample unless it is of group 2, and the boundary looks at it. -/
theorem traceAfterExceptions : Obligations.TraceAfterExceptions := by
  refine ⟨rfl, fun _ _ => rfl, fun s s0 e => ⟨fun hne => ?_, fun htwo => ?_, takeFault_tracePending _ _ _⟩,
    fun u => ⟨State.boundary_of_trace, State.boundary_of_not_trace, rfl, rfl⟩⟩
  · rw [State.afterEvent_tracePending, decide_eq_false hne, Bool.false_and]
  · rw [State.afterEvent_tracePending, decide_eq_true htwo, Bool.true_and]

end Sys2Proof.Machine
end

section
/-! Entering an exception: what halts the CPU (O18), the short frame (O16), and the frame of a bus or address error (O17). -/

namespace Sys2Proof.Machine

open Sys2Proof.Config

/-! ## Pushes that answer -/

section Pushes

variable {e : Event} {f : FaultRec} {s t : State}

theorem writeWordAt_eq_ok {k : AccessKind} {a : Long} {v : Word} {ts : ℕ} (h : writeWordAt k a v ts s = .ok () t) :
    s.canAccess .w a = true ∧ t.cfg = s.cfg ∧ t.regs = s.regs := by
  by_cases hacc : s.canAccess .w a = true
  · obtain ⟨_, _, _, hok, _⟩ := writeWordAt_ok (k := k) hacc v ts
    rw [hok] at h
    cases h
    exact ⟨hacc, rfl, rfl⟩
  · rw [writeWordAt_error (by simpa using hacc)] at h
    cases h

theorem writeLongAt_eq_ok {k : AccessKind} {a : Long} {v : Long} {ts : ℕ} (h : writeLongAt k a v ts s = .ok () t) :
    s.canAccess .l a = true ∧ t.cfg = s.cfg ∧ t.regs = s.regs := by
  obtain ⟨_, u, hhi, hlo⟩ := Exec.bind_eq_ok.1 h
  obtain ⟨hacc, hcfg, hregs⟩ := writeWordAt_eq_ok hhi
  obtain ⟨hacc', hcfg', hregs'⟩ := writeWordAt_eq_ok hlo
  rw [State.canAccess_congr hcfg] at hacc'
  exact ⟨by rw [State.canAccess_long, hacc, hacc']; rfl, hcfg'.trans hcfg, hregs'.trans hregs⟩

theorem State.isOdd_of_canAccess_long {a : Long} (h : s.canAccess .l a = true) : isOdd a = false := by
  simp only [State.canAccess, Bool.and_eq_true, Bool.not_eq_true'] at h
  exact h.1.1

/-- A push that answers has accessed the word below SSP, and SSP is there. -/
theorem pushFrameWord_eq_ok {v : Word} (h : pushFrameWord v s = .ok () t) :
    s.canAccess .w (s.regs.ssp - 2) = true ∧ t.cfg = s.cfg ∧ t.regs.ssp = s.regs.ssp - 2 := by
  obtain ⟨hacc, hcfg, hregs⟩ := writeWordAt_eq_ok h
  exact ⟨hacc, hcfg, by rw [hregs]⟩

theorem pushFrameLong_eq_ok {v : Long} (h : pushFrameLong v s = .ok () t) :
    s.canAccess .l (s.regs.ssp - 4) = true ∧ t.cfg = s.cfg ∧ t.regs.ssp = s.regs.ssp - 4 := by
  obtain ⟨hacc, hcfg, hregs⟩ := writeLongAt_eq_ok h
  exact ⟨hacc, hcfg, by rw [hregs]⟩

theorem pushFaultInfo_of_faultRec (hf : e.faultRec = some f) : pushFaultInfo e s =
    (pushFrameWord s.hid.ir >>= fun _ => pushFrameLong f.addr >>= fun _ => pushFrameWord f.statusWord) s := by
  rw [pushFaultInfo, hf]
  rfl

theorem pushFaultInfo_eq_ok (hf : e.faultRec = some f) (h : pushFaultInfo e s = .ok () t) :
    s.canAccess .w (s.regs.ssp - 2) = true ∧ s.canAccess .l (s.regs.ssp - 6) = true ∧
      s.canAccess .w (s.regs.ssp - 8) = true := by
  rw [pushFaultInfo_of_faultRec hf] at h
  obtain ⟨_, s1, hir, h⟩ := Exec.bind_eq_ok.1 h
  obtain ⟨_, s2, haddr, hstatus⟩ := Exec.bind_eq_ok.1 h
  obtain ⟨hacc, hcfg1, hssp1⟩ := pushFrameWord_eq_ok hir
  obtain ⟨hacc1, hcfg2, hssp2⟩ := pushFrameLong_eq_ok haddr
  obtain ⟨hacc2, _, _⟩ := pushFrameWord_eq_ok hstatus
  rw [State.canAccess_congr (hcfg2.trans hcfg1), hssp2, hssp1] at hacc2
  rw [State.canAccess_congr hcfg1, hssp1] at hacc1
  have h6 : s.regs.ssp - 2 - 4 = s.regs.ssp - 6 := by bv_omega
  have h8 : s.regs.ssp - 2 - 4 - 2 = s.regs.ssp - 8 := by bv_omega
  exact ⟨hacc, h6 ▸ hacc1, h8 ▸ hacc2⟩

/-- An entry that answers has accessed every part of its frame (rules R561, R566). -/
theorem entryBody_eq_ok {p : Long} (h : entryBody e p s = .ok () t) :
    s.canAccess .l (s.regs.ssp - 4) = true ∧ s.canAccess .w (s.regs.ssp - 6) = true ∧
      (e.faultRec.isSome = true → s.canAccess .w (s.regs.ssp - 8) = true ∧
        s.canAccess .l (s.regs.ssp - 12) = true ∧ s.canAccess .w (s.regs.ssp - 14) = true) := by
  rw [entryBody_eq_entryRest, entryRest, updating_bind] at h
  obtain ⟨_, s1, hpc, h⟩ := Exec.bind_eq_ok.1 h
  obtain ⟨_, s2, hsr, h⟩ := Exec.bind_eq_ok.1 h
  obtain ⟨_, s3, hinfo, _⟩ := Exec.bind_eq_ok.1 h
  obtain ⟨hacc4, hcfg1, hssp1⟩ := pushFrameLong_eq_ok hpc
  obtain ⟨hacc6, hcfg2, hssp2⟩ := pushFrameWord_eq_ok hsr
  have hcfg1 : s1.cfg = s.cfg := hcfg1
  have hcfg2 : s2.cfg = s.cfg := hcfg2.trans hcfg1
  have hssp1 : s1.regs.ssp = s.regs.ssp - 4 := hssp1
  have hssp2 : s2.regs.ssp = s.regs.ssp - 6 := by rw [hssp2, hssp1]; bv_omega
  have h6 : s.regs.ssp - 4 - 2 = s.regs.ssp - 6 := by bv_omega
  rw [State.canAccess_congr hcfg1, hssp1, h6] at hacc6
  refine ⟨hacc4, hacc6, fun hsome => ?_⟩
  obtain ⟨f, hf⟩ := Option.isSome_iff_exists.1 hsome
  obtain ⟨hacc8, hacc12, hacc14⟩ := pushFaultInfo_eq_ok hf hinfo
  have h8 : s.regs.ssp - 6 - 2 = s.regs.ssp - 8 := by bv_omega
  have h12 : s.regs.ssp - 6 - 6 = s.regs.ssp - 12 := by bv_omega
  have h14 : s.regs.ssp - 6 - 8 = s.regs.ssp - 14 := by bv_omega
  rw [State.canAccess_congr hcfg2, hssp2] at hacc8 hacc12 hacc14
  exact ⟨h8 ▸ hacc8, h12 ▸ hacc12, h14 ▸ hacc14⟩

end Pushes

/-! ## Entries that halt -/

theorem enter_halted {e : Event} {p : Long} {s : State} (h : ∀ t, entryBody e p s ≠ .ok () t) :
    (enter e p s).run = .halted := by
  unfold enter
  cases hrun : entryBody e p s with
  | ok _ t => exact absurd hrun (h t)
  | error _ t => rfl

theorem takeFault_of_inGroup0 (e : Event) (p : Long) {s : State} (h : s.inGroup0 = true) :
    takeFault e p s = { s.noTrace with run := .halted } := if_pos h

/-! ## Room on the stack -/

/-- The state after `k` bytes have been pushed on the supervisor stack, which leave the memory `m`. -/
def State.pushed (s : State) (k : Long) (m : Memory) : State :=
  { s with regs := { s.regs with ssp := s.regs.ssp - k }, mem := m }

/-- The memory `m` is that of `s` outside the `n` bytes below the supervisor stack pointer. -/
def State.OnlyBelow (s : State) (n : ℕ) (m : Memory) : Prop :=
  ∀ a, a < s.regs.ssp.toNat - n ∨ s.regs.ssp.toNat ≤ a → Memory.read m a = Memory.read s.mem a

section Room

variable {s : State} {n : ℕ} {k : Long} {m m' : Memory} {sz : Size}

theorem State.stackRoom.mono (h : s.stackRoom n) {n' : ℕ} (hle : n' ≤ n) : s.stackRoom n' := by
  obtain ⟨hodd, hlow, hhigh⟩ := h
  exact ⟨hodd, by omega, hhigh⟩

theorem State.stackRoom.pushed (h : s.stackRoom n) (hk : k.toNat ≤ n) (heven : k.toNat % 2 = 0) (m : Memory) :
    (s.pushed k m).stackRoom (n - k.toNat) := by
  obtain ⟨hat, hodd⟩ := h.below hk heven
  obtain ⟨_, hlow, hhigh⟩ := h
  refine ⟨hodd, ?_, ?_⟩
  · show 0x400 + (n - k.toNat) ≤ (s.regs.ssp - k).toNat
    omega
  · show (s.regs.ssp - k).toNat ≤ s.cfg.memSize
    omega

/-- What is pushed with room on the stack lies in RAM. -/
theorem State.stackRoom.lowRam (h : s.stackRoom n) (hp : s.cfg.memoryOk = true) (hk : k.toNat ≤ n)
    (heven : k.toNat % 2 = 0) (hsz : sz.bytes ≤ k.toNat) : s.lowRam sz (s.regs.ssp - k) := by
  obtain ⟨hat, _⟩ := h.below hk heven
  obtain ⟨_, _, hhigh⟩ := h
  exact ⟨hp, by omega⟩

theorem FrameStored.onlyBelow {v : BitVec sz.bits} (h : s.stackRoom n) (hk : k.toNat ≤ n) (heven : k.toNat % 2 = 0)
    (hsz : sz.bytes = k.toNat) (hstored : FrameStored s m sz (s.regs.ssp - k) v) : s.OnlyBelow k.toNat m := by
  obtain ⟨hat, _⟩ := h.below hk heven
  obtain ⟨_, hlow, _⟩ := h
  exact fun a ha => hstored.frame a (by omega)

theorem pushFrameLong_room (h : s.stackRoom n) (hp : s.cfg.memoryOk = true) (hn : 4 ≤ n) (v : Long) :
    ∃ m, pushFrameLong v s = .ok () (s.pushed 4 m) ∧ s.OnlyBelow 4 m ∧
      State.memValue { s with mem := m } .l (s.regs.ssp - 4) = v := by
  obtain ⟨m, hpush, hstored⟩ := pushFrameLong_ok v (h.lowRam hp hn rfl (Nat.le_refl 4)) (h.below (k := 4) hn rfl).2
  exact ⟨m, hpush, hstored.onlyBelow (k := 4) h hn rfl rfl, hstored.value⟩

theorem pushFrameWord_room (h : s.stackRoom n) (hp : s.cfg.memoryOk = true) (hn : 2 ≤ n) (v : Word) :
    ∃ m, pushFrameWord v s = .ok () (s.pushed 2 m) ∧ s.OnlyBelow 2 m ∧
      State.memValue { s with mem := m } .w (s.regs.ssp - 2) = v := by
  obtain ⟨m, hpush, hstored⟩ := pushFrameWord_ok v (h.lowRam hp hn rfl (Nat.le_refl 2)) (h.below (k := 2) hn rfl).2
  exact ⟨m, hpush, hstored.onlyBelow (k := 2) h hn rfl rfl, hstored.value⟩

theorem State.pushed_pushed (s : State) (k k' : Long) (m m' : Memory) :
    (s.pushed k m).pushed k' m' = s.pushed (k + k') m' := by
  have hssp : s.regs.ssp - k - k' = s.regs.ssp - (k + k') := by bv_omega
  simp only [State.pushed, hssp]

/-- One push after another changes only the bytes of both. -/
theorem State.OnlyBelow.trans (h : s.stackRoom n) (hk : k.toNat ≤ n) (heven : k.toNat % 2 = 0)
    (h1 : s.OnlyBelow k.toNat m) {n' : ℕ} (h2 : (s.pushed k m).OnlyBelow n' m') : s.OnlyBelow (k.toNat + n') m' := by
  obtain ⟨hat, _⟩ := h.below hk heven
  obtain ⟨_, hlow, _⟩ := h
  intro a ha
  refine (h2 a ?_).trans (h1 a (by omega))
  show a < (s.regs.ssp - k).toNat - n' ∨ (s.regs.ssp - k).toNat ≤ a
  omega

/-- What lies at or above SSP stays what it is while more is pushed. -/
theorem State.OnlyBelow.memValue_above (h : s.OnlyBelow n m) {a : Long} (hlow : s.lowRam sz a)
    (ha : s.regs.ssp.toNat ≤ a.toNat) : State.memValue { s with mem := m } sz a = s.memValue sz a :=
  hlow.memValue_congr rfl fun _ hge _ => h _ (.inr (Nat.le_trans ha hge))

/-- Nothing that is pushed with room on the stack reaches the vector table (rule R550). -/
theorem State.OnlyBelow.readLongAt_vector {t : State} (h : s.OnlyBelow n t.mem) (hroom : s.stackRoom n)
    (hp : s.cfg.memoryOk = true) (hcfg : t.cfg = s.cfg) (v : Byte) :
    readLongAt .exception (v.setWidth 32 * 4) t = .ok (s.handlerOf v) t := by
  obtain ⟨h400, _, _, _⟩ := (Params.memoryOk_iff _).1 hp
  obtain ⟨haddr, heven⟩ := vectorAddress v
  obtain ⟨_, hbottom, _⟩ := hroom
  have hv := v.isLt
  have hlow : s.lowRam .l (v.setWidth 32 * 4) := ⟨hp, by rw [haddr, Size.bytes]; omega⟩
  rw [readLongAt_ok ((hlow.congr hcfg).canAccess heven)]
  refine congrArg (EStateM.Result.ok · t) (hlow.memValue_congr hcfg fun a _ ha => h a (.inl ?_))
  rw [haddr, Size.bytes] at ha
  omega

/-! ## Frames -/

/-- The short frame, pushed with room on the stack (rule R561). -/
theorem pushShortFrame_room (h : s.stackRoom n) (hp : s.cfg.memoryOk = true) (hn : 6 ≤ n) (p : Long) (sr : Word) :
    ∃ m, (pushFrameLong p >>= fun _ => pushFrameWord sr) s = .ok () (s.pushed 6 m) ∧ s.OnlyBelow 6 m ∧
      State.shortFrameAt { s with mem := m } (s.regs.ssp - 6) sr p := by
  obtain ⟨m1, hpc, honly1, hval1⟩ := pushFrameLong_room h hp (by omega) p
  have hroom1 := h.pushed (k := 4) (Nat.le_trans (by decide) hn) rfl m1
  obtain ⟨m2, hsr, honly2, hval2⟩ := pushFrameWord_room hroom1 hp (Nat.sub_le_sub_right hn 4) sr
  have h4 : (4 : Long).toNat ≤ n := Nat.le_trans (by decide) hn
  have hat : s.regs.ssp - 4 - 2 = s.regs.ssp - 6 := by bv_omega
  have hat' : s.regs.ssp - 6 + 2 = s.regs.ssp - 4 := by bv_omega
  refine ⟨m2, ?_, State.OnlyBelow.trans (k := 4) h h4 rfl honly1 honly2, hat ▸ hval2, ?_⟩
  · rw [Exec.bind_of_ok hpc, hsr, State.pushed_pushed]
    rfl
  · rw [hat']
    exact (honly2.memValue_above (h.lowRam (k := 4) (sz := .l) hp h4 rfl (Nat.le_refl 4)) (Nat.le_refl _)).trans hval1

/-- A short frame that has been pushed stays while more is pushed below it. -/
theorem State.OnlyBelow.shortFrameAt {n' : ℕ} {p : Long} {sr : Word} (honly : (s.pushed 6 m).OnlyBelow n' m')
    (h : s.stackRoom n) (hp : s.cfg.memoryOk = true) (hn : 6 ≤ n)
    (hframe : State.shortFrameAt { s with mem := m } (s.regs.ssp - 6) sr p) :
    State.shortFrameAt { s with mem := m' } (s.regs.ssp - 6) sr p := by
  obtain ⟨hsr, hpc⟩ := hframe
  have h4 : (4 : Long).toNat ≤ n := Nat.le_trans (by decide) hn
  have hat : s.regs.ssp - 6 + 2 = s.regs.ssp - 4 := by bv_omega
  have hle : (s.regs.ssp - 6).toNat ≤ (s.regs.ssp - 4).toNat := by
    rw [(h.below (k := 6) hn rfl).1, (h.below (k := 4) h4 rfl).1]
    exact Nat.sub_le_sub_left (by decide) _
  refine ⟨(honly.memValue_above (h.lowRam (k := 6) (sz := .w) hp hn rfl (by decide)) (Nat.le_refl _)).trans hsr, ?_⟩
  rw [hat] at hpc ⊢
  exact (honly.memValue_above (h.lowRam (sz := .l) hp h4 rfl (Nat.le_refl 4)) hle).trans hpc

/-- What a group-0 frame has below the short frame, pushed with room on the stack (rule R566). -/
theorem pushFaultInfo_room {e : Event} {f : FaultRec} (hf : e.faultRec = some f) (h : s.stackRoom n)
    (hp : s.cfg.memoryOk = true) (hn : 8 ≤ n) :
    ∃ m, pushFaultInfo e s = .ok () (s.pushed 8 m) ∧ s.OnlyBelow 8 m ∧
      State.memValue { s with mem := m } .w (s.regs.ssp - 8) = f.statusWord ∧
      State.memValue { s with mem := m } .l (s.regs.ssp - 6) = f.addr ∧
      State.memValue { s with mem := m } .w (s.regs.ssp - 2) = s.hid.ir := by
  have h2 : (2 : Long).toNat ≤ n := Nat.le_trans (by decide) hn
  have h6 : (6 : Long).toNat ≤ n := Nat.le_trans (by decide) hn
  obtain ⟨m1, hir, honly1, hval1⟩ := pushFrameWord_room h hp h2 s.hid.ir
  have hroom1 := h.pushed (k := 2) h2 rfl m1
  obtain ⟨m2, haddr, honly2, hval2⟩ := pushFrameLong_room hroom1 hp (Nat.sub_le_sub_right h6 2) f.addr
  have honly : s.OnlyBelow 6 m2 := State.OnlyBelow.trans (k := 2) h h2 rfl honly1 honly2
  rw [State.pushed_pushed] at haddr
  have hroom2 := h.pushed (k := 6) h6 rfl m2
  obtain ⟨m3, hstatus, honly3, hval3⟩ := pushFrameWord_room hroom2 hp (Nat.sub_le_sub_right hn 6) f.statusWord
  have hat6 : s.regs.ssp - 2 - 4 = s.regs.ssp - 6 := by bv_omega
  have hat8 : s.regs.ssp - 6 - 2 = s.regs.ssp - 8 := by bv_omega
  have hle : (s.regs.ssp - 6).toNat ≤ (s.regs.ssp - 2).toNat := by
    rw [(h.below (k := 6) h6 rfl).1, (h.below (k := 2) h2 rfl).1]
    exact Nat.sub_le_sub_left (by decide) _
  have hlow2 : s.lowRam .w (s.regs.ssp - 2) := h.lowRam hp h2 rfl (Nat.le_refl 2)
  have hlow6 : s.lowRam .l (s.regs.ssp - 6) := h.lowRam hp h6 rfl (by decide)
  refine ⟨m3, ?_, State.OnlyBelow.trans (k := 6) h h6 rfl honly honly3, hat8 ▸ hval3, ?_, ?_⟩
  · rw [pushFaultInfo_of_faultRec hf, Exec.bind_of_ok hir, Exec.bind_of_ok haddr]
    refine hstatus.trans ?_
    rw [State.pushed_pushed]
    rfl
  · exact (honly3.memValue_above hlow6 (Nat.le_refl _)).trans (hat6 ▸ hval2)
  · exact (honly3.memValue_above hlow2 hle).trans ((honly2.memValue_above hlow2 (Nat.le_refl _)).trans hval1)

/-- The bytes of an event's frame (rules R552, R566). -/
def Event.frameBytes (e : Event) : Long :=
  match e.faultRec with
  | none => 6
  | some _ => 14

theorem Event.frameBytes_of_none {e : Event} (h : e.faultRec = none) : e.frameBytes = 6 := by rw [Event.frameBytes, h]

theorem Event.frameBytes_of_some {e : Event} {f : FaultRec} (h : e.faultRec = some f) : e.frameBytes = 14 := by
  rw [Event.frameBytes, h]

theorem Event.frameBytes_le (e : Event) : e.frameBytes.toNat ≤ 14 := by
  rw [Event.frameBytes]
  split <;> decide

/-- The frame of an event lies below SSP in the memory `m`, with the SR word and the PC that were stacked. -/
def State.frameBelow (s : State) (e : Event) (p : Long) (sr : Word) (m : Memory) : Prop :=
  match e.faultRec with
  | none => State.shortFrameAt { s with mem := m } (s.regs.ssp - 6) sr p
  | some f => State.groupZeroFrameAt { s with mem := m } (s.regs.ssp - 14) f s.hid.ir sr p

theorem State.frameBelow_of_none {e : Event} {p : Long} {sr : Word} (h : e.faultRec = none)
    (hframe : s.frameBelow e p sr m) : State.shortFrameAt { s with mem := m } (s.regs.ssp - 6) sr p := by
  rw [State.frameBelow, h] at hframe
  exact hframe

theorem State.frameBelow_of_some {e : Event} {f : FaultRec} {p : Long} {sr : Word} (h : e.faultRec = some f)
    (hframe : s.frameBelow e p sr m) :
    State.groupZeroFrameAt { s with mem := m } (s.regs.ssp - 14) f s.hid.ir sr p := by
  rw [State.frameBelow, h] at hframe
  exact hframe

/-- The whole frame of an event, pushed with room on the stack (rules R552, R561, R566). -/
theorem pushFrame_room {e : Event} (h : s.stackRoom e.frameBytes.toNat) (hp : s.cfg.memoryOk = true) (p : Long)
    (sr : Word) :
    ∃ m, ((pushFrameLong p >>= fun _ => pushFrameWord sr) >>= fun _ => pushFaultInfo e) s =
        .ok () (s.pushed e.frameBytes m) ∧ s.OnlyBelow e.frameBytes.toNat m ∧ s.frameBelow e p sr m := by
  cases hf : e.faultRec with
  | none =>
    rw [Event.frameBytes_of_none hf] at h ⊢
    obtain ⟨m, hpush, honly, hframe⟩ := pushShortFrame_room h hp (Nat.le_refl 6) p sr
    refine ⟨m, ?_, honly, ?_⟩
    · rw [Exec.bind_of_ok hpush, pushFaultInfo, hf]
      rfl
    · rw [State.frameBelow, hf]
      exact hframe
  | some f =>
    rw [Event.frameBytes_of_some hf] at h ⊢
    obtain ⟨m1, hpush, honly1, hshort⟩ := pushShortFrame_room h hp (by decide) p sr
    have hroom1 := h.pushed (k := 6) (by decide) rfl m1
    obtain ⟨m2, hinfo, honly2, hstatus, haddr, hir⟩ := pushFaultInfo_room hf hroom1 hp (Nat.le_refl 8)
    obtain ⟨hsr, hpc⟩ := honly2.shortFrameAt h hp (by decide) hshort
    refine ⟨m2, ?_, State.OnlyBelow.trans (k := 6) h (by decide) rfl honly1 honly2, ?_⟩
    · rw [Exec.bind_of_ok hpush, hinfo, State.pushed_pushed]
      rfl
    · have hat0 : s.regs.ssp - 6 - 8 = s.regs.ssp - 14 := by bv_omega
      have hat2 : s.regs.ssp - 6 - 6 = s.regs.ssp - 14 + 2 := by bv_omega
      have hat6 : s.regs.ssp - 6 - 2 = s.regs.ssp - 14 + 6 := by bv_omega
      have hat8 : s.regs.ssp - 6 = s.regs.ssp - 14 + 8 := by bv_omega
      have hat10 : s.regs.ssp - 6 + 2 = s.regs.ssp - 14 + 10 := by bv_omega
      rw [State.frameBelow, hf]
      exact ⟨hat0 ▸ hstatus, hat2 ▸ haddr, hat6 ▸ hir, hat8 ▸ hsr, hat10 ▸ hpc⟩

end Room

/-! ## Entries with room on the stack -/

/-- The state in which an entry begins to push: SR set, and `in_group0` for a bus or address error (rules R561, R571). -/
def State.entryStart (s : State) (e : Event) : State :=
  { s.entrySr e with inGroup0 := s.inGroup0 || decide (e.group = .zero) }

theorem entryBody_eq_pushes (e : Event) (p : Long) (s : State) : entryBody e p s =
    (((pushFrameLong p >>= fun _ => pushFrameWord s.regs.sr.toWord) >>= fun _ => pushFaultInfo e) >>= fun _ =>
      readLongAt .exception (e.vector.setWidth 32 * 4) >>= enterHandler e) (s.entryStart e) := by
  simp only [bind_assoc]
  rfl

/-- The state in which an entry reads its handler: its frame is pushed. -/
def State.stacked (s : State) (e : Event) (m : Memory) : State := (s.entryStart e).pushed e.frameBytes m

/-- With room on the stack an entry pushes its frame, reads its handler and jumps or halts (rules R561, R572). -/
theorem entryBody_room {e : Event} {s : State} (p : Long) (hp : s.cfg.memoryOk = true)
    (hroom : s.stackRoom e.frameBytes.toNat) :
    ∃ m, entryBody e p s = enterHandler e (s.handlerOf e.vector) (s.stacked e m) ∧
      s.OnlyBelow e.frameBytes.toNat m ∧ s.frameBelow e p s.regs.sr.toWord m := by
  obtain ⟨m, hpush, honly, hframe⟩ := pushFrame_room (s := s.entryStart e) hroom hp p s.regs.sr.toWord
  have honly' : s.OnlyBelow e.frameBytes.toNat (s.stacked e m).mem := honly
  rw [entryBody_eq_pushes, Exec.bind_of_ok hpush]
  exact ⟨m, Exec.bind_of_ok (honly'.readLongAt_vector hroom hp rfl e.vector), honly, hframe⟩

/-- The state after an entry that reaches its handler. -/
def State.entered (s : State) (e : Event) (m : Memory) : State :=
  { s.stacked e m with
    pc := s.handlerOf e.vector
    cycles := s.cycles + s.excCost e.vector
    group0Handler := if e.group = .zero then s.handlerOf e.vector else s.group0Handler }

/-- `enter_short` for a frame of either kind, with what the entry leaves of memory. -/
theorem enter_room {e : Event} {s : State} (p : Long) (hp : s.cfg.memoryOk = true)
    (hroom : s.stackRoom e.frameBytes.toNat) (hok : s.handlerOk e.vector) :
    ∃ m, enter e p s = s.entered e m ∧ s.OnlyBelow e.frameBytes.toNat m ∧
      s.frameBelow e p s.regs.sr.toWord m := by
  obtain ⟨m, hbody, honly, hframe⟩ := entryBody_room p hp hroom
  have hgood : ¬ (s.handlerOf e.vector = 0 ∨
      (s.stacked e m).cfg.memSize ≤ (s.stacked e m).extAddr (s.handlerOf e.vector)) := by
    rintro (hzero | hfar)
    · exact hok.1 hzero
    · exact absurd hok.2 (Nat.not_lt.2 hfar)
  refine ⟨m, ?_, honly, hframe⟩
  rw [enter, hbody, enterHandler, updating_apply, if_neg hgood]
  rfl

theorem enter_room_of_bad_handler {e : Event} {s : State} (p : Long) (hp : s.cfg.memoryOk = true)
    (hroom : s.stackRoom e.frameBytes.toNat)
    (hbad : s.handlerOf e.vector = 0 ∨ s.cfg.memSize ≤ s.extAddr (s.handlerOf e.vector)) :
    ∃ m, enter e p s = { s.stacked e m with run := .halted } := by
  obtain ⟨m, hbody, _⟩ := entryBody_room p hp hroom
  have hbad : s.handlerOf e.vector = 0 ∨
      (s.stacked e m).cfg.memSize ≤ (s.stacked e m).extAddr (s.handlerOf e.vector) := hbad
  exact ⟨m, by rw [enter, hbody, enterHandler, updating_apply, if_pos hbad]⟩

/-! ## The obligations -/

/-- Settles O18: an entry that answers has accessed its whole frame, and one that reaches a bad handler halts there. -/
theorem exceptionsThatHalt : Obligations.ExceptionsThatHalt := by
  refine ⟨fun e p s hin => ?_, fun e p s hodd => enter_halted fun t hbody => ?_,
    fun e p s hnone => enter_halted fun t hbody => ?_, fun e p s hp hroom hbad => ?_⟩
  · rw [takeFault_of_inGroup0 e p hin]
    exact ⟨rfl, rfl, rfl⟩
  · obtain ⟨h4, _⟩ := entryBody_eq_ok hbody
    have hsp : s.regs.ssp - 4 + 2 + 2 = s.regs.ssp := by bv_omega
    rw [← hsp, isOdd_add_two, isOdd_add_two] at hodd
    exact absurd (hodd.symm.trans (State.isOdd_of_canAccess_long h4)) (by decide)
  · obtain ⟨h4, h6, hinfo⟩ := entryBody_eq_ok hbody
    rcases hnone with hno | hno | ⟨hsome, hno⟩
    · simp only [h4, Bool.true_eq_false] at hno
    · simp only [h6, Bool.true_eq_false] at hno
    · obtain ⟨h8, h12, h14⟩ := hinfo hsome
      simp only [h8, h12, h14, Bool.true_eq_false, or_self] at hno
  · obtain ⟨m, henter⟩ := enter_room_of_bad_handler p hp (hroom.mono e.frameBytes_le) hbad
    rw [henter]
    exact ⟨rfl, rfl⟩

/-- Settles O16: an event without a fault record has the short frame. -/
theorem shortFrameEntry : Obligations.ShortFrameEntry := by
  intro e p s hshort hp hroom hok
  have hbytes := Event.frameBytes_of_none hshort
  have hgroup := Event.group_ne_zero hshort
  obtain ⟨m, henter, honly, hframe⟩ := enter_room p hp (hbytes ▸ hroom) hok
  have hin : (s.entered e m).inGroup0 = s.inGroup0 := by
    show (s.inGroup0 || decide (e.group = .zero)) = s.inGroup0
    rw [decide_eq_false hgroup, Bool.or_false]
  have hregs : (s.entered e m).regs = { s.regs.withSr (s.regs.sr.onEntry e s.cfg.traceKeepsT) with
      ssp := s.regs.ssp - 6 } := by rw [← hbytes]; rfl
  rw [hbytes] at honly
  rw [henter]
  exact ⟨hregs, rfl, rfl, rfl, State.frameBelow_of_none hshort hframe, honly, rfl, rfl, hin, if_neg hgroup, rfl, rfl,
    rfl, rfl, rfl⟩

theorem Event.group_eq_zero {e : Event} {f : FaultRec} (h : e.faultRec = some f) : e.group = .zero := by
  cases e with
  | busError _ => rfl
  | addressError _ => rfl
  | _ => cases h

/-- A bus or address error sets S and clears both trace bits, whatever `TRACE_KEEPS_T` is (rule R561). -/
theorem Sr.onEntry_of_faultRec {e : Event} {f : FaultRec} (h : e.faultRec = some f) (sr : Sr) (keepsT : Bool) :
    sr.onEntry e keepsT = { sr with s := true, t1 := false, t0 := false } := by
  cases e with
  | busError _ => simp [Sr.onEntry, Event.vector]
  | addressError _ => simp [Sr.onEntry, Event.vector]
  | _ => cases h

/-- The fields of the status word (rule R566). -/
theorem FaultRec.statusWord_fields (f : FaultRec) :
    f.statusWord.extractLsb' 5 11 = 0 ∧ f.statusWord.getLsbD 4 = f.read ∧ f.statusWord.getLsbD 3 = f.inExc ∧
      f.statusWord.extractLsb' 0 3 = f.fc := by
  have hreserved : f.statusWord.extractLsb' 5 11 = 0#11 := by
    rw [FaultRec.statusWord, BitVec.extractLsb'_append_eq_of_le (by decide),
      BitVec.extractLsb'_append_eq_of_le (by decide)]
    exact BitVec.extractLsb'_append_eq_left
  have hread : f.statusWord.getLsbD 4 = f.read := by
    rw [FaultRec.statusWord, BitVec.getLsbD_append, BitVec.getLsbD_append, BitVec.getLsbD_append]
    simp
  have hinExc : f.statusWord.getLsbD 3 = f.inExc := by
    rw [FaultRec.statusWord, BitVec.getLsbD_append, BitVec.getLsbD_append]
    simp
  exact ⟨hreserved, hread, hinExc, BitVec.extractLsb'_append_eq_right⟩

/-- Settles O17: an event with a fault record has the group-0 frame, and its handler is remembered. -/
theorem groupZeroFrameEntry : Obligations.GroupZeroFrameEntry := by
  refine ⟨fun f => ⟨rfl, rfl, f.statusWord_fields⟩, fun e f p s hf hp hroom hok => ?_⟩
  have hbytes := Event.frameBytes_of_some hf
  have hgroup := Event.group_eq_zero hf
  obtain ⟨m, henter, honly, hframe⟩ := enter_room p hp (hbytes ▸ hroom) hok
  have hin : (s.entered e m).inGroup0 = true := by
    show (s.inGroup0 || decide (e.group = .zero)) = true
    rw [decide_eq_true hgroup, Bool.or_true]
  have hregs : (s.entered e m).regs = { s.regs with
      ssp := s.regs.ssp - 14
      sr := { s.regs.sr with s := true, t1 := false, t0 := false } } := by
    rw [← hbytes, ← Sr.onEntry_of_faultRec hf s.regs.sr s.cfg.traceKeepsT]
    rfl
  have hhandler : (s.entered e m).group0Handler = s.handlerOf e.vector := if_pos hgroup
  rw [hbytes] at honly
  rw [henter]
  refine ⟨hregs, rfl, rfl, rfl, hin, State.frameBelow_of_some hf hframe, honly, rfl, rfl, rfl, rfl, rfl, rfl, rfl,
    fun w => ?_, fun u hu hsame hne w => ?_⟩
  · have hpc : (s.entered e m).pc = s.handlerOf e.vector := rfl
    rw [State.fetched_inGroup0, hhandler, hpc]
    simp
  · rw [State.fetched_inGroup0, hu, hsame, hhandler]
    simpa using hne

end Sys2Proof.Machine
end

section
/-! The machine after reset has the invariant (O11). -/

namespace Sys2Proof.Machine

open Sys2Proof.Config

theorem Ym.ok_atReset (taps : ℕ) : (Ym.atReset taps).ok = true := by
  have hregs : ymRegsOk (Vector.replicate 16 0) = true := by
    rw [ymRegsOk_iff]
    intro i
    simp
  exact (Ym.ok_iff _).2 ⟨hregs, hregs, (by decide : (1 : BitVec 17) ≠ 0)⟩

theorem Paula.ok_atReset : Paula.atReset.ok = true := by
  rw [Paula.ok_iff]
  intro x
  obtain ⟨hlatch, hchannel⟩ := Paula.atReset_channel x
  rw [hlatch, hchannel]
  exact ⟨rfl, rfl⟩

/-- Reset establishes the invariant for every parameter and every image that fits in RAM (rules R660, R705, R741). -/
theorem State.resetWith_inv {p : Params} {l : Launch} (hp : p.memoryOk = true)
    (hfits : l.load + l.bytes.length ≤ p.memSize) : (State.resetWith p l).Inv where
  params := hp
  memWf := Memory.wf_writeBytes l.bytes l.load rfl
  memWithin := Memory.within_writeBytes l.bytes hfits rfl
  sr := Bool.or_true _
  ym := Ym.ok_atReset p.blepTaps
  paula := Paula.ok_atReset
  halted := fun h => by cases h
  fatal := fun h => by cases h

/-- Settles O11: the chosen parameters describe a legal memory and the chosen image is empty. -/
theorem resetHasInvariant : Obligations.ResetHasInvariant :=
  State.resetWith_inv (by decide) (by decide)

end Sys2Proof.Machine
end

section
/-! The generators of the YM2149 (O58). A generator is followed tick by tick: the state after `k` ticks is written out,
and one tick is shown to lead from the `k`-th to the next. -/

namespace Sys2Proof.Machine

open Sys2Proof.Config

/-! ## Tone and noise (rules R630, R631, R633) -/

theorem toNat_ofNat_of_lt {w k : ℕ} (h : k < 2 ^ w) : (BitVec.ofNat w k).toNat = k := Nat.mod_eq_of_lt h

section Tone

variable {z : ZeroPeriod} {p : ℕ} {t : YmTone}

theorem YmTone.tick_count (h : t.count.toNat + 1 < p) : t.tick z p = { t with count := t.count + 1 } := by
  rw [YmTone.tick, if_neg (by omega), if_neg (by omega)]

theorem YmTone.tick_toggle (hp : 1 ≤ p) (h : p ≤ t.count.toNat + 1) : t.tick z p = ⟨0, !t.out⟩ := by
  rw [YmTone.tick, if_neg (by omega), if_pos h]

theorem YmTone.tick_zero (z : ZeroPeriod) (t : YmTone) : t.tick z 0 = { t with out := zeroPeriodBit z t.out } :=
  if_pos rfl

/-- Before the period is over the tone only counts. -/
theorem YmTone.ticks_below (z : ZeroPeriod) (b : Bool) (hp : p ≤ 4095) {k : ℕ} (hk : k < p) :
    (YmTone.tick z p)^[k] ⟨0, b⟩ = ⟨BitVec.ofNat 12 k, b⟩ := by
  induction k with
  | zero => rfl
  | succ k ih =>
    have hcount : (BitVec.ofNat 12 k).toNat + 1 = k + 1 := by rw [toNat_ofNat_of_lt (by omega)]
    rw [Function.iterate_succ_apply', ih (by omega), YmTone.tick_count (hcount.trans_lt hk)]
    simp [BitVec.ofNat_add]

theorem YmTone.ticks_period (z : ZeroPeriod) (b : Bool) (hlow : 1 ≤ p) (hp : p ≤ 4095) :
    (YmTone.tick z p)^[p] ⟨0, b⟩ = ⟨0, !b⟩ := by
  obtain ⟨k, rfl⟩ := Nat.exists_eq_add_one.2 hlow
  have hcount : (BitVec.ofNat 12 k).toNat + 1 = k + 1 := by rw [toNat_ofNat_of_lt (by omega)]
  rw [Function.iterate_succ_apply', YmTone.ticks_below z b hp k.lt_succ_self, YmTone.tick_toggle hlow hcount.ge]

end Tone

section Noise

variable {z : ZeroPeriod} {p : ℕ} {g : YmNoise}

theorem YmNoise.tick_count (h : g.count.toNat + 1 < 2 * p) : g.tick z p = { g with count := g.count + 1 } := by
  rw [YmNoise.tick, if_neg (by omega), if_neg (by omega)]

theorem YmNoise.tick_shift (hp : 1 ≤ p) (h : 2 * p ≤ g.count.toNat + 1) :
    g.tick z p = ⟨0, noiseShift g.lfsr, (noiseShift g.lfsr).getLsbD 0⟩ := by
  rw [YmNoise.tick, if_neg (by omega), if_pos h]

theorem YmNoise.tick_zero (z : ZeroPeriod) (g : YmNoise) : g.tick z 0 = { g with out := zeroPeriodBit z g.out } :=
  if_pos rfl

/-- Before two periods are over the noise generator only counts. -/
theorem YmNoise.ticks_below (z : ZeroPeriod) (l : BitVec 17) (b : Bool) (hp : p ≤ 31) {k : ℕ} (hk : k < 2 * p) :
    (YmNoise.tick z p)^[k] ⟨0, l, b⟩ = ⟨BitVec.ofNat 6 k, l, b⟩ := by
  induction k with
  | zero => rfl
  | succ k ih =>
    have hcount : (BitVec.ofNat 6 k).toNat + 1 = k + 1 := by rw [toNat_ofNat_of_lt (by omega)]
    rw [Function.iterate_succ_apply', ih (by omega), YmNoise.tick_count (hcount.trans_lt hk)]
    simp [BitVec.ofNat_add]

theorem YmNoise.ticks_period (z : ZeroPeriod) (l : BitVec 17) (b : Bool) (hlow : 1 ≤ p) (hp : p ≤ 31) :
    (YmNoise.tick z p)^[2 * p] ⟨0, l, b⟩ = ⟨0, noiseShift l, (noiseShift l).getLsbD 0⟩ := by
  obtain ⟨k, hk⟩ := Nat.exists_eq_add_one.2 (by omega : 0 < 2 * p)
  have hcount : (BitVec.ofNat 6 k).toNat + 1 = k + 1 := by rw [toNat_ofNat_of_lt (by omega)]
  rw [hk, Function.iterate_succ_apply', YmNoise.ticks_below z l b hp (by omega),
    YmNoise.tick_shift hlow (hk.trans hcount.symm).le]

end Noise

theorem noiseShift_top (l : BitVec 17) : (noiseShift l).getLsbD 16 = (l.getLsbD 0 ^^ l.getLsbD 3) := by
  simp [noiseShift]

theorem noiseShift_below (l : BitVec 17) {i : ℕ} (hi : i < 16) : (noiseShift l).getLsbD i = l.getLsbD (i + 1) := by
  simp [noiseShift, Nat.add_comm, Nat.not_le.2 hi]

/-! ## Register writes (rules R620, R634, R635) -/

/-- The masks of rule R620, by the register itself. -/
theorem ymMask_eq_of_reg (r : BitVec 4) : ymMask r =
    if r = 1 ∨ r = 3 ∨ r = 5 ∨ r = 13 then 0x0F else if r = 6 ∨ r = 8 ∨ r = 9 ∨ r = 10 then 0x1F else 0xFF := by
  revert r
  decide

@[simp] theorem YmSound.applyWrite_env (p : Params) (y : YmSound) (w : YmWrite) :
    (y.applyWrite p w).env = if w.reg = 13 then y.env.restart (ymStore y.regs w.reg w.value) else y.env := by
  simp [YmSound.applyWrite]

@[simp] theorem YmSound.applyWrite_tones (p : Params) (y : YmSound) (w : YmWrite) :
    (y.applyWrite p w).tones = y.tones := by
  simp [YmSound.applyWrite]

@[simp] theorem YmSound.applyWrite_ticks (p : Params) (y : YmSound) (w : YmWrite) :
    (y.applyWrite p w).ticks = y.ticks := by
  simp [YmSound.applyWrite]

/-! ## The envelope (rules R632-R634) -/

/-- The envelope is never held: after a ramp comes another (rule R632). -/
def ymRepeats (regs : Vector Byte 16) : Bool := ymCont regs && !ymHold regs

/-- Where an envelope that was restarted `n` ticks ago stands, as long as it has not been held: at the step that the
whole periods give, in a direction that ALT turns round after each ramp. -/
def YmEnvelope.ramp (regs : Vector Byte 16) (h : BitVec 5) (n : ℕ) : YmEnvelope where
  count := BitVec.ofNat 16 (n % ymEnvPeriod regs)
  step := BitVec.ofNat 5 (n / ymEnvPeriod regs % 32)
  attack := ymAtt regs ^^ (ymAlt regs && decide (n / ymEnvPeriod regs / 32 % 2 = 1))
  held := false
  heldLevel := h

theorem YmEnvelope.restart_eq_ramp (regs : Vector Byte 16) (e : YmEnvelope) :
    e.restart regs = YmEnvelope.ramp regs e.heldLevel 0 := by
  simp [YmEnvelope.restart, YmEnvelope.ramp]

/-- Counting on within a period. -/
theorem succ_div_mod_of_lt {n p : ℕ} (h : n % p + 1 < p) : (n + 1) / p = n / p ∧ (n + 1) % p = n % p + 1 := by
  have hdiv := Nat.mod_add_div n p
  exact (Nat.div_mod_unique (by omega)).2 ⟨by omega, h⟩

/-- The end of a period. -/
theorem succ_div_mod_of_eq {n p : ℕ} (h : n % p + 1 = p) : (n + 1) / p = n / p + 1 ∧ (n + 1) % p = 0 := by
  have hdiv := Nat.mod_add_div n p
  exact (Nat.div_mod_unique (by omega)).2 ⟨by rw [Nat.mul_succ]; omega, by omega⟩

theorem ymEnvPeriod_le (regs : Vector Byte 16) : ymEnvPeriod regs ≤ 65535 := by
  have h11 := regs[11].isLt
  have h12 := regs[12].isLt
  unfold ymEnvPeriod
  omega

section Envelope

variable {regs : Vector Byte 16} {e : YmEnvelope} {h : BitVec 5} {n : ℕ}

theorem YmEnvelope.tick_of_period_zero (hp : ymEnvPeriod regs = 0) (e : YmEnvelope) : e.tick regs = e :=
  if_pos (.inr hp)

theorem YmEnvelope.tick_of_held (hheld : e.held = true) : e.tick regs = e := if_pos (.inl hheld)

theorem YmEnvelope.tick_count (hheld : e.held = false) (hc : e.count.toNat + 1 < ymEnvPeriod regs) :
    e.tick regs = { e with count := e.count + 1 } := by
  rw [YmEnvelope.tick, if_neg (by simp [hheld]; omega), if_neg (by omega)]

/-- A tick that ends a period: the next step of the ramp, or its end. -/
theorem YmEnvelope.tick_step (hheld : e.held = false) (hp : 1 ≤ ymEnvPeriod regs)
    (hc : ymEnvPeriod regs ≤ e.count.toNat + 1) :
    e.tick regs = if e.step.toNat < 31 then { e with count := 0, step := e.step + 1 }
      else YmEnvelope.endRamp regs { e with count := 0 } := by
  rw [YmEnvelope.tick, if_neg (by simp [hheld]; omega), if_pos hc]

theorem YmEnvelope.endRamp_of_repeats (hr : ymRepeats regs = true) (e : YmEnvelope) :
    e.endRamp regs = { e with step := 0, attack := e.attack ^^ ymAlt regs } := by
  obtain ⟨hcont, hhold⟩ : ymCont regs = true ∧ ymHold regs = false := by simpa [ymRepeats] using hr
  rw [YmEnvelope.endRamp, hcont, hhold]
  cases ymAlt regs <;> simp

/-- What an envelope that does not repeat is held at. -/
theorem YmEnvelope.endRamp_of_not_repeats (hr : ymRepeats regs = false) (e : YmEnvelope) :
    e.endRamp regs = { e with
      held := true
      heldLevel := if ymCont regs && (ymAtt regs ^^ ymAlt regs) then 31 else 0 } := by
  unfold ymRepeats at hr
  unfold YmEnvelope.endRamp
  cases hcont : ymCont regs with
  | false => rfl
  | true =>
    have hhold : ymHold regs = true := by simpa [hcont] using hr
    simp [hhold]

theorem YmEnvelope.ramp_count_toNat (hp : 1 ≤ ymEnvPeriod regs) :
    (YmEnvelope.ramp regs h n).count.toNat = n % ymEnvPeriod regs := by
  have hlt := Nat.mod_lt n hp
  have hle := ymEnvPeriod_le regs
  exact toNat_ofNat_of_lt (by omega)

theorem YmEnvelope.ramp_step_toNat : (YmEnvelope.ramp regs h n).step.toNat = n / ymEnvPeriod regs % 32 :=
  toNat_ofNat_of_lt (Nat.mod_lt _ (by decide))

/-- One tick along the ramps, where the last step of a ramp is not left or another ramp follows. -/
theorem YmEnvelope.tick_ramp (hp : 1 ≤ ymEnvPeriod regs)
    (hend : n % ymEnvPeriod regs + 1 = ymEnvPeriod regs → n / ymEnvPeriod regs % 32 = 31 → ymRepeats regs = true) :
    (YmEnvelope.ramp regs h n).tick regs = YmEnvelope.ramp regs h (n + 1) := by
  have hcount := YmEnvelope.ramp_count_toNat (h := h) (n := n) hp
  have hstep := YmEnvelope.ramp_step_toNat (regs := regs) (h := h) (n := n)
  have hmod := Nat.mod_lt n hp
  rcases Nat.lt_or_ge (n % ymEnvPeriod regs + 1) (ymEnvPeriod regs) with hlt | hge
  · obtain ⟨hdiv', hmod'⟩ := succ_div_mod_of_lt hlt
    rw [YmEnvelope.tick_count rfl (by omega)]
    simp [YmEnvelope.ramp, hdiv', hmod', BitVec.ofNat_add]
  · have hlast : n % ymEnvPeriod regs + 1 = ymEnvPeriod regs := by omega
    obtain ⟨hdiv', hmod'⟩ := succ_div_mod_of_eq hlast
    rw [YmEnvelope.tick_step rfl hp (by omega), hstep]
    split_ifs with hinner
    · have hstep' : (n / ymEnvPeriod regs + 1) % 32 = n / ymEnvPeriod regs % 32 + 1 := by omega
      have hturn : (n / ymEnvPeriod regs + 1) / 32 = n / ymEnvPeriod regs / 32 := by omega
      simp [YmEnvelope.ramp, hdiv', hmod', hstep', hturn, BitVec.ofNat_add]
    · have hstep' : (n / ymEnvPeriod regs + 1) % 32 = 0 := by omega
      have hturn : decide ((n / ymEnvPeriod regs + 1) / 32 % 2 = 1) = !decide (n / ymEnvPeriod regs / 32 % 2 = 1) := by
        rw [← decide_not, decide_eq_decide]
        omega
      rw [YmEnvelope.endRamp_of_repeats (hend hlast (by omega))]
      simp only [YmEnvelope.ramp, hdiv', hmod', hstep', hturn]
      cases ymAlt regs <;> simp

/-- The level along the ramps: the step going up, and 31 less it going down. -/
theorem YmEnvelope.ramp_level (regs : Vector Byte 16) (h : BitVec 5) (n : ℕ) :
    (YmEnvelope.ramp regs h n).level.toNat =
      if (YmEnvelope.ramp regs h n).attack then n / ymEnvPeriod regs % 32 else 31 - n / ymEnvPeriod regs % 32 := by
  have hstep := YmEnvelope.ramp_step_toNat (regs := regs) (h := h) (n := n)
  have hheld : (YmEnvelope.ramp regs h n).held = false := rfl
  rw [YmEnvelope.level, hheld, if_neg Bool.false_ne_true]
  split_ifs
  · exact hstep
  · rw [BitVec.toNat_sub_of_le (BitVec.le_def.2 (by rw [hstep]; simp; omega)), hstep]
    rfl

/-- The first ramp runs in every shape (rule R632). -/
theorem YmEnvelope.ticks_first_ramp (hp : 1 ≤ ymEnvPeriod regs) (hn : n < 32 * ymEnvPeriod regs) :
    (YmEnvelope.tick regs)^[n] (e.restart regs) = YmEnvelope.ramp regs e.heldLevel n := by
  induction n with
  | zero => exact YmEnvelope.restart_eq_ramp regs e
  | succ n ih =>
    rw [Function.iterate_succ_apply', ih (by omega)]
    refine YmEnvelope.tick_ramp hp fun hlast hstep => ?_
    have hdiv := Nat.mod_add_div n (ymEnvPeriod regs)
    have hlt : n / ymEnvPeriod regs < 32 := Nat.div_lt_of_lt_mul (by omega)
    rw [Nat.mod_eq_of_lt hlt] at hstep
    rw [hstep] at hdiv
    omega

/-- With CONT and without HOLD the ramps follow one another for ever (rule R632). -/
theorem YmEnvelope.ticks_of_repeats (hp : 1 ≤ ymEnvPeriod regs) (hr : ymRepeats regs = true) (e : YmEnvelope) (n : ℕ) :
    (YmEnvelope.tick regs)^[n] (e.restart regs) = YmEnvelope.ramp regs e.heldLevel n := by
  induction n with
  | zero => exact YmEnvelope.restart_eq_ramp regs e
  | succ n ih => rw [Function.iterate_succ_apply', ih, YmEnvelope.tick_ramp hp fun _ _ => hr]

/-- The level along the first ramp: up with ATT, down without it. -/
theorem YmEnvelope.level_first_ramp (hp : 1 ≤ ymEnvPeriod regs) (e : YmEnvelope) (hn : n / ymEnvPeriod regs < 32) :
    ((YmEnvelope.tick regs)^[n] (e.restart regs)).level.toNat =
      if ymAtt regs then n / ymEnvPeriod regs % 32 else 31 - n / ymEnvPeriod regs % 32 := by
  rw [YmEnvelope.ticks_first_ramp hp ((Nat.div_lt_iff_lt_mul hp).1 hn), YmEnvelope.ramp_level]
  simp [YmEnvelope.ramp, Nat.div_eq_of_lt hn]

/-- The level of an envelope that repeats. -/
theorem YmEnvelope.level_of_repeats (hp : 1 ≤ ymEnvPeriod regs) (hr : ymRepeats regs = true) (e : YmEnvelope) (n : ℕ) :
    ((YmEnvelope.tick regs)^[n] (e.restart regs)).level.toNat =
      if ymAtt regs ^^ (ymAlt regs && decide (n / ymEnvPeriod regs / 32 % 2 = 1)) then n / ymEnvPeriod regs % 32
      else 31 - n / ymEnvPeriod regs % 32 := by
  rw [YmEnvelope.ticks_of_repeats hp hr, YmEnvelope.ramp_level]
  rfl

/-- Without CONT or with HOLD the envelope is held from the end of the first ramp on (rule R632). -/
theorem YmEnvelope.level_of_not_repeats (hp : 1 ≤ ymEnvPeriod regs) (hr : ymRepeats regs = false) (e : YmEnvelope)
    (hk : 32 ≤ n / ymEnvPeriod regs) :
    ((YmEnvelope.tick regs)^[n] (e.restart regs)).level =
      if ymCont regs && (ymAtt regs ^^ ymAlt regs) then 31 else 0 := by
  have hn : 32 * ymEnvPeriod regs ≤ n := (Nat.le_div_iff_mul_le hp).1 hk
  obtain ⟨last, hlast⟩ := Nat.exists_eq_add_one.2 (by omega : 0 < 32 * ymEnvPeriod regs)
  obtain ⟨hdiv, hmod⟩ : last / ymEnvPeriod regs = 31 ∧ last % ymEnvPeriod regs = ymEnvPeriod regs - 1 :=
    (Nat.div_mod_unique hp).2 (by omega)
  have hcount := YmEnvelope.ramp_count_toNat (h := e.heldLevel) (n := last) hp
  have hstep := YmEnvelope.ramp_step_toNat (regs := regs) (h := e.heldLevel) (n := last)
  have hend : (YmEnvelope.ramp regs e.heldLevel last).tick regs =
      YmEnvelope.endRamp regs { YmEnvelope.ramp regs e.heldLevel last with count := 0 } := by
    rw [YmEnvelope.tick_step rfl hp (by omega), if_neg (by omega)]
  obtain ⟨m, rfl⟩ := Nat.exists_eq_add_of_le hn
  rw [Nat.add_comm, Function.iterate_add_apply, hlast, Function.iterate_succ_apply',
    YmEnvelope.ticks_first_ramp hp (by omega), hend, YmEnvelope.endRamp_of_not_repeats hr,
    Function.iterate_fixed (YmEnvelope.tick_of_held rfl)]
  rfl

end Envelope

/-- Settles O58: tone, noise and envelope by their states after so many ticks, the register write by what it leaves
alone. -/
theorem ymGenerators : Obligations.YmGenerators := by
  refine ⟨fun z p b hlow hp => ⟨YmTone.ticks_period z b hlow hp, fun k hk => ?_⟩,
    fun z p l b hlow hp => ⟨YmNoise.ticks_period z l b hlow hp, fun k hk => ?_⟩,
    fun z t g => ⟨YmTone.tick_zero z t, YmNoise.tick_zero z g⟩,
    fun regs e hzero => YmEnvelope.tick_of_period_zero hzero e,
    fun l => ⟨noiseShift_ne_zero, noiseShift_top l, fun i => noiseShift_below l⟩, fun p y w => ?_, fun regs e => ?_⟩
  · rw [YmTone.ticks_below z b hp hk]
  · rw [YmNoise.ticks_below z l b hp hk]
    exact ⟨rfl, rfl⟩
  · refine ⟨?_, ?_, y.applyWrite_tones p w, y.applyWrite_noise p w, y.applyWrite_ticks p w⟩
    · rw [YmSound.applyWrite_regs, ymStore, ymMask_eq_of_reg]
      rfl
    · rw [YmSound.applyWrite_regs, YmSound.applyWrite_env]
  · refine ⟨rfl, fun hp n => ?_⟩
    have hcontB : ymCont regs = regs[13].getLsbD 3 := rfl
    have hholdB : ymHold regs = regs[13].getLsbD 0 := rfl
    refine ⟨fun hfirst => YmEnvelope.level_first_ramp hp e (Nat.lt_succ_of_le hfirst), fun hcont hafter => ?_,
      fun hcont hhold hafter => ?_, fun hcont hhold => ?_⟩
    · have hr : ymRepeats regs = false := by rw [ymRepeats, hcontB, hcont]; rfl
      have hlevel := YmEnvelope.level_of_not_repeats hp hr e hafter
      rw [hcontB, hcont] at hlevel
      exact hlevel
    · have hr : ymRepeats regs = false := by rw [ymRepeats, hholdB, hhold, Bool.not_true, Bool.and_false]
      have hlevel := YmEnvelope.level_of_not_repeats hp hr e hafter
      rw [hcontB, hcont] at hlevel
      exact hlevel
    · have hr : ymRepeats regs = true := by rw [ymRepeats, hcontB, hholdB, hcont, hhold]; rfl
      exact YmEnvelope.level_of_repeats hp hr e n

end Sys2Proof.Machine
end

section
/-! Paula on the bus, her channels' playback and their output (O59). -/

namespace Sys2Proof.Machine

open Sys2Proof.Config

/-! ## The window (rules R690-R692) -/

section Window

variable {s : State} {a : Long} {e : ℕ}

theorem State.target_paula (hpaula : s.cfg.hw.hasPaula = true) (hlow : 0xDFF000 ≤ e) (hhigh : e ≤ 0xDFF1FF) :
    s.target e = .paula e := by
  have hym : inYmWindow e = false := by simp [inYmWindow]; omega
  simp [State.target, hym, inPaulaWindow, hpaula, hlow, hhigh]

theorem State.busByte_paula (h : s.target (s.extAddr a) = .paula e) : s.busByte a = some (s.paula.readByte e) := by
  simp [State.busByte, h]

theorem State.busWord_paula (h : s.target (s.extAddr a) = .paula e) : s.busWord a = some (s.paula.readWord e) := by
  simp [State.busWord, h]

theorem State.storeByte_paula (h : s.target (s.extAddr a) = .paula e) (v : Byte) (ts : ℕ) :
    s.storeByte a v ts = some { s with paula := s.paula.writeByte e v ts } := by simp [State.storeByte, h]

theorem State.storeWord_paula (h : s.target (s.extAddr a) = .paula e) (v : Word) (ts : ℕ) :
    s.storeWord a v ts = some { s with paula := s.paula.writeWord e v ts } := by simp [State.storeWord, h]

end Window

/-- A set/clear write touches the bits written as 1 alone, and they take its bit 15. -/
theorem setClear_bit (reg : BitVec 15) (v : Word) {i : ℕ} (hi : i < 15) :
    (setClear reg v).getLsbD i = if v.getLsbD i then v.getLsbD 15 else reg.getLsbD i := by
  unfold setClear
  cases v.getLsbD 15 <;> cases hv : v.getLsbD i <;> simp [hi, hv]

/-- A word write that reaches a register. -/
theorem Paula.writeWord_of_reg {e : ℕ} {r : PaulaReg} (h : paulaRegAt (paulaOffset e) = some r) (q : Paula) (v : Word)
    (ts : ℕ) : q.writeWord e v ts = { q.store r v with writes := q.writes ++ [⟨ts, r, v⟩] } := by
  rw [Paula.writeWord, h]

theorem paulaRegAt_control : paulaRegAt (paulaOffset 0xDFF096) = some .dmacon ∧
    paulaRegAt (paulaOffset 0xDFF09A) = some .intena ∧ paulaRegAt (paulaOffset 0xDFF09C) = some .intreq := by decide

/-- The channel registers lie 16 bytes apart (rule R691). -/
theorem paulaRegAt_channel (x : Fin 4) :
    paulaRegAt (paulaOffset (0xDFF0A0 + 0x10 * x.val + 0x0)) = some (.lch x) ∧
    paulaRegAt (paulaOffset (0xDFF0A0 + 0x10 * x.val + 0x2)) = some (.lcl x) ∧
    paulaRegAt (paulaOffset (0xDFF0A0 + 0x10 * x.val + 0x4)) = some (.len x) ∧
    paulaRegAt (paulaOffset (0xDFF0A0 + 0x10 * x.val + 0x6)) = some (.per x) ∧
    paulaRegAt (paulaOffset (0xDFF0A0 + 0x10 * x.val + 0x8)) = some (.vol x) ∧
    paulaRegAt (paulaOffset (0xDFF0A0 + 0x10 * x.val + 0xA)) = some (.dat x) := by
  revert x
  decide

theorem Paula.writeByte_even {e : ℕ} (h : e % 2 = 0) (q : Paula) (b : Byte) (ts : ℕ) :
    q.writeByte e b ts = q.writeWord e (b ++ b) ts := by
  rw [Paula.writeByte, h, Nat.sub_zero]

/-- The odd byte of a register reaches it as well. -/
theorem Paula.writeByte_odd {e : ℕ} (h : e % 2 = 0) (q : Paula) (b : Byte) (ts : ℕ) :
    q.writeByte (e + 1) b ts = q.writeWord e (b ++ b) ts := by
  rw [Paula.writeByte, show e + 1 - (e + 1) % 2 = e by omega]

/-! ## Starting and stopping a channel (rules R693, R695, R700) -/

/-- A channel that was enabled (`old`) or not, after a write that enables it (`new`) or not (rule R693). -/
def PaulaChannel.switched (p : Params) (mem : Memory) (old new : Bool) (c : PaulaChannel) : PaulaChannel :=
  { c with play :=
      if new && !old then c.latch.startPlay p mem
      else if old && !new then { c.play with state := .off } else c.play }

theorem PaulaChannel.switched_same (p : Params) (mem : Memory) (b : Bool) (c : PaulaChannel) :
    c.switched p mem b b = c := by
  cases b <;> rfl

theorem Paula.switchChannel_of_same (p : Params) (mem : Memory) {old new : BitVec 15} {x : Fin 4}
    (h : dmaEnabled old x = dmaEnabled new x) (q : Paula) : q.switchChannel p mem old new x = q := by
  rw [Paula.switchChannel, h]
  cases dmaEnabled new x <;> rfl

/-- A channel that is started or stopped is put back; a start raises its interrupt (rules R693, R700). -/
theorem Paula.switchChannel_of_ne (p : Params) (mem : Memory) {old new : BitVec 15} {x : Fin 4}
    (h : dmaEnabled old x ≠ dmaEnabled new x) (q : Paula) : q.switchChannel p mem old new x =
      q.putChannel x (q.channels[x].switched p mem (dmaEnabled old x) (dmaEnabled new x))
        (dmaEnabled new x && !dmaEnabled old x) := by
  unfold Paula.switchChannel
  rw [(Bool.not_eq.2 h).symm]
  cases dmaEnabled old x <;> rfl

/-- What switching the channels reads and writes of channel `x`: DMACON as it sounds, the channel and its interrupt
bit. -/
def Paula.channelView (q : Paula) (x : Fin 4) : BitVec 15 × PaulaChannel × Bool :=
  (q.soundDmacon, q.channels[x], q.intreq.getLsbD (7 + x.val))

theorem channelBit_getLsbD (x y : Fin 4) : ((1 : BitVec 15) <<< (7 + x.val)).getLsbD (7 + y.val) = decide (x = y) := by
  revert x y
  decide

theorem Paula.raiseIrq_bit (q : Paula) (x y : Fin 4) :
    (q.raiseIrq x).intreq.getLsbD (7 + y.val) = (q.intreq.getLsbD (7 + y.val) || decide (x = y)) := by
  rw [Paula.raiseIrq, BitVec.getLsbD_or, channelBit_getLsbD]

@[simp] theorem Paula.raiseIrq_soundDmacon (q : Paula) (x : Fin 4) : (q.raiseIrq x).soundDmacon = q.soundDmacon := rfl

@[simp] theorem Paula.raiseIrq_channels (q : Paula) (x : Fin 4) : (q.raiseIrq x).channels = q.channels := rfl

theorem Paula.putChannel_view_self (q : Paula) (x : Fin 4) (c : PaulaChannel) (irq : Bool) :
    (q.putChannel x c irq).channelView x = (q.soundDmacon, c, q.intreq.getLsbD (7 + x.val) || irq) := by
  cases irq <;> simp [Paula.channelView, Paula.putChannel, Paula.raiseIrq_bit]

theorem Paula.putChannel_view_other (q : Paula) {x y : Fin 4} (hxy : x ≠ y) (c : PaulaChannel) (irq : Bool) :
    (q.putChannel x c irq).channelView y = q.channelView y := by
  have hval : x.val ≠ y.val := fun h => hxy (Fin.ext h)
  cases irq <;> simp [Paula.channelView, Paula.putChannel, Paula.raiseIrq_bit, hxy, hval]

/-- What a DMACON write of the new value does to a channel's view: the interrupt comes with a start (rules R693,
R700). -/
def switchedView (p : Params) (mem : Memory) (x : Fin 4) (new : BitVec 15) (v : BitVec 15 × PaulaChannel × Bool) :
    BitVec 15 × PaulaChannel × Bool :=
  (v.1, v.2.1.switched p mem (dmaEnabled v.1 x) (dmaEnabled new x),
    v.2.2 || (dmaEnabled new x && !dmaEnabled v.1 x))

theorem Paula.switchChannel_view_self (q : Paula) (p : Params) (mem : Memory) (new : BitVec 15) (x : Fin 4) :
    (q.switchChannel p mem q.soundDmacon new x).channelView x = switchedView p mem x new (q.channelView x) := by
  by_cases hsame : dmaEnabled q.soundDmacon x = dmaEnabled new x
  · rw [Paula.switchChannel_of_same p mem hsame]
    simp only [Paula.channelView, switchedView, hsame, PaulaChannel.switched_same, Bool.and_not_self, Bool.or_false]
  · rw [Paula.switchChannel_of_ne p mem hsame, Paula.putChannel_view_self]
    rfl

theorem Paula.switchChannel_view_other (q : Paula) (p : Params) (mem : Memory) (old new : BitVec 15) {x y : Fin 4}
    (hxy : x ≠ y) : (q.switchChannel p mem old new x).channelView y = q.channelView y := by
  by_cases hsame : dmaEnabled old x = dmaEnabled new x
  · rw [Paula.switchChannel_of_same p mem hsame]
  · rw [Paula.switchChannel_of_ne p mem hsame, q.putChannel_view_other hxy]

/-- A fold over distinct indices, of which only `x` touches a view, is on that view the one round of `x`. -/
theorem foldl_view {α ι β : Type} {f : α → ι → α} {view : α → β} {g : β → β} {x : ι}
    (hself : ∀ a, view (f a x) = g (view a)) (hother : ∀ a y, y ≠ x → view (f a y) = view a) {l : List ι}
    (hl : l.Nodup) (hx : x ∈ l) (a : α) : view (l.foldl f a) = g (view a) := by
  obtain ⟨before, after, rfl⟩ := List.append_of_mem hx
  obtain ⟨-, hafter, hdisjoint⟩ := List.nodup_append.1 hl
  have hskip : ∀ (l : List ι) (a : α), x ∉ l → view (l.foldl f a) = view a := fun l a hxl => by
    induction l generalizing a with
    | nil => rfl
    | cons y l ih =>
      rw [List.mem_cons, not_or] at hxl
      rw [List.foldl_cons, ih _ hxl.2, hother a y (Ne.symm hxl.1)]
  rw [List.foldl_append, List.foldl_cons, hskip after _ (List.nodup_cons.1 hafter).1, hself,
    hskip before _ fun hmem => hdisjoint x hmem x List.mem_cons_self rfl]

/-- A DMACON write switches every channel once (rule R693). -/
theorem Paula.applyWrite_dmacon_view (q : Paula) (p : Params) (mem : Memory) (v : Word) (ts : ℕ) (x : Fin 4) :
    ∃ r : Paula, q.applyWrite p mem ⟨ts, .dmacon, v⟩ = { r with soundDmacon := setClear q.soundDmacon v } ∧
      r.channelView x = switchedView p mem x (setClear q.soundDmacon v) (q.channelView x) :=
  ⟨_, rfl, foldl_view (view := fun q => Paula.channelView q x)
    (f := fun q' x => q'.switchChannel p mem q'.soundDmacon (setClear q.soundDmacon v) x)
    (fun q' => q'.switchChannel_view_self p mem _ x) (fun q' _ hy => q'.switchChannel_view_other p mem _ _ hy)
    (List.nodup_finRange 4) (List.mem_finRange x) q⟩

/-! ## Playback (rules R695, R696, R698) -/

section Playback

variable {p : Params} {mem : Memory} {l : PaulaLatch} {c : PaulaPlay}

theorem PaulaPlay.advance_oneshot (h : c.oneshot = true) : c.advance p mem l = ({ c with state := .silent }, false) :=
  if_pos h

theorem PaulaPlay.advance_high (h : c.oneshot = false) (hlow : c.low = false) :
    c.advance p mem l = ({ c with low := true }, false) := by
  simp [PaulaPlay.advance, h, hlow]

theorem PaulaPlay.advance_next (h : c.oneshot = false) (hlow : c.low = true) (hleft : c.left ≠ 1) :
    c.advance p mem l = ({ c with
      left := c.left - 1, ptr := c.ptr + 2, word := dmaWord p mem (c.ptr + 2), low := false }, false) := by
  have hmore : c.left - 1 ≠ 0 := fun hzero => hleft (sub_eq_zero.1 hzero)
  rw [PaulaPlay.advance, if_neg (by simp [h]), if_neg (by simp [hlow]), if_neg hmore]

/-- The last byte of a block starts the next one and raises the interrupt. -/
theorem PaulaPlay.advance_wrap (h : c.oneshot = false) (hlow : c.low = true) (hleft : c.left = 1) (hlen : l.len ≠ 0) :
    c.advance p mem l = ({ c with ptr := l.lc, left := l.len, word := dmaWord p mem l.lc, low := false }, true) := by
  have hlast : c.left - 1 = 0 := sub_eq_zero.2 hleft
  rw [PaulaPlay.advance, if_neg (by simp [h]), if_neg (by simp [hlow]), if_pos hlast]
  exact if_neg hlen

/-- The channel at the high byte of the `k`-th word of its block. -/
def PaulaLatch.atWord (p : Params) (mem : Memory) (l : PaulaLatch) (k : ℕ) : PaulaPlay :=
  { l.startPlay p mem with
    ptr := l.lc + BitVec.ofNat 32 (2 * k)
    left := l.len - BitVec.ofNat 16 k
    word := dmaWord p mem (l.lc + BitVec.ofNat 32 (2 * k)) }

theorem PaulaLatch.atWord_zero : l.atWord p mem 0 = l.startPlay p mem := by
  simp [PaulaLatch.atWord, PaulaLatch.startPlay]

theorem PaulaLatch.atWord_oneshot (hlen : l.len ≠ 0) (k : ℕ) : (l.atWord p mem k).oneshot = false :=
  decide_eq_false hlen

theorem PaulaLatch.advance_atWord (hlen : l.len ≠ 0) (k : ℕ) :
    (l.atWord p mem k).advance p mem l = ({ l.atWord p mem k with low := true }, false) :=
  PaulaPlay.advance_high (PaulaLatch.atWord_oneshot hlen k) rfl

/-- One word is left exactly at the last one of the block. -/
theorem PaulaLatch.atWord_left_eq_one {k : ℕ} (hk : k < l.len.toNat) :
    (l.atWord p mem k).left = 1 ↔ k + 1 = l.len.toNat := by
  have hlt := l.len.isLt
  have hleft : (l.atWord p mem k).left.toNat = l.len.toNat - k := by
    have hk' : (BitVec.ofNat 16 k).toNat = k := toNat_ofNat_of_lt (by omega)
    have h := BitVec.toNat_sub_of_le (BitVec.le_def.2 (by omega : (BitVec.ofNat 16 k).toNat ≤ l.len.toNat))
    rw [hk'] at h
    exact h
  rw [← BitVec.toNat_inj, hleft]
  show _ = 1 ↔ _
  omega

theorem PaulaLatch.advance_atWord_low (hlen : l.len ≠ 0) {k : ℕ} (hk : k + 1 < l.len.toNat) :
    ({ l.atWord p mem k with low := true } : PaulaPlay).advance p mem l = (l.atWord p mem (k + 1), false) := by
  have hleft := mt (PaulaLatch.atWord_left_eq_one (p := p) (mem := mem) (l := l) (by omega : k < l.len.toNat)).1 hk.ne
  have hptr : l.lc + BitVec.ofNat 32 (2 * k) + 2 = l.lc + BitVec.ofNat 32 (2 * (k + 1)) := by
    rw [Nat.mul_succ, BitVec.ofNat_add, BitVec.add_assoc]
    rfl
  have hcount : l.len - BitVec.ofNat 16 k - 1 = l.len - BitVec.ofNat 16 (k + 1) := by
    rw [BitVec.ofNat_add, sub_sub]
    rfl
  have hblock : (l.atWord p mem k).oneshot = false := PaulaLatch.atWord_oneshot hlen k
  refine (PaulaPlay.advance_next (c := { l.atWord p mem k with low := true }) hblock rfl hleft).trans ?_
  simp only [PaulaLatch.atWord, hptr, hcount]
  rfl

theorem PaulaLatch.advance_atWord_last (hlen : l.len ≠ 0) {k : ℕ} (hk : k + 1 = l.len.toNat) :
    ({ l.atWord p mem k with low := true } : PaulaPlay).advance p mem l = (l.startPlay p mem, true) := by
  have hleft := (PaulaLatch.atWord_left_eq_one (p := p) (mem := mem) (l := l) (by omega : k < l.len.toNat)).2 hk
  have hblock : (l.atWord p mem k).oneshot = false := PaulaLatch.atWord_oneshot hlen k
  exact PaulaPlay.advance_wrap (c := { l.atWord p mem k with low := true }) hblock rfl hleft hlen

/-- The playback after `j` advances. -/
def PaulaLatch.played (p : Params) (mem : Memory) (l : PaulaLatch) (j : ℕ) : PaulaPlay :=
  (fun c : PaulaPlay => (c.advance p mem l).1)^[j] (l.startPlay p mem)

theorem PaulaLatch.played_succ (j : ℕ) :
    l.played p mem (j + 1) = ((l.played p mem j).advance p mem l).1 := Function.iterate_succ_apply' _ _ _

theorem PaulaLatch.played_high (hlen : l.len ≠ 0) {k : ℕ} (hk : k < l.len.toNat) :
    l.played p mem (2 * k) = l.atWord p mem k := by
  induction k with
  | zero => exact PaulaLatch.atWord_zero.symm
  | succ k ih =>
    rw [show 2 * (k + 1) = 2 * k + 1 + 1 by omega, PaulaLatch.played_succ, PaulaLatch.played_succ, ih (by omega),
      PaulaLatch.advance_atWord hlen, PaulaLatch.advance_atWord_low hlen hk]

theorem PaulaLatch.played_low (hlen : l.len ≠ 0) {k : ℕ} (hk : k < l.len.toNat) :
    l.played p mem (2 * k + 1) = { l.atWord p mem k with low := true } := by
  rw [PaulaLatch.played_succ, PaulaLatch.played_high hlen hk, PaulaLatch.advance_atWord hlen]

/-- Every block ends where it began. -/
theorem PaulaLatch.played_block (hlen : l.len ≠ 0) : l.played p mem (2 * l.len.toNat) = l.startPlay p mem := by
  have hpos : l.len.toNat ≠ 0 := fun h => hlen (BitVec.eq_of_toNat_eq h)
  obtain ⟨k, hk⟩ := Nat.exists_eq_add_one.2 (Nat.pos_of_ne_zero hpos)
  rw [show 2 * l.len.toNat = 2 * k + 1 + 1 by omega, PaulaLatch.played_succ, PaulaLatch.played_low hlen (by omega),
    PaulaLatch.advance_atWord_last hlen hk.symm]

/-- Only the last advance of a block raises the interrupt. -/
theorem PaulaLatch.played_irq (hlen : l.len ≠ 0) {j : ℕ} (hj : j < 2 * l.len.toNat) :
    ((l.played p mem j).advance p mem l).2 = decide (j + 1 = 2 * l.len.toNat) := by
  obtain ⟨k, rfl | rfl⟩ := Nat.even_or_odd' j
  · rw [PaulaLatch.played_high hlen (by omega), PaulaLatch.advance_atWord hlen]
    exact (decide_eq_false (by omega)).symm
  · rw [PaulaLatch.played_low hlen (by omega)]
    by_cases hk : k + 1 = l.len.toNat
    · rw [PaulaLatch.advance_atWord_last hlen hk]
      exact (decide_eq_true (by omega)).symm
    · rw [PaulaLatch.advance_atWord_low hlen (by omega)]
      exact (decide_eq_false (by omega)).symm

end Playback

/-! ## Phase and output (rules R701-R703) -/

section Phase

variable {p : Params} {mem : Memory} {c : PaulaChannel}

theorem PaulaChannel.move_hold (h : c.latch.per = 0) : c.move p mem = (c, false) := if_neg fun k => k.2 h

/-- The loop of rule R701 from the moved phase. -/
theorem PaulaChannel.move_playing (hrun : c.play.state = .playing) (hper : c.latch.per ≠ 0) {phase : ℕ}
    (hphase : phase = c.play.phase + paulaStep p c.latch.per) {r : PaulaPlay × Bool}
    (hr : PaulaPlay.drain p mem c.latch (phase / 2 ^ p.paulaFracBits) { c.play with phase := phase } false = r) :
    c.move p mem = ({ c with play := r.1 }, r.2) := by
  subst hphase hr
  exact if_pos ⟨hrun, hper⟩

/-- A phase below one advances nothing. -/
theorem PaulaPlay.drain_none {l : PaulaLatch} {phase : ℕ} (h : phase < 2 ^ p.paulaFracBits) (d : PaulaPlay) :
    PaulaPlay.drain p mem l (phase / 2 ^ p.paulaFracBits) d false = (d, false) := by
  rw [Nat.div_eq_of_lt h, PaulaPlay.drain]

/-- A phase of at least one and below two advances once. -/
theorem PaulaPlay.drain_once {l : PaulaLatch} {d : PaulaPlay} (hrun : d.state = .playing)
    (hlow : 2 ^ p.paulaFracBits ≤ d.phase) (hhigh : d.phase < 2 * 2 ^ p.paulaFracBits) :
    PaulaPlay.drain p mem l (d.phase / 2 ^ p.paulaFracBits) d false =
      ({ d with phase := d.phase - 2 ^ p.paulaFracBits } : PaulaPlay).advance p mem l := by
  rw [Nat.div_eq_of_lt_le (k := 1) (by omega) (by omega), PaulaPlay.drain, if_pos ⟨hlow, hrun⟩, PaulaPlay.drain,
    Bool.false_or]

theorem PaulaChannel.output_playing (hrun : c.play.state = .playing) (hinterp : p.paulaInterp = .none) :
    c.output p mem = c.play.current.toInt * (min c.latch.vol.toNat 64 : ℕ) := by
  rw [PaulaChannel.output, if_pos hrun, PaulaPlay.sampleValue, hinterp, effectiveVolume]
  push_cast
  rfl

theorem PaulaChannel.output_silent (hrun : c.play.state ≠ .playing) : c.output p mem = 0 := if_neg hrun

end Phase

/-- Settles O59: the window by the registers an offset reaches, a DMACON write by its view of one channel, a block word
by word, and the phase by how often the loop of rule R701 runs. -/
theorem paulaRegistersAndChannels : Obligations.PaulaRegistersAndChannels := by
  refine ⟨fun s a b v ts hpaula hlow hhigh => ?_, fun reg v i => setClear_bit reg v, fun q v ts => ?_,
    fun q e b ts heven => ⟨q.writeByte_even heven b ts, q.writeByte_odd heven b ts⟩, fun q x v ts => ?_,
    fun p mem q v ts x => ?_, fun p mem l ptr => ⟨rfl, rfl⟩, fun c => rfl, fun p mem l hlen => ?_,
    fun p mem l hlen => ?_, fun p mem c => ?_⟩
  · have htarget := State.target_paula hpaula hlow hhigh
    exact ⟨State.busByte_paula htarget, State.busWord_paula htarget, State.storeByte_paula htarget b ts,
      State.storeWord_paula htarget v ts⟩
  · obtain ⟨hdmacon, hintena, hintreq⟩ := paulaRegAt_control
    rw [Paula.writeWord_of_reg hdmacon, Paula.writeWord_of_reg hintena, Paula.writeWord_of_reg hintreq]
    exact ⟨rfl, rfl, rfl⟩
  · obtain ⟨hlch, hlcl, hlen, hper, hvol, hdat⟩ := paulaRegAt_channel x
    refine ⟨q.writeWord_of_reg hlch v ts, q.writeWord_of_reg hlcl v ts, q.writeWord_of_reg hlen v ts,
      q.writeWord_of_reg hper v ts, ?_, q.writeWord_of_reg hdat v ts⟩
    rw [← extractLsb'_zero_eq_setWidth]
    exact q.writeWord_of_reg hvol v ts
  · obtain ⟨r, hwrite, hview⟩ := q.applyWrite_dmacon_view p mem v ts x
    obtain ⟨-, hchannel, hirq⟩ : r.soundDmacon = q.soundDmacon ∧ r.channels[x] = _ ∧
        r.intreq.getLsbD (7 + x.val) = _ := by
      simpa [Paula.channelView, switchedView] using hview
    rw [hwrite]
    dsimp only
    rw [hchannel, hirq]
    exact ⟨rfl, rfl, rfl, rfl⟩
  · exact ⟨fun k hk => ⟨PaulaLatch.played_high hlen hk, PaulaLatch.played_low hlen hk⟩, PaulaLatch.played_block hlen,
      fun j => PaulaLatch.played_irq hlen⟩
  · rw [PaulaPlay.advance_oneshot (decide_eq_true hlen)]
    exact ⟨rfl, rfl⟩
  · refine ⟨PaulaChannel.move_hold, fun hrun hper => ⟨fun hlow => ?_, fun hlow hhigh => ?_⟩,
      PaulaChannel.output_playing, PaulaChannel.output_silent⟩
    · exact PaulaChannel.move_playing hrun hper rfl (PaulaPlay.drain_none hlow _)
    · exact PaulaChannel.move_playing hrun hper rfl
        (PaulaPlay.drain_once (d := { c.play with phase := _ }) hrun hlow hhigh)

end Sys2Proof.Machine
end

section
/-! The samples and frames of a slice (O60). -/

namespace Sys2Proof.Machine

open Sys2Proof.Config

/-! ## Frames (rule R764) -/

theorem clamp16_ge (v : ℤ) : -32768 ≤ clamp16 v := le_max_left _ _

theorem clamp16_le (v : ℤ) : clamp16 v ≤ 32767 := max_le (by decide) (min_le_right _ _)

/-- A value of the signed 16-bit range is read back from its frame. -/
theorem toInt_ofInt_of_range {v : ℤ} (hlow : -32768 ≤ v) (hhigh : v ≤ 32767) : (BitVec.ofInt 16 v).toInt = v :=
  BitVec.toInt_ofInt_eq_self (by decide) hlow (Int.lt_add_one_of_le hhigh)

theorem toInt_ofInt_clamp16 (v : ℤ) : (BitVec.ofInt 16 (clamp16 v)).toInt = clamp16 v :=
  toInt_ofInt_of_range (clamp16_ge v) (clamp16_le v)

/-! ## What a sample leaves alone -/

theorem Ym.sample_regs (p : Params) (n : ℕ) (y : Ym) : (y.sample p n).1.regs = y.regs := rfl

theorem Ym.sample_sel (p : Params) (n : ℕ) (y : Ym) : (y.sample p n).1.sel = y.sel := rfl

/-- Of the registers the CPU sees, rendering changes INTREQ alone (rules R700, R762). -/
structure Paula.SameBus (q r : Paula) : Prop where
  latches : r.latches = q.latches
  dmacon : r.dmacon = q.dmacon
  intena : r.intena = q.intena

theorem Paula.SameBus.refl (q : Paula) : q.SameBus q := ⟨rfl, rfl, rfl⟩

theorem Paula.SameBus.putChannel {q r : Paula} (h : q.SameBus r) (x : Fin 4) (c : PaulaChannel) (irq : Bool) :
    q.SameBus (r.putChannel x c irq) := by
  cases irq <;> exact ⟨h.latches, h.dmacon, h.intena⟩

theorem Paula.SameBus.switchChannel {q r : Paula} (h : q.SameBus r) (p : Params) (mem : Memory) (old new : BitVec 15)
    (x : Fin 4) : q.SameBus (r.switchChannel p mem old new x) := by
  by_cases hsame : dmaEnabled old x = dmaEnabled new x
  · rw [Paula.switchChannel_of_same p mem hsame]
    exact h
  · rw [Paula.switchChannel_of_ne p mem hsame]
    exact h.putChannel x _ _

theorem Paula.SameBus.applyWrite {q r : Paula} (h : q.SameBus r) (p : Params) (mem : Memory) (w : PaulaWrite) :
    q.SameBus (r.applyWrite p mem w) := by
  obtain ⟨ts, reg, value⟩ := w
  have hlatch : ∀ x, q.SameBus
      (r.putChannel x { r.channels[x] with latch := r.channels[x].latch.write reg value } false) :=
    fun x => h.putChannel x _ _
  cases reg with
  | dmacon =>
    have hall := foldl_keeps (P := q.SameBus)
      (f := fun r' x => r'.switchChannel p mem r'.soundDmacon (setClear r.soundDmacon value) x)
      (fun _ x hr => hr.switchChannel p mem _ _ x) (List.finRange 4) h
    exact ⟨hall.latches, hall.dmacon, hall.intena⟩
  | intena | intreq => exact h
  | lch x | lcl x | len x | per x | vol x | dat x => exact hlatch x

theorem Paula.SameBus.applyDue {q r : Paula} (h : q.SameBus r) (p : Params) (mem : Memory) (n : ℕ) :
    q.SameBus (r.applyDue p mem n) := by
  have hall := foldl_keeps (P := q.SameBus) (f := fun r w => r.applyWrite p mem w)
    (fun _ w hr => hr.applyWrite p mem w)
    (r.writes.filter fun w => decide (paulaSampleOf p w.ts ≤ n)) h
  exact ⟨hall.latches, hall.dmacon, hall.intena⟩

theorem Paula.sameBus_sample (p : Params) (mem : Memory) (n : ℕ) (q : Paula) : q.SameBus (q.sample p mem n).1 := by
  rw [Paula.sample_engine]
  exact foldl_keeps (P := q.SameBus) (fun _ x hr => hr.putChannel x _ _) _ ((Paula.SameBus.refl q).applyDue p mem n)

/-! ## One sample (rule R763) -/

theorem State.sampleYm_ym (s : State) : s.sampleYm.1 =
    { s with ym := if s.cfg.hw.hasYm then (s.ym.sample s.cfg s.out.next).1 else s.ym } := by
  unfold State.sampleYm
  split_ifs <;> rfl

theorem State.sampleYm_value (s : State) :
    s.sampleYm.2 = if s.cfg.hw.hasYm then (s.ym.sample s.cfg s.out.next).2 else 0 := by
  unfold State.sampleYm
  split_ifs <;> rfl

theorem State.samplePaula_paula (s : State) : s.samplePaula.1 =
    { s with paula := if s.cfg.hw.hasPaula then (s.paula.sample s.cfg s.mem s.out.next).1 else s.paula } := by
  unfold State.samplePaula
  split_ifs <;> rfl

theorem State.samplePaula_values (s : State) : s.samplePaula.2 =
    (if s.cfg.hw.hasPaula then (s.paula.sample s.cfg s.mem s.out.next).2.1 else 0,
      if s.cfg.hw.hasPaula then (s.paula.sample s.cfg s.mem s.out.next).2.2 else 0) := by
  unfold State.samplePaula
  split_ifs <;> rfl

/-- The next frame (rules R763, R764). -/
def State.nextFrame (s : State) : Frame :=
  mixFrame s.cfg.hw (if s.cfg.hw.hasYm then (s.ym.sample s.cfg s.out.next).2 else 0)
    (if s.cfg.hw.hasPaula then (s.paula.sample s.cfg s.mem s.out.next).2.1 else 0)
    (if s.cfg.hw.hasPaula then (s.paula.sample s.cfg s.mem s.out.next).2.2 else 0)

/-- A sample field by field: each engine that is there makes its own, and the frame of both is appended. -/
theorem State.produceSample_fields (s : State) : s.produceSample = { s with
    ym := if s.cfg.hw.hasYm then (s.ym.sample s.cfg s.out.next).1 else s.ym
    paula := if s.cfg.hw.hasPaula then (s.paula.sample s.cfg s.mem s.out.next).1 else s.paula
    out := { s.out with
      next := s.out.next + 1
      fifo := if s.cfg.hw = .malformed then s.out.fifo else s.out.fifo ++ [s.nextFrame]
      afterOverflow := if s.ym.sound.fatal = true ∧ s.cfg.hw ≠ .malformed then s.out.afterOverflow + 1
        else s.out.afterOverflow } } := by
  unfold State.produceSample
  dsimp only
  rw [State.samplePaula_paula, State.samplePaula_values, State.sampleYm_ym, State.sampleYm_value]
  rfl

/-! ## The samples of a slice -/

/-- What rendering leaves alone: all that the CPU sees but INTREQ (rule R762). -/
structure State.SameToCpu (s t : State) : Prop where
  cfg : t.cfg = s.cfg
  regs : t.regs = s.regs
  pc : t.pc = s.pc
  mem : t.mem = s.mem
  cycles : t.cycles = s.cycles
  run : t.run = s.run
  ymRegs : t.ym.regs = s.ym.regs
  ymSel : t.ym.sel = s.ym.sel
  paula : s.paula.SameBus t.paula

theorem State.SameToCpu.refl (s : State) : s.SameToCpu s := ⟨rfl, rfl, rfl, rfl, rfl, rfl, rfl, rfl, .refl _⟩

theorem State.SameToCpu.trans {s t u : State} (h : s.SameToCpu t) (k : t.SameToCpu u) : s.SameToCpu u where
  cfg := k.cfg.trans h.cfg
  regs := k.regs.trans h.regs
  pc := k.pc.trans h.pc
  mem := k.mem.trans h.mem
  cycles := k.cycles.trans h.cycles
  run := k.run.trans h.run
  ymRegs := k.ymRegs.trans h.ymRegs
  ymSel := k.ymSel.trans h.ymSel
  paula := ⟨k.paula.latches.trans h.paula.latches, k.paula.dmacon.trans h.paula.dmacon,
    k.paula.intena.trans h.paula.intena⟩

theorem State.sameToCpu_produceSample (s : State) : s.SameToCpu s.produceSample := by
  rw [State.produceSample_fields]
  refine ⟨rfl, rfl, rfl, rfl, rfl, rfl, ?_, ?_, ?_⟩
  · dsimp only
    split_ifs <;> rfl
  · dsimp only
    split_ifs <;> rfl
  · dsimp only
    split_ifs
    · exact Paula.sameBus_sample _ _ _ _
    · exact .refl _

theorem State.produceSamples_eq_iterate (m : ℕ) (s : State) :
    State.produceSamples m s = State.produceSample^[m] s := by
  induction m generalizing s with
  | zero => rfl
  | succ m ih => exact ih s.produceSample

theorem State.sameToCpu_produceSamples (m : ℕ) (s : State) : s.SameToCpu (State.produceSamples m s) := by
  induction m generalizing s with
  | zero => exact .refl s
  | succ m ih => exact s.sameToCpu_produceSample.trans (ih s.produceSample)

theorem State.produceSamples_next (m : ℕ) (s : State) : (State.produceSamples m s).out.next = s.out.next + m := by
  induction m generalizing s with
  | zero => rfl
  | succ m ih =>
    rw [State.produceSamples, ih, State.produceSample_fields]
    dsimp only
    omega

/-- The FIFO grows by one frame a sample, behind the frames that were there (rule R763). -/
theorem State.produceSamples_fifo {s : State} (hhw : s.cfg.hw ≠ .malformed) (m : ℕ) :
    ∃ frames, (State.produceSamples m s).out.fifo = s.out.fifo ++ frames ∧ frames.length = m := by
  induction m generalizing s with
  | zero => exact ⟨[], (List.append_nil _).symm, rfl⟩
  | succ m ih =>
    have hcfg := s.sameToCpu_produceSample.cfg
    obtain ⟨frames, hfifo, hlength⟩ := ih (s := s.produceSample) (by rw [hcfg]; exact hhw)
    refine ⟨s.nextFrame :: frames, ?_, by rw [List.length_cons, hlength]⟩
    rw [State.produceSamples, hfifo, State.produceSample_fields]
    simp [hhw]

/-- Malformed hardware flags leave the FIFO as it is (log entry 24). -/
theorem State.produceSamples_fifo_malformed {s : State} (hhw : s.cfg.hw = .malformed) (m : ℕ) :
    (State.produceSamples m s).out.fifo = s.out.fifo := by
  induction m generalizing s with
  | zero => rfl
  | succ m ih =>
    have hcfg := s.sameToCpu_produceSample.cfg
    rw [State.produceSamples, ih (by rw [hcfg]; exact hhw), State.produceSample_fields]
    exact if_pos hhw

theorem State.renderSlice_next (s : State) : s.renderSlice.out.next = max s.out.next (s.lastSample + 1) := by
  rw [State.renderSlice, State.produceSamples_next]
  omega

theorem State.renderSlice_fifo {s : State} (hhw : s.cfg.hw ≠ .malformed) :
    s.out.fifo <+: s.renderSlice.out.fifo ∧
    s.renderSlice.out.fifo.length + s.out.next = s.out.fifo.length + s.renderSlice.out.next := by
  obtain ⟨frames, hfifo, hlength⟩ := State.produceSamples_fifo hhw (s.lastSample + 1 - s.out.next)
  have hfifo' : s.renderSlice.out.fifo = s.out.fifo ++ frames := hfifo
  refine ⟨⟨frames, hfifo'.symm⟩, ?_⟩
  rw [hfifo', List.length_append, hlength, State.renderSlice_next]
  omega

/-- Settles O60: a slice as the samples one after the other, a sample field by field, the end marks as they are written
and a frame by reading back its limited values. -/
theorem renderedFrames : Obligations.RenderedFrames := by
  refine ⟨fun s => ?_, fun s => ?_, fun s => ?_, fun ym l r => ?_⟩
  · have hsame : s.SameToCpu s.renderSlice := s.sameToCpu_produceSamples _
    have hmalformed : s.cfg.hw = .malformed → s.renderSlice.out.fifo = s.out.fifo := fun h =>
      State.produceSamples_fifo_malformed h _
    have hprefix : s.out.fifo <+: s.renderSlice.out.fifo := by
      by_cases hhw : s.cfg.hw = .malformed
      · exact (hmalformed hhw).symm ▸ List.prefix_refl _
      · exact (State.renderSlice_fifo hhw).1
    exact ⟨State.produceSamples_eq_iterate _ s, s.renderSlice_next, hprefix, fun hhw => (State.renderSlice_fifo hhw).2,
      hmalformed, hsame.regs, hsame.pc, hsame.mem, hsame.cycles, hsame.run, hsame.ymRegs, hsame.ymSel,
      hsame.paula.latches, hsame.paula.dmacon, hsame.paula.intena⟩
  · rw [State.produceSample_fields]
    exact ⟨rfl, rfl, rfl, rfl, rfl, clamp16_ge _, clamp16_le _, clamp16_ge _, clamp16_le _, clamp16_ge _, clamp16_le _⟩
  · refine ⟨s.markEnd_ended, State.markEnd_fifo_of_not_fatal, fun hfatal => ⟨?_, ?_⟩, rfl, rfl, rfl, rfl⟩
    · rw [State.markEnd_fifo, if_pos hfatal]
    · rw [State.markEnd_afterOverflow, if_pos hfatal]
  · exact ⟨fun hlow hhigh => ⟨toInt_ofInt_of_range hlow hhigh, toInt_ofInt_of_range hlow hhigh⟩,
      fun hl hl' hr hr' => ⟨toInt_ofInt_of_range hl hl', toInt_ofInt_of_range hr hr'⟩,
      toInt_ofInt_clamp16 _, toInt_ofInt_clamp16 _⟩

end Sys2Proof.Machine
end
